-- ==== Sys2Proof/Word.lean ====
section
/-! DEFINITION. The byte, the only machine word of the part: link bytes and DRAM bytes. -/
namespace Sys2Proof

/-- Eight bits: one byte on the management link, or one byte of DRAM. -/
abbrev Byte := BitVec 8

end Sys2Proof
end

