-- ==== Sys2Proof/Config.lean ====
section
/-! DEFINITION. Fixed sizes and intervals of the part, and the free values the spec leaves open. -/
namespace Sys2Proof.Config

/-- Request queue capacity (R5, R6). -/
def queueCapacity : Nat := 8
/-- Epoch stack capacity (R80, Table 6.1 of the introduction). -/
def stackCapacity : Nat := 8
/-- Fault queue capacity (R149). -/
def faultCapacity : Nat := 16
/-- Activation history capacity (R146). -/
def historyCapacity : Nat := 4
/-- The most refreshes that can be owed (R137). -/
def owedLimit : Nat := 8
/-- Records per log page (R67). -/
def recordsPerPage : Nat := 56
/-- The most pages a log may have (R66). -/
def maxLogPages : Nat := 4096
/-- Bytes in a line (Table 4.1 of the introduction). -/
def lineBytes : Nat := 64
/-- The wait of INIT_WAIT, 200 µs, in ns (R122). -/
def initWaitNs : Nat := 200000
/-- The transfer interval in ns (R120, R134). -/
def transferNs : Nat := 20
/-- Nanoseconds in a millisecond, the unit of the supervision period (R102). -/
def nsPerMs : Nat := 1000000
/-- The highest line index the watch comparator may name (R50). -/
def maxWatchLine : Nat := 0x3FFFFFF

/-- FREE VALUE (log 5): the byte that DRAM address `addr` holds when nothing has written it since
the device reset number `generation`. The spec treats DRAM as holding no known data then (R163). -/
opaque dramByte (generation addr : Nat) : Byte

/-- FREE VALUE (log 3): which of several events of the part that are due at one instant is taken
first; applied to a counter, and read modulo the number of events (4.4 of the introduction). -/
opaque eventChoice (count : Nat) : Nat

end Sys2Proof.Config
end

