-- ==== Sys2Proof/Syntax.lean ====
section
/-! DEFINITION. The commands of the part: one constructor per row of opcode_table.json. The table
gives no operands; they are read from the rule each row names (log 7). -/
namespace Sys2Proof

/-- Direction of an access (R1). -/
inductive Kind where
  | read
  | write
  deriving DecidableEq, Repr

/-- One write beat: 8 data bytes and 8 byte enables, in address order (R1). -/
structure Beat where
  data    : Vector Byte 8
  enables : Vector Bool 8
  deriving DecidableEq, Repr

/-- A request on the system link (R1). `wbeats` is empty for a READ. -/
structure Request where
  kind   : Kind
  addr   : BitVec 32
  beats  : Nat
  wbeats : List Beat
  deriving DecidableEq, Repr

/-- The steps of the part. For a management command with argument bytes the operand is its LAST
argument byte, at whose reception the command is taken; the frame in progress holds the code and the
bytes before it (R157, log 7). -/
inductive Instr where
  | requestAccept (r : Request)
  | requestTake
  | operationStart
  | transferStart
  | operationComplete
  | rollbackFirstStep
  | hostResetAssert
  | hostResetRelease
  | powerOn
  | powerOnResetEnd
  | drstNAssert
  | drstNRelease
  | frameBegin
  | frameEnd
  | unknown (code : Byte)
  | ident
  | status
  | geometry (last : Byte)
  | timing (last : Byte)
  | dramInit
  | setLog (last : Byte)
  | setPolicy (last : Byte)
  | regionWrite (last : Byte)
  | regionRead (last : Byte)
  | watchSet (last : Byte)
  | openEpoch
  | commit
  | rollback
  | rollbackAll
  | frameRead (last : Byte)
  | superviseSet (last : Byte)
  | superviseStart
  | superviseStop
  | kick
  | faultPop
  | eventsRead
  | eventsClear (last : Byte)
  | maskWrite (last : Byte)
  | deviceReset
  | supervisionExpiry
  | initWaitExpiry
  | closeAllWaitExpiry
  | initRefreshExpiry
  | bankActivation
  | openWaitExpiry (bank : Fin 8)
  | bankClose (bank : Fin 8)
  | closeWaitExpiry (bank : Fin 8)
  | writeGuardExpiry (bank : Fin 8)
  | refreshTickExpiry
  | bankRefreshStart
  | bankRefreshWaitExpiry
  | actWindowAgeOut
  | byteShiftedIn (b : Byte)
  deriving DecidableEq, Repr

end Sys2Proof
end

