-- ==== Sys2Proof/Machine/State.lean ====
section
/-! DEFINITION. The state of the part, block by block, as plain data; its reset value; why a step
can stop. -/
namespace Sys2Proof.Machine

/-! ### System link port -/

/-- Service mark of a queue entry (R5). -/
inductive Mark where
  | waiting
  | inService
  deriving DecidableEq, Repr

/-- One entry of the request queue (R5). -/
structure Entry where
  req     : Request
  mark    : Mark
  dropped : Bool
  deriving DecidableEq, Repr

/-- A response handed to the system link master (R4); `data` of an OKAY READ is its beats' bytes in
address order, and is empty for a WRITE. -/
inductive Response where
  | okay (data : List Byte)
  | fault
  | retry
  deriving DecidableEq, Repr

/-- System link port: the request queue, oldest first (R5), the host reset gate (R9), and the
responses delivered so far, oldest first (the model's record of an output, log 10). -/
structure Slp where
  queue     : List Entry
  gateOpen  : Bool
  delivered : List Response
  deriving DecidableEq, Repr

/-! ### Region map -/

/-- Class of a region descriptor (R14). -/
inductive RegionClass where
  | plain
  | tracked
  | guarded
  deriving DecidableEq, Repr

/-- Treatment of lines that no enabled descriptor covers (R15). -/
inductive DefaultClass where
  | plain
  | deny
  deriving DecidableEq, Repr

/-- One region descriptor (Table 2.1, R14). -/
structure Descriptor where
  enabled    : Bool
  basePage   : Nat
  lastPage   : Nat
  cls        : RegionClass
  readRight  : Bool
  writeRight : Bool
  align      : Bool
  deriving DecidableEq, Repr

/-- Region map (R14, R15). -/
structure Rmap where
  descs        : Vector Descriptor 16
  defaultClass : DefaultClass
  alignCheck   : Bool
  deriving DecidableEq, Repr

/-- Class of one line in a line classification (Table 2.4, R19). -/
inductive LineClass where
  | beyond
  | log
  | plain
  | tracked
  | guarded
  | deny
  deriving DecidableEq, Repr

/-- The region a classification or a fault record names (R19, R148). -/
inductive RegionIndex where
  | desc (i : Fin 16)
  | log
  | none
  deriving DecidableEq, Repr

/-- A line classification (R19). -/
structure Classification where
  cls        : LineClass
  region     : RegionIndex
  readRight  : Bool
  writeRight : Bool
  align      : Bool
  deriving DecidableEq, Repr

/-! ### Log records and memory operations -/

/-- A record index with the places of its data slot and header (R69). -/
structure RecordRef where
  index      : Nat
  dataLine   : Nat
  headerLine : Nat
  headerBeat : Nat
  deriving DecidableEq, Repr

/-- The two clients of the sequencer (R131). -/
inductive Client where
  | rqp
  | rollback
  deriving DecidableEq, Repr

/-- A memory operation (Table 8.7, R131). `mask` and `data` have one entry for each byte of the
beats of a WRITE, and are empty for a READ. -/
structure MemOp where
  client    : Client
  kind      : Kind
  line      : Nat
  startBeat : Nat
  beats     : Nat
  mask      : List Bool
  data      : List Byte
  deriving DecidableEq, Repr

/-! ### Request path -/

/-- Stage of the request path (R30, R31). CHECK is never a resting stage (R31). -/
inductive Stage where
  | waiting
  | check
  | logRead
  | logData
  | logHeader
  | data
  deriving DecidableEq, Repr

/-- Service settled at the check (R35). -/
inductive Service where
  | read
  | directWrite
  | loggingWrite
  deriving DecidableEq, Repr

/-- The part of a request that falls in one line: its beats there (R2, R36). -/
structure LinePart where
  line      : Nat
  startBeat : Nat
  beats     : Nat
  wbeats    : List Beat
  deriving DecidableEq, Repr

/-- A request past the check, with the items Table 3.1 gives it (R30). `left` holds the touched
lines whose data operation has not completed yet. -/
structure Current where
  req      : Request
  classes  : List Classification
  touched  : List LinePart
  service  : Service
  logFrame : Option (Nat × Nat)
  missed   : List Nat
  record   : Option RecordRef
  left     : List LinePart
  readData : List Byte
  deriving DecidableEq, Repr

/-- Watch comparator (R50). -/
structure Watch where
  enabled     : Bool
  firstLine   : Nat
  lastLine    : Nat
  matchReads  : Bool
  matchWrites : Bool
  deriving DecidableEq, Repr

/-- Request path (R30). -/
structure Rqp where
  stage   : Stage
  current : Option Current
  watch   : Watch
  deriving DecidableEq, Repr

/-! ### First-write filter -/

/-- Filter mode (R52, R64). -/
inductive FilterMode where
  | on
  | bypass
  deriving DecidableEq, Repr

/-- One filter entry (Table 4.1, R52). -/
structure FilterEntry where
  valid  : Bool
  line   : Nat
  serial : Nat
  deriving DecidableEq, Repr

/-- One set of the filter: four ways and the victim pointer (R52). -/
structure FilterSet where
  ways   : Vector FilterEntry 4
  victim : Fin 4
  deriving DecidableEq, Repr

/-- First-write filter (R52). -/
structure Fwf where
  sets : Vector FilterSet 256
  mode : FilterMode
  deriving DecidableEq, Repr

/-! ### Undo log controller -/

/-- What happens when the log has no room (R66, R75). -/
inductive FullPolicy where
  | refuse
  | brk
  deriving DecidableEq, Repr

/-- Undo log controller (Table 5.1, R66). -/
structure Ulc where
  basePage   : Nat
  pages      : Nat
  threshold  : Nat
  fullPolicy : FullPolicy
  head       : Nat
  deriving DecidableEq, Repr

/-! ### Epoch stack unit -/

/-- A frame of the epoch stack (R81). -/
structure Frame where
  depth  : Nat
  serial : Nat
  start  : Nat
  broken : Bool
  deriving DecidableEq, Repr

/-- State of the rollback engine (Table 6.3, R91). -/
inductive EngineState where
  | idle
  | rbHeader
  | rbData
  | rbRestore
  deriving DecidableEq, Repr

/-- What started the rollback (R91). -/
inductive RollbackKind where
  | single
  | all
  | supervision
  | recovery
  deriving DecidableEq, Repr

/-- Last rollback outcome (R80). -/
inductive RollbackOutcome where
  | complete
  | haltedBroken
  deriving DecidableEq, Repr

/-- The rollback engine (Table 6.1, R80). `awaits` says that the first step still waits for the
request past the check that the start event found (R92). -/
structure Engine where
  state  : EngineState
  kind   : Option RollbackKind
  record : Option RecordRef
  line   : Option Nat
  image  : Option (List Byte)
  awaits : Bool
  deriving DecidableEq, Repr

/-- Epoch stack unit (Table 6.1, R80). The stack lists the newest frame (the top) first. `carried` lists
the serials that frames held over the last wrap: having left the stack they are not given back to the
allocator before the filter is emptied again (R82, R63, log 27). -/
structure Esu where
  stack       : List Frame
  nextSerial  : Nat
  carried     : List Nat
  engine      : Engine
  lastOutcome : RollbackOutcome
  deriving DecidableEq, Repr

/-! ### Epoch supervision timer -/

/-- Supervision mode (R102). -/
inductive SupMode where
  | off
  | notify
  | rollback
  | rollbackReset
  deriving DecidableEq, Repr

/-- Recovery policy (R114). -/
inductive RecoveryPolicy where
  | none
  | rollbackAll
  deriving DecidableEq, Repr

/-- Epoch supervision timer (Table 7.1, R102). `remainingNs` is the remaining time in nanoseconds
(log 15); `running` is the run state. -/
structure Est where
  mode        : SupMode
  periodMs    : Nat
  remainingNs : Nat
  running     : Bool
  lock        : Bool
  halted      : Bool
  recovery    : RecoveryPolicy
  hrstoDriven : Bool
  deriving DecidableEq, Repr

/-! ### DRAM sequencer -/

/-- The three geometries (R118). -/
inductive Geometry where
  | rows8192
  | rows16384
  | rows32768
  deriving DecidableEq, Repr

/-- The timing set, in ns (Table 8.3, R120). -/
structure TimingSet where
  openWait        : Nat
  closeWait       : Nat
  closeAllWait    : Nat
  writeGuard      : Nat
  bankRefreshWait : Nat
  actWindow       : Nat
  refreshTick     : Nat
  deriving DecidableEq, Repr

/-- Page policy (R121). -/
inductive PagePolicy where
  | openPage
  | closePage
  deriving DecidableEq, Repr

/-- Sequencer state (Table 8.4). INIT_WAIT has two waits, one after the other (R122, R123); each
carries the instant at which it ends. INIT_REFRESH names the bank under refresh (R124). -/
inductive SeqState where
  | uninit
  | initWait (till : Nat)
  | closeAllWait (till : Nat)
  | initRefresh (bank : Fin 8)
  | ready
  deriving DecidableEq, Repr

/-- Bank state with its open row, which is present while OPENING or OPEN (R126, log 13), and the
instant at which the running interval ends. -/
inductive BankState where
  | idle
  | opening (row till : Nat)
  | opened (row : Nat)
  | closing (till : Nat)
  | refreshing (till : Nat)
  deriving DecidableEq, Repr

/-- A bank table entry (R126). Write-guard pending is `guardTill.isSome`; the value is the instant at
which WRITE_GUARD ends (R129). -/
structure Bank where
  state     : BankState
  guardTill : Option Nat
  deriving DecidableEq, Repr

/-- The current operation (R131), with the end of its transfer once that has begun (R134). -/
structure CurrentOp where
  op       : MemOp
  transfer : Option Nat
  deriving DecidableEq, Repr

/-- DRAM sequencer (chapters 8 and 9). `tick` is none while STOPPED, else the end of the running
REFRESH_TICK interval (R137). -/
structure Dsq where
  state        : SeqState
  geometry     : Option Geometry
  timing       : TimingSet
  pagePolicy   : PagePolicy
  banks        : Vector Bank 8
  current      : Option CurrentOp
  waitRqp      : Option MemOp
  waitRollback : Option MemOp
  turn         : Client
  history      : List Nat
  owed         : Nat
  pointer      : Fin 8
  tick         : Option Nat
  refreshing   : Option (Fin 8)
  deriving DecidableEq, Repr

/-! ### Event unit -/

/-- Fault kind (R148). -/
inductive FaultKind where
  | beyond
  | unmapped
  | split
  | protect
  | align
  | guard
  | logFull
  deriving DecidableEq, Repr

/-- A fault record (Table 10.1, R148). -/
structure FaultRecord where
  fault     : FaultKind
  kind      : Kind
  addr      : BitVec 32
  beats     : Nat
  region    : RegionIndex
  depth     : Nat
  topSerial : Nat
  deriving DecidableEq, Repr

/-- The watch capture's record (R155). -/
structure Capture where
  addr  : BitVec 32
  kind  : Kind
  beats : Nat
  depth : Nat
  deriving DecidableEq, Repr

/-- Event unit (chapter 10). Bit n of `flags` and `masks` is the flag of bit n of Table 11.5. -/
structure Evu where
  faults  : List FaultRecord
  flags   : BitVec 11
  masks   : BitVec 11
  capture : Option Capture
  deriving DecidableEq, Repr

/-! ### Management link port -/

/-- Reason codes of a refusal (Table 11.4). -/
inductive Reason where
  | busy
  | stackFull
  | stackEmpty
  | notReady
  | broken
  | locked
  | alreadySet
  | epochOpen
  | noLog
  | state
  | overlap
  | badArg
  | unknown
  deriving DecidableEq, Repr

/-- Answer of a taken command (R159): the status, with its reason or its answer bytes. -/
inductive Answer where
  | done (bytes : List Byte)
  | started
  | busy
  | refused (r : Reason)
  deriving DecidableEq, Repr

/-- The frame in progress (R157): the code and argument bytes received, then, once the command has
been taken, its answer and how many of the answer's bytes have been shifted out. -/
structure MgmtFrame where
  code    : Option Byte
  args    : List Byte
  answer  : Option Answer
  shifted : Nat
  deriving DecidableEq, Repr

/-- Device reset cause (R163). -/
inductive ResetCause where
  | powerOn
  | resetPin
  | command
  deriving DecidableEq, Repr

/-- Management link port (R157, R163). `mdo` is the byte shifted out last; none while MDO is
high-impedance or nothing has been shifted out in this frame (log 10). -/
structure Mlp where
  frame     : Option MgmtFrame
  lastCause : ResetCause
  mdo       : Option Byte
  deriving DecidableEq, Repr

/-! ### Pins and reset -/

/-- Levels of the input pins, true where the pin is asserted (low). -/
structure Pins where
  mcsLow       : Bool
  hrstAsserted : Bool
  drstAsserted : Bool
  deriving DecidableEq, Repr

/-- Whether a device reset is in progress and which (R13, R163): a power-on reset; a power-on reset
whose own time is over but which DRST_N prolongs; a reset of the DRST_N pin. -/
inductive ResetPhase where
  | running
  | powerOn
  | powerOnHeld
  | pin
  deriving DecidableEq, Repr

/-- DRAM as the bytes written since the last device reset, each with its address (canonical form:
addresses strictly rising, Memory.wf). -/
abbrev Memory := List Host.Cell

/-- The whole part. `now`, `choices`, `dramGeneration` and `pending` are the model's own fields
(log 2, log 3, log 5); everything else the spec names. `dram` lists the bytes written since the last
device reset, by rising address. -/
structure State where
  slp            : Slp
  rmap           : Rmap
  rqp            : Rqp
  fwf            : Fwf
  ulc            : Ulc
  esu            : Esu
  est            : Est
  dsq            : Dsq
  evu            : Evu
  mlp            : Mlp
  pins           : Pins
  resetPhase     : ResetPhase
  dram           : Memory
  dramGeneration : Nat
  now            : Nat
  choices        : Nat
  pending        : List Instr
  deriving DecidableEq, Repr

/-- Why a step stops with a fault. There is no reason: nothing the spec describes stops the part, and
a refused request or command is answered in a next state. -/
inductive Fault where
  deriving DecidableEq, Repr

/-- Why a command has no meaning. -/
inductive Refusal where
  /-- Raised by a row of the table that has no meaning yet. Safe: the model stops. -/
  | notModelled (mnemonic : String)
  deriving DecidableEq, Repr

/-! ### Block updates -/

def State.setSlp (s : State) (x : Slp) : State := { s with slp := x }
def State.setRmap (s : State) (x : Rmap) : State := { s with rmap := x }
def State.setRqp (s : State) (x : Rqp) : State := { s with rqp := x }
def State.setFwf (s : State) (x : Fwf) : State := { s with fwf := x }
def State.setUlc (s : State) (x : Ulc) : State := { s with ulc := x }
def State.setEsu (s : State) (x : Esu) : State := { s with esu := x }
def State.setEst (s : State) (x : Est) : State := { s with est := x }
def State.setDsq (s : State) (x : Dsq) : State := { s with dsq := x }
def State.setEvu (s : State) (x : Evu) : State := { s with evu := x }
def State.setMlp (s : State) (x : Mlp) : State := { s with mlp := x }
def State.setPins (s : State) (x : Pins) : State := { s with pins := x }
def State.setResetPhase (s : State) (x : ResetPhase) : State := { s with resetPhase := x }
def State.setDram (s : State) (x : Memory) : State := { s with dram := x }
def State.setNow (s : State) (x : Nat) : State := { s with now := x }
def State.setChoices (s : State) (x : Nat) : State := { s with choices := x }
def State.setPending (s : State) (x : List Instr) : State := { s with pending := x }

/-! ### Reset values -/

def Slp.reset : Slp := { queue := [], gateOpen := true, delivered := [] }

/-- R14: disabled, pages 0, PLAIN, no rights, align flag no. -/
def Descriptor.reset : Descriptor :=
  { enabled := false, basePage := 0, lastPage := 0, cls := .plain,
    readRight := false, writeRight := false, align := false }

def Rmap.reset : Rmap :=
  { descs := Vector.replicate 16 Descriptor.reset, defaultClass := .plain, alignCheck := false }

def Watch.reset : Watch :=
  { enabled := false, firstLine := 0, lastLine := 0, matchReads := false, matchWrites := false }

def Rqp.reset : Rqp := { stage := .waiting, current := none, watch := Watch.reset }

def FilterEntry.reset : FilterEntry := { valid := false, line := 0, serial := 0 }

def FilterSet.reset : FilterSet := { ways := Vector.replicate 4 FilterEntry.reset, victim := 0 }

def Fwf.reset : Fwf := { sets := Vector.replicate 256 FilterSet.reset, mode := .on }

def Ulc.reset : Ulc := { basePage := 0, pages := 0, threshold := 0, fullPolicy := .refuse, head := 0 }

def Engine.idle : Engine :=
  { state := .idle, kind := none, record := none, line := none, image := none, awaits := false }

def Esu.reset : Esu :=
  { stack := [], nextSerial := 1, carried := [], engine := Engine.idle, lastOutcome := .complete }

def Est.reset : Est :=
  { mode := .off, periodMs := 1000, remainingNs := 1000 * Config.nsPerMs, running := false,
    lock := false, halted := false, recovery := .none, hrstoDriven := false }

/-- The defaults of Table 8.3. -/
def TimingSet.reset : TimingSet :=
  { openWait := 18, closeWait := 18, closeAllWait := 21, writeGuard := 15,
    bankRefreshWait := 90, actWindow := 50, refreshTick := 3900 }

def Bank.reset : Bank := { state := .idle, guardTill := none }

def Dsq.reset : Dsq :=
  { state := .uninit, geometry := none, timing := TimingSet.reset, pagePolicy := .openPage,
    banks := Vector.replicate 8 Bank.reset, current := none, waitRqp := none, waitRollback := none,
    turn := .rqp, history := [], owed := 0, pointer := 0, tick := none, refreshing := none }

/-- Flags clear, masks all set (Table 10.3). -/
def Evu.reset : Evu := { faults := [], flags := 0, masks := BitVec.allOnes 11, capture := none }

/-- The part right after a power-on reset, with every input pin released (log 9). -/
def State.reset : State :=
  { slp := Slp.reset, rmap := Rmap.reset, rqp := Rqp.reset, fwf := Fwf.reset, ulc := Ulc.reset,
    esu := Esu.reset, est := Est.reset, dsq := Dsq.reset, evu := Evu.reset,
    mlp := { frame := none, lastCause := .powerOn, mdo := none },
    pins := { mcsLow := false, hrstAsserted := false, drstAsserted := false },
    resetPhase := .running, dram := [], dramGeneration := 0, now := 0, choices := 0, pending := [] }

end Sys2Proof.Machine
end

