-- ==== Sys2Proof/Machine/Flags.lean ====
section
/-! DEFINITION. The pending flags, their masks and the interrupt line (R151, R152, R154, R156). -/
namespace Sys2Proof.Machine

/-- The 11 pending flags (Table 10.2). -/
inductive Flag where
  | fault
  | overrun
  | lowSpace
  | broken
  | rollbackDone
  | recoveryDone
  | supervision
  | watch
  | refreshOverdue
  | hostReset
  | dramReady
  deriving DecidableEq, Repr

/-- The flag's bit in a flag set (Table 11.5). -/
def Flag.bit : Flag → Nat
  | .fault => 0 | .overrun => 1 | .lowSpace => 2 | .broken => 3 | .rollbackDone => 4
  | .recoveryDone => 5 | .supervision => 6 | .watch => 7 | .refreshOverdue => 8 | .hostReset => 9
  | .dramReady => 10

/-- The flag set that holds one flag. -/
def Flag.set (f : Flag) : BitVec 11 := BitVec.ofNat 11 (2 ^ f.bit)

/-- Whether a flag is pending. -/
def State.isPending (s : State) (f : Flag) : Bool := s.evu.flags.getLsbD f.bit

/-- A block raises a flag (R151). -/
def State.raise (s : State) (f : Flag) : State :=
  s.setEvu { s.evu with flags := s.evu.flags ||| f.set }

/-- The 11 flag bits of a two-byte argument; bits that name no flag are ignored (R152, R154). -/
def flagSetOf (v : Nat) : BitVec 11 := BitVec.ofNat 11 v

/-- INT_N is driven low: some flag is pending and not masked (R156). -/
def State.intN (s : State) : Bool := s.evu.flags &&& ~~~s.evu.masks != 0

end Sys2Proof.Machine
end

