-- ==== Sys2Proof/Machine/Operands.lean ====
section
/-! DEFINITION. Byte orders, field codes and record layouts of the management link and of the log
(section 11.5, R164). -/
namespace Sys2Proof.Machine

/-! ### Byte orders (R164) -/

/-- Most significant byte first: fields on the management link. -/
def beNat (bs : List Byte) : Nat := bs.foldl (fun a b => a * 256 + b.toNat) 0

/-- `n` bytes of `v`, most significant first. -/
def beBytes : Nat → Nat → List Byte
  | 0, _ => []
  | n + 1, v => BitVec.ofNat 8 (v / 256 ^ n) :: beBytes n v

/-- Least significant byte first: header fields in the log area. -/
def leNat (bs : List Byte) : Nat := bs.foldr (fun b a => b.toNat + 256 * a) 0

/-- `n` bytes of `v`, least significant first. -/
def leBytes : Nat → Nat → List Byte
  | 0, _ => []
  | n + 1, v => BitVec.ofNat 8 v :: leBytes n (v / 256)

/-- The number in argument bytes `off` to `off + len - 1`. -/
def argField (args : List Byte) (off len : Nat) : Nat := beNat ((args.drop off).take len)

/-- One argument byte. -/
def argByte (args : List Byte) (off : Nat) : Byte := args.getD off 0

/-- A byte whose bit n is the nth of the given flags. -/
def flagByte (flags : List Bool) : Byte :=
  BitVec.ofNat 8 (flags.foldr (fun f a => f.toNat + 2 * a) 0)

/-! ### Field codes (Table 11.5); none where the value names nothing -/

def regionClassOf (b : Byte) : Option RegionClass :=
  match b.toNat with
  | 0 => some .plain | 1 => some .tracked | 2 => some .guarded | _ => none

def RegionClass.code : RegionClass → Byte
  | .plain => 0 | .tracked => 1 | .guarded => 2

def defaultClassOf (b : Byte) : Option DefaultClass :=
  match b.toNat with
  | 0 => some .plain | 1 => some .deny | _ => none

def alignCheckOf (b : Byte) : Option Bool :=
  match b.toNat with
  | 0 => some false | 1 => some true | _ => none

def filterModeOf (b : Byte) : Option FilterMode :=
  match b.toNat with
  | 0 => some .on | 1 => some .bypass | _ => none

def pagePolicyOf (b : Byte) : Option PagePolicy :=
  match b.toNat with
  | 0 => some .openPage | 1 => some .closePage | _ => none

def recoveryPolicyOf (b : Byte) : Option RecoveryPolicy :=
  match b.toNat with
  | 0 => some .none | 1 => some .rollbackAll | _ => none

def fullPolicyOf (b : Byte) : Option FullPolicy :=
  match b.toNat with
  | 0 => some .refuse | 1 => some .brk | _ => none

def supModeOf (b : Byte) : Option SupMode :=
  match b.toNat with
  | 0 => some .off | 1 => some .notify | 2 => some .rollback | 3 => some .rollbackReset | _ => none

/-- The rows per bank of GEOMETRY (R118). -/
def geometryOf (rows : Nat) : Option Geometry :=
  if rows = 8192 then some .rows8192
  else if rows = 16384 then some .rows16384
  else if rows = 32768 then some .rows32768
  else none

def SupMode.code : SupMode → Byte
  | .off => 0 | .notify => 1 | .rollback => 2 | .rollbackReset => 3

def kindCode : Kind → Byte
  | .read => 0 | .write => 1

def FaultKind.code : FaultKind → Byte
  | .beyond => 1 | .unmapped => 2 | .split => 3 | .protect => 4 | .align => 5 | .guard => 6
  | .logFull => 7

def RegionIndex.code : RegionIndex → Byte
  | .desc i => BitVec.ofNat 8 i.val
  | .log => 0x10
  | .none => 0xFF

def SeqState.code : SeqState → Byte
  | .uninit => 0 | .initWait _ => 1 | .closeAllWait _ => 1 | .initRefresh _ => 2 | .ready => 3

def rollbackCode : Option RollbackKind → Byte
  | none => 0 | some .single => 1 | some .all => 2 | some .supervision => 3 | some .recovery => 4

def RollbackOutcome.code : RollbackOutcome → Byte
  | .complete => 0 | .haltedBroken => 1

def ResetCause.code : ResetCause → Byte
  | .powerOn => 0 | .resetPin => 1 | .command => 2

def boolCode (b : Bool) : Byte := if b then 1 else 0

/-! ### Status and reason codes (Table 11.4, R159) -/

def Reason.code : Reason → Byte
  | .busy => 0x10 | .stackFull => 0x11 | .stackEmpty => 0x12 | .notReady => 0x13 | .broken => 0x14
  | .locked => 0x15 | .alreadySet => 0x16 | .epochOpen => 0x17 | .noLog => 0x18 | .state => 0x19
  | .overlap => 0x1A | .badArg => 0x1B | .unknown => 0x1F

/-- The bytes an answer shifts out: the status, then a reason byte or the answer bytes (R157, R159). -/
def Answer.bytes : Answer → List Byte
  | .done bs => 0x01 :: bs
  | .started => [0x02]
  | .busy => [0x03, Reason.code .busy]
  | .refused r => [0x04, Reason.code r]

/-! ### Record layouts (Table 11.6) -/

/-- The region descriptor argument, 10 bytes; none where its class byte names no class. Flag bits
that name no flag are ignored. -/
def descriptorOf (bs : List Byte) : Option Descriptor :=
  (regionClassOf (argByte bs 1)).map fun c =>
    let f := argByte bs 0
    { enabled := f.getLsbD 0, readRight := f.getLsbD 1, writeRight := f.getLsbD 2,
      align := f.getLsbD 3, cls := c, basePage := argField bs 2 4, lastPage := argField bs 6 4 }

def Descriptor.bytes (d : Descriptor) : List Byte :=
  flagByte [d.enabled, d.readRight, d.writeRight, d.align] :: d.cls.code ::
    (beBytes 4 d.basePage ++ beBytes 4 d.lastPage)

def FaultRecord.bytes (r : FaultRecord) : List Byte :=
  [r.fault.code, kindCode r.kind] ++ beBytes 4 r.addr.toNat ++
    [BitVec.ofNat 8 r.beats, r.region.code, BitVec.ofNat 8 r.depth] ++ beBytes 2 r.topSerial

def Capture.bytes (c : Capture) : List Byte :=
  beBytes 4 c.addr.toNat ++ [kindCode c.kind, BitVec.ofNat 8 c.beats, BitVec.ofNat 8 c.depth]

/-- FRAME_READ's answer: depth 1, serial 2, start 4, broken 1 (Table 11.1). -/
def Frame.bytes (f : Frame) : List Byte :=
  BitVec.ofNat 8 f.depth :: (beBytes 2 f.serial ++ beBytes 4 f.start ++ [boolCode f.broken])

/-- The log record header in DRAM (R70): line index, serial, depth, marker, each field least
significant byte first (R164). -/
def headerBytes (line serial depth : Nat) : List Byte :=
  leBytes 4 line ++ leBytes 2 serial ++ [BitVec.ofNat 8 depth, 0xA5]

/-- The line index that a record header names (R93). -/
def headerLineIndex (bs : List Byte) : Nat := leNat (bs.take 4)

/-- IDENT's constants (R162): vendor, part, revision, stack, filter entries, regions, fault queue,
request queue. -/
def identBytes : List Byte := [0x3A, 0x48, 0x10, 1, 8, 0x04, 0x00, 16, 16, 8]

end Sys2Proof.Machine
end

