-- ==== Sys2Proof/Decode.lean ====
section
/-! DEFINITION. No row of opcode_table.json gives bits, so no word spells a command. Beside that, the
argument counts of the command codes of the management link. -/
namespace Sys2Proof

/-- Number of argument bytes of a command code; none where the code names no command
(Table 11.1, R158). -/
def argBytes (code : Byte) : Option Nat :=
  match code.toNat with
  | 0x01 => some 0 | 0x02 => some 0
  | 0x10 => some 2 | 0x11 => some 14 | 0x12 => some 0 | 0x13 => some 11 | 0x14 => some 5
  | 0x20 => some 11 | 0x21 => some 1 | 0x22 => some 9
  | 0x30 => some 0 | 0x31 => some 0 | 0x32 => some 0 | 0x33 => some 0 | 0x34 => some 1
  | 0x40 => some 3 | 0x41 => some 0 | 0x42 => some 0 | 0x43 => some 0
  | 0x50 => some 0 | 0x51 => some 0 | 0x52 => some 2 | 0x53 => some 2
  | 0x7E => some 0
  | _ => none

/-- The command that a word spells by the table's bits: none, for the table gives no row any bits. -/
def decodeTableWord (_nbits _w : Nat) : Option Instr := none

end Sys2Proof
end

