-- ==== Sys2Proof/WellFormed.lean ====
section
/-! DEFINITION. Which commands can arrive at all: what the lanes of the system link can carry, and
which code bytes name no command. -/
namespace Sys2Proof

/-- What a request on the system link looks like (R1): an 8-byte aligned address, 1 to 8 beats, and
write beats for a WRITE only, one for each beat. -/
def Request.wellFormed (r : Request) : Bool :=
  r.addr.toNat % 8 == 0 && decide (1 ≤ r.beats) && decide (r.beats ≤ 8) &&
    (match r.kind with
      | .read => r.wbeats.isEmpty
      | .write => r.wbeats.length == r.beats)

/-- A command can arrive: its request fits the link (R1), or its code byte names no command where
the row is UNKNOWN (R158). Every other operand may take any value. -/
def Instr.wellFormed : Instr → Bool
  | .requestAccept r => r.wellFormed
  | .unknown code => (argBytes code).isNone
  | _ => true

end Sys2Proof
end

