-- ==== Sys2Proof/Machine/Ops.lean ====
section
/-! DEFINITION. The operations the families share: DRAM bytes, time, what blocks read of each other,
issuing operations, ending requests, and taking a management command. -/
namespace Sys2Proof.Machine

/-! ### DRAM bytes -/

/-- Canonical form: addresses strictly rising. An unlisted address reads as no value
(Memory.unlisted), so no entry can equal it. -/
abbrev Memory.wf (m : Memory) : Prop := m.Pairwise (fun x y => x.1 < y.1)

/-- What an unlisted address reads as: no value the model knows (log 5). -/
def Memory.unlisted : Option Byte := none

/-- The byte written at an address since the last device reset. -/
def Memory.find : Memory → Nat → Option Byte
  | [], _ => Memory.unlisted
  | (x, v) :: rest, a => if x = a then some v else Memory.find rest a

/-- Write one byte, keeping the canonical form. -/
def Memory.write : Memory → Nat → Byte → Memory
  | [], a, b => [(a, b)]
  | (x, v) :: rest, a, b =>
    if a < x then (a, b) :: (x, v) :: rest
    else if a = x then (a, b) :: rest
    else (x, v) :: Memory.write rest a b

/-- Write the enabled bytes of `data` from address `a` on: bytes whose enables are zero keep their
contents (R134). -/
def Memory.writeMasked : Memory → Nat → List Bool → List Byte → Memory
  | m, a, e :: es, b :: bs =>
    Memory.writeMasked (if e then Memory.write m a b else m) (a + 1) es bs
  | m, _, _, _ => m

/-- One DRAM byte: the byte written last, or the free value of an address that nothing has written
since the last device reset (log 5). -/
def State.dramByte (s : State) (a : Nat) : Byte :=
  (Memory.find s.dram a).getD (Config.dramByte s.dramGeneration a)

/-- `n` DRAM bytes from address `a` on. -/
def State.dramBytes (s : State) (a : Nat) : Nat → List Byte
  | 0 => []
  | n + 1 => s.dramByte a :: s.dramBytes (a + 1) n

/-- Byte address of the first beat of an operation. -/
def MemOp.addr (op : MemOp) : Nat := op.line * Config.lineBytes + op.startBeat * 8

/-! ### What blocks read of each other -/

/-- Rows per bank of a geometry (R118). -/
def Geometry.rows : Geometry → Nat
  | .rows8192 => 8192
  | .rows16384 => 16384
  | .rows32768 => 32768

/-- Rows per bank, 0 while geometry is not set (R18). -/
def State.rowsPerBank (s : State) : Nat := (s.dsq.geometry.map Geometry.rows).getD 0

/-- Capacity in lines: 8 banks of rows of 32 lines (R18, R118). -/
def State.capacityLines (s : State) : Nat := 8 * s.rowsPerBank * 32

/-- Capacity in pages of 64 lines (R18). -/
def State.capacityPages (s : State) : Nat := s.capacityLines / 64

/-- Log capacity in records (R67). -/
def State.logCapacity (s : State) : Nat := Config.recordsPerPage * s.ulc.pages

/-- Epoch depth (R80). -/
def State.depth (s : State) : Nat := s.esu.stack.length

/-- The top frame (R80). -/
def State.topFrame (s : State) : Option Frame := s.esu.stack.head?

/-- The top serial, 0 at depth 0 (R80). -/
def State.topSerial (s : State) : Nat := (s.topFrame.map Frame.serial).getD 0

/-- The top frame is there and is broken (R83). -/
def State.topBroken (s : State) : Bool := (s.topFrame.map Frame.broken).getD false

/-- A rollback is in progress (R91). -/
def State.rollbackInProgress (s : State) : Bool := s.esu.engine.state != .idle

/-- The sequencer is READY (R124). -/
def State.dsqReady (s : State) : Bool := s.dsq.state == .ready

/-- The request path holds a request past the check (R33): between events a request it holds has
always passed its check (R31). -/
def State.holdsPastCheck (s : State) : Bool := s.rqp.current.isSome

/-- The request path holds a protected write: a WRITE past the check whose region class is TRACKED or
GUARDED (R45). -/
def State.holdsProtectedWrite (s : State) : Bool :=
  match s.rqp.current with
  | some c =>
    c.req.kind == .write &&
      (match c.classes.head? with
        | some k => k.cls == .tracked || k.cls == .guarded
        | none => false)
  | none => false

/-- A device reset is in progress (R13, R163). -/
def State.inReset (s : State) : Bool := s.resetPhase != .running

/-! ### Time -/

/-- The supervision timer counts (R103). -/
def State.counting (s : State) : Bool :=
  s.est.running && decide (0 < s.depth) && !s.rollbackInProgress && !s.est.halted

/-- `d` nanoseconds pass: the clock moves on, and the remaining time falls while the timer counts
(R103, log 2). -/
def State.advance (s : State) (d : Nat) : State :=
  { s with
    now := s.now + d
    est := if s.counting then { s.est with remainingNs := s.est.remainingNs - d } else s.est }

/-- Time passes up to instant `t`; none passes where `t` is not ahead. -/
def State.advanceTo (s : State) (t : Nat) : State := s.advance (t - s.now)

/-- Reload of the supervision timer (R104). -/
def State.reload (s : State) : State :=
  s.setEst { s.est with remainingNs := s.est.periodMs * Config.nsPerMs }

/-! ### Banks (R119, R126) -/

/-- Bank of a line (R119). -/
def bankOfLine (line : Nat) : Fin 8 := ⟨line / 32 % 8, Nat.mod_lt _ (by decide)⟩

/-- Row of a line (R119). -/
def rowOfLine (line : Nat) : Nat := line / 256

/-- Column line of a line within its row (R119). -/
def columnOfLine (line : Nat) : Nat := line % 32

/-- The bank table entry of a bank. -/
def State.bank (s : State) (b : Fin 8) : Bank := s.dsq.banks.get b

/-- Replace a bank table entry. -/
def State.setBank (s : State) (b : Fin 8) (x : Bank) : State :=
  s.setDsq { s.dsq with banks := s.dsq.banks.set b.val x b.isLt }

/-- A bank is held by the current operation, from its start to its completion (R126). -/
def State.held (s : State) (b : Fin 8) : Bool :=
  match s.dsq.current with
  | some c => bankOfLine c.op.line == b
  | none => false

/-- The banks in order. -/
def allBanks : List (Fin 8) := [0, 1, 2, 3, 4, 5, 6, 7]

/-! ### Issuing operations and ending requests -/

/-- A client issues an operation, which becomes its waiting operation (R131). -/
def State.issue (s : State) (op : MemOp) : State :=
  match op.client with
  | .rqp => s.setDsq { s.dsq with waitRqp := some op }
  | .rollback => s.setDsq { s.dsq with waitRollback := some op }

/-- The request path has an operation in flight: waiting or current (R30). -/
def State.rqpInFlight (s : State) : Bool :=
  s.dsq.waitRqp.isSome ||
    (match s.dsq.current with
      | some c => c.op.client == .rqp
      | none => false)

/-- The request path lets go of its request, the IN_SERVICE entry leaves the queue, and a first step
of the engine that waited for it waits no longer (R8, R48, R92). -/
def State.endRequest (s : State) : State :=
  { s with
    slp := { s.slp with queue := s.slp.queue.eraseP (fun e => e.mark == .inService) }
    rqp := { s.rqp with stage := .waiting, current := none }
    esu := { s.esu with engine := { s.esu.engine with awaits := false } } }

/-- The response is delivered to the master as its entry leaves (R8). -/
def State.respond (s : State) (r : Response) : State :=
  { s.endRequest with slp := { s.endRequest.slp with delivered := s.slp.delivered ++ [r] } }

/-- The request is dropped: its entry leaves without a response (R10, R48). -/
def State.dropRequest (s : State) : State := s.endRequest

/-- The IN_SERVICE entry is marked dropped (R10). -/
def State.serviceDropped (s : State) : Bool :=
  s.slp.queue.any (fun e => e.mark == .inService && e.dropped)

/-! ### Taking a management command (R157) -/

/-- What a command does at its taking: its arguments and the state give the next state and the answer. -/
abbrev Act := List Byte → State → State × Answer

/-- The command's effect and its answer belong to one event: the frame keeps the bytes received and
the answer, and the byte that completed the command found 0x00 on MDO. -/
def take (code : Byte) (args : List Byte) (act : Act) (s : State) : State :=
  let r := act args s
  r.1.setMlp { r.1.mlp with
    frame := some { code := some code, args := args, answer := some r.2, shifted := 0 }
    mdo := some 0 }

/-- A frame in which no byte has been received yet. -/
def MgmtFrame.empty : MgmtFrame := { code := none, args := [], answer := none, shifted := 0 }

/-- A frame whose code and first argument bytes have been received and which is not taken yet. -/
def MgmtFrame.collecting (code : Byte) (args : List Byte) : MgmtFrame :=
  { code := some code, args := args, answer := none, shifted := 0 }

/-- The taking of a command without arguments, at its code byte in an empty frame. In any other
frame the byte is not that event, and nothing happens (log 1). -/
def takeAtCode (code : Byte) (act : Act) (s : State) : State :=
  if s.mlp.frame = some MgmtFrame.empty then take code [] act s else s

/-- The taking of a command with `n` arguments, at the last of them. In any other frame the byte is
not that event, and nothing happens (log 1). -/
def takeAtLast (code : Byte) (n : Nat) (last : Byte) (act : Act) (s : State) : State :=
  match s.mlp.frame with
  | some f =>
    if f = MgmtFrame.collecting code f.args ∧ f.args.length + 1 = n then
      take code (f.args ++ [last]) act s
    else s
  | none => s

/-- What every command's step answers. -/
abbrev Out := Host.Outcome State Fault Refusal

end Sys2Proof.Machine
end

