-- ==== Sys2Proof/Machine/Filter.lean ====
section
/-! DEFINITION. The first-write filter (chapter 4): lookup, fill, invalidation, emptying. -/
namespace Sys2Proof.Machine

/-- Set of a line (R53). -/
def setOfLine (line : Nat) : Fin 256 := ⟨line % 256, Nat.mod_lt _ (by decide)⟩

/-- The ways of a set in order. -/
def allWays : List (Fin 4) := [0, 1, 2, 3]

/-- Standing of an entry against the top serial (Table 4.3). -/
inductive Standing where
  | invalid
  | current
  | stale
  deriving DecidableEq, Repr

/-- Standing (R53). -/
def FilterEntry.standing (e : FilterEntry) (topSerial : Nat) : Standing :=
  if !e.valid then .invalid else if e.serial = topSerial then .current else .stale

/-- The entry speaks of this line under this serial (R54). -/
def FilterEntry.matches (e : FilterEntry) (line serial : Nat) : Bool :=
  e.valid && e.line == line && e.serial == serial

/-- The entry in a way of a set (R52). -/
abbrev Fwf.entry (f : Fwf) (i : Fin 256) (w : Fin 4) : FilterEntry := (f.sets.get i).ways.get w

/-- The set a line belongs to. -/
def Fwf.setFor (f : Fwf) (line : Nat) : FilterSet := f.sets.get (setOfLine line)

/-- Replace the set a line belongs to. -/
def Fwf.putSet (f : Fwf) (line : Nat) (x : FilterSet) : Fwf :=
  { f with sets := f.sets.set (setOfLine line).val x (setOfLine line).isLt }

/-- Lookup: HIT or MISS (R54). -/
def Fwf.hit (f : Fwf) (line serial : Nat) : Bool :=
  allWays.any (fun w => ((f.setFor line).ways.get w).matches line serial)

/-- A set after a fill of `line` under the top serial: the first row of Table 4.4 that applies (R55). -/
def FilterSet.fill (st : FilterSet) (line serial : Nat) : FilterSet :=
  let fresh : FilterEntry := { valid := true, line := line, serial := serial }
  if allWays.any (fun w => (st.ways.get w).matches line serial) then st
  else
    match allWays.find? (fun w => (st.ways.get w).standing serial != .current) with
    | some w => { st with ways := st.ways.set w.val fresh w.isLt }
    | none => { ways := st.ways.set st.victim.val fresh st.victim.isLt, victim := st.victim + 1 }

/-- Fill when a record counts (R55). Under BYPASS there is none (R64). -/
def Fwf.fill (f : Fwf) (line serial : Nat) : Fwf :=
  match f.mode with
  | .on => f.putSet line ((f.setFor line).fill line serial)
  | .bypass => f

/-- A set after the restored line's entry under the top serial is invalidated (R59). -/
def FilterSet.invalidate (st : FilterSet) (line serial : Nat) : FilterSet :=
  { st with ways := st.ways.map (fun e => if e.matches line serial then { e with valid := false } else e) }

/-- Invalidation at a restore completion (R59). Under BYPASS there is none (R64). -/
def Fwf.invalidate (f : Fwf) (line serial : Nat) : Fwf :=
  match f.mode with
  | .on => f.putSet line ((f.setFor line).invalidate line serial)
  | .bypass => f

/-- All entries of a set made invalid, the victim pointer left as it is (R61). -/
def FilterSet.emptied (st : FilterSet) : FilterSet :=
  { st with ways := st.ways.map (fun e => { e with valid := false }) }

/-- Emptying: every entry invalid, victim pointers and mode unchanged (R61). -/
def Fwf.emptied (f : Fwf) : Fwf := { f with sets := f.sets.map FilterSet.emptied }

end Sys2Proof.Machine
end

