-- ==== Sys2Proof/Machine/Region.lean ====
section
/-! DEFINITION. The region map (chapter 2): classification, the request checks, REGION_WRITE and
REGION_READ. -/
namespace Sys2Proof.Machine

/-- The descriptors' indexes in order. -/
def allDescs : List (Fin 16) := [0, 1, 2, 3, 4, 5, 6, 7, 8, 9, 10, 11, 12, 13, 14, 15]

/-- The descriptor at an index. -/
def State.desc (s : State) (i : Fin 16) : Descriptor := s.rmap.descs.get i

/-- An enabled descriptor covers the pages from its base page to its last page (R14). -/
def Descriptor.coversPage (d : Descriptor) (page : Nat) : Bool :=
  d.enabled && decide (d.basePage ≤ page) && decide (page ≤ d.lastPage)

/-- A page lies within the log area (R17). -/
def Ulc.coversPage (u : Ulc) (page : Nat) : Bool :=
  decide (u.basePage ≤ page) && decide (page < u.basePage + u.pages)

/-- A descriptor's class as a line class. -/
def RegionClass.lineClass : RegionClass → LineClass
  | .plain => .plain
  | .tracked => .tracked
  | .guarded => .guarded

/-- Classification of one line: the first case of Table 2.4 that applies (R19). The rights and the
align flag of BEYOND and DENY are not used; they are given as no. -/
def State.classify (s : State) (line : Nat) : Classification :=
  let page := line / 64
  if s.capacityLines ≤ line then
    { cls := .beyond, region := .none, readRight := false, writeRight := false, align := false }
  else if s.ulc.coversPage page then
    { cls := .log, region := .log, readRight := true, writeRight := false, align := false }
  else
    match allDescs.find? (fun i => (s.desc i).coversPage page) with
    | some i =>
      { cls := (s.desc i).cls.lineClass, region := .desc i, readRight := (s.desc i).readRight,
        writeRight := (s.desc i).writeRight, align := (s.desc i).align }
    | none =>
      match s.rmap.defaultClass with
      | .plain =>
        { cls := .plain, region := .none, readRight := true, writeRight := true, align := false }
      | .deny =>
        { cls := .deny, region := .none, readRight := false, writeRight := false, align := false }

/-- Two lines lie in the same region (R20): the same descriptor, the log area, or both uncovered
PLAIN. -/
def Classification.sameRegion (a b : Classification) : Bool :=
  match a.region with
  | .desc _ => a.region == b.region
  | .log => b.region == .log
  | .none => b.region == .none && a.cls == .plain && b.cls == .plain

/-- The request checks in the order of Table 2.5: the fault kind and the region index of the first
check that fails (R22 to R26). `first` is the first line's classification, `second` that of the
second covered line where there is one. -/
def requestCheck (kind : Kind) (first : Classification) (second : Option Classification)
    (alignCheck : Bool) (depth : Nat) : Option (FaultKind × RegionIndex) :=
  let has (c : LineClass) : Bool :=
    first.cls == c || (match second with | some k => k.cls == c | none => false)
  if has .beyond then some (.beyond, .none)
  else if has .deny then some (.unmapped, .none)
  else if (match second with | some k => !first.sameRegion k | none => false) then
    some (.split, first.region)
  else if (match kind with | .read => !first.readRight | .write => !first.writeRight) then
    some (.protect, first.region)
  else if second.isSome && alignCheck && first.align then some (.align, first.region)
  else if kind == .write && first.cls == .guarded && depth == 0 then some (.guard, first.region)
  else none

/-! ### REGION_WRITE and REGION_READ -/

/-- Two inclusive page ranges share a page. -/
def rangesMeet (base1 last1 base2 last2 : Nat) : Bool :=
  decide (base1 ≤ last2) && decide (base2 ≤ last1)

/-- Some page from base to last lies in the log area (R16). -/
def State.meetsLog (s : State) (base last : Nat) : Bool :=
  decide (0 < s.ulc.pages) && rangesMeet base last s.ulc.basePage (s.ulc.basePage + s.ulc.pages - 1)

/-- Some page from base to last lies in the enabled descriptor i (R16). -/
def State.meetsDesc (s : State) (i : Fin 16) (base last : Nat) : Bool :=
  (s.desc i).enabled && rangesMeet base last (s.desc i).basePage (s.desc i).lastPage

/-- REGION_WRITE at its taking: the refusals of Table 2.6 in order (R27), else the descriptor is
replaced (R28). -/
def regionWriteAct : Act := fun args s =>
  let index := (argByte args 0).toNat
  if s.dsq.geometry.isNone then (s, .refused .state)
  else if s.rollbackInProgress then (s, .busy)
  else if 0 < s.depth then (s, .refused .epochOpen)
  else
    match descriptorOf (args.drop 1) with
    | none => (s, .refused .badArg)
    | some d =>
      if h : index < 16 then
        if d.lastPage < d.basePage ∨ s.capacityPages ≤ d.lastPage then (s, .refused .badArg)
        else if d.enabled &&
            (s.meetsLog d.basePage d.lastPage ||
              allDescs.any (fun j => decide (j.val ≠ index) && s.meetsDesc j d.basePage d.lastPage)) then
          (s, .refused .overlap)
        else (s.setRmap { s.rmap with descs := s.rmap.descs.set index d h }, .done [])
      else (s, .refused .badArg)

/-- REGION_READ at its taking (R29). -/
def regionReadAct : Act := fun args s =>
  let index := (argByte args 0).toNat
  if h : index < 16 then (s, .done (s.desc ⟨index, h⟩).bytes)
  else (s, .refused .badArg)

/-- REGION_WRITE (R27, R28): 11 argument bytes. -/
def execRegionWrite (last : Byte) (s : State) : Out :=
  .next (takeAtLast 0x20 11 last regionWriteAct s)

/-- REGION_READ (R29): 1 argument byte. -/
def execRegionRead (last : Byte) (s : State) : Out :=
  .next (takeAtLast 0x21 1 last regionReadAct s)

end Sys2Proof.Machine
end

