-- ==== Sys2Proof/Machine/Log.lean ====
section
/-! DEFINITION. The undo log controller (chapter 5): record places, room, the head, SET_LOG. -/
namespace Sys2Proof.Machine

/-- Places of record index i (Tables 5.3 and 5.4, R69). -/
def Ulc.recordRef (u : Ulc) (i : Nat) : RecordRef :=
  let page := u.basePage + i / Config.recordsPerPage
  let slot := i % Config.recordsPerPage
  { index := i, dataLine := page * 64 + slot, headerLine := page * 64 + 56 + slot / 8,
    headerBeat := slot % 8 }

/-- ROOM for n records (R75). -/
def State.hasRoom (s : State) (n : Nat) : Bool := decide (s.ulc.head + n ≤ s.logCapacity)

/-- The head rises by one, and LOW_SPACE is raised where the free records go from above the
threshold to at or below it (R72, R76). -/
def State.headRise (s : State) : State :=
  let s1 := s.setUlc { s.ulc with head := s.ulc.head + 1 }
  if s.ulc.threshold < s.logCapacity - s.ulc.head ∧
      s.logCapacity - (s.ulc.head + 1) ≤ s.ulc.threshold then
    s1.raise .lowSpace
  else s1

/-- The head falls by one (R73). -/
def State.headFall (s : State) : State := s.setUlc { s.ulc with head := s.ulc.head - 1 }

/-- SET_LOG at its taking: the refusals of Table 5.8 in order (R77), else the configuration is
replaced (R78). -/
def setLogAct : Act := fun args s =>
  let base := argField args 0 4
  let pages := argField args 4 2
  let threshold := argField args 6 4
  if s.dsq.geometry.isNone then (s, .refused .state)
  else if s.rollbackInProgress then (s, .busy)
  else if 0 < s.depth then (s, .refused .epochOpen)
  else if Config.maxLogPages < pages ∨ s.capacityPages ≤ base ∨ s.capacityPages < base + pages ∨
      Config.recordsPerPage * pages < threshold then (s, .refused .badArg)
  else
    match fullPolicyOf (argByte args 10) with
    | none => (s, .refused .badArg)
    | some policy =>
      if decide (1 ≤ pages) && allDescs.any (fun j => s.meetsDesc j base (base + pages - 1)) then
        (s, .refused .overlap)
      else
        (s.setUlc { s.ulc with
            basePage := base, pages := pages, threshold := threshold, fullPolicy := policy }, .done [])

/-- SET_LOG (R77, R78): 11 argument bytes. -/
def execSetLog (last : Byte) (s : State) : Out := .next (takeAtLast 0x13 11 last setLogAct s)

end Sys2Proof.Machine
end

