-- ==== Sys2Proof/Machine/Epoch.lean ====
section
/-! DEFINITION. The epoch stack unit and its rollback engine (chapter 6): OPEN, COMMIT, ROLLBACK,
ROLLBACK_ALL, FRAME_READ, ROLLBACK_FIRST_STEP. -/
namespace Sys2Proof.Machine

/-- Replace the engine. -/
def State.setEngine (s : State) (e : Engine) : State := s.setEsu { s.esu with engine := e }

/-- The filter is emptied (R61). -/
def State.emptyFilter (s : State) : State := s.setFwf s.fwf.emptied

/-! ### Serials (R82) -/

/-- The serial after n; 65535 is followed by 1 (R82). -/
def serialAfter (n : Nat) : Nat := if n = 65535 then 1 else n + 1

/-- What the allocator hands out: the serial taken, next serial afterwards, and whether an advance
wrapped. -/
structure Allocation where
  serial  : Nat
  next    : Nat
  wrapped : Bool
  deriving DecidableEq, Repr

/-- The allocator examines next serial and skips the values held on the stack (R82). Up to 65534 it
passes over the carried ones too; with 65535 comes the wrap, which empties the filter, and only held
values are skipped (R63, log 27). At most as many values as there are of both are skipped, which is
the fuel. -/
def allocate (held carried : List Nat) : Nat → Nat → Bool → Allocation
  | 0, n, w => { serial := n, next := serialAfter n, wrapped := w || n == 65535 }
  | fuel + 1, n, w =>
    let w' := w || n == 65535
    if held.contains n || (!w' && carried.contains n) then
      allocate held carried fuel (serialAfter n) w'
    else { serial := n, next := serialAfter n, wrapped := w' }

/-- The serials of the frames on the stack, newest first (R81). -/
def State.serials (s : State) : List Nat := s.esu.stack.map Frame.serial

/-- The allocation an OPEN taken now would make. Beside the values held on the stack it passes over
those carried over the last wrap: a serial that leaves the stack is not given back to the allocator (R82)
and does not return to the top before the filter is next emptied (R57, R58, R63; DEDUCED, log 27). -/
def State.allocation (s : State) : Allocation :=
  allocate s.serials s.esu.carried (s.serials.length + s.esu.carried.length) s.esu.nextSerial false

/-- The serials carried once this allocation is made: at a wrap, those of the frames that stay open
below the new one (log 27). -/
def State.carriedAfter (s : State) (a : Allocation) : List Nat :=
  if a.wrapped then s.serials else s.esu.carried

/-- The stack is replaced. When it becomes empty the filter is emptied (R61), and no serial is carried
any more. -/
def Esu.withStack (e : Esu) (stack : List Frame) : Esu :=
  { e with stack := stack, carried := if stack.isEmpty then [] else e.carried }

/-! ### The rollback engine (R91 to R97) -/

/-- A rollback ends (R97), with what the timer does at the end of a SUPERVISION rollback (R112). -/
def State.endRollback (s : State) (kind : RollbackKind) (outcome : RollbackOutcome) : State :=
  let s1 := s.setEsu { s.esu with engine := Engine.idle, lastOutcome := outcome }
  let s2 := (s1.raise .rollbackDone).reload
  match kind with
  | .single => s2
  | .all => s2
  | .recovery => s2.raise .recoveryDone
  | .supervision =>
    s2.setEst { s2.est with
      hrstoDriven := false, halted := s2.est.halted || outcome == .haltedBroken }

/-- The engine begins record head − 1: it keeps the record's addresses and issues the one-beat read
of its header (R93). -/
def State.beginRecord (s : State) : State :=
  let ref := s.ulc.recordRef (s.ulc.head - 1)
  (s.setEngine { s.esu.engine with
      state := .rbHeader, record := some ref, line := none, image := none }).issue
    { client := .rollback, kind := .read, line := ref.headerLine, startBeat := ref.headerBeat,
      beats := 1, mask := [], data := [] }

/-- Pops from the top frame on, until the rollback ends or a frame with records is on top: the stack
afterwards, and the outcome where the rollback ends (R96). -/
def popFrames (kind : RollbackKind) (head : Nat) : List Frame → List Frame × Option RollbackOutcome
  | [] => ([], some .complete)
  | _ :: rest =>
    match rest with
    | [] => ([], some .complete)
    | top :: _ =>
      if kind = .single then (rest, some .complete)
      else if top.broken then (rest, some .haltedBroken)
      else if top.start < head then (rest, none)
      else popFrames kind head rest

/-- The engine pops the top frame, and ends or goes on by its kind (R96). -/
def State.popTop (s : State) : State :=
  let kind := s.esu.engine.kind.getD .single
  let r := popFrames kind s.ulc.head s.esu.stack
  let s1 := s.setEsu (s.esu.withStack r.1)
  let s2 := if r.1.isEmpty then (s1.setUlc { s1.ulc with head := 0 }).emptyFilter else s1
  match r.2 with
  | some outcome => s2.endRollback kind outcome
  | none => s2.beginRecord

/-- The engine's next step: the next record of the top frame, or the pop of the top frame (R92, R95). -/
def State.engineStep (s : State) : State :=
  match s.topFrame with
  | some f => if f.start < s.ulc.head then s.beginRecord else s.popTop
  | none => s.popTop

/-- A rollback starts (R92). A RECOVERY start under a broken top ends at once. The first step is
taken at this event unless the request path holds a request past the check. -/
def State.startRollback (s : State) (kind : RollbackKind) : State :=
  if kind == .recovery && s.topBroken then s.endRollback .recovery .haltedBroken
  else
    let s1 := s.setEngine
      { state := .rbHeader, kind := some kind, record := none, line := none, image := none,
        awaits := s.holdsPastCheck }
    if s.holdsPastCheck then s1 else s1.engineStep

/-- The header read completes: the restore line is taken and the data slot is read; a line at or
beyond the capacity is not restored (R93). -/
def State.headerRead (s : State) (ref : RecordRef) (data : List Byte) : State :=
  let line := headerLineIndex data
  if s.capacityLines ≤ line then
    (s.headFall.setEngine { s.esu.engine with record := none, line := none, image := none }).engineStep
  else
    (s.setEngine { s.esu.engine with state := .rbData, line := some line }).issue
      { client := .rollback, kind := .read, line := ref.dataLine, startBeat := 0, beats := 8,
        mask := [], data := [] }

/-- The data read completes: the restore write is issued (R94). -/
def State.imageRead (s : State) (line : Nat) (data : List Byte) : State :=
  (s.setEngine { s.esu.engine with state := .rbRestore, image := some data }).issue
    { client := .rollback, kind := .write, line := line, startBeat := 0, beats := 8,
      mask := List.replicate 64 true, data := data }

/-- The restore write completes: the head falls, the line's entry is invalidated, and the engine
takes its next step (R95, R73, R59). -/
def State.restoreDone (s : State) (line : Nat) : State :=
  ((s.headFall.setFwf (s.fwf.invalidate line s.topSerial)).setEngine
      { s.esu.engine with record := none, line := none, image := none }).engineStep

/-- The engine acts on the completion of its operation (R93 to R95). -/
def State.engineComplete (s : State) (data : List Byte) : State :=
  match s.esu.engine.state, s.esu.engine.record, s.esu.engine.line with
  | .rbHeader, some ref, _ => s.headerRead ref data
  | .rbData, _, some line => s.imageRead line data
  | .rbRestore, _, some line => s.restoreDone line
  | _, _, _ => s

/-- The engine's first step is due: it has started, begun no record, and waits for no request (R92). -/
def State.firstStepDue (s : State) : Bool :=
  s.esu.engine.state == .rbHeader && s.esu.engine.record.isNone && !s.esu.engine.awaits

/-- ROLLBACK_FIRST_STEP: the first step after a wait (R92). -/
def execRollbackFirstStep (s : State) : Out :=
  .next (if s.firstStepDue then s.engineStep else s)

/-! ### Commands -/

/-- A progress event of the timer: reload, and halted cleared (R104). -/
def State.progress (s : State) : State :=
  s.reload.setEst { s.reload.est with halted := false }

/-- OPEN at its taking: the refusals of Table 6.2 in order (R84), else a frame is pushed (R85). The
filter is not written but at a wrap; no entry carries the new serial, so every entry becomes STALE
(R57, R85). -/
def openAct : Act := fun _ s =>
  if !s.dsqReady then (s, .refused .notReady)
  else if s.rollbackInProgress || s.holdsProtectedWrite then (s, .busy)
  else if s.ulc.pages = 0 then (s, .refused .noLog)
  else if Config.stackCapacity ≤ s.depth then (s, .refused .stackFull)
  else
    let a := s.allocation
    let f : Frame := { depth := s.depth + 1, serial := a.serial, start := s.ulc.head, broken := false }
    let s1 := s.setEsu { s.esu with
        stack := f :: s.esu.stack, nextSerial := a.next, carried := s.carriedAfter a }
    let s2 := if a.wrapped then s1.emptyFilter else s1
    (s2.progress, .done (beBytes 2 f.serial ++ [BitVec.ofNat 8 f.depth]))

/-- COMMIT at its taking (R86): the outermost frame is popped with the log and the filter emptied
(R74, R61); a nested one is popped and the frame below adopts its serial (R87). The entries under the
serial it gives up stay in the filter as they are, STALE for good (R58). -/
def commitAct : Act := fun _ s =>
  if s.rollbackInProgress then (s, .busy)
  else
    match s.esu.stack with
    | [] => (s, .refused .stackEmpty)
    | [_] =>
      (((s.setEsu (s.esu.withStack [])).setUlc { s.ulc with head := 0 }).emptyFilter.progress,
        .done [])
    | top :: below :: rest =>
      ((s.setEsu (s.esu.withStack ({ below with serial := top.serial } :: rest))).progress, .done [])

/-- The refusals of ROLLBACK and ROLLBACK_ALL, in order (R88, R89). -/
def State.rollbackRefusal (s : State) : Option Answer :=
  if s.depth = 0 then some (.refused .stackEmpty)
  else if s.rollbackInProgress then some .busy
  else if s.topBroken then some (.refused .broken)
  else none

/-- ROLLBACK at its taking (R88). -/
def rollbackAct : Act := fun _ s =>
  match s.rollbackRefusal with
  | some a => (s, a)
  | none => (s.startRollback .single, .started)

/-- ROLLBACK_ALL at its taking (R89). -/
def rollbackAllAct : Act := fun _ s =>
  match s.rollbackRefusal with
  | some a => (s, a)
  | none => (s.startRollback .all, .started)

/-- Frame d, counted from 1 at the bottom (R80). -/
def State.frameAt (s : State) (d : Nat) : Option Frame :=
  if d = 0 then none else s.esu.stack.reverse[d - 1]?

/-- FRAME_READ at its taking (R90). -/
def frameReadAct : Act := fun args s =>
  match s.frameAt (argByte args 0).toNat with
  | some f => (s, .done f.bytes)
  | none => (s, .refused .badArg)

/-- OPEN (R84, R85). -/
def execOpenEpoch (s : State) : Out := .next (takeAtCode 0x30 openAct s)

/-- COMMIT (R86, R87). -/
def execCommit (s : State) : Out := .next (takeAtCode 0x31 commitAct s)

/-- ROLLBACK (R88). -/
def execRollback (s : State) : Out := .next (takeAtCode 0x32 rollbackAct s)

/-- ROLLBACK_ALL (R89). -/
def execRollbackAll (s : State) : Out := .next (takeAtCode 0x33 rollbackAllAct s)

/-- FRAME_READ (R90): 1 argument byte. -/
def execFrameRead (last : Byte) (s : State) : Out := .next (takeAtLast 0x34 1 last frameReadAct s)

end Sys2Proof.Machine
end

