-- ==== Sys2Proof/Machine/Supervision.lean ====
section
/-! DEFINITION. The epoch supervision timer (chapter 7): its commands, its expiry, and what it does at
a host reset. -/
namespace Sys2Proof.Machine

/-- SUPERVISE_SET at its taking (R105). -/
def superviseSetAct : Act := fun args s =>
  let period := argField args 1 2
  if s.est.lock then (s, .refused .locked)
  else if s.est.running then (s, .busy)
  else
    match supModeOf (argByte args 0) with
    | some mode =>
      if period = 0 then (s, .refused .badArg)
      else (s.setEst { s.est with mode := mode, periodMs := period }, .done [])
    | none => (s, .refused .badArg)

/-- The modes that lock the timer (R106). -/
def SupMode.rollsBack : SupMode → Bool
  | .off => false
  | .notify => false
  | .rollback => true
  | .rollbackReset => true

/-- SUPERVISE_START at its taking (R106). -/
def superviseStartAct : Act := fun _ s =>
  if s.est.lock then (s, .refused .locked)
  else if s.est.mode = .off then (s, .refused .state)
  else
    (s.reload.setEst { s.reload.est with running := true, lock := s.est.mode.rollsBack }, .done [])

/-- SUPERVISE_STOP at its taking (R107). -/
def superviseStopAct : Act := fun _ s =>
  if s.est.lock then (s, .refused .locked)
  else (s.setEst { s.est with running := false }, .done [])

/-- KICK at its taking (R108). -/
def kickAct : Act := fun _ s => (s.progress, .done [])

/-- SUPERVISE_SET (R105): 3 argument bytes. -/
def execSuperviseSet (last : Byte) (s : State) : Out := .next (takeAtLast 0x40 3 last superviseSetAct s)

/-- SUPERVISE_START (R106). -/
def execSuperviseStart (s : State) : Out := .next (takeAtCode 0x41 superviseStartAct s)

/-- SUPERVISE_STOP (R107). -/
def execSuperviseStop (s : State) : Out := .next (takeAtCode 0x42 superviseStopAct s)

/-- KICK (R108). -/
def execKick (s : State) : Out := .next (takeAtCode 0x43 kickAct s)

/-- The rollback action of an expiry (R110): halted under a broken top; else a SUPERVISION rollback,
for which ROLLBACK_RESET drives HRSTO_N unless it ended at this event (R111). -/
def State.expiryRollback (s : State) : State :=
  if s.topBroken then
    (s.setEst { s.est with halted := true }).setEsu { s.esu with lastOutcome := .haltedBroken }
  else
    let s1 := s.startRollback .supervision
    if s1.rollbackInProgress && s.est.mode == .rollbackReset then
      s1.setEst { s1.est with hrstoDriven := true }
    else s1

/-- SUPERVISION_EXPIRY: the remaining time reaches 0 while the timer counts (R103, R109). A timer in
mode OFF never counts (R102, log 22). -/
def execSupervisionExpiry (s : State) : Out :=
  .next (if s.counting then
    let s1 := (s.advance s.est.remainingNs).raise .supervision
    match s.est.mode with
    | .off => s1
    | .notify => s1.reload
    | .rollback => s1.expiryRollback
    | .rollbackReset => s1.expiryRollback
  else s)

/-- What the timer does at an assertion of HRST_N (Table 7.4, R115, R116). -/
def State.recover (s : State) : State :=
  if s.est.recovery = .rollbackAll ∧ 0 < s.depth then
    if s.rollbackInProgress then
      match s.esu.engine.kind with
      | some .single => s.setEngine { s.esu.engine with kind := some .recovery }
      | some .all => s.setEngine { s.esu.engine with kind := some .recovery }
      | some .supervision => s
      | some .recovery => s
      | none => s
    else s.startRollback .recovery
  else s

end Sys2Proof.Machine
end

