-- ==== Sys2Proof/Machine/Resets.lean ====
section
/-! DEFINITION. Host reset (R9 to R13, R48, R115) and device reset (R163) with the pins and the supply
that cause them. -/
namespace Sys2Proof.Machine

/-- At the event at which a device reset takes effect every block takes its values after device reset
(R163). Pin levels, the last cause and the responses the master has already taken stay; the DRAM
holds no known data from now on (log 6). With the event unit the WATCH flag and the watch capture are
cleared (R151, R155, R163; R51 is read with them: DEDUCED, log 30). With MCS_N low the frame in progress
is discarded and MDO carries 0x00 (DESIGN CHOICE, log 29). -/
def State.deviceReset (s : State) : State :=
  { s with
    slp := { Slp.reset with gateOpen := !s.pins.hrstAsserted, delivered := s.slp.delivered }
    rmap := Rmap.reset
    rqp := Rqp.reset
    fwf := Fwf.reset
    ulc := Ulc.reset
    esu := Esu.reset
    est := Est.reset
    dsq := Dsq.reset
    evu := Evu.reset
    mlp := { s.mlp with frame := none, mdo := if s.pins.mcsLow then some 0 else none }
    dram := []
    dramGeneration := s.dramGeneration + 1 }

/-- The end of a device reset: the cause is recorded, and the host reset gate is set from the level of
HRST_N (R13, R163). -/
def State.leaveReset (s : State) (cause : ResetCause) : State :=
  { s with
    resetPhase := .running
    slp := { s.slp with gateOpen := !s.pins.hrstAsserted }
    mlp := { s.mlp with lastCause := cause } }

/-- What the system link port and the request path do at an assertion of HRST_N (R10, R48). -/
def State.hostResetLink (s : State) : State :=
  let kept := (s.slp.queue.filter (fun e => e.mark == .inService)).map
    (fun e => { e with dropped := true })
  let s1 := s.setSlp { s.slp with queue := kept, gateOpen := false }
  let s2 := s1.raise .hostReset
  if s2.rqpInFlight then s2 else s2.dropRequest

/-- HOST_RESET_ASSERT: the level of HRST_N becomes asserted. During a device reset that is no event
(R13); otherwise it reaches the link port, the request path and the timer (R10, R48, R115). A pin
already asserted is not asserted again (log 1). -/
def execHostResetAssert (s : State) : Out :=
  .next (if s.pins.hrstAsserted then s
  else
    let s1 := s.setPins { s.pins with hrstAsserted := true }
    if s1.inReset then s1 else s1.hostResetLink.recover)

/-- HOST_RESET_RELEASE: the gate opens (R12); during a device reset only the level changes (R13). -/
def execHostResetRelease (s : State) : Out :=
  .next (if s.pins.hrstAsserted then
    let s1 := s.setPins { s.pins with hrstAsserted := false }
    if s1.inReset then s1 else s1.setSlp { s1.slp with gateOpen := true }
  else s)

/-- POWER_ON: the supply rises and a power-on reset begins (R163, log 18). -/
def execPowerOn (s : State) : Out := .next (s.deviceReset.setResetPhase .powerOn)

/-- POWER_ON_RESET_END: the part leaves its power-on reset; while DRST_N is asserted the reset lasts
until its release (R163). -/
def execPowerOnResetEnd (s : State) : Out :=
  .next (match s.resetPhase with
    | .powerOn =>
      if s.pins.drstAsserted then s.setResetPhase .powerOnHeld else s.leaveReset .powerOn
    | .running => s
    | .powerOnHeld => s
    | .pin => s)

/-- DRST_N_ASSERT: a device reset starts; a power-on reset in progress goes on (R163). -/
def execDrstNAssert (s : State) : Out :=
  .next (if s.pins.drstAsserted then s
  else
    let s1 := s.setPins { s.pins with drstAsserted := true }
    match s.resetPhase with
    | .running => s1.deviceReset.setResetPhase .pin
    | .powerOn => s1
    | .powerOnHeld => s1
    | .pin => s1)

/-- DRST_N_RELEASE: the part leaves the reset; the cause is RESET_PIN, or POWER_ON for a power-on
reset that the pin prolonged (R163). -/
def execDrstNRelease (s : State) : Out :=
  .next (if s.pins.drstAsserted then
    let s1 := s.setPins { s.pins with drstAsserted := false }
    match s.resetPhase with
    | .pin => s1.leaveReset .resetPin
    | .powerOnHeld => s1.leaveReset .powerOn
    | .powerOn => s1
    | .running => s1
  else s)

end Sys2Proof.Machine
end

