-- ==== Sys2Proof/Machine/Events.lean ====
section
/-! DEFINITION. The event unit (chapter 10): the fault queue, the flag commands, the watch capture. -/
namespace Sys2Proof.Machine

/-- A fault record handed to the event unit is appended and raises FAULT, or is dropped and raises
OVERRUN (R149). -/
def State.recordFault (s : State) (r : FaultRecord) : State :=
  if s.evu.faults.length < Config.faultCapacity then
    (s.setEvu { s.evu with faults := s.evu.faults ++ [r] }).raise .fault
  else s.raise .overrun

/-- A watch match raises WATCH, and fills the capture if it is empty (R51, R155). Of the events that
cut the request short only a device reset withdraws the two (log 30). -/
def State.captureWatch (s : State) (c : Capture) : State :=
  (s.setEvu { s.evu with capture := some (s.evu.capture.getD c) }).raise .watch

/-- FAULT_POP at its taking (R150): presence 0, or presence 1 and the oldest record. -/
def faultPopAct : Act := fun _ s =>
  match s.evu.faults with
  | [] => (s, .done [0])
  | r :: rest => (s.setEvu { s.evu with faults := rest }, .done (1 :: r.bytes))

/-- EVENTS_READ at its taking (R153): flags, masks, capture presence and capture; the capture bytes
read 0 when there is none (R164). -/
def eventsReadAct : Act := fun _ s =>
  (s, .done (beBytes 2 s.evu.flags.toNat ++ beBytes 2 s.evu.masks.toNat ++
    (match s.evu.capture with
      | some c => 1 :: c.bytes
      | none => 0 :: List.replicate 7 0)))

/-- EVENTS_CLEAR at its taking (R154): the named flags are made clear; with WATCH the capture is
emptied (R155). -/
def eventsClearAct : Act := fun args s =>
  let set := flagSetOf (beNat args)
  (s.setEvu { s.evu with
      flags := s.evu.flags &&& ~~~set
      capture := if set.getLsbD Flag.watch.bit then none else s.evu.capture }, .done [])

/-- MASK_WRITE at its taking (R152): all 11 masks are replaced. -/
def maskWriteAct : Act := fun args s =>
  (s.setEvu { s.evu with masks := flagSetOf (beNat args) }, .done [])

/-- FAULT_POP (R150). -/
def execFaultPop (s : State) : Out := .next (takeAtCode 0x50 faultPopAct s)

/-- EVENTS_READ (R153). -/
def execEventsRead (s : State) : Out := .next (takeAtCode 0x51 eventsReadAct s)

/-- EVENTS_CLEAR (R154): 2 argument bytes. -/
def execEventsClear (last : Byte) (s : State) : Out := .next (takeAtLast 0x52 2 last eventsClearAct s)

/-- MASK_WRITE (R152): 2 argument bytes. -/
def execMaskWrite (last : Byte) (s : State) : Out := .next (takeAtLast 0x53 2 last maskWriteAct s)

end Sys2Proof.Machine
end

