-- ==== Sys2Proof/Machine/Request.lean ====
section
/-! DEFINITION. Requests and the request path (chapters 1 and 3): acceptance, the check, reads,
direct writes, logging writes, the watch comparator. -/
namespace Sys2Proof.Machine

/-! ### The lines of a request (R2, R3) -/

/-- The request covers a second line (R2). -/
def coversTwoLines (r : Request) : Bool := decide (64 < r.addr.toNat % 64 + 8 * r.beats)

/-- Number of beats that fall in the first line (R2). -/
def beatsInFirstLine (r : Request) : Nat :=
  if coversTwoLines r then (64 - r.addr.toNat % 64) / 8 else r.beats

/-- The covered lines in address order, each with its beats (R2, R36). -/
def coveredParts (r : Request) : List LinePart :=
  let n := beatsInFirstLine r
  let first : LinePart :=
    { line := r.addr.toNat / 64, startBeat := r.addr.toNat % 64 / 8, beats := n,
      wbeats := r.wbeats.take n }
  if coversTwoLines r then
    [first,
      { line := r.addr.toNat / 64 + 1, startBeat := 0, beats := r.beats - n,
        wbeats := r.wbeats.drop n }]
  else [first]

/-- A beat is touched where some enable is set (R3). -/
def beatTouched (b : Beat) : Bool := b.enables.toList.any id

/-- A covered line is touched: always for a READ, for a WRITE where some beat in it is (R3). -/
def LinePart.touched (p : LinePart) (kind : Kind) : Bool :=
  match kind with
  | .read => true
  | .write => p.wbeats.any beatTouched

/-- The touched lines in address order (R3). -/
def touchedParts (r : Request) : List LinePart :=
  (coveredParts r).filter (fun p => p.touched r.kind)

/-- The line operation for a touched line (R36). -/
def lineOp (kind : Kind) (p : LinePart) : MemOp :=
  { client := .rqp, kind := kind, line := p.line, startBeat := p.startBeat, beats := p.beats,
    mask := p.wbeats.flatMap (fun b => b.enables.toList),
    data := p.wbeats.flatMap (fun b => b.data.toList) }

/-! ### The chain of a request past the check -/

/-- The DATA stage begins with the first touched line (R36, R44). -/
def State.goData (s : State) (c : Current) : State :=
  match c.touched with
  | [] => s.respond (.okay [])
  | p :: _ =>
    (s.setRqp { s.rqp with
        stage := .data
        current := some { c with left := c.touched, missed := [], record := none } }).issue
      (lineOp c.req.kind p)

/-- The next missed line is read, or the DATA stage begins where none is left or the depth has
become 0 (R42, R46). -/
def State.nextMissed (s : State) (c : Current) : State :=
  match c.missed with
  | [] => s.goData c
  | line :: _ =>
    if s.depth = 0 then s.goData c
    else
      (s.setRqp { s.rqp with stage := .logRead, current := some { c with record := none } }).issue
        { client := .rqp, kind := .read, line := line, startBeat := 0, beats := 8, mask := [], data := [] }

/-- The LOG_READ completes: the record takes index head and its data slot is written with the old
image; at depth 0 the logging is given up (R42, R46). -/
def State.logReadDone (s : State) (c : Current) (image : List Byte) : State :=
  if s.depth = 0 then s.goData c
  else
    let ref := s.ulc.recordRef s.ulc.head
    (s.setRqp { s.rqp with stage := .logData, current := some { c with record := some ref } }).issue
      { client := .rqp, kind := .write, line := ref.dataLine, startBeat := 0, beats := 8,
        mask := List.replicate 64 true, data := image }

/-- The LOG_DATA write completes: the header of the record is written, with the top serial and the
depth as they stand now (R43, R70). -/
def State.logDataDone (s : State) (c : Current) : State :=
  match c.missed.head?, c.record with
  | some line, some ref =>
    (s.setRqp { s.rqp with stage := .logHeader }).issue
      { client := .rqp, kind := .write, line := ref.headerLine, startBeat := ref.headerBeat, beats := 1,
        mask := List.replicate 8 true, data := headerBytes line s.topSerial s.depth }
  | _, _ => s

/-- The record counts where the depth is above 0: the head rises and, under ON, the filter is filled
(R43, R46, R55, R72). The broken mark of the top is not asked: where a nested COMMIT has put a broken
frame on top while the header was in flight, the fill is made (DEDUCED, log 28; R65). -/
def State.countRecord (s : State) (c : Current) : State :=
  if s.depth = 0 then s
  else
    match c.missed.head? with
    | some line => s.headRise.setFwf (s.fwf.fill line s.topSerial)
    | none => s.headRise

/-- A line operation of the DATA stage completes: the next touched line, or OKAY (R36, R37, R44). -/
def State.lineDone (s : State) (c : Current) (data : List Byte) : State :=
  let got := c.readData ++ data
  match c.left.tail with
  | [] => s.respond (.okay got)
  | p :: more =>
    (s.setRqp { s.rqp with current := some { c with left := p :: more, readData := got } }).issue
      (lineOp c.req.kind p)

/-- The request path acts on the completion of its operation (R31). For a dropped request it issues
nothing more and drops the request; a header write that completes counts first (R48). -/
def State.rqpComplete (s : State) (data : List Byte) : State :=
  match s.rqp.current with
  | none => s
  | some c =>
    if s.serviceDropped then
      (match s.rqp.stage with
        | .logHeader => s.countRecord c
        | _ => s).dropRequest
    else
      match s.rqp.stage with
      | .logRead => s.logReadDone c data
      | .logData => s.logDataDone c
      | .logHeader => (s.countRecord c).nextMissed { c with missed := c.missed.tail, record := none }
      | .data => s.lineDone c data
      | .waiting => s
      | .check => s

/-! ### The check (R32 to R41) -/

/-- A classified line that a rollback holds: TRACKED, GUARDED or LOG (R33). -/
def Classification.heldByRollback (k : Classification) : Bool :=
  k.cls == .tracked || k.cls == .guarded || k.cls == .log

/-- A request answered FAULT: its record goes to the event unit, then the response to the master
(R34, R40). -/
def State.faultRequest (s : State) (r : Request) (k : FaultKind) (region : RegionIndex) : State :=
  (s.recordFault
    { fault := k, kind := r.kind, addr := r.addr, beats := r.beats, region := region,
      depth := s.depth, topSerial := s.topSerial }).respond .fault

/-- The request matches the watch comparator (R51). -/
def State.watchMatches (s : State) (r : Request) (touched : List LinePart) : Bool :=
  let w := s.rqp.watch
  w.enabled && (match r.kind with | .read => w.matchReads | .write => w.matchWrites) &&
    touched.any (fun p => decide (w.firstLine ≤ p.line) && decide (p.line ≤ w.lastLine))

/-- The watch comparator sees a request that has passed its check (R51). -/
def State.watchRequest (s : State) (r : Request) (touched : List LinePart) : State :=
  if s.watchMatches r touched then
    s.captureWatch { addr := r.addr, kind := r.kind, beats := r.beats, depth := s.depth }
  else s

/-- Every frame is marked broken and BROKEN is raised (R41, R83). -/
def State.breakFrames (s : State) : State :=
  (s.setEsu { s.esu with stack := s.esu.stack.map (fun f => { f with broken := true }) }).raise .broken

/-- The missed lines of a logging write (R39, R64). -/
def State.missedLines (s : State) (touched : List LinePart) : List Nat :=
  let lines := touched.map LinePart.line
  match s.fwf.mode with
  | .on => lines.filter (fun l => !s.fwf.hit l s.topSerial)
  | .bypass => lines

/-- The service of a request that has passed its checks, but for the room check (Table 3.4, R35). -/
def State.serviceFor (s : State) (r : Request) (cls : LineClass) : Service :=
  match r.kind with
  | .read => .read
  | .write =>
    if (cls == .tracked || cls == .guarded) && decide (0 < s.depth) && !s.topBroken then .loggingWrite
    else .directWrite

/-- The request becomes the request path's current request and its first operation is issued (R31). -/
def State.serve (s : State) (c : Current) : State :=
  (s.watchRequest c.req c.touched).nextMissed c

/-- The service is settled (R35); a logging write has its lookup (R39) and its room check (R40, R41). -/
def State.settle (s : State) (r : Request) (classes : List Classification) (first : Classification) :
    State :=
  let touched := touchedParts r
  let base : Current :=
    { req := r, classes := classes, touched := touched, service := s.serviceFor r first.cls,
      logFrame := none, missed := [], record := none, left := [], readData := [] }
  if touched.isEmpty then s.respond (.okay [])
  else
    match s.serviceFor r first.cls with
    | .read => s.serve base
    | .directWrite => s.serve base
    | .loggingWrite =>
      let missed := s.missedLines touched
      if s.hasRoom missed.length then
        s.serve { base with logFrame := some (s.depth, s.topSerial), missed := missed }
      else
        match s.ulc.fullPolicy with
        | .refuse => s.faultRequest r .logFull first.region
        | .brk => s.breakFrames.serve { base with service := .directWrite }

/-- The check event (R32 to R35). -/
def State.checkRequest (s : State) (r : Request) : State :=
  if !s.dsqReady then s.respond .retry
  else
    let classes := (coveredParts r).map (fun p => s.classify p.line)
    if s.rollbackInProgress && classes.any Classification.heldByRollback then s.respond .retry
    else
      match classes with
      | [] => s.respond .retry
      | first :: more =>
        match requestCheck r.kind first more.head? s.rmap.alignCheck s.depth with
        | some (k, region) => s.faultRequest r k region
        | none => s.settle r classes first

/-- REQUEST_ACCEPT: the request is appended at the back of the queue, or withheld with nothing
recorded (R1, R6). A request the link cannot carry is not presented (log 12). -/
def execRequestAccept (r : Request) (s : State) : Out :=
  .next (if r.wellFormed && decide (s.slp.queue.length < Config.queueCapacity) && s.slp.gateOpen &&
      !s.inReset then
    s.setSlp { s.slp with queue := s.slp.queue ++ [{ req := r, mark := .waiting, dropped := false }] }
  else s)

/-- The request path can take the oldest entry (R7). -/
def State.takeDue (s : State) : Bool :=
  s.rqp.stage == .waiting && s.rqp.current.isNone &&
    (match s.slp.queue.head? with
      | some e => e.mark == .waiting
      | none => false)

/-- REQUEST_TAKE: the oldest entry is marked IN_SERVICE and checked (R7, R31, log 20). -/
def execRequestTake (s : State) : Out :=
  .next (if s.takeDue then
    (match s.slp.queue with
      | e :: rest =>
        (s.setSlp { s.slp with queue := { e with mark := .inService } :: rest }).checkRequest e.req
      | [] => s)
  else s)

/-- WATCH_SET at its taking (R50). -/
def watchSetAct : Act := fun args s =>
  let f := argByte args 0
  let first := argField args 1 4
  let last := argField args 5 4
  if last < first ∨ Config.maxWatchLine < first ∨ Config.maxWatchLine < last then (s, .refused .badArg)
  else
    (s.setRqp { s.rqp with watch :=
        { enabled := f.getLsbD 0, matchReads := f.getLsbD 1, matchWrites := f.getLsbD 2,
          firstLine := first, lastLine := last } }, .done [])

/-- WATCH_SET (R50): 9 argument bytes. -/
def execWatchSet (last : Byte) (s : State) : Out := .next (takeAtLast 0x22 9 last watchSetAct s)

end Sys2Proof.Machine
end

