-- ==== Sys2Proof/Machine/Sequencer.lean ====
section
/-! DEFINITION. The DRAM sequencer (chapters 8 and 9): set-up, initialization, banks, operations, the
arbiter, refresh and the activation window. -/
namespace Sys2Proof.Machine

/-! ### Set-up commands -/

/-- GEOMETRY at its taking (R118). -/
def geometryAct : Act := fun args s =>
  if s.dsq.geometry.isSome then (s, .refused .alreadySet)
  else
    match geometryOf (beNat args) with
    | some g => (s.setDsq { s.dsq with geometry := some g }, .done [])
    | none => (s, .refused .badArg)

/-- The seven values of TIMING, in the order of Table 8.3 (Table 11.1). -/
def timingOf (args : List Byte) : TimingSet :=
  { openWait := argField args 0 2, closeWait := argField args 2 2, closeAllWait := argField args 4 2,
    writeGuard := argField args 6 2, bankRefreshWait := argField args 8 2,
    actWindow := argField args 10 2, refreshTick := argField args 12 2 }

/-- A value lies in a range, both ends included. -/
def inRange (v lo hi : Nat) : Bool := decide (lo ≤ v) && decide (v ≤ hi)

/-- Every value lies in its range (Table 8.3); CLOSE_ALL_WAIT is judged against the CLOSE_WAIT beside
it, and REFRESH_TICK is a multiple of 500 (R120). -/
def TimingSet.legal (t : TimingSet) : Bool :=
  inRange t.openWait 5 100 && inRange t.closeWait 5 100 && inRange t.closeAllWait t.closeWait 150 &&
    inRange t.writeGuard 5 100 && inRange t.bankRefreshWait 30 500 && inRange t.actWindow 10 200 &&
    inRange t.refreshTick 500 16000 && t.refreshTick % 500 == 0

/-- TIMING at its taking (R120). -/
def timingAct : Act := fun args s =>
  if s.dsq.state ≠ .uninit then (s, .refused .state)
  else if !(timingOf args).legal then (s, .refused .badArg)
  else (s.setDsq { s.dsq with timing := timingOf args }, .done [])

/-- DRAM_INIT at its taking (R122). -/
def dramInitAct : Act := fun _ s =>
  if s.dsq.state ≠ .uninit then (s, .refused .state)
  else if s.dsq.geometry.isNone then (s, .refused .notReady)
  else (s.setDsq { s.dsq with state := .initWait (s.now + Config.initWaitNs) }, .started)

/-- GEOMETRY (R118): 2 argument bytes. -/
def execGeometry (last : Byte) (s : State) : Out := .next (takeAtLast 0x10 2 last geometryAct s)

/-- TIMING (R120): 14 argument bytes. -/
def execTiming (last : Byte) (s : State) : Out := .next (takeAtLast 0x11 14 last timingAct s)

/-- DRAM_INIT (R122). -/
def execDramInit (s : State) : Out := .next (takeAtCode 0x12 dramInitAct s)

/-! ### Initialization -/

/-- A per-bank refresh takes a bank to REFRESHING (R130). -/
def State.refreshBank (s : State) (b : Fin 8) : State :=
  s.setBank b { s.bank b with state := .refreshing (s.now + s.dsq.timing.bankRefreshWait) }

/-- A bank returns to IDLE. -/
def State.idleBank (s : State) (b : Fin 8) : State := s.setBank b { s.bank b with state := .idle }

/-- The sequencer enters READY (R124, R138). -/
def State.enterReady (s : State) : State :=
  (s.setDsq { s.dsq with
      state := .ready, owed := 0, pointer := 0
      tick := some (s.now + s.dsq.timing.refreshTick) }).raise .dramReady

/-- INIT_WAIT_EXPIRY: the close-all is issued and its wait starts (R123). -/
def execInitWaitExpiry (s : State) : Out :=
  .next (match s.dsq.state with
    | .initWait till =>
      let s1 := s.advanceTo till
      s1.setDsq { s1.dsq with state := .closeAllWait (s1.now + s1.dsq.timing.closeAllWait) }
    | _ => s)

/-- CLOSE_ALL_WAIT_EXPIRY: INIT_REFRESH is entered and the refresh of bank 0 begins (R123, R124). -/
def execCloseAllWaitExpiry (s : State) : Out :=
  .next (match s.dsq.state with
    | .closeAllWait till =>
      let s1 := s.advanceTo till
      (s1.setDsq { s1.dsq with state := .initRefresh 0 }).refreshBank 0
    | _ => s)

/-- INIT_REFRESH_EXPIRY: the bank returns to IDLE and the next is refreshed; after bank 7 the sequencer
enters READY (R124). -/
def execInitRefreshExpiry (s : State) : Out :=
  .next (match s.dsq.state with
    | .initRefresh b =>
      (match (s.bank b).state with
        | .refreshing till =>
          let s1 := (s.advanceTo till).idleBank b
          if b = 7 then s1.enterReady
          else (s1.setDsq { s1.dsq with state := .initRefresh (b + 1) }).refreshBank (b + 1)
        | _ => s)
    | _ => s)

/-! ### The arbiter (R132) -/

/-- The waiting operation that the arbiter would start: the only one, or on a tie that of the client
not served last (R132). -/
def State.arbiterPick (s : State) : Option MemOp :=
  match s.dsq.waitRqp, s.dsq.waitRollback with
  | some a, some b => some (match s.dsq.turn with | .rqp => b | .rollback => a)
  | some a, none => some a
  | none, some b => some b
  | none, none => none

/-- The operation the arbiter starts now, if it starts one (R132, R143). -/
def State.startable (s : State) : Option MemOp :=
  if s.dsq.current.isNone && decide (s.dsq.owed < Config.owedLimit) then s.arbiterPick else none

/-- OPERATION_START: the operation stops waiting and becomes current, and the turn names its client
(R132). -/
def execOperationStart (s : State) : Out :=
  .next (match s.startable with
    | some op =>
      (match op.client with
        | .rqp =>
          s.setDsq { s.dsq with
            current := some { op := op, transfer := none }, waitRqp := none, turn := .rqp }
        | .rollback =>
          s.setDsq { s.dsq with
            current := some { op := op, transfer := none }, waitRollback := none, turn := .rollback })
    | none => s)

/-! ### Banks -/

/-- The row on which the current operation is due to activate its bank now: the bank is IDLE and the
history holds fewer than 4 instants (R127, R133, R146). -/
def State.activationDue (s : State) : Option (Fin 8 × Nat) :=
  match s.dsq.current with
  | some c =>
    let b := bankOfLine c.op.line
    if (s.bank b).state = .idle ∧ s.dsq.history.length < Config.historyCapacity then
      some (b, rowOfLine c.op.line)
    else none
  | none => none

/-- BANK_ACTIVATION (R127): the instant is appended to the history and OPEN_WAIT starts. -/
def execBankActivation (s : State) : Out :=
  .next (match s.activationDue with
    | some (b, row) =>
      let s1 := s.setBank b { s.bank b with state := .opening row (s.now + s.dsq.timing.openWait) }
      s1.setDsq { s1.dsq with history := s1.dsq.history ++ [s.now] }
    | none => s)

/-- OPEN_WAIT_EXPIRY of a bank (R127). -/
def execOpenWaitExpiry (b : Fin 8) (s : State) : Out :=
  .next (match (s.bank b).state with
    | .opening row till => (s.advanceTo till).setBank b { s.bank b with state := .opened row }
    | _ => s)

/-- The refresh target: the bank the pointer names while refresh is owed (R140). -/
def State.refreshTarget (s : State) : Option (Fin 8) :=
  if 0 < s.dsq.owed then some s.dsq.pointer else none

/-- Row conflict: the bank is held by the current operation, whose row is another (R128, R133). -/
def State.rowConflict (s : State) (b : Fin 8) (row : Nat) : Bool :=
  match s.dsq.current with
  | some c => bankOfLine c.op.line == b && rowOfLine c.op.line != row
  | none => false

/-- The arbiter starts an operation for the bank now, which holds it from this event on (R132). -/
def State.startsFor (s : State) (b : Fin 8) : Bool :=
  s.startable.any (fun op => bankOfLine op.line == b)

/-- The close-page condition (R128). An operation that the arbiter starts for the bank at this event
holds it again, and the close does not begin (R135, log 31). -/
def State.closePageDue (s : State) (b : Fin 8) : Bool :=
  s.dsq.pagePolicy == .closePage && !s.held b && !s.startsFor b

/-- The refresh condition (R128, R141). -/
def State.refreshCloseDue (s : State) (b : Fin 8) : Bool := s.refreshTarget == some b && !s.held b

/-- A close of the bank is due: it is OPEN, its write guard is clear and one of the three conditions
holds (R128). -/
def State.closeDue (s : State) (b : Fin 8) : Bool :=
  match (s.bank b).state with
  | .opened row =>
    (s.bank b).guardTill.isNone && (s.rowConflict b row || s.closePageDue b || s.refreshCloseDue b)
  | _ => false

/-- The bank begins its close: CLOSE_WAIT starts (R128). -/
def State.beginClose (s : State) (b : Fin 8) : State :=
  s.setBank b { s.bank b with state := .closing (s.now + s.dsq.timing.closeWait) }

/-- BANK_CLOSE of a bank (R128). -/
def execBankClose (b : Fin 8) (s : State) : Out :=
  .next (if s.closeDue b then s.beginClose b else s)

/-- CLOSE_WAIT_EXPIRY of a bank (R128). -/
def execCloseWaitExpiry (b : Fin 8) (s : State) : Out :=
  .next (match (s.bank b).state with
    | .closing till => (s.advanceTo till).setBank b { s.bank b with state := .idle }
    | _ => s)

/-- WRITE_GUARD_EXPIRY of a bank (R129). -/
def execWriteGuardExpiry (b : Fin 8) (s : State) : Out :=
  .next (match (s.bank b).guardTill with
    | some till => (s.advanceTo till).setBank b { s.bank b with guardTill := none }
    | none => s)

/-! ### Transfers (R134) -/

/-- The transfer of the current operation is due: its bank is OPEN on its row, and the transfer has
not begun (R134). -/
def State.transferDue (s : State) : Bool :=
  match s.dsq.current with
  | some c =>
    c.transfer.isNone && (s.bank (bankOfLine c.op.line)).state == .opened (rowOfLine c.op.line)
  | none => false

/-- TRANSFER_START: the transfer interval begins (R134). -/
def execTransferStart (s : State) : Out :=
  .next (match s.dsq.current with
    | some c =>
      if s.transferDue then
        s.setDsq { s.dsq with current := some { c with transfer := some (s.now + Config.transferNs) } }
      else s
    | none => s)

/-- The sequencer's part of a completion: for WRITE the enabled bytes are in the DRAM and the bank's
write guard is set; the current operation is cleared (R134, R129). -/
def State.finishOp (s : State) (op : MemOp) : State :=
  let b := bankOfLine op.line
  let s1 := s.setDsq { s.dsq with current := none }
  match op.kind with
  | .read => s1
  | .write =>
    (s1.setBank b { s1.bank b with guardTill := some (s.now + s.dsq.timing.writeGuard) }).setDram
      (Memory.writeMasked s.dram op.addr op.mask op.data)

/-- The data that a completion hands to the client: the bytes of the beats of a READ as the DRAM holds
them (R134). -/
def State.opData (s : State) (op : MemOp) : List Byte :=
  match op.kind with
  | .read => s.dramBytes op.addr (8 * op.beats)
  | .write => []

/-- OPERATION_COMPLETE: the end of the transfer, with the client's own response in the same event
(R134). -/
def execOperationComplete (s : State) : Out :=
  .next (match s.dsq.current with
    | some c =>
      (match c.transfer with
        | some till =>
          let s1 := s.advanceTo till
          let s2 := s1.finishOp c.op
          (match c.op.client with
            | .rqp => s2.rqpComplete (s1.opData c.op)
            | .rollback => s2.engineComplete (s1.opData c.op))
        | none => s)
    | none => s)

/-! ### Refresh (chapter 9) -/

/-- REFRESH_TICK_EXPIRY: the owed count rises, or REFRESH_OVERDUE is raised at 8; the next interval
begins (R138, R139). -/
def execRefreshTickExpiry (s : State) : Out :=
  .next (match s.dsq.tick with
    | some till =>
      let s1 := s.advanceTo till
      let s2 := s1.setDsq { s1.dsq with tick := some (s1.now + s1.dsq.timing.refreshTick) }
      if s2.dsq.owed < Config.owedLimit then s2.setDsq { s2.dsq with owed := s2.dsq.owed + 1 }
      else s2.raise .refreshOverdue
    | none => s)

/-- The bank whose refresh is due: the target, IDLE and not held, while no bank is refreshing (R140). -/
def State.refreshDue (s : State) : Option (Fin 8) :=
  match s.refreshTarget with
  | some b =>
    if s.dsq.refreshing = none ∧ (s.bank b).state = .idle ∧ s.held b = false then some b else none
  | none => none

/-- BANK_REFRESH_START: the owed count falls, the pointer advances, the target becomes the refreshing
bank (R140). -/
def execBankRefreshStart (s : State) : Out :=
  .next (match s.refreshDue with
    | some b =>
      let s1 := s.refreshBank b
      s1.setDsq { s1.dsq with
        owed := s1.dsq.owed - 1, pointer := s1.dsq.pointer + 1, refreshing := some b }
    | none => s)

/-- BANK_REFRESH_WAIT_EXPIRY: the bank returns to IDLE and no bank is refreshing (R140). -/
def execBankRefreshWaitExpiry (s : State) : Out :=
  .next (match s.dsq.refreshing with
    | some b =>
      (match (s.bank b).state with
        | .refreshing till =>
          let s1 := (s.advanceTo till).idleBank b
          s1.setDsq { s1.dsq with refreshing := none }
        | _ => s)
    | none => s)

/-- ACT_WINDOW_AGE_OUT: the oldest instant leaves the history once ACT_WINDOW has elapsed (R146). -/
def execActWindowAgeOut (s : State) : Out :=
  .next (match s.dsq.history with
    | t :: rest =>
      let s1 := s.advanceTo (t + s.dsq.timing.actWindow)
      s1.setDsq { s1.dsq with history := rest }
    | [] => s)

end Sys2Proof.Machine
end

