-- ==== Sys2Proof/Machine/Link.lean ====
section
/-! DEFINITION. The management link port (chapter 11): frames, SET_POLICY, STATUS, IDENT,
DEVICE_RESET, unknown codes, and the bytes on MDI and MDO. -/
namespace Sys2Proof.Machine

/-- STATUS' 23 answer bytes (R161, Table 11.6). -/
def State.statusBytes (s : State) : List Byte :=
  [s.dsq.state.code, BitVec.ofNat 8 s.depth] ++ beBytes 4 s.ulc.head ++ beBytes 4 s.logCapacity ++
    beBytes 4 s.ulc.basePage ++ beBytes 2 s.ulc.pages ++
    [rollbackCode s.esu.engine.kind, s.esu.lastOutcome.code, s.est.mode.code,
      flagByte [s.est.running, s.est.lock, s.est.halted],
      flagByte [s.pins.hrstAsserted, s.est.hrstoDriven],
      BitVec.ofNat 8 s.evu.faults.length, s.mlp.lastCause.code]

/-- IDENT at its taking (R162). -/
def identAct : Act := fun _ s => (s, .done identBytes)

/-- STATUS at its taking (R161). -/
def statusAct : Act := fun _ s => (s, .done s.statusBytes)

/-- A code that names no command (R158). -/
def unknownAct : Act := fun _ s => (s, .refused .unknown)

/-- DEVICE_RESET at its taking: only the answer is fixed; the reset takes effect at the rise of MCS_N
(R157, R163). -/
def deviceResetAct : Act := fun _ s => (s, .done [])

/-- Every OPEN bank that meets the close-page condition with a clear guard begins its close, in bank
order (R121). -/
def State.closePages (s : State) : List (Fin 8) → State
  | [] => s
  | b :: rest =>
    (if s.closeDue b && s.closePageDue b then s.beginClose b else s).closePages rest

/-- Each owner takes its policy field (R160, R15, R64, R121, R114). -/
def State.setPolicies (s : State) (dc : DefaultClass) (ac : Bool) (fm : FilterMode) (pp : PagePolicy)
    (rp : RecoveryPolicy) : State :=
  { s with
    rmap := { s.rmap with defaultClass := dc, alignCheck := ac }
    fwf := { s.fwf with mode := fm }
    dsq := { s.dsq with pagePolicy := pp }
    est := { s.est with recovery := rp } }

/-- SET_POLICY at its taking (R160): the refusals in order, else all five fields are replaced, with the
closes that CLOSE_PAGE causes (R121). -/
def setPolicyAct : Act := fun args s =>
  if s.rollbackInProgress then (s, .busy)
  else if 0 < s.depth then (s, .refused .epochOpen)
  else
    match defaultClassOf (argByte args 0), alignCheckOf (argByte args 1), filterModeOf (argByte args 2),
      pagePolicyOf (argByte args 3), recoveryPolicyOf (argByte args 4) with
    | some dc, some ac, some fm, some pp, some rp =>
      ((s.setPolicies dc ac fm pp rp).closePages allBanks, .done [])
    | _, _, _, _, _ => (s, .refused .badArg)

/-- IDENT (R162). -/
def execIdent (s : State) : Out := .next (takeAtCode 0x01 identAct s)

/-- STATUS (R161). -/
def execStatus (s : State) : Out := .next (takeAtCode 0x02 statusAct s)

/-- SET_POLICY (R160): 5 argument bytes. -/
def execSetPolicy (last : Byte) (s : State) : Out := .next (takeAtLast 0x14 5 last setPolicyAct s)

/-- DEVICE_RESET (R163): taken at its code byte. -/
def execDeviceReset (s : State) : Out := .next (takeAtCode 0x7E deviceResetAct s)

/-- UNKNOWN: a code byte that names no command (R158). A code of the table is not this event. -/
def execUnknown (code : Byte) (s : State) : Out :=
  .next (if (argBytes code).isNone then takeAtCode code unknownAct s else s)

/-- What the command of a code does at its taking (Table 11.1). -/
def actOf (code : Byte) : Act :=
  match code.toNat with
  | 0x01 => identAct | 0x02 => statusAct
  | 0x10 => geometryAct | 0x11 => timingAct | 0x12 => dramInitAct | 0x13 => setLogAct
  | 0x14 => setPolicyAct
  | 0x20 => regionWriteAct | 0x21 => regionReadAct | 0x22 => watchSetAct
  | 0x30 => openAct | 0x31 => commitAct | 0x32 => rollbackAct | 0x33 => rollbackAllAct
  | 0x34 => frameReadAct
  | 0x40 => superviseSetAct | 0x41 => superviseStartAct | 0x42 => superviseStopAct | 0x43 => kickAct
  | 0x50 => faultPopAct | 0x51 => eventsReadAct | 0x52 => eventsClearAct | 0x53 => maskWriteAct
  | 0x7E => deviceResetAct
  | _ => unknownAct

/-- FRAME_BEGIN: MCS_N falls and the frame in progress is present and empty; during a device reset the
frame is ignored (R157, R163). -/
def execFrameBegin (s : State) : Out :=
  .next (if s.pins.mcsLow then s
  else
    let s1 := s.setPins { s.pins with mcsLow := true }
    if s1.inReset then s1.setMlp { s1.mlp with frame := none, mdo := none }
    else s1.setMlp { s1.mlp with frame := some MgmtFrame.empty, mdo := none })

/-- The frame in progress carries a DEVICE_RESET that has been taken (R163). -/
def State.carriesDeviceReset (s : State) : Bool :=
  match s.mlp.frame with
  | some f => f.code == some 0x7E && f.answer.isSome
  | none => false

/-- FRAME_END: MCS_N rises and the frame in progress becomes absent, discarded where it was not taken
(R157); a DEVICE_RESET it carried takes effect (R163). -/
def execFrameEnd (s : State) : Out :=
  .next (if s.pins.mcsLow then
    let s1 := (s.setPins { s.pins with mcsLow := false }).setMlp { s.mlp with frame := none, mdo := none }
    if s.carriesDeviceReset then s1.deviceReset.leaveReset .command else s1
  else s)

/-- A byte clocked after the taking: MDI is ignored and MDO carries the next answer byte, then 0x00
(R157). -/
def State.shiftOut (s : State) (f : MgmtFrame) (a : Answer) : State :=
  s.setMlp { s.mlp with
    frame := some { f with shifted := f.shifted + 1 }
    mdo := some (a.bytes.getD f.shifted 0) }

/-- A byte of a frame not taken yet: the code, or an argument byte. Where it is the last byte of its
command the command is taken (R157, log 8). -/
def State.byteIn (s : State) (f : MgmtFrame) (b : Byte) : State :=
  match f.code with
  | none =>
    match argBytes b with
    | some (_ + 1) => s.setMlp { s.mlp with frame := some { f with code := some b }, mdo := some 0 }
    | some 0 => take b [] (actOf b) s
    | none => take b [] unknownAct s
  | some c =>
    if f.args.length + 1 = (argBytes c).getD 0 then take c (f.args ++ [b]) (actOf c) s
    else s.setMlp { s.mlp with frame := some { f with args := f.args ++ [b] }, mdo := some 0 }

/-- BYTE_SHIFTED_IN: a byte on MDI while MCS_N is low (R157). Outside a frame in progress the byte is
ignored and MDO carries 0x00: R163 says so of a frame whose MCS_N fell during a device reset, and the
model holds the rest of a frame that a device reset discarded to the same (DESIGN CHOICE, log 29). -/
def execByteShiftedIn (b : Byte) (s : State) : Out :=
  .next (if s.pins.mcsLow then
    (match s.mlp.frame with
      | some f =>
        (match f.answer with
          | some a => s.shiftOut f a
          | none => s.byteIn f b)
      | none => s.setMlp { s.mlp with mdo := some 0 })
  else s)

end Sys2Proof.Machine
end

