-- ==== Sys2Proof/Machine/Schedule.lean ====
section
/-! DEFINITION. What the part does of its own when no command is pending: the events that are due at
this instant, then the interval that ends next (log 3). -/
namespace Sys2Proof.Machine

/-- A close that the page policy alone asks for waits while a client acts at this same instant and may
issue an operation that is started for the bank (R135, log 31). A refresh's close does not wait: R142
lets it or the start be taken first. -/
def State.pageCloseWaits (s : State) (b : Fin 8) : Bool :=
  s.closePageDue b && !s.refreshCloseDue b && (s.takeDue || s.firstStepDue)

/-- The events of the part's own blocks that are due at this instant. -/
def State.dueEvents (s : State) : List Instr :=
  (if s.takeDue then [.requestTake] else []) ++
  (if s.startable.isSome then [.operationStart] else []) ++
  (if s.transferDue then [.transferStart] else []) ++
  (if s.activationDue.isSome then [.bankActivation] else []) ++
  (allBanks.filter (fun b => s.closeDue b && !s.pageCloseWaits b)).map .bankClose ++
  (if s.refreshDue.isSome then [.bankRefreshStart] else []) ++
  (if s.firstStepDue then [.rollbackFirstStep] else [])

/-- The interval a bank's state runs, with the event at its end. -/
def State.bankInterval (s : State) (b : Fin 8) : List (Nat × Instr) :=
  (match (s.bank b).state with
    | .opening _ till => [(till, .openWaitExpiry b)]
    | .closing till => [(till, .closeWaitExpiry b)]
    | .idle => []
    | .opened _ => []
    | .refreshing _ => []) ++
  (match (s.bank b).guardTill with
    | some till => [(till, .writeGuardExpiry b)]
    | none => [])

/-- The interval that the sequencer's state runs, with the event at its end. -/
def State.seqInterval (s : State) : List (Nat × Instr) :=
  match s.dsq.state with
  | .initWait till => [(till, .initWaitExpiry)]
  | .closeAllWait till => [(till, .closeAllWaitExpiry)]
  | .initRefresh b =>
    (match (s.bank b).state with
      | .refreshing till => [(till, .initRefreshExpiry)]
      | _ => [])
  | .uninit => []
  | .ready => []

/-- The transfer that runs, with the event at its end. -/
def State.transferInterval (s : State) : List (Nat × Instr) :=
  match s.dsq.current with
  | some c =>
    (match c.transfer with
      | some till => [(till, .operationComplete)]
      | none => [])
  | none => []

/-- The per-bank refresh that runs in READY, with the event at its end. -/
def State.refreshInterval (s : State) : List (Nat × Instr) :=
  match s.dsq.refreshing with
  | some b =>
    (match (s.bank b).state with
      | .refreshing till => [(till, .bankRefreshWaitExpiry)]
      | _ => [])
  | none => []

/-- Every running interval: the instant at which it ends, and the event then. -/
def State.intervals (s : State) : List (Nat × Instr) :=
  s.seqInterval ++ s.transferInterval ++ allBanks.flatMap s.bankInterval ++ s.refreshInterval ++
  (match s.dsq.tick with
    | some till => [(till, .refreshTickExpiry)]
    | none => []) ++
  (match s.dsq.history with
    | t :: _ => [(t + s.dsq.timing.actWindow, .actWindowAgeOut)]
    | [] => []) ++
  (if s.counting then [(s.now + s.est.remainingNs, .supervisionExpiry)] else [])

/-- The least end among running intervals. -/
def leastEnd : List (Nat × Instr) → Nat
  | [] => 0
  | [(t, _)] => t
  | (t, _) :: more => min t (leastEnd more)

/-- The events that can take place next: those due now, or else those at the next end of an interval. -/
def State.nextEvents (s : State) : List Instr :=
  match s.dueEvents with
  | [] =>
    let all := s.intervals
    (all.filter (fun x => x.1 == leastEnd all)).map Prod.snd
  | due => due

/-- The event that takes place next: of several, a free value picks one (log 3). -/
def State.nextEvent (s : State) : Option Instr :=
  match s.nextEvents with
  | [] => none
  | [c] => some c
  | c :: more => some ((c :: more).getD (Config.eventChoice s.choices % (more.length + 1)) c)

end Sys2Proof.Machine
end

