-- ==== Sys2Proof/Machine/Dispatch.lean ====
section
/-! DEFINITION. One arm per command: its meaning. -/
namespace Sys2Proof.Machine

def exec (i : Instr) (s : State) : Host.Outcome State Fault Refusal :=
  match i with
  | .requestAccept r => Sys2Proof.Machine.execRequestAccept r s
  | .requestTake => Sys2Proof.Machine.execRequestTake s
  | .operationStart => Sys2Proof.Machine.execOperationStart s
  | .transferStart => Sys2Proof.Machine.execTransferStart s
  | .operationComplete => Sys2Proof.Machine.execOperationComplete s
  | .rollbackFirstStep => Sys2Proof.Machine.execRollbackFirstStep s
  | .hostResetAssert => Sys2Proof.Machine.execHostResetAssert s
  | .hostResetRelease => Sys2Proof.Machine.execHostResetRelease s
  | .powerOn => Sys2Proof.Machine.execPowerOn s
  | .powerOnResetEnd => Sys2Proof.Machine.execPowerOnResetEnd s
  | .drstNAssert => Sys2Proof.Machine.execDrstNAssert s
  | .drstNRelease => Sys2Proof.Machine.execDrstNRelease s
  | .frameBegin => Sys2Proof.Machine.execFrameBegin s
  | .frameEnd => Sys2Proof.Machine.execFrameEnd s
  | .unknown code => Sys2Proof.Machine.execUnknown code s
  | .ident => Sys2Proof.Machine.execIdent s
  | .status => Sys2Proof.Machine.execStatus s
  | .geometry last => Sys2Proof.Machine.execGeometry last s
  | .timing last => Sys2Proof.Machine.execTiming last s
  | .dramInit => Sys2Proof.Machine.execDramInit s
  | .setLog last => Sys2Proof.Machine.execSetLog last s
  | .setPolicy last => Sys2Proof.Machine.execSetPolicy last s
  | .regionWrite last => Sys2Proof.Machine.execRegionWrite last s
  | .regionRead last => Sys2Proof.Machine.execRegionRead last s
  | .watchSet last => Sys2Proof.Machine.execWatchSet last s
  | .openEpoch => Sys2Proof.Machine.execOpenEpoch s
  | .commit => Sys2Proof.Machine.execCommit s
  | .rollback => Sys2Proof.Machine.execRollback s
  | .rollbackAll => Sys2Proof.Machine.execRollbackAll s
  | .frameRead last => Sys2Proof.Machine.execFrameRead last s
  | .superviseSet last => Sys2Proof.Machine.execSuperviseSet last s
  | .superviseStart => Sys2Proof.Machine.execSuperviseStart s
  | .superviseStop => Sys2Proof.Machine.execSuperviseStop s
  | .kick => Sys2Proof.Machine.execKick s
  | .faultPop => Sys2Proof.Machine.execFaultPop s
  | .eventsRead => Sys2Proof.Machine.execEventsRead s
  | .eventsClear last => Sys2Proof.Machine.execEventsClear last s
  | .maskWrite last => Sys2Proof.Machine.execMaskWrite last s
  | .deviceReset => Sys2Proof.Machine.execDeviceReset s
  | .supervisionExpiry => Sys2Proof.Machine.execSupervisionExpiry s
  | .initWaitExpiry => Sys2Proof.Machine.execInitWaitExpiry s
  | .closeAllWaitExpiry => Sys2Proof.Machine.execCloseAllWaitExpiry s
  | .initRefreshExpiry => Sys2Proof.Machine.execInitRefreshExpiry s
  | .bankActivation => Sys2Proof.Machine.execBankActivation s
  | .openWaitExpiry bank => Sys2Proof.Machine.execOpenWaitExpiry bank s
  | .bankClose bank => Sys2Proof.Machine.execBankClose bank s
  | .closeWaitExpiry bank => Sys2Proof.Machine.execCloseWaitExpiry bank s
  | .writeGuardExpiry bank => Sys2Proof.Machine.execWriteGuardExpiry bank s
  | .refreshTickExpiry => Sys2Proof.Machine.execRefreshTickExpiry s
  | .bankRefreshStart => Sys2Proof.Machine.execBankRefreshStart s
  | .bankRefreshWaitExpiry => Sys2Proof.Machine.execBankRefreshWaitExpiry s
  | .actWindowAgeOut => Sys2Proof.Machine.execActWindowAgeOut s
  | .byteShiftedIn b => Sys2Proof.Machine.execByteShiftedIn b s

end Sys2Proof.Machine
end

