-- ==== Sys2Proof/Machine/Step.lean ====
section
/-! DEFINITION. One step: the command at the front of the queue, or, on an empty queue, the part's own
next event (log 3). -/
namespace Sys2Proof.Machine

/-- One step of the part. On an empty queue the event that is due next takes place, and where there is
none the block idles. -/
def step (s : State) : Host.Outcome State Fault Refusal :=
  match s.pending with
  | c :: rest => exec c (s.setPending rest)
  | [] =>
    match s.nextEvent with
    | some c => exec c (s.setChoices (s.choices + 1))
    | none => .next s

/-- The command that a word spells, put at the front of the queue; no word spells one. -/
def State.withFetchWord (s : State) (nbits w : Nat) : State :=
  match decodeTableWord nbits w with
  | some c => s.setPending (c :: s.pending)
  | none => s

end Sys2Proof.Machine
end

