-- ==== Sys2Proof/Safety.lean ====
section
/-! DEFINITION. What holds of the part between events: the invariants the claims use. Each names the
rules it collects. -/
namespace Sys2Proof.Machine

/-- The request queue (R5 to R8): at most 8 entries; entries behind the oldest are WAITING and not
dropped; the request path holds a request exactly when the oldest entry is IN_SERVICE, and it is that
entry's request; CHECK is no resting stage (R31). -/
structure State.QueueInv (s : State) : Prop where
  bounded : s.slp.queue.length ≤ 8
  restWaiting : ∀ e ∈ s.slp.queue.tail, e.mark = .waiting ∧ e.dropped = false
  headServed : ∀ c, s.rqp.current = some c →
    ∃ e, s.slp.queue.head? = some e ∧ e.mark = .inService ∧ e.req = c.req
  headWaiting : s.rqp.current = none →
    ∀ e, s.slp.queue.head? = some e → e.mark = .waiting ∧ e.dropped = false
  stageWaiting : s.rqp.stage = .waiting ↔ s.rqp.current = none
  stageNotCheck : s.rqp.stage ≠ .check

/-- The stages of a log chain (R42, R43). -/
def Stage.logs : Stage → Bool
  | .logRead => true
  | .logData => true
  | .logHeader => true
  | .waiting => false
  | .check => false
  | .data => false

/-- Frames from the top down, against the head above them (R81 to R83): each has the depth of its
place, a serial of 1 to 65535 that no frame below holds, and a start no higher than what lies above;
below a broken frame every frame is broken; with no frame left the start, or head, is 0 (R74). -/
def framesOk : List Frame → Nat → Prop
  | [], above => above = 0
  | f :: rest, above =>
    f.depth = rest.length + 1 ∧ 1 ≤ f.serial ∧ f.serial ≤ 65535 ∧
      f.serial ∉ rest.map Frame.serial ∧ f.start ≤ above ∧
      (f.broken = true → ∀ g ∈ rest, g.broken = true) ∧ framesOk rest f.start

/-- The epoch stack, the log head and the rollback engine (R71, R74, R80 to R83, R91, R92, R47). -/
structure State.StackInv (s : State) : Prop where
  frames : framesOk s.esu.stack s.ulc.head
  depthBound : s.esu.stack.length ≤ 8
  nextLow : 1 ≤ s.esu.nextSerial
  nextHigh : s.esu.nextSerial ≤ 65535
  carriedShort : s.esu.carried.length ≤ 7
  idleStage : s.rqp.current = none → s.rqp.stage = .waiting
  idleKind : s.esu.engine.state = .idle ↔ s.esu.engine.kind = none
  idleRecord : s.esu.engine.state = .idle → s.esu.engine.record = none ∧ s.esu.engine.awaits = false
  busyStack : s.esu.engine.state ≠ .idle → s.esu.stack ≠ []
  busyRecord : s.esu.engine.state = .rbData ∨ s.esu.engine.state = .rbRestore →
    s.esu.engine.record ≠ none
  recordNewest : ∀ r, s.esu.engine.record = some r → r.index + 1 = s.ulc.head ∧
    ∀ f, s.topFrame = some f → f.start ≤ r.index
  awaitsFirst : s.esu.engine.awaits = true →
    s.esu.engine.state = .rbHeader ∧ s.esu.engine.record = none ∧ s.rqp.current ≠ none
  noLogging : s.esu.engine.state ≠ .idle → s.esu.engine.awaits = false → s.rqp.stage.logs = false

/-- The head never exceeds the log capacity (R72, R74): a request in its log chain has room for every
record it still has to write, unless the depth has fallen to 0 (R40, R46), and it is a protected write,
which keeps OPEN off (R45). -/
structure State.RoomInv (s : State) : Prop where
  headInLog : s.ulc.head ≤ s.logCapacity
  chain : s.rqp.stage.logs = true → ∃ c, s.rqp.current = some c ∧ c.missed ≠ [] ∧
    s.holdsProtectedWrite = true ∧ (s.depth = 0 ∨ s.ulc.head + c.missed.length ≤ s.logCapacity)

/-- The supervision timer (R102, R106, R111): it is locked exactly while it runs in a mode that rolls
back; halted is yes only while locked; a SUPERVISION rollback and the drive of HRSTO_N belong to such
a timer. -/
structure State.TimerInv (s : State) : Prop where
  runningMode : s.est.running = true → s.est.mode ≠ .off
  lockIff : s.est.lock = (s.est.running && s.est.mode.rollsBack)
  haltedLocked : s.est.halted = true → s.est.lock = true
  supervisionLocked : s.esu.engine.kind = some .supervision → s.est.lock = true
  driveOnly : s.est.hrstoDriven = true →
    s.esu.engine.kind = some .supervision ∧ s.est.mode = .rollbackReset

/-- No two enabled descriptors share a page, and none shares a page with the log area (R16). -/
structure State.RegionsInv (s : State) : Prop where
  descsApart : ∀ i j page, (s.desc i).coversPage page = true → (s.desc j).coversPage page = true → i = j
  logApart : ∀ i page, (s.desc i).coversPage page = true → s.ulc.coversPage page = false

/-- Descriptors and log area lie within the capacity (R14, R18, R66): a descriptor's pages are in order
and below the capacity, or both 0; the log area has at most 4096 pages, ends at the capacity at most,
and its threshold is at most its records. A sequencer that has left UNINIT has its geometry (R118). -/
structure State.CapacityInv (s : State) : Prop where
  descOrder : ∀ i, (s.desc i).basePage ≤ (s.desc i).lastPage
  descEnd : ∀ i, (s.desc i).lastPage < s.capacityPages ∨ (s.desc i).lastPage = 0
  logSize : s.ulc.pages ≤ 4096
  logEnd : s.ulc.pages = 0 ∨ s.ulc.basePage + s.ulc.pages ≤ s.capacityPages
  threshold : s.ulc.threshold ≤ 56 * s.ulc.pages
  geometrySet : s.dsq.state ≠ .uninit → s.dsq.geometry ≠ none

/-- The allocator does not give this serial again before it wraps, or wraps in giving it: it lies behind
next serial, or is carried, or is 65535 (R63, R82, log 27). -/
def Esu.spent (e : Esu) (n : Nat) : Prop := n < e.nextSerial ∨ n ∈ e.carried ∨ n = 65535

/-- The first-write filter. While no epoch is open it holds no valid entry (R61), and no serial is
carried. A line is held in its own set only (R53). The serials of the frames and of the valid entries
are spent, so that a serial that has left the stack does not return to the top before the filter is
emptied (R57, R58, R63). -/
structure State.FilterInv (s : State) : Prop where
  closed : s.esu.stack = [] → ∀ i w, (s.fwf.entry i w).valid = false
  closedCarried : s.esu.stack = [] → s.esu.carried = []
  ownSet : ∀ i w, (s.fwf.entry i w).valid = true → setOfLine (s.fwf.entry i w).line = i
  framesSpent : ∀ f ∈ s.esu.stack, s.esu.spent f.serial
  entriesSpent : ∀ i w, (s.fwf.entry i w).valid = true →
    s.esu.spent (s.fwf.entry i w).serial

/-- WATCH is pending exactly when the watch capture is full (R155). -/
def State.WatchInv (s : State) : Prop := s.evu.capture.isSome = s.isPending .watch

/-- The bounds of the fault queue (R149), the owed count (R137) and the activation history (R146). -/
structure State.BoundsInv (s : State) : Prop where
  faults : s.evu.faults.length ≤ 16
  owed : s.dsq.owed ≤ 8
  history : s.dsq.history.length ≤ 4

/-- The DRAM bytes are in their canonical form. -/
def State.MemoryInv (s : State) : Prop := Memory.wf s.dram

end Sys2Proof.Machine
end

