-- ==== Sys2Proof/Certificates/Slice0/Obligations.lean ====
section
/-! DEFINITION. What is claimed of the part, and the few words the claims are said in. -/
namespace Sys2Proof.Machine

/-! ### Words the claims share -/

/-- Two argument bytes, most significant first (R164). -/
def word2 (a b : Byte) : Nat := a.toNat * 256 + b.toNat

/-- Four argument bytes, most significant first (R164). -/
def word4 (a b c d : Byte) : Nat := word2 a b * 65536 + word2 c d

/-- A number in one, two or four answer bytes, most significant first (R164). -/
def bytes1 (n : Nat) : List Byte := [BitVec.ofNat 8 n]
def bytes2 (n : Nat) : List Byte := [BitVec.ofNat 8 (n / 256), BitVec.ofNat 8 n]
def bytes4 (n : Nat) : List Byte := bytes2 (n / 65536) ++ bytes2 n

/-- Four bytes of a record header, least significant first (R164). -/
def headerWord4 (a b c d : Byte) : Nat := word4 d c b a

/-- The command of this code has been taken with this answer, and nothing of it has been shifted out
yet (R157). -/
def State.answered (s : State) (code : Byte) (args : List Byte) (a : Answer) : State :=
  { s with mlp := { s.mlp with
      frame := some { code := some code, args := args, answer := some a, shifted := 0 }
      mdo := some 0 } }

/-- The frame in progress has received nothing, or this code and these argument bytes (R157). -/
def State.frameIs (s : State) (f : MgmtFrame) : Prop := s.mlp.frame = some f

/-- The entry the request path takes next: the oldest, with no request in the request path (R7). A
first step of the engine waits only for a request past the check (R92), of which there is none. -/
structure TakeReady (s : State) (e : Entry) (rest : List Entry) : Prop where
  queue : s.slp.queue = e :: rest
  waiting : e.mark = .waiting
  stage : s.rqp.stage = .waiting
  noRequest : s.rqp.current = none
  noWait : s.esu.engine.awaits = false

/-- The oldest entry has left with this response, delivered to the master at the same event (R8). -/
def State.handedBack (s : State) (rest : List Entry) (r : Response) : State :=
  { s with slp := { s.slp with queue := rest, delivered := s.slp.delivered ++ [r] } }

/-- A rollback holds the request off: some covered line is TRACKED, GUARDED or LOG (R33). -/
def HeldOff (s : State) (r : Request) : Prop :=
  s.esu.engine.state ≠ .idle ∧ ∃ p ∈ coveredParts r,
    (s.classify p.line).cls = .tracked ∨ (s.classify p.line).cls = .guarded ∨
      (s.classify p.line).cls = .log

/-- The request checks applied to every covered line of the request as the map stands (R21, R22). -/
def checkOf (s : State) (r : Request) : Option (FaultKind × RegionIndex) :=
  match (coveredParts r).map (fun p => s.classify p.line) with
  | [] => none
  | first :: more => requestCheck r.kind first more.head? s.rmap.alignCheck s.depth

/-- The request is past the check, but for the room check (R32 to R34). -/
structure Passes (s : State) (r : Request) : Prop where
  ready : s.dsq.state = .ready
  notHeldOff : ¬ HeldOff s r
  noFault : checkOf s r = none

/-- The class of the request's region, that of its first line (R22). -/
def classOf (s : State) (r : Request) : LineClass := (s.classify (r.addr.toNat / 64)).cls

/-- A WRITE that is to be logged: TRACKED or GUARDED, an epoch open, the top frame not broken
(Table 3.4, R35). -/
def Logged (s : State) (r : Request) : Prop :=
  r.kind = .write ∧ (classOf s r = .tracked ∨ classOf s r = .guarded) ∧ s.esu.stack ≠ [] ∧
    s.topBroken = false

/-- The fault record of a request, filled at its check (Table 3.3). -/
def recordOf (s : State) (r : Request) (k : FaultKind) (region : RegionIndex) : FaultRecord :=
  { fault := k, kind := r.kind, addr := r.addr, beats := r.beats, region := region,
    depth := s.esu.stack.length, topSerial := s.topSerial }

/-- A fault record handed to the event unit: appended, raising FAULT, or dropped, raising OVERRUN
(R149). -/
def Evu.given (v : Evu) (r : FaultRecord) : Evu :=
  if v.faults.length < 16 then
    { v with faults := v.faults ++ [r], flags := v.flags ||| Flag.fault.set }
  else { v with flags := v.flags ||| Flag.overrun.set }

/-- What the watch comparator does to the event unit for a request past its check (R51, R155). -/
def State.watched (s : State) (r : Request) (v : Evu) : Evu :=
  if s.watchMatches r (touchedParts r) then
    { v with
      flags := v.flags ||| Flag.watch.set
      capture := some (v.capture.getD
        { addr := r.addr, kind := r.kind, beats := r.beats, depth := s.esu.stack.length }) }
  else v

/-- What the request path keeps of a request past the check (Table 3.1). -/
def currentOf (s : State) (r : Request) (service : Service) : Current :=
  { req := r, classes := (coveredParts r).map (fun p => s.classify p.line),
    touched := touchedParts r, service := service, logFrame := none, missed := [], record := none,
    left := [], readData := [] }

/-- The request is in service in this stage, with this operation issued (R7, R31). -/
def State.inService (s : State) (e : Entry) (rest : List Entry) (stage : Stage) (c : Current)
    (op : MemOp) : State :=
  { s with
    slp := { s.slp with queue := { e with mark := .inService } :: rest }
    rqp := { s.rqp with stage := stage, current := some c }
    dsq := { s.dsq with waitRqp := some op }
    evu := s.watched e.req s.evu }

/-- A read of a whole line. -/
def readLine (client : Client) (line : Nat) : MemOp :=
  { client := client, kind := .read, line := line, startBeat := 0, beats := 8, mask := [], data := [] }

/-- A write of a whole line, every byte enabled. -/
def writeLine (client : Client) (line : Nat) (image : List Byte) : MemOp :=
  { client := client, kind := .write, line := line, startBeat := 0, beats := 8,
    mask := List.replicate 64 true, data := image }

/-- The missed lines of a logging write (R39, R64). -/
def missedOf (s : State) (r : Request) : List Nat :=
  match s.fwf.mode with
  | .on => ((touchedParts r).map LinePart.line).filter (fun l => !s.fwf.hit l s.topSerial)
  | .bypass => (touchedParts r).map LinePart.line

/-- A transfer runs for the current operation and ends at `till` (R134). -/
structure Transferring (s : State) (op : MemOp) (till : Nat) : Prop where
  current : s.dsq.current = some { op := op, transfer := some till }

/-- The sequencer's part of a completion at `till`: the current operation is cleared; a WRITE has
written its bytes and set its bank's guard (R129, R134). -/
def State.transferred (s : State) (op : MemOp) (till : Nat) : State :=
  let u := s.advanceTo till
  match op.kind with
  | .read => { u with dsq := { s.dsq with current := none } }
  | .write =>
    { u with
      dsq := { s.dsq with
        current := none
        banks := s.dsq.banks.set (bankOfLine op.line).val
          { s.bank (bankOfLine op.line) with guardTill := some (u.now + s.dsq.timing.writeGuard) }
          (bankOfLine op.line).isLt }
      dram := Memory.writeMasked s.dram (op.line * 64 + op.startBeat * 8) op.mask op.data }

/-- The bytes of a READ operation as the DRAM holds them (R134). -/
def State.bytesRead (s : State) (op : MemOp) : List Byte :=
  (List.range (8 * op.beats)).map (fun i => s.dramByte (op.line * 64 + op.startBeat * 8 + i))

/-- What a completion hands to its client (R134). -/
def State.handed (s : State) (op : MemOp) : List Byte :=
  match op.kind with
  | .read => s.bytesRead op
  | .write => []

/-- An operation of the request path completes at `till`, in this stage, for the request `c` of the
oldest entry `e`. -/
structure Completing (s : State) (op : MemOp) (till : Nat) (stage : Stage) (c : Current) (e : Entry)
    (rest : List Entry) : Prop where
  transfer : Transferring s op till
  client : op.client = .rqp
  stage : s.rqp.stage = stage
  request : s.rqp.current = some c
  queue : s.slp.queue = e :: rest
  served : e.mark = .inService
  restWaits : ∀ x ∈ rest, x.mark = .waiting

/-- An operation of the engine completes at `till`, in this state of the engine. -/
structure EngineCompleting (s : State) (op : MemOp) (till : Nat) (st : EngineState) : Prop where
  transfer : Transferring s op till
  client : op.client = .rollback
  state : s.esu.engine.state = st

/-- The request has left the request path, and an engine that waited for it waits no longer
(R8, R92). -/
def State.released (s : State) (rest : List Entry) : State :=
  { s with
    slp := { s.slp with queue := rest }
    rqp := { s.rqp with stage := .waiting, current := none }
    esu := { s.esu with engine := { s.esu.engine with awaits := false } } }

/-- The request path goes on in this stage with this operation (R31). -/
def State.goesOn (s : State) (stage : Stage) (c : Current) (op : MemOp) : State :=
  { s with
    rqp := { s.rqp with stage := stage, current := some c }
    dsq := { s.dsq with waitRqp := some op } }

/-- A record counts: the head rises, LOW_SPACE is raised at the crossing, and under ON the filter is
filled (R43, R55, R72, R76). -/
def State.counted (s : State) (line : Nat) : State :=
  { s with
    ulc := { s.ulc with head := s.ulc.head + 1 }
    evu :=
      if s.ulc.threshold < 56 * s.ulc.pages - s.ulc.head ∧
          56 * s.ulc.pages - (s.ulc.head + 1) ≤ s.ulc.threshold then
        { s.evu with flags := s.evu.flags ||| Flag.lowSpace.set }
      else s.evu
    fwf := s.fwf.fill line s.topSerial }

/-- The engine with its record's items cleared (R95). -/
def Engine.cleared (e : Engine) : Engine := { e with record := none, line := none, image := none }

/-- The engine's record is the one at this place, and nothing of it has been read yet (R93). -/
def Engine.begun (e : Engine) (ref : RecordRef) : Engine :=
  { e with state := .rbHeader, record := some ref, line := none, image := none }

/-- A read of a record's header: one beat (R93). -/
def readHeader (ref : RecordRef) : MemOp :=
  { client := .rollback, kind := .read, line := ref.headerLine, startBeat := ref.headerBeat,
    beats := 1, mask := [], data := [] }

/-- The engine begins record head − 1: the read of its header is issued (R93). -/
def State.recordBegun (s : State) : State :=
  { s with
    esu := { s.esu with engine := s.esu.engine.begun (s.ulc.recordRef (s.ulc.head - 1)) }
    dsq := { s.dsq with waitRollback := some (readHeader (s.ulc.recordRef (s.ulc.head - 1))) } }

/-- A rollback of this kind has ended with this outcome (R97, R112). -/
def State.rollbackEnded (s : State) (k : RollbackKind) (o : RollbackOutcome) : State :=
  { s with
    esu := { s.esu with engine := Engine.idle, lastOutcome := o }
    evu := { s.evu with flags :=
      if k = .recovery then s.evu.flags ||| Flag.rollbackDone.set ||| Flag.recoveryDone.set
      else s.evu.flags ||| Flag.rollbackDone.set }
    est := { s.est with
      remainingNs := s.est.periodMs * 1000000
      hrstoDriven := if k = .supervision then false else s.est.hrstoDriven
      halted := if k = .supervision ∧ o = .haltedBroken then true else s.est.halted } }

/-- An engine that has just taken its kind (R92). -/
def Engine.started (k : RollbackKind) (awaits : Bool) : Engine :=
  { state := .rbHeader, kind := some k, record := none, line := none, image := none,
    awaits := awaits }

/-- A rollback of this kind has started under a top that is not broken: its first step is taken at
once, or waits for the request past the check (R92). -/
def State.rollbackStarted (s : State) (k : RollbackKind) : State :=
  match s.rqp.current with
  | none => State.engineStep { s with esu := { s.esu with engine := Engine.started k false } }
  | some _ => { s with esu := { s.esu with engine := Engine.started k true } }

/-- The request path holds a protected write (R45). -/
def HoldsProtected (s : State) : Prop :=
  ∃ c k, s.rqp.current = some c ∧ c.req.kind = .write ∧ c.classes.head? = some k ∧
    (k.cls = .tracked ∨ k.cls = .guarded)

/-- An assertion of HRST_N has reached the pin, the queue and the request path (R10, R48): of the
entries only the one in service stays, dropped, and it leaves at once where the request path has no
operation in flight. -/
def State.hostReset (s : State) : State :=
  let u := { s with
    pins := { s.pins with hrstAsserted := true }
    evu := { s.evu with flags := s.evu.flags ||| Flag.hostReset.set } }
  if s.dsq.waitRqp.isSome || s.dsq.current.any (fun c => c.op.client == .rqp) then
    { u with slp := { s.slp with
        gateOpen := false
        queue := (s.slp.queue.filter (fun e => e.mark == .inService)).map
          (fun e => { e with dropped := true }) } }
  else State.released { u with slp := { s.slp with gateOpen := false } } []

/-- Every block has taken its values after device reset (R163): those of the reset state, with the
gate set from HRST_N and no frame in progress; the DRAM holds nothing known (log 6). -/
def State.cleared (s : State) : State :=
  { s with
    slp := { State.reset.slp with gateOpen := !s.pins.hrstAsserted, delivered := s.slp.delivered }
    rmap := State.reset.rmap
    rqp := State.reset.rqp
    fwf := State.reset.fwf
    ulc := State.reset.ulc
    esu := State.reset.esu
    est := State.reset.est
    dsq := State.reset.dsq
    evu := State.reset.evu
    mlp := { s.mlp with frame := none, mdo := if s.pins.mcsLow then some 0 else none }
    dram := []
    dramGeneration := s.dramGeneration + 1 }

/-- The part has left a device reset of this cause (R13, R163). -/
def State.outOfReset (s : State) (cause : ResetCause) : State :=
  { s with
    resetPhase := .running
    slp := { s.slp with gateOpen := !s.pins.hrstAsserted }
    mlp := { s.mlp with lastCause := cause } }

/-- The operation that the arbiter starts at this event, if it starts one: with no current operation
and fewer than 8 refreshes owed, the only waiting one, or of two that of the client not served last
(R132). -/
def State.nextStarted (s : State) : Option MemOp :=
  if s.dsq.current = none ∧ s.dsq.owed < 8 then
    match s.dsq.waitRqp, s.dsq.waitRollback, s.dsq.turn with
    | some _, some b, .rqp => some b
    | some a, some _, .rollback => some a
    | some a, none, _ => some a
    | none, other, _ => other
  else none

/-- The bank's entry is replaced. -/
def State.bankSet (s : State) (b : Fin 8) (x : Bank) : State :=
  { s with dsq := { s.dsq with banks := s.dsq.banks.set b.val x b.isLt } }

/-- The commands whose own event may reset the device (R163). -/
def Resets (s : State) : Instr → Prop
  | .powerOn => True
  | .drstNAssert => True
  | .frameEnd => ∃ f a, s.mlp.frame = some f ∧ f.code = some 0x7E ∧ f.answer = some a
  | _ => False

end Sys2Proof.Machine

open Sys2Proof Sys2Proof.Machine

/-! ### The machine -/

/-- A step takes the command at the front of the queue and runs it with the queue's rest. -/
def Obligations.StepRunsFrontCommand : Prop :=
  ∀ (c : Instr) (rest : List Instr) (s : State), s.pending = c :: rest →
    step s = exec c { s with pending := rest }

/-- With no command pending a step runs the part's own next event, or idles (the model's choice,
log 3). -/
def Obligations.EmptyQueueStepRunsOwnEvent : Prop :=
  ∀ s : State, s.pending = [] →
    (s.nextEvent = none → step s = .next s) ∧
    (∀ c, s.nextEvent = some c → step s = exec c { s with choices := s.choices + 1 })

/-- No command stops the part, and none touches the queue of commands. -/
def Obligations.EveryCommandAnswersNext : Prop :=
  ∀ (i : Instr) (s : State), ∃ t, exec i s = .next t ∧ t.pending = s.pending ∧
    t.choices = s.choices

/-- The values after device reset of every block, and no command waiting. (That the gate is open and the
cause POWER_ON follows from the pins and the reset that the model starts from, log 9; that no serial is
carried is the model's own, log 27.) -/
def Obligations.ResetGivesStatedValues : Prop :=
  let s := State.reset
  (s.slp.queue = [] ∧ s.slp.gateOpen = true) ∧
  ((∀ i, (s.desc i).enabled = false ∧ (s.desc i).basePage = 0 ∧ (s.desc i).lastPage = 0 ∧
      (s.desc i).cls = .plain ∧ (s.desc i).readRight = false ∧ (s.desc i).writeRight = false ∧
      (s.desc i).align = false) ∧
    s.rmap.defaultClass = .plain ∧ s.rmap.alignCheck = false) ∧
  (s.rqp.stage = .waiting ∧ s.rqp.current = none ∧ s.rqp.watch.enabled = false ∧
    s.rqp.watch.firstLine = 0 ∧ s.rqp.watch.lastLine = 0 ∧ s.rqp.watch.matchReads = false ∧
    s.rqp.watch.matchWrites = false) ∧
  ((∀ i w, ((s.fwf.sets.get i).ways.get w).valid = false) ∧
    (∀ i, (s.fwf.sets.get i).victim = 0) ∧ s.fwf.mode = .on) ∧
  (s.ulc.basePage = 0 ∧ s.ulc.pages = 0 ∧ s.ulc.threshold = 0 ∧ s.ulc.fullPolicy = .refuse ∧
    s.ulc.head = 0) ∧
  (s.esu.stack = [] ∧ s.esu.nextSerial = 1 ∧ s.esu.carried = [] ∧ s.esu.engine.state = .idle ∧
    s.esu.engine.kind = none ∧ s.esu.engine.record = none ∧ s.esu.engine.line = none ∧
    s.esu.engine.image = none ∧ s.esu.lastOutcome = .complete) ∧
  (s.est.mode = .off ∧ s.est.periodMs = 1000 ∧ s.est.remainingNs = 1000 * 1000000 ∧
    s.est.running = false ∧ s.est.lock = false ∧ s.est.halted = false ∧ s.est.recovery = .none ∧
    s.est.hrstoDriven = false) ∧
  (s.dsq.state = .uninit ∧ s.dsq.geometry = none ∧ s.dsq.timing.openWait = 18 ∧
    s.dsq.timing.closeWait = 18 ∧ s.dsq.timing.closeAllWait = 21 ∧ s.dsq.timing.writeGuard = 15 ∧
    s.dsq.timing.bankRefreshWait = 90 ∧ s.dsq.timing.actWindow = 50 ∧
    s.dsq.timing.refreshTick = 3900 ∧ s.dsq.pagePolicy = .openPage ∧
    (∀ b, (s.bank b).state = .idle ∧ (s.bank b).guardTill = none) ∧
    s.dsq.current = none ∧ s.dsq.waitRqp = none ∧ s.dsq.waitRollback = none ∧
    s.dsq.turn = .rqp ∧ s.dsq.history = [] ∧ s.dsq.owed = 0 ∧ s.dsq.pointer = 0 ∧
    s.dsq.tick = none ∧ s.dsq.refreshing = none) ∧
  (s.evu.faults = [] ∧ (∀ f, s.isPending f = false) ∧ s.evu.masks = BitVec.allOnes 11 ∧
    s.evu.capture = none ∧ s.intN = false) ∧
  (s.mlp.frame = none ∧ s.mlp.lastCause = .powerOn) ∧ s.pending = []

/-- The reset state meets every invariant. -/
def Obligations.InvariantsHoldAtReset : Prop :=
  State.reset.QueueInv ∧ State.reset.StackInv ∧ State.reset.RoomInv ∧ State.reset.TimerInv ∧
    State.reset.RegionsInv ∧ State.reset.FilterInv ∧ State.reset.WatchInv ∧
    State.reset.BoundsInv ∧ State.reset.MemoryInv ∧ State.reset.CapacityInv

/-- The commands without argument bytes, each with its code (Table 11.1). -/
def Sys2Proof.Machine.commandsAtCode : List (Byte × Instr) :=
  [(0x01, .ident), (0x02, .status), (0x12, .dramInit), (0x30, .openEpoch), (0x31, .commit),
    (0x32, .rollback), (0x33, .rollbackAll), (0x41, .superviseStart), (0x42, .superviseStop),
    (0x43, .kick), (0x50, .faultPop), (0x51, .eventsRead), (0x7E, .deviceReset)]

/-- The commands with argument bytes: the code, their number, and the command by its last one
(Table 11.1, log 7). -/
def Sys2Proof.Machine.commandsAtLast : List (Byte × Nat × (Byte → Instr)) :=
  [(0x10, 2, .geometry), (0x11, 14, .timing), (0x13, 11, .setLog), (0x14, 5, .setPolicy),
    (0x20, 11, .regionWrite), (0x21, 1, .regionRead), (0x22, 9, .watchSet), (0x34, 1, .frameRead),
    (0x40, 3, .superviseSet), (0x52, 2, .eventsClear), (0x53, 2, .maskWrite)]

/-- An event whose condition does not hold does not take place: the state stays as it is (the model's
choice, log 1 and log 12). -/
def Obligations.UnmetEventChangesNothing : Prop :=
  ∀ s : State,
    (∀ x ∈ commandsAtCode, ¬ s.frameIs MgmtFrame.empty → exec x.2 s = .next s) ∧
    (∀ code, (argBytes code).isSome ∨ ¬ s.frameIs MgmtFrame.empty →
      exec (.unknown code) s = .next s) ∧
    (∀ x ∈ commandsAtLast, ∀ last,
      (∀ args : List Byte, args.length + 1 = x.2.1 →
        ¬ s.frameIs (MgmtFrame.collecting x.1 args)) → exec (x.2.2 last) s = .next s) ∧
    (∀ r, r.wellFormed = false → exec (.requestAccept r) s = .next s) ∧
    ((∀ e rest, s.slp.queue = e :: rest → e.mark ≠ .waiting) ∨ s.rqp.stage ≠ .waiting ∨
        s.rqp.current ≠ none → exec .requestTake s = .next s) ∧
    (s.dsq.current ≠ none ∨ 8 ≤ s.dsq.owed ∨
        (s.dsq.waitRqp = none ∧ s.dsq.waitRollback = none) →
      exec .operationStart s = .next s) ∧
    ((∀ op, s.dsq.current = some { op := op, transfer := none } →
        (s.bank (bankOfLine op.line)).state ≠ .opened (rowOfLine op.line)) →
      exec .transferStart s = .next s) ∧
    ((∀ op till, ¬ Transferring s op till) → exec .operationComplete s = .next s) ∧
    (s.esu.engine.state ≠ .rbHeader ∨ s.esu.engine.record ≠ none ∨ s.esu.engine.awaits = true →
      exec .rollbackFirstStep s = .next s) ∧
    (s.pins.hrstAsserted = true → exec .hostResetAssert s = .next s) ∧
    (s.pins.hrstAsserted = false → exec .hostResetRelease s = .next s) ∧
    (s.resetPhase ≠ .powerOn → exec .powerOnResetEnd s = .next s) ∧
    (s.pins.drstAsserted = true → exec .drstNAssert s = .next s) ∧
    (s.pins.drstAsserted = false → exec .drstNRelease s = .next s) ∧
    (s.pins.mcsLow = true → exec .frameBegin s = .next s) ∧
    (s.pins.mcsLow = false → exec .frameEnd s = .next s ∧ ∀ b, exec (.byteShiftedIn b) s = .next s) ∧
    (s.counting = false → exec .supervisionExpiry s = .next s) ∧
    ((∀ till, s.dsq.state ≠ .initWait till) → exec .initWaitExpiry s = .next s) ∧
    ((∀ till, s.dsq.state ≠ .closeAllWait till) → exec .closeAllWaitExpiry s = .next s) ∧
    ((∀ b till, s.dsq.state = .initRefresh b → (s.bank b).state ≠ .refreshing till) →
      exec .initRefreshExpiry s = .next s) ∧
    ((∀ c, s.dsq.current = some c → (s.bank (bankOfLine c.op.line)).state ≠ .idle ∨
        4 ≤ s.dsq.history.length) → exec .bankActivation s = .next s) ∧
    (∀ b, (∀ row till, (s.bank b).state ≠ .opening row till) →
      exec (.openWaitExpiry b) s = .next s) ∧
    (∀ b, ((∀ row, (s.bank b).state ≠ .opened row) ∨ (s.bank b).guardTill ≠ none) →
      exec (.bankClose b) s = .next s) ∧
    (∀ b, (∀ till, (s.bank b).state ≠ .closing till) → exec (.closeWaitExpiry b) s = .next s) ∧
    (∀ b, (s.bank b).guardTill = none → exec (.writeGuardExpiry b) s = .next s) ∧
    (s.dsq.tick = none → exec .refreshTickExpiry s = .next s) ∧
    (s.dsq.owed = 0 ∨ s.dsq.refreshing ≠ none ∨ (s.bank s.dsq.pointer).state ≠ .idle ∨
        s.held s.dsq.pointer = true → exec .bankRefreshStart s = .next s) ∧
    (s.dsq.refreshing = none → exec .bankRefreshWaitExpiry s = .next s) ∧
    (s.dsq.history = [] → exec .actWindowAgeOut s = .next s)

/-- Time passes up to the end of an interval: the clock reaches it, and the remaining time of the
supervision timer falls by what has passed while the timer counts (R103); nothing else changes. That
an expiry advances the clock is the model's own way of telling time (log 2); that the remaining time
falls nanosecond by nanosecond is the model's choice too (log 15: the spec counts milliseconds). -/
def Obligations.TimePassing : Prop :=
  ∀ (s : State) (till : Nat),
    (s.counting = true ↔ s.est.running = true ∧ s.esu.stack ≠ [] ∧ s.esu.engine.state = .idle ∧
      s.est.halted = false) ∧
    (s.counting = true → s.advanceTo till =
      { s with now := max s.now till
               est := { s.est with remainingNs := s.est.remainingNs - (till - s.now) } }) ∧
    (s.counting = false → s.advanceTo till = { s with now := max s.now till })

/-- Only the completion of a WRITE operation and a device reset change what the DRAM holds. (For a byte
that nothing has written since the last device reset this is the model's choice: it reads as a free
value that stays the same, log 5, also up to INIT_REFRESH, where the contents decay; and a device reset
makes every byte a new one, log 6.) -/
def Obligations.OnlyWritesAndResetsChangeDram : Prop :=
  ∀ (i : Instr) (s t : State), exec i s = .next t → ¬ Resets s i →
    (i = .operationComplete → ∀ op till, Transferring s op till → op.kind = .read) →
    ∀ a, t.dramByte a = s.dramByte a

/-! ### Requests -/

/-- A presented request is appended at the back while the queue holds fewer than 8 entries, the gate is
open and no device reset is in progress; else it is withheld and nothing is recorded (that the model
keeps no withheld request, and accepts only at this command, is its own choice, log 11). -/
def Obligations.RequestAcceptedOrWithheld : Prop :=
  ∀ (s : State) (r : Request), r.wellFormed = true →
    (s.slp.queue.length < 8 ∧ s.slp.gateOpen = true ∧ s.resetPhase = .running →
      exec (.requestAccept r) s = .next
        { s with slp := { s.slp with
            queue := s.slp.queue ++ [{ req := r, mark := .waiting, dropped := false }] } }) ∧
    (8 ≤ s.slp.queue.length ∨ s.slp.gateOpen = false ∨ s.resetPhase ≠ .running →
      exec (.requestAccept r) s = .next s)

/-- The lines a request covers, and how many of its beats fall in each. -/
def Obligations.RequestCoversOneOrTwoLines : Prop :=
  ∀ r : Request, r.wellFormed = true →
    let first := r.addr.toNat / 64
    let offset := r.addr.toNat % 64
    (offset + 8 * r.beats ≤ 64 → coveredParts r =
      [{ line := first, startBeat := offset / 8, beats := r.beats, wbeats := r.wbeats }]) ∧
    (64 < offset + 8 * r.beats → coveredParts r =
      [{ line := first, startBeat := offset / 8, beats := (64 - offset) / 8,
         wbeats := r.wbeats.take ((64 - offset) / 8) },
       { line := first + 1, startBeat := 0, beats := r.beats - (64 - offset) / 8,
         wbeats := r.wbeats.drop ((64 - offset) / 8) }])

/-- Which covered lines are touched, and the line operation of each: its own beats, with the request's
enables and data for a WRITE. -/
def Obligations.TouchedLinesAndTheirOperations : Prop :=
  ∀ r : Request, r.wellFormed = true →
    (r.kind = .read → touchedParts r = coveredParts r) ∧
    (r.kind = .write → ∀ p, p ∈ touchedParts r ↔
      p ∈ coveredParts r ∧ ∃ b ∈ p.wbeats, ∃ j : Fin 8, b.enables.get j = true) ∧
    (touchedParts r).Sublist (coveredParts r) ∧
    ∀ p ∈ touchedParts r,
      lineOp r.kind p =
        { client := .rqp, kind := r.kind, line := p.line, startBeat := p.startBeat, beats := p.beats,
          mask := p.wbeats.flatMap (fun b => b.enables.toList),
          data := p.wbeats.flatMap (fun b => b.data.toList) } ∧
      p.startBeat + p.beats ≤ 8 ∧
      (r.kind = .write → p.wbeats.length = p.beats)

/-- The line classification: the first case of Table 2.4 that applies, against the capacity that the
geometry gives. -/
def Obligations.LineClassification : Prop :=
  ∀ (s : State) (line : Nat), s.RegionsInv →
    let page := line / 64
    let inLog := s.ulc.basePage ≤ page ∧ page < s.ulc.basePage + s.ulc.pages
    let within (i : Fin 16) := (s.desc i).enabled = true ∧ (s.desc i).basePage ≤ page ∧
      page ≤ (s.desc i).lastPage
    (s.capacityLines ≤ line →
      (s.classify line).cls = .beyond ∧ (s.classify line).region = .none) ∧
    (line < s.capacityLines → inLog → s.classify line =
      { cls := .log, region := .log, readRight := true, writeRight := false, align := false }) ∧
    (line < s.capacityLines → ∀ i, within i → s.classify line =
      { cls := (s.desc i).cls.lineClass, region := .desc i, readRight := (s.desc i).readRight,
        writeRight := (s.desc i).writeRight, align := (s.desc i).align }) ∧
    (line < s.capacityLines → ¬ inLog → (∀ i, ¬ within i) →
      (s.rmap.defaultClass = .plain → s.classify line =
        { cls := .plain, region := .none, readRight := true, writeRight := true, align := false }) ∧
      (s.rmap.defaultClass = .deny →
        (s.classify line).cls = .deny ∧ (s.classify line).region = .none)) ∧
    (s.dsq.geometry = none → s.capacityLines = 0) ∧
    (s.dsq.geometry = some .rows8192 → s.capacityLines = 2097152) ∧
    (s.dsq.geometry = some .rows16384 → s.capacityLines = 4194304) ∧
    (s.dsq.geometry = some .rows32768 → s.capacityLines = 8388608)

/-- When two lines below the capacity lie in the same region. -/
def Obligations.LinesInSameRegion : Prop :=
  ∀ (s : State) (a b : Nat), s.RegionsInv → a < s.capacityLines → b < s.capacityLines →
    let inLog (line : Nat) := s.ulc.coversPage (line / 64) = true
    let within (line : Nat) (i : Fin 16) := (s.desc i).coversPage (line / 64) = true
    let uncovered (line : Nat) := ¬ inLog line ∧ ∀ i, ¬ within line i
    ((s.classify a).sameRegion (s.classify b) = true ↔
      (∃ i, within a i ∧ within b i) ∨ (inLog a ∧ inLog b) ∨
        (uncovered a ∧ uncovered b ∧ s.rmap.defaultClass = .plain))

/-- The six request checks: the first that fails gives the fault kind and the region index. -/
def Obligations.RequestChecksInOrder : Prop :=
  ∀ (kind : Kind) (a : Classification) (b : Option Classification) (alignCheck : Bool) (depth : Nat),
    let beyond := a.cls = .beyond ∨ ∃ k, b = some k ∧ k.cls = .beyond
    let unmapped := a.cls = .deny ∨ ∃ k, b = some k ∧ k.cls = .deny
    let split := ∃ k, b = some k ∧ a.sameRegion k = false
    let protect := (kind = .read ∧ a.readRight = false) ∨ (kind = .write ∧ a.writeRight = false)
    let align := b ≠ none ∧ alignCheck = true ∧ a.align = true
    let guard := kind = .write ∧ a.cls = .guarded ∧ depth = 0
    let check := requestCheck kind a b alignCheck depth
    (beyond → check = some (.beyond, .none)) ∧
    (¬ beyond → unmapped → check = some (.unmapped, .none)) ∧
    (¬ beyond → ¬ unmapped → split → check = some (.split, a.region)) ∧
    (¬ beyond → ¬ unmapped → ¬ split → protect → check = some (.protect, a.region)) ∧
    (¬ beyond → ¬ unmapped → ¬ split → ¬ protect → align → check = some (.align, a.region)) ∧
    (¬ beyond → ¬ unmapped → ¬ split → ¬ protect → ¬ align → guard →
      check = some (.guard, a.region)) ∧
    (¬ beyond → ¬ unmapped → ¬ split → ¬ protect → ¬ align → ¬ guard → check = none)

/-- The oldest request is answered RETRY while the sequencer is not READY, and while a rollback holds a
line it covers. One that fails a check is answered FAULT, and its record goes to the event unit, which
keeps it and raises FAULT, or drops it and raises OVERRUN. Nothing else changes. (That the taking and the
check are one step is read from the rules, log 20.) -/
def Obligations.TakeAnswersRetryOrFault : Prop :=
  ∀ (s : State) (e : Entry) (rest : List Entry), TakeReady s e rest →
    (s.dsq.state ≠ .ready → exec .requestTake s = .next (s.handedBack rest .retry)) ∧
    (s.dsq.state = .ready → HeldOff s e.req →
      exec .requestTake s = .next (s.handedBack rest .retry)) ∧
    (s.dsq.state = .ready → ¬ HeldOff s e.req → ∀ k region, checkOf s e.req = some (k, region) →
      exec .requestTake s = .next
        (State.handedBack { s with evu := s.evu.given (recordOf s e.req k region) } rest .fault))

/-- A request past its checks that is a READ, or a WRITE that is not to be logged, goes to DATA with
its first line operation; one without a touched line is answered OKAY at once (log 20). -/
def Obligations.TakeServesReadsAndDirectWrites : Prop :=
  ∀ (s : State) (e : Entry) (rest : List Entry), TakeReady s e rest → Passes s e.req →
    (touchedParts e.req = [] → exec .requestTake s = .next (s.handedBack rest (.okay []))) ∧
    (∀ p more, touchedParts e.req = p :: more →
      (e.req.kind = .read → exec .requestTake s = .next
        (s.inService e rest .data { currentOf s e.req .read with left := p :: more }
          (lineOp .read p))) ∧
      (e.req.kind = .write → ¬ Logged s e.req → exec .requestTake s = .next
        (s.inService e rest .data { currentOf s e.req .directWrite with left := p :: more }
          (lineOp .write p))))

/-- A WRITE that is to be logged, with room for all its missed lines: the first missed line is read, or
the data are written at once where no line missed (log 20). -/
def Obligations.TakeServesLoggingWrites : Prop :=
  ∀ (s : State) (e : Entry) (rest : List Entry) (p : LinePart) (more : List LinePart),
    TakeReady s e rest → Passes s e.req → Logged s e.req → touchedParts e.req = p :: more →
    s.ulc.head + (missedOf s e.req).length ≤ 56 * s.ulc.pages →
    let c := { currentOf s e.req .loggingWrite with
      logFrame := some (s.esu.stack.length, s.topSerial) }
    (missedOf s e.req = [] → exec .requestTake s = .next
      (s.inService e rest .data { c with left := p :: more } (lineOp .write p))) ∧
    (∀ line lines, missedOf s e.req = line :: lines → exec .requestTake s = .next
      (s.inService e rest .logRead { c with missed := line :: lines } (readLine .rqp line)))

/-- A WRITE that is to be logged, without room: FAULT LOG_FULL under REFUSE; under BREAK every frame is
marked broken, BROKEN is raised, and the write is served unlogged (log 20). -/
def Obligations.TakeMeetsFullLog : Prop :=
  ∀ (s : State) (e : Entry) (rest : List Entry) (p : LinePart) (more : List LinePart),
    TakeReady s e rest → Passes s e.req → Logged s e.req → touchedParts e.req = p :: more →
    56 * s.ulc.pages < s.ulc.head + (missedOf s e.req).length →
    let full := recordOf s e.req .logFull (s.classify (e.req.addr.toNat / 64)).region
    (s.ulc.fullPolicy = .refuse → exec .requestTake s = .next
      (State.handedBack { s with evu := s.evu.given full } rest .fault)) ∧
    (s.ulc.fullPolicy = .brk → exec .requestTake s = .next
      (State.inService
        { s with
          esu := { s.esu with stack := s.esu.stack.map (fun f => { f with broken := true }) }
          evu := { s.evu with flags := s.evu.flags ||| Flag.broken.set } }
        e rest .data { currentOf s e.req .directWrite with left := p :: more } (lineOp .write p)))

/-- The watch comparator: which requests match, and how WATCH_SET replaces it. -/
def Obligations.WatchMatchesAndIsSet : Prop :=
  (∀ (s : State) (r : Request),
    s.watchMatches r (touchedParts r) = true ↔
      s.rqp.watch.enabled = true ∧
      ((r.kind = .read ∧ s.rqp.watch.matchReads = true) ∨
        (r.kind = .write ∧ s.rqp.watch.matchWrites = true)) ∧
      ∃ p ∈ touchedParts r, s.rqp.watch.firstLine ≤ p.line ∧ p.line ≤ s.rqp.watch.lastLine) ∧
  (∀ (s : State) (f a b c d w x y z : Byte),
    s.frameIs (.collecting 0x22 [f, a, b, c, d, w, x, y]) →
    let first := word4 a b c d
    let last := word4 w x y z
    let args := [f, a, b, c, d, w, x, y, z]
    (last < first ∨ 0x3FFFFFF < first ∨ 0x3FFFFFF < last → exec (.watchSet z) s = .next
      (s.answered 0x22 args (.refused .badArg))) ∧
    (first ≤ last → last ≤ 0x3FFFFFF → exec (.watchSet z) s = .next
      (State.answered { s with rqp := { s.rqp with watch :=
          { enabled := f.getLsbD 0, matchReads := f.getLsbD 1, matchWrites := f.getLsbD 2,
            firstLine := first, lastLine := last } } } 0x22 args (.done []))))

/-! ### Completions -/

/-- A completed WRITE has written exactly its enabled bytes; a completed READ has changed none. In
both cases no operation is current afterwards. (A byte that nothing has written since the device reset
reads as a free value, log 5.) -/
def Obligations.CompletionWritesEnabledBytes : Prop :=
  ∀ (s : State) (op : MemOp) (till : Nat), Transferring s op till →
    ∃ t, exec .operationComplete s = .next t ∧ t.dsq.current = none ∧
      (op.kind = .read → t.dram = s.dram) ∧
      (op.kind = .write → ∀ a,
        let first := op.line * 64 + op.startBeat * 8
        t.dramByte a =
          if first ≤ a ∧ op.mask[a - first]? = some true ∧ a - first < op.data.length then
            op.data.getD (a - first) 0
          else s.dramByte a)

/-- A line operation of the DATA stage completes: the next touched line follows, or the response OKAY
with all the data read. (The clock reaches the end of the transfer, here and in every completion and
expiry below: log 2.) -/
def Obligations.DataOperationCompletes : Prop :=
  ∀ (s : State) (op : MemOp) (till : Nat) (c : Current) (e : Entry) (rest : List Entry),
    Completing s op till .data c e rest → e.dropped = false →
    let got := c.readData ++ s.handed op
    (∀ p more, c.left.tail = p :: more → exec .operationComplete s = .next
      ((s.transferred op till).goesOn .data { c with left := p :: more, readData := got }
        (lineOp c.req.kind p))) ∧
    (c.left.tail = [] → exec .operationComplete s = .next
      { (s.transferred op till).released rest with
        slp := { ((s.transferred op till).released rest).slp with
          delivered := s.slp.delivered ++ [.okay got] } })

/-- A LOG_READ completes: the old image goes to the data slot of record head. A LOG_DATA completes: the
header is written, with the top serial and the depth of that event (serial 0 at depth 0: the model's
reading, log 25). At depth 0 a LOG_READ is followed by the data. -/
def Obligations.LogReadAndLogDataComplete : Prop :=
  ∀ (s : State) (op : MemOp) (till : Nat) (c : Current) (e : Entry) (rest : List Entry)
    (p : LinePart) (more : List LinePart), e.dropped = false → c.touched = p :: more →
    (Completing s op till .logRead c e rest →
      (s.esu.stack ≠ [] → exec .operationComplete s = .next
        ((s.transferred op till).goesOn .logData
          { c with record := some (s.ulc.recordRef s.ulc.head) }
          (writeLine .rqp (s.ulc.recordRef s.ulc.head).dataLine (s.handed op)))) ∧
      (s.esu.stack = [] → exec .operationComplete s = .next
        ((s.transferred op till).goesOn .data
          { c with left := p :: more, missed := [], record := none } (lineOp c.req.kind p)))) ∧
    (Completing s op till .logData c e rest → ∀ line lines ref, c.missed = line :: lines →
      c.record = some ref → exec .operationComplete s = .next
        ((s.transferred op till).goesOn .logHeader c
          { client := .rqp, kind := .write, line := ref.headerLine, startBeat := ref.headerBeat,
            beats := 1, mask := List.replicate 8 true,
            data := headerBytes line s.topSerial s.esu.stack.length }))

/-- A LOG_HEADER completes: the record counts while an epoch is open; then the next missed line, or the
data where none is left or no epoch is open. (That the filter is filled also where a nested COMMIT has
put a broken frame on top while the header was in flight is the model's reading, log 28.) -/
def Obligations.LogHeaderCompletes : Prop :=
  ∀ (s : State) (op : MemOp) (till : Nat) (c : Current) (e : Entry) (rest : List Entry)
    (p : LinePart) (more : List LinePart) (line : Nat) (lines : List Nat),
    Completing s op till .logHeader c e rest → e.dropped = false → c.touched = p :: more →
    c.missed = line :: lines →
    let c' := { c with left := p :: more, missed := [], record := none }
    (s.esu.stack = [] → exec .operationComplete s = .next
      ((s.transferred op till).goesOn .data c' (lineOp c.req.kind p))) ∧
    (s.esu.stack ≠ [] → lines = [] → exec .operationComplete s = .next
      (((s.transferred op till).counted line).goesOn .data c' (lineOp c.req.kind p))) ∧
    (s.esu.stack ≠ [] → ∀ next others, lines = next :: others → exec .operationComplete s = .next
      (((s.transferred op till).counted line).goesOn .logRead
        { c with missed := lines, record := none } (readLine .rqp next)))

/-- After a host reset the operation in flight completes and the request is dropped without a
response; a header that completes counts first. -/
def Obligations.DroppedRequestCompletes : Prop :=
  ∀ (s : State) (op : MemOp) (till : Nat) (stage : Stage) (c : Current) (e : Entry)
    (rest : List Entry), Completing s op till stage c e rest → e.dropped = true →
    (stage ≠ .logHeader ∨ s.esu.stack = [] → exec .operationComplete s = .next
      ((s.transferred op till).released rest)) ∧
    (stage = .logHeader → s.esu.stack ≠ [] → ∀ line lines, c.missed = line :: lines →
      exec .operationComplete s = .next
        (((s.transferred op till).counted line).released rest))

/-! ### The rollback engine -/

/-- The header read gives the restore line and the data slot is read next; a line at or beyond the
capacity is not restored, and the head falls. The data read gives the image, which is written to the
restore line. (That the filter is left alone where a record is not restored is read from the rule's
silence, log 21.) -/
def Obligations.EngineReadsComplete : Prop :=
  ∀ (s : State) (op : MemOp) (till : Nat),
    (EngineCompleting s op till .rbHeader → op.kind = .read → op.beats = 1 →
      ∀ ref, s.esu.engine.record = some ref →
      let first := op.line * 64 + op.startBeat * 8
      let line := headerWord4 (s.dramByte first) (s.dramByte (first + 1)) (s.dramByte (first + 2))
        (s.dramByte (first + 3))
      let u := s.transferred op till
      (line < s.capacityLines → exec .operationComplete s = .next
        { u with
          esu := { u.esu with engine := { u.esu.engine with state := .rbData, line := some line } }
          dsq := { u.dsq with waitRollback := some (readLine .rollback ref.dataLine) } }) ∧
      (s.capacityLines ≤ line → exec .operationComplete s = .next
        (State.engineStep
          { u with
            ulc := { u.ulc with head := u.ulc.head - 1 }
            esu := { u.esu with engine := u.esu.engine.cleared } }))) ∧
    (EngineCompleting s op till .rbData → ∀ line, s.esu.engine.line = some line →
      let u := s.transferred op till
      let image := s.handed op
      exec .operationComplete s = .next
        { u with
          esu := { u.esu with engine :=
            { u.esu.engine with state := .rbRestore, image := some image } }
          dsq := { u.dsq with waitRollback := some (writeLine .rollback line image) } })

/-- The restore write completes: the head falls, the line's entry under the top serial is invalidated,
the record's items are cleared, and the engine takes its next step. -/
def Obligations.RestoreWriteCompletes : Prop :=
  ∀ (s : State) (op : MemOp) (till line : Nat), EngineCompleting s op till .rbRestore →
    s.esu.engine.line = some line →
    let u := s.transferred op till
    exec .operationComplete s = .next
      (State.engineStep
        { u with
          ulc := { u.ulc with head := u.ulc.head - 1 }
          fwf := u.fwf.invalidate line s.topSerial
          esu := { u.esu with engine := u.esu.engine.cleared } })

/-- The engine's next step: record head − 1 while the head is above the top frame's start; else the
top frame is popped, and the rollback ends or goes on by its kind and by the new top. With the last
frame no serial is carried any more (log 27). After a wait the first step is this step. -/
def Obligations.EngineStepsAndPops : Prop :=
  ∀ (s : State) (f : Frame) (below : List Frame), s.esu.stack = f :: below →
    (f.start < s.ulc.head → s.engineStep = s.recordBegun) ∧
    (s.ulc.head ≤ f.start → ∀ k, s.esu.engine.kind = some k →
      let popped := { s with esu := { s.esu with stack := below } }
      (below = [] → s.engineStep = State.rollbackEnded
        { popped with
          esu := { popped.esu with carried := [] }
          ulc := { s.ulc with head := 0 }, fwf := s.fwf.emptied } k .complete) ∧
      (∀ top more, below = top :: more →
        (k = .single → s.engineStep = popped.rollbackEnded k .complete) ∧
        (k ≠ .single → top.broken = true → s.engineStep = popped.rollbackEnded k .haltedBroken) ∧
        (k ≠ .single → top.broken = false → s.engineStep = popped.engineStep))) ∧
    (s.esu.engine.state = .rbHeader → s.esu.engine.record = none → s.esu.engine.awaits = false →
      exec .rollbackFirstStep s = .next s.engineStep)

/-! ### The first-write filter -/

/-- Set and standing of an entry, and the two lines of a two-line request in different sets. -/
def Obligations.FilterSetsAndStandings : Prop :=
  (∀ line, (setOfLine line).val = line % 256 ∧ setOfLine line ≠ setOfLine (line + 1)) ∧
  (∀ line k, setOfLine (line + k * 256) = setOfLine line) ∧
  (∀ (e : FilterEntry) (topSerial : Nat),
    (e.valid = false → e.standing topSerial = .invalid) ∧
    (e.valid = true → e.serial = topSerial → e.standing topSerial = .current) ∧
    (e.valid = true → e.serial ≠ topSerial → e.standing topSerial = .stale))

/-- Lookup answers HIT for a valid entry of that line and serial in the line's set, and only then; a fill
writes one way of that set by Table 4.4; under BYPASS there is no fill. -/
def Obligations.FilterLookupAndFill : Prop :=
  ∀ (f : Fwf) (line serial : Nat),
    let i := setOfLine line
    let st := f.sets.get i
    let present := ∃ w, (st.ways.get w).valid = true ∧ (st.ways.get w).line = line ∧
      (st.ways.get w).serial = serial
    let fresh : FilterEntry := { valid := true, line := line, serial := serial }
    let withSet (x : FilterSet) : Fwf := { f with sets := f.sets.set i.val x i.isLt }
    (f.hit line serial = true ↔ present) ∧
    (f.mode = .bypass → f.fill line serial = f) ∧
    (f.mode = .on →
      (present → f.fill line serial = f) ∧
      (¬ present → ∀ w : Fin 4, (st.ways.get w).standing serial ≠ .current →
        (∀ v : Fin 4, v < w → (st.ways.get v).standing serial = .current) →
        f.fill line serial = withSet { st with ways := st.ways.set w.val fresh w.isLt }) ∧
      (¬ present → (∀ w, (st.ways.get w).standing serial = .current) →
        f.fill line serial = withSet
          { ways := st.ways.set st.victim.val fresh st.victim.isLt, victim := st.victim + 1 }))

/-- A restore invalidates the line's entry under the serial and nothing else; emptying makes every entry
invalid; neither moves a victim pointer or the mode. -/
def Obligations.FilterInvalidationAndEmptying : Prop :=
  ∀ (f : Fwf) (line serial : Nat),
    (f.mode = .bypass → f.invalidate line serial = f) ∧
    (f.mode = .on → (f.invalidate line serial).mode = .on ∧
      ∀ i, ((f.invalidate line serial).sets.get i).victim = (f.sets.get i).victim ∧
        ∀ w, ((f.invalidate line serial).sets.get i).ways.get w =
          let e := (f.sets.get i).ways.get w
          if i = setOfLine line ∧ e.valid = true ∧ e.line = line ∧ e.serial = serial then
            { e with valid := false }
          else e) ∧
    f.emptied.mode = f.mode ∧
    ∀ i, (f.emptied.sets.get i).victim = (f.sets.get i).victim ∧
      ∀ w, ((f.emptied.sets.get i).ways.get w).valid = false

/-! ### The undo log -/

/-- The places of a record, and its header bytes: line, serial and depth, least significant byte first,
and the marker; what the engine reads back from them is the line. -/
def Obligations.RecordPlacesAndHeader : Prop :=
  (∀ (u : Ulc) (i : Nat),
    let page := u.basePage + i / 56
    let slot := i % 56
    let ref := u.recordRef i
    ref.index = i ∧
    ref.dataLine = page * 64 + slot ∧ ref.dataLine * 64 = page * 4096 + 64 * slot ∧
    ref.headerLine = page * 64 + 56 + slot / 8 ∧ ref.headerBeat = slot % 8 ∧
    ref.headerLine * 64 + ref.headerBeat * 8 = page * 4096 + 3584 + 8 * slot) ∧
  (∀ line serial depth : Nat, line < 2 ^ 32 → serial < 2 ^ 16 → depth < 2 ^ 8 →
    ∃ a b c d e f g : Byte,
      headerBytes line serial depth = [a, b, c, d, e, f, g, 0xA5] ∧
      headerWord4 a b c d = line ∧ word2 f e = serial ∧ g.toNat = depth ∧
      headerLineIndex (headerBytes line serial depth) = line)

/-- SET_LOG: its refusals in order, else the four values are replaced. -/
def Obligations.SetLogReplacesConfiguration : Prop :=
  ∀ (s : State) (a b c d e f g h i j last : Byte),
    s.frameIs (.collecting 0x13 [a, b, c, d, e, f, g, h, i, j]) →
    (∀ n, (s.desc n).basePage ≤ (s.desc n).lastPage) →
    let args := [a, b, c, d, e, f, g, h, i, j, last]
    let base := word4 a b c d
    let pages := word2 e f
    let threshold := word4 g h i j
    let badArg := 4096 < pages ∨ s.capacityPages ≤ base ∨ s.capacityPages < base + pages ∨
      56 * pages < threshold ∨ 1 < last.toNat
    let overlap := ∃ n page, base ≤ page ∧ page < base + pages ∧ (s.desc n).coversPage page = true
    let answer (r : Answer) := exec (.setLog last) s = .next (s.answered 0x13 args r)
    (s.dsq.geometry = none → answer (.refused .state)) ∧
    (s.dsq.geometry ≠ none → s.esu.engine.state ≠ .idle → answer .busy) ∧
    (s.dsq.geometry ≠ none → s.esu.engine.state = .idle →
      (s.esu.stack ≠ [] → answer (.refused .epochOpen)) ∧
      (s.esu.stack = [] →
        (badArg → answer (.refused .badArg)) ∧
        (¬ badArg → overlap → answer (.refused .overlap)) ∧
        (¬ badArg → ¬ overlap → exec (.setLog last) s = .next (State.answered
          { s with ulc := { s.ulc with
              basePage := base, pages := pages, threshold := threshold
              fullPolicy := if last = 0 then .refuse else .brk } }
          0x13 args (.done [])))))

/-! ### Epochs -/

/-- The serial that an OPEN takes: the first from next serial on, 65535 followed by 1, that no frame
holds and that, below 65535, is not carried; next serial then stands behind it, and the allocation
wrapped exactly if it reached 65535. At a wrap the serials of the frames below are carried. (The carried
serials, which are none unless a frame is open over a wrap, are the model's reading of R82's words that
a serial that leaves the stack is not given back to the allocator, log 27.) -/
def Obligations.SerialAllocation : Prop :=
  ∀ s : State, 1 ≤ s.esu.nextSerial → s.esu.nextSerial ≤ 65535 → s.esu.stack.length ≤ 8 →
    s.esu.carried.length ≤ 7 →
    let serials := s.esu.stack.map Frame.serial
    let value (i : Nat) := (s.esu.nextSerial - 1 + i) % 65535 + 1
    let passedOver (i : Nat) := value i ∈ serials ∨
      (value i ∈ s.esu.carried ∧ ∀ j ≤ i, value j ≠ 65535)
    ∃ k, k ≤ s.esu.stack.length + s.esu.carried.length ∧ (∀ i < k, passedOver i) ∧ ¬ passedOver k ∧
      s.allocation.serial = value k ∧ s.allocation.next = value (k + 1) ∧
      (s.allocation.wrapped = true ↔ ∃ i ≤ k, value i = 65535) ∧
      s.carriedAfter s.allocation =
        if s.allocation.wrapped then serials else s.esu.carried

/-- OPEN: its refusals in order, else a frame is pushed under a new serial, the filter is emptied where
the allocation wrapped, and the timer reloads and clears halted. From a state that meets the invariants
of stack and filter, no entry is CURRENT afterwards, so that every first write under the new frame
misses (R57; it rests on the carried serials, log 27). -/
def Obligations.OpenPushesFrame : Prop :=
  ∀ s : State, s.frameIs MgmtFrame.empty →
    let answer (r : Answer) := exec .openEpoch s = .next (s.answered 0x30 [] r)
    (s.dsq.state ≠ .ready → answer (.refused .notReady)) ∧
    (s.dsq.state = .ready →
      (s.esu.engine.state ≠ .idle ∨ HoldsProtected s → answer .busy) ∧
      (s.esu.engine.state = .idle → ¬ HoldsProtected s →
        (s.ulc.pages = 0 → answer (.refused .noLog)) ∧
        (s.ulc.pages ≠ 0 → 8 ≤ s.esu.stack.length → answer (.refused .stackFull)) ∧
        (s.ulc.pages ≠ 0 → s.esu.stack.length < 8 →
          let n := s.allocation
          exec .openEpoch s = .next (State.answered
            { s with
              esu := { s.esu with
                nextSerial := n.next
                carried := s.carriedAfter n
                stack := { depth := s.esu.stack.length + 1, serial := n.serial, start := s.ulc.head,
                           broken := false } :: s.esu.stack }
              fwf := if n.wrapped then s.fwf.emptied else s.fwf
              est := { s.est with remainingNs := s.est.periodMs * 1000000, halted := false } }
            0x30 []
            (.done (bytes2 n.serial ++ bytes1 (s.esu.stack.length + 1)))) ∧
          (s.StackInv → s.FilterInv →
            let after := if n.wrapped then s.fwf.emptied else s.fwf
            (∀ i w, (after.entry i w).standing n.serial ≠ .current) ∧
            ∀ line, after.hit line n.serial = false))))

/-- COMMIT: BUSY during a rollback, STACK_EMPTY at depth 0; the outermost one empties the stack, the log
and the filter, with no serial carried any more (log 27); a nested one gives the popped frame's serial
to the frame below. -/
def Obligations.CommitPopsFrame : Prop :=
  ∀ s : State, s.frameIs MgmtFrame.empty →
    let est := { s.est with remainingNs := s.est.periodMs * 1000000, halted := false }
    (s.esu.engine.state ≠ .idle →
      exec .commit s = .next (s.answered 0x31 [] .busy)) ∧
    (s.esu.engine.state = .idle →
      (s.esu.stack = [] →
        exec .commit s = .next (s.answered 0x31 [] (.refused .stackEmpty))) ∧
      (∀ f, s.esu.stack = [f] → exec .commit s = .next (State.answered
        { s with
          esu := { s.esu with stack := [], carried := [] }
          ulc := { s.ulc with head := 0 }
          fwf := s.fwf.emptied
          est := est } 0x31 [] (.done []))) ∧
      (∀ f g more, s.esu.stack = f :: g :: more → exec .commit s = .next (State.answered
        { s with esu := { s.esu with stack := { g with serial := f.serial } :: more }, est := est }
        0x31 [] (.done []))))

/-- ROLLBACK and ROLLBACK_ALL: STACK_EMPTY, BUSY, BROKEN, in that order; else the engine starts with its
kind and the command answers STARTED. -/
def Obligations.RollbackCommandsStartEngine : Prop :=
  ∀ s : State, s.frameIs MgmtFrame.empty →
    let outcome (r : Answer) :=
      exec .rollback s = .next (s.answered 0x32 [] r) ∧
      exec .rollbackAll s = .next (s.answered 0x33 [] r)
    (s.esu.stack = [] → outcome (.refused .stackEmpty)) ∧
    (∀ f below, s.esu.stack = f :: below →
      (s.esu.engine.state ≠ .idle → outcome .busy) ∧
      (s.esu.engine.state = .idle → f.broken = true → outcome (.refused .broken)) ∧
      (s.esu.engine.state = .idle → f.broken = false →
        exec .rollback s = .next ((s.rollbackStarted .single).answered 0x32 [] .started) ∧
        exec .rollbackAll s = .next ((s.rollbackStarted .all).answered 0x33 [] .started)))

/-- FRAME_READ: the frame at the place it names, counted from 1 at the bottom, or BAD_ARG; nothing
changes. -/
def Obligations.FrameReadAnswersFrame : Prop :=
  ∀ (s : State) (d : Byte), s.frameIs (.collecting 0x34 []) →
    (∀ above f below, s.esu.stack = above ++ f :: below → d.toNat = below.length + 1 →
      exec (.frameRead d) s = .next (s.answered 0x34 [d]
        (.done (bytes1 f.depth ++ bytes2 f.serial ++ bytes4 f.start ++
          [if f.broken then 1 else 0])))) ∧
    (d = 0 ∨ s.esu.stack.length < d.toNat →
      exec (.frameRead d) s = .next (s.answered 0x34 [d] (.refused .badArg)))

/-! ### Supervision and host reset -/

/-- SUPERVISE_SET: LOCKED, BUSY, BAD_ARG, in that order; else mode and period are replaced together and
nothing else changes. -/
def Obligations.SuperviseSetReplacesModeAndPeriod : Prop :=
  ∀ (s : State) (m a b : Byte), s.frameIs (.collecting 0x40 [m, a]) →
    let period := word2 a b
    let answer (r : Answer) := exec (.superviseSet b) s = .next (s.answered 0x40 [m, a, b] r)
    (s.est.lock = true → answer (.refused .locked)) ∧
    (s.est.lock = false → s.est.running = true → answer .busy) ∧
    (s.est.lock = false → s.est.running = false →
      (3 < m.toNat ∨ period = 0 → answer (.refused .badArg)) ∧
      (∀ mode, m = mode.code → period ≠ 0 → exec (.superviseSet b) s = .next (State.answered
        { s with est := { s.est with mode := mode, periodMs := period } }
        0x40 [m, a, b] (.done []))))

/-- SUPERVISE_START runs, reloads and locks a timer whose mode rolls back; SUPERVISE_STOP stops it; KICK
reloads and clears halted in every state. -/
def Obligations.SuperviseStartStopAndKick : Prop :=
  ∀ s : State, s.frameIs MgmtFrame.empty →
    let reloaded := { s.est with remainingNs := s.est.periodMs * 1000000 }
    (s.est.lock = true →
      exec .superviseStart s = .next (s.answered 0x41 [] (.refused .locked)) ∧
      exec .superviseStop s = .next (s.answered 0x42 [] (.refused .locked))) ∧
    (s.est.lock = false → s.est.mode = .off →
      exec .superviseStart s = .next (s.answered 0x41 [] (.refused .state))) ∧
    (s.est.lock = false → s.est.mode ≠ .off → exec .superviseStart s = .next (State.answered
      { s with est := { reloaded with
          running := true
          lock := decide (s.est.mode = .rollback ∨ s.est.mode = .rollbackReset) } }
      0x41 [] (.done []))) ∧
    (s.est.lock = false → exec .superviseStop s = .next (State.answered
      { s with est := { s.est with running := false } } 0x42 [] (.done []))) ∧
    exec .kick s = .next (State.answered
      { s with est := { reloaded with halted := false } } 0x43 [] (.done []))

/-- An expiry raises SUPERVISION at the end of the remaining time. In NOTIFY the timer reloads. In the
modes that roll back it halts under a broken top, else a SUPERVISION rollback starts, with HRSTO_N
driven in ROLLBACK_RESET where it did not end at once. (The clock is log 2; that the expiry comes when
the remaining nanoseconds have passed is the model's choice, log 15: the spec counts milliseconds.) -/
def Obligations.SupervisionExpiryActsByMode : Prop :=
  ∀ (s : State) (f : Frame) (below : List Frame), s.counting = true → s.esu.stack = f :: below →
    let u := { s with
      now := s.now + s.est.remainingNs
      est := { s.est with remainingNs := 0 }
      evu := { s.evu with flags := s.evu.flags ||| Flag.supervision.set } }
    let v := u.rollbackStarted .supervision
    (s.est.mode = .notify → exec .supervisionExpiry s = .next
      { u with est := { s.est with remainingNs := s.est.periodMs * 1000000 } }) ∧
    (s.est.mode = .rollback ∨ s.est.mode = .rollbackReset → f.broken = true →
      exec .supervisionExpiry s = .next
        { u with
          est := { s.est with remainingNs := 0, halted := true }
          esu := { s.esu with lastOutcome := .haltedBroken } }) ∧
    (s.est.mode = .rollback → f.broken = false → exec .supervisionExpiry s = .next v) ∧
    (s.est.mode = .rollbackReset → f.broken = false →
      exec .supervisionExpiry s = .next
        (if v.esu.engine.state = .idle then v
         else { v with est := { v.est with hrstoDriven := true } }))

/-- Once the supervision lock is set, mode, period, run state and lock stay unchanged through every
command and event but a device reset. -/
def Obligations.SupervisionLockLasts : Prop :=
  ∀ (i : Instr) (s t : State), s.est.lock = true → ¬ Resets s i → exec i s = .next t →
    t.est.lock = true ∧ t.est.mode = s.est.mode ∧ t.est.periodMs = s.est.periodMs ∧
      t.est.running = s.est.running

/-- An assertion of HRST_N empties the queue of waiting requests, marks the one in service as dropped,
closes the gate and raises HOST_RESET; the request is dropped at once where it has no operation in
flight. During a device reset, and at a release, less happens. -/
def Obligations.HostResetReachesQueueAndGate : Prop :=
  ∀ s : State, s.QueueInv →
    (s.pins.hrstAsserted = false →
      (s.resetPhase ≠ .running → exec .hostResetAssert s = .next
        { s with pins := { s.pins with hrstAsserted := true } }) ∧
      (s.resetPhase = .running → s.est.recovery = .none ∨ s.esu.stack = [] →
        exec .hostResetAssert s = .next s.hostReset)) ∧
    (s.pins.hrstAsserted = true →
      (s.resetPhase ≠ .running → exec .hostResetRelease s = .next
        { s with pins := { s.pins with hrstAsserted := false } }) ∧
      (s.resetPhase = .running → exec .hostResetRelease s = .next
        { s with
          pins := { s.pins with hrstAsserted := false }
          slp := { s.slp with gateOpen := true } }))

/-- Under ROLLBACK_ALL with an epoch open the assertion also starts a RECOVERY rollback, which ends at
once under a broken top, or turns a running SINGLE or ALL one into RECOVERY. -/
def Obligations.HostResetRecovery : Prop :=
  ∀ (s : State) (f : Frame) (below : List Frame), s.QueueInv → s.pins.hrstAsserted = false →
    s.resetPhase = .running → s.est.recovery = .rollbackAll → s.esu.stack = f :: below →
    (s.esu.engine.state = .idle →
      (f.broken = false →
        exec .hostResetAssert s = .next (s.hostReset.rollbackStarted .recovery)) ∧
      (f.broken = true →
        exec .hostResetAssert s = .next (s.hostReset.rollbackEnded .recovery .haltedBroken))) ∧
    (s.esu.engine.state ≠ .idle → ∀ k, s.esu.engine.kind = some k →
      (k = .single ∨ k = .all → exec .hostResetAssert s = .next
        { s.hostReset with esu := { s.hostReset.esu with engine :=
          { s.hostReset.esu.engine with kind := some .recovery } } }) ∧
      (k = .supervision ∨ k = .recovery → exec .hostResetAssert s = .next s.hostReset))

/-- A device reset begins at power-on, at the assertion of DRST_N and at the end of a frame that carried
DEVICE_RESET, where it also ends at once. It ends, with its cause recorded and the gate set from HRST_N,
at the end of power-on, unless DRST_N prolongs it, and at the release of DRST_N. (That POWER_ON may come
at any time, how resets overlap, and that the gate follows HRST_N at the beginning too, is the model's
choice, log 18; that the DRAM list is emptied, log 6; that MDO carries 0x00 in the rest of a frame that
the reset discarded, log 29; that WATCH and its capture are cleared, as R151, R155 and R163 say and R51
seems not to, log 30.) -/
def Obligations.DeviceResetBeginsAndEnds : Prop :=
  ∀ s : State,
    exec .powerOn s = .next { s.cleared with resetPhase := .powerOn } ∧
    (s.pins.drstAsserted = false →
      (s.resetPhase = .running → exec .drstNAssert s = .next
        { s.cleared with
          pins := { s.pins with drstAsserted := true }
          resetPhase := .pin }) ∧
      (s.resetPhase ≠ .running → exec .drstNAssert s = .next
        { s with pins := { s.pins with drstAsserted := true } })) ∧
    (∀ f a, s.pins.mcsLow = true → s.mlp.frame = some f → f.code = some 0x7E → f.answer = some a →
      exec .frameEnd s = .next
        ((State.cleared { s with
          pins := { s.pins with mcsLow := false }
          mlp := { s.mlp with frame := none, mdo := none } }).outOfReset .command)) ∧
    (s.resetPhase = .powerOn →
      (s.pins.drstAsserted = false →
        exec .powerOnResetEnd s = .next (s.outOfReset .powerOn)) ∧
      (s.pins.drstAsserted = true →
        exec .powerOnResetEnd s = .next { s with resetPhase := .powerOnHeld })) ∧
    (s.pins.drstAsserted = true →
      let u := { s with pins := { s.pins with drstAsserted := false } }
      (s.resetPhase = .pin → exec .drstNRelease s = .next (u.outOfReset .resetPin)) ∧
      (s.resetPhase = .powerOnHeld → exec .drstNRelease s = .next (u.outOfReset .powerOn)) ∧
      (s.resetPhase = .running ∨ s.resetPhase = .powerOn → exec .drstNRelease s = .next u))

/-! ### The sequencer -/

/-- GEOMETRY is set once; TIMING replaces all seven values while UNINIT, each in its range, CLOSE_ALL_WAIT
against the CLOSE_WAIT beside it; DRAM_INIT starts the 200 µs wait. (That every REFRESH_TICK that is no
multiple of 500 is refused, the default 3900 included, which the example of section 9.5 has accepted, is
the model's reading of R120, log 26. The clock: log 2.) -/
def Obligations.SetUpCommands : Prop :=
  (∀ (s : State) (a b : Byte), s.frameIs (.collecting 0x10 [a]) →
    let set (g : Geometry) := exec (.geometry b) s = .next (State.answered
      { s with dsq := { s.dsq with geometry := some g } } 0x10 [a, b] (.done []))
    (s.dsq.geometry ≠ none →
      exec (.geometry b) s = .next (s.answered 0x10 [a, b] (.refused .alreadySet))) ∧
    (s.dsq.geometry = none →
      (word2 a b = 8192 → set .rows8192) ∧ (word2 a b = 16384 → set .rows16384) ∧
      (word2 a b = 32768 → set .rows32768) ∧
      (word2 a b ≠ 8192 → word2 a b ≠ 16384 → word2 a b ≠ 32768 →
        exec (.geometry b) s = .next (s.answered 0x10 [a, b] (.refused .badArg))))) ∧
  (∀ (s : State) (a b c d e f g h i j k l m n : Byte),
    s.frameIs (.collecting 0x11 [a, b, c, d, e, f, g, h, i, j, k, l, m]) →
    let args := [a, b, c, d, e, f, g, h, i, j, k, l, m, n]
    let t : TimingSet :=
      { openWait := word2 a b, closeWait := word2 c d, closeAllWait := word2 e f,
        writeGuard := word2 g h, bankRefreshWait := word2 i j, actWindow := word2 k l,
        refreshTick := word2 m n }
    let legal := (5 ≤ t.openWait ∧ t.openWait ≤ 100) ∧ (5 ≤ t.closeWait ∧ t.closeWait ≤ 100) ∧
      (t.closeWait ≤ t.closeAllWait ∧ t.closeAllWait ≤ 150) ∧
      (5 ≤ t.writeGuard ∧ t.writeGuard ≤ 100) ∧
      (30 ≤ t.bankRefreshWait ∧ t.bankRefreshWait ≤ 500) ∧
      (10 ≤ t.actWindow ∧ t.actWindow ≤ 200) ∧
      (500 ≤ t.refreshTick ∧ t.refreshTick ≤ 16000 ∧ t.refreshTick % 500 = 0)
    (s.dsq.state ≠ .uninit →
      exec (.timing n) s = .next (s.answered 0x11 args (.refused .state))) ∧
    (s.dsq.state = .uninit → ¬ legal →
      exec (.timing n) s = .next (s.answered 0x11 args (.refused .badArg))) ∧
    (s.dsq.state = .uninit → legal → exec (.timing n) s = .next (State.answered
      { s with dsq := { s.dsq with timing := t } } 0x11 args (.done [])))) ∧
  (∀ s : State, s.frameIs MgmtFrame.empty →
    (s.dsq.state ≠ .uninit →
      exec .dramInit s = .next (s.answered 0x12 [] (.refused .state))) ∧
    (s.dsq.state = .uninit → s.dsq.geometry = none →
      exec .dramInit s = .next (s.answered 0x12 [] (.refused .notReady))) ∧
    (s.dsq.state = .uninit → s.dsq.geometry ≠ none → exec .dramInit s = .next (State.answered
      { s with dsq := { s.dsq with state := .initWait (s.now + 200000) } } 0x12 [] .started)))

/-- The initialization: the close-all wait, the refresh of banks 0 to 7 one at a time, and READY, which
raises DRAM_READY and starts the refresh tick (the clock: log 2). -/
def Obligations.InitializationRunsToReady : Prop :=
  ∀ (s : State) (till : Nat),
    let u := s.advanceTo till
    let refreshed (x : State) (b : Fin 8) := x.bankSet b
      { x.bank b with state := .refreshing (x.now + x.dsq.timing.bankRefreshWait) }
    (s.dsq.state = .initWait till → exec .initWaitExpiry s = .next
      { u with dsq := { s.dsq with
          state := .closeAllWait (u.now + s.dsq.timing.closeAllWait) } }) ∧
    (s.dsq.state = .closeAllWait till → exec .closeAllWaitExpiry s = .next
      (refreshed { u with dsq := { s.dsq with state := .initRefresh 0 } } 0)) ∧
    (∀ b, s.dsq.state = .initRefresh b → (s.bank b).state = .refreshing till →
      let v := u.bankSet b { s.bank b with state := .idle }
      (b ≠ 7 → exec .initRefreshExpiry s = .next
        (refreshed { v with dsq := { v.dsq with state := .initRefresh (b + 1) } } (b + 1))) ∧
      (b = 7 → exec .initRefreshExpiry s = .next
        { v with
          dsq := { v.dsq with
            state := .ready, owed := 0, pointer := 0
            tick := some (u.now + s.dsq.timing.refreshTick) }
          evu := { s.evu with flags := s.evu.flags ||| Flag.dramReady.set } }))

/-- The arbiter starts the only waiting operation, or of two that of the client not served last, while no
operation is current and fewer than 8 refreshes are owed; the transfer starts once the bank is open on
the operation's row, and lasts 20 ns. -/
def Obligations.OperationAndTransferStart : Prop :=
  ∀ s : State,
    (s.dsq.current = none → s.dsq.owed < 8 →
      (∀ op, s.dsq.waitRqp = some op → op.client = .rqp →
        s.dsq.waitRollback = none ∨ s.dsq.turn = .rollback →
        exec .operationStart s = .next { s with dsq := { s.dsq with
          current := some { op := op, transfer := none }, waitRqp := none, turn := .rqp } }) ∧
      (∀ op, s.dsq.waitRollback = some op → op.client = .rollback →
        s.dsq.waitRqp = none ∨ s.dsq.turn = .rqp →
        exec .operationStart s = .next { s with dsq := { s.dsq with
          current := some { op := op, transfer := none }, waitRollback := none,
          turn := .rollback } })) ∧
    (∀ op, s.dsq.current = some { op := op, transfer := none } →
      (s.bank (bankOfLine op.line)).state = .opened (rowOfLine op.line) →
      exec .transferStart s = .next { s with dsq := { s.dsq with
        current := some { op := op, transfer := some (s.now + 20) } } })

/-- The place of a line; an activation of the current operation's bank, which enters the history; the
bank opens when OPEN_WAIT ends; an instant leaves the history ACT_WINDOW after it was made (the clock:
log 2). -/
def Obligations.BanksActivateAndOpen : Prop :=
  (∀ line, (bankOfLine line).val = line / 32 % 8 ∧ rowOfLine line = line / 256 ∧
    columnOfLine line = line % 32 ∧
    line = rowOfLine line * 256 + (bankOfLine line).val * 32 + columnOfLine line) ∧
  ∀ s : State,
    (∀ c, s.dsq.current = some c → s.dsq.history.length < 4 →
      let b := bankOfLine c.op.line
      (s.bank b).state = .idle →
      let v := s.bankSet b { s.bank b with
        state := .opening (rowOfLine c.op.line) (s.now + s.dsq.timing.openWait) }
      exec .bankActivation s = .next
        { v with dsq := { v.dsq with history := s.dsq.history ++ [s.now] } }) ∧
    (∀ b row till, (s.bank b).state = .opening row till → exec (.openWaitExpiry b) s = .next
      ((s.advanceTo till).bankSet b { s.bank b with state := .opened row })) ∧
    (∀ t more, s.dsq.history = t :: more → exec .actWindowAgeOut s = .next
      { s.advanceTo (t + s.dsq.timing.actWindow) with
        dsq := { s.dsq with history := more } })

/-- A close begins on an OPEN bank with a clear write guard exactly where a row conflict, the page policy
or an owed refresh asks for it; CLOSE_WAIT ends it, and WRITE_GUARD clears the guard (the clock: log 2).
Under CLOSE_PAGE a bank for which the arbiter starts an operation at this event is held again and does
not close (R135; that a close and a start of the same event are told apart in this way is log 31). -/
def Obligations.BanksClose : Prop :=
  ∀ (s : State) (b : Fin 8),
    let heldBy (c : CurrentOp) := s.dsq.current = some c ∧ bankOfLine c.op.line = b
    let due (row : Nat) := (∃ c, heldBy c ∧ rowOfLine c.op.line ≠ row) ∨
      ((¬ ∃ c, heldBy c) ∧
        ((s.dsq.pagePolicy = .closePage ∧
            ¬ ∃ op, s.nextStarted = some op ∧ bankOfLine op.line = b) ∨
          (0 < s.dsq.owed ∧ s.dsq.pointer = b)))
    (∀ row, (s.bank b).state = .opened row → (s.bank b).guardTill = none →
      (due row → exec (.bankClose b) s = .next (s.bankSet b
        { s.bank b with state := .closing (s.now + s.dsq.timing.closeWait) })) ∧
      (¬ due row → exec (.bankClose b) s = .next s)) ∧
    (∀ till, (s.bank b).state = .closing till → exec (.closeWaitExpiry b) s = .next
      ((s.advanceTo till).bankSet b { s.bank b with state := .idle })) ∧
    (∀ till, (s.bank b).guardTill = some till → exec (.writeGuardExpiry b) s = .next
      ((s.advanceTo till).bankSet b { s.bank b with guardTill := none }))

/-- The refresh tick adds to the owed count, or raises REFRESH_OVERDUE at 8; a refresh of the target
lowers it and moves the pointer on; its wait returns the bank to IDLE (the clock: log 2). -/
def Obligations.RefreshIsOwedAndPaid : Prop :=
  ∀ (s : State) (till : Nat),
    let u := s.advanceTo till
    (s.dsq.tick = some till →
      (s.dsq.owed < 8 → exec .refreshTickExpiry s = .next
        { u with dsq := { s.dsq with
            tick := some (u.now + s.dsq.timing.refreshTick), owed := s.dsq.owed + 1 } }) ∧
      (8 ≤ s.dsq.owed → exec .refreshTickExpiry s = .next
        { u with
          dsq := { s.dsq with tick := some (u.now + s.dsq.timing.refreshTick) }
          evu := { s.evu with flags := s.evu.flags ||| Flag.refreshOverdue.set } })) ∧
    (0 < s.dsq.owed → s.dsq.refreshing = none → (s.bank s.dsq.pointer).state = .idle →
      (∀ c, s.dsq.current = some c → bankOfLine c.op.line ≠ s.dsq.pointer) →
      let v := s.bankSet s.dsq.pointer { s.bank s.dsq.pointer with
        state := .refreshing (s.now + s.dsq.timing.bankRefreshWait) }
      exec .bankRefreshStart s = .next
        { v with dsq := { v.dsq with
            owed := s.dsq.owed - 1, pointer := s.dsq.pointer + 1
            refreshing := some s.dsq.pointer } }) ∧
    (∀ b, s.dsq.refreshing = some b → (s.bank b).state = .refreshing till →
      let v := u.bankSet b { s.bank b with state := .idle }
      exec .bankRefreshWaitExpiry s = .next { v with dsq := { v.dsq with refreshing := none } })

/-! ### The region map and the policies -/

/-- REGION_WRITE: its refusals in order, else the descriptor at its index is replaced and nothing else
changes. REGION_READ answers the descriptor as it stands. -/
def Obligations.RegionWriteAndRead : Prop :=
  (∀ (s : State) (index f c a b d e g h i last : Byte),
    s.frameIs (.collecting 0x20 [index, f, c, a, b, d, e, g, h, i]) →
    (∀ n, (s.desc n).basePage ≤ (s.desc n).lastPage) →
    let args := [index, f, c, a, b, d, e, g, h, i, last]
    let base := word4 a b d e
    let final := word4 g h i last
    let badArg := 15 < index.toNat ∨ 2 < c.toNat ∨ final < base ∨ s.capacityPages ≤ final
    let overlap := f.getLsbD 0 = true ∧ ∃ page, base ≤ page ∧ page ≤ final ∧
      ((∃ n : Fin 16, n.val ≠ index.toNat ∧ (s.desc n).coversPage page = true) ∨
        s.ulc.coversPage page = true)
    let answer (r : Answer) := exec (.regionWrite last) s = .next (s.answered 0x20 args r)
    (s.dsq.geometry = none → answer (.refused .state)) ∧
    (s.dsq.geometry ≠ none → s.esu.engine.state ≠ .idle → answer .busy) ∧
    (s.dsq.geometry ≠ none → s.esu.engine.state = .idle →
      (s.esu.stack ≠ [] → answer (.refused .epochOpen)) ∧
      (s.esu.stack = [] →
        (badArg → answer (.refused .badArg)) ∧
        (¬ badArg → overlap → answer (.refused .overlap)) ∧
        (¬ badArg → ¬ overlap → ∀ (n : Fin 16) (cls : RegionClass), n.val = index.toNat →
          cls.code = c →
          let x : Descriptor :=
            { enabled := f.getLsbD 0, readRight := f.getLsbD 1, writeRight := f.getLsbD 2,
              align := f.getLsbD 3, cls := cls, basePage := base, lastPage := final }
          exec (.regionWrite last) s = .next (State.answered
            { s with rmap := { s.rmap with descs := s.rmap.descs.set n.val x n.isLt } }
            0x20 args (.done [])))))) ∧
  (∀ (s : State) (index : Byte), s.frameIs (.collecting 0x21 []) →
    (15 < index.toNat →
      exec (.regionRead index) s = .next (s.answered 0x21 [index] (.refused .badArg))) ∧
    (∀ n : Fin 16, n.val = index.toNat → exec (.regionRead index) s = .next (s.answered 0x21 [index]
      (.done (
        bytes1 ((s.desc n).enabled.toNat + 2 * (s.desc n).readRight.toNat +
          4 * (s.desc n).writeRight.toNat + 8 * (s.desc n).align.toNat) ++
        [(s.desc n).cls.code] ++ bytes4 (s.desc n).basePage ++ bytes4 (s.desc n).lastPage)))))

/-- SET_POLICY: BUSY, EPOCH_OPEN, BAD_ARG, in that order; else all five fields are replaced, and under
CLOSE_PAGE every OPEN bank that is not held, for which the arbiter starts no operation at this event
(log 31) and whose guard is clear begins its close (in this very step: log 14). -/
def Obligations.SetPolicyReplacesFields : Prop :=
  ∀ (s : State) (dc ac fm pp rp : Byte), s.frameIs (.collecting 0x14 [dc, ac, fm, pp]) →
    let args := [dc, ac, fm, pp, rp]
    let answer (r : Answer) := exec (.setPolicy rp) s = .next (s.answered 0x14 args r)
    let badArg := 1 < dc.toNat ∨ 1 < ac.toNat ∨ 1 < fm.toNat ∨ 1 < pp.toNat ∨ 1 < rp.toNat
    let closes (b : Fin 8) : Bool :=
      pp == 1 && (s.bank b).guardTill.isNone && !s.held b &&
        !s.nextStarted.any (fun op => bankOfLine op.line == b) &&
        (match (s.bank b).state with | .opened _ => true | _ => false)
    (s.esu.engine.state ≠ .idle → answer .busy) ∧
    (s.esu.engine.state = .idle →
      (s.esu.stack ≠ [] → answer (.refused .epochOpen)) ∧
      (s.esu.stack = [] →
        (badArg → answer (.refused .badArg)) ∧
        (¬ badArg → exec (.setPolicy rp) s = .next (State.answered
          { s with
            rmap := { s.rmap with
              defaultClass := if dc = 0 then .plain else .deny, alignCheck := ac == 1 }
            fwf := { s.fwf with mode := if fm = 0 then .on else .bypass }
            dsq := { s.dsq with
              pagePolicy := if pp = 0 then .openPage else .closePage
              banks := Vector.ofFn (fun b =>
                if closes b then
                  { s.bank b with state := .closing (s.now + s.dsq.timing.closeWait) }
                else s.bank b) }
            est := { s.est with recovery := if rp = 0 then .none else .rollbackAll } }
          0x14 args (.done [])))))

/-! ### Events and the management link -/

/-- The fault queue, the flags, the masks, the watch capture and INT_N over the management link. -/
def Obligations.EventCommandsAndInterrupt : Prop :=
  (∀ s : State, s.frameIs MgmtFrame.empty →
    (s.evu.faults = [] → exec .faultPop s = .next (s.answered 0x50 [] (.done [0]))) ∧
    (∀ r rest, s.evu.faults = r :: rest → exec .faultPop s = .next (State.answered
      { s with evu := { s.evu with faults := rest } } 0x50 []
      (.done ([1, r.fault.code, kindCode r.kind] ++ bytes4 r.addr.toNat ++ bytes1 r.beats ++
        [r.region.code] ++ bytes1 r.depth ++ bytes2 r.topSerial)))) ∧
    (s.evu.capture = none → exec .eventsRead s = .next (s.answered 0x51 []
      (.done (bytes2 s.evu.flags.toNat ++ bytes2 s.evu.masks.toNat ++
        [0, 0, 0, 0, 0, 0, 0, 0])))) ∧
    (∀ c, s.evu.capture = some c → exec .eventsRead s = .next (s.answered 0x51 []
      (.done (bytes2 s.evu.flags.toNat ++ bytes2 s.evu.masks.toNat ++ [1] ++
        bytes4 c.addr.toNat ++ [kindCode c.kind] ++ bytes1 c.beats ++ bytes1 c.depth))))) ∧
  (∀ (s : State) (a b : Byte), s.frameIs (.collecting 0x52 [a]) →
    exec (.eventsClear b) s = .next (State.answered
      { s with evu := { s.evu with
          flags := s.evu.flags &&& ~~~ BitVec.ofNat 11 (word2 a b)
          capture := if b.getLsbD 7 then none else s.evu.capture } } 0x52 [a, b] (.done []))) ∧
  (∀ (s : State) (a b : Byte), s.frameIs (.collecting 0x53 [a]) →
    exec (.maskWrite b) s = .next (State.answered
      { s with evu := { s.evu with masks := BitVec.ofNat 11 (word2 a b) } } 0x53 [a, b] (.done []))) ∧
  (∀ s : State, s.intN = true ↔
    ∃ f : Flag, s.isPending f = true ∧ s.evu.masks.getLsbD f.bit = false) ∧
  (∀ (flags : BitVec 11) (f g : Flag),
    (flags ||| f.set).getLsbD g.bit = (flags.getLsbD g.bit || decide (f = g)))

/-- IDENT answers its constants, STATUS the state of the part, a code of no command is refused UNKNOWN,
and DEVICE_RESET is only answered at its taking; none of the four changes anything. -/
def Obligations.AnswersWithoutEffect : Prop :=
  ∀ s : State, s.frameIs MgmtFrame.empty →
    exec .ident s = .next (s.answered 0x01 []
      (.done [0x3A, 0x48, 0x10, 1, 8, 0x04, 0x00, 16, 16, 8])) ∧
    exec .status s = .next (s.answered 0x02 []
      (.done ([s.dsq.state.code] ++ bytes1 s.esu.stack.length ++ bytes4 s.ulc.head ++
        bytes4 (56 * s.ulc.pages) ++ bytes4 s.ulc.basePage ++ bytes2 s.ulc.pages ++
        [rollbackCode s.esu.engine.kind, s.esu.lastOutcome.code, s.est.mode.code] ++
        bytes1 (s.est.running.toNat + 2 * s.est.lock.toNat + 4 * s.est.halted.toNat) ++
        bytes1 (s.pins.hrstAsserted.toNat + 2 * s.est.hrstoDriven.toNat) ++
        bytes1 s.evu.faults.length ++ [s.mlp.lastCause.code]))) ∧
    (∀ code : Byte, code ∉ commandsAtCode.map Prod.fst → code ∉ commandsAtLast.map Prod.fst →
      exec (.unknown code) s = .next (s.answered code [] (.refused .unknown))) ∧
    exec .deviceReset s = .next (s.answered 0x7E [] (.done []))

/-- A frame begins and ends with MCS_N; its bytes are collected until the command's last byte, which has
the effect of the command's own row; after that the answer is shifted out, then 0x00. (That the byte
that completes a command and the row of the command are two ways of saying one event is log 8; that MDO
carries 0x00 also in the rest of a frame that a device reset discarded is log 29.) -/
def Obligations.FramesAndBytes : Prop :=
  ∀ s : State,
    (s.pins.mcsLow = false → exec .frameBegin s = .next
      { s with
        pins := { s.pins with mcsLow := true }
        mlp := { s.mlp with
          frame := if s.resetPhase = .running then some MgmtFrame.empty else none, mdo := none } }) ∧
    (s.pins.mcsLow = true →
      ((¬ ∃ f a, s.mlp.frame = some f ∧ f.code = some 0x7E ∧ f.answer = some a) →
        exec .frameEnd s = .next
          { s with
            pins := { s.pins with mcsLow := false }
            mlp := { s.mlp with frame := none, mdo := none } }) ∧
      (s.mlp.frame = none → ∀ b, exec (.byteShiftedIn b) s = .next
        { s with mlp := { s.mlp with mdo := some 0 } }) ∧
      (∀ f a, s.mlp.frame = some f → f.answer = some a → ∀ b, exec (.byteShiftedIn b) s = .next
        { s with mlp := { s.mlp with
            frame := some { f with shifted := f.shifted + 1 }
            mdo := some ((match a with
              | .done bytes => 0x01 :: bytes
              | .started => [0x02]
              | .busy => [0x03, 0x10]
              | .refused r => [0x04, r.code]).getD f.shifted 0) } }) ∧
      (s.frameIs MgmtFrame.empty →
        (∀ x ∈ commandsAtCode, exec (.byteShiftedIn x.1) s = exec x.2 s) ∧
        (∀ code, (argBytes code).isNone = true →
          exec (.byteShiftedIn code) s = exec (.unknown code) s) ∧
        (∀ x ∈ commandsAtLast, exec (.byteShiftedIn x.1) s = .next
          { s with mlp := { s.mlp with frame := some (.collecting x.1 []), mdo := some 0 } })) ∧
      (∀ x ∈ commandsAtLast, ∀ args b, s.frameIs (.collecting x.1 args) →
        (args.length + 1 = x.2.1 → exec (.byteShiftedIn b) s = exec (x.2.2 b) s) ∧
        (args.length + 1 < x.2.1 → exec (.byteShiftedIn b) s = .next
          { s with mlp := { s.mlp with
              frame := some (.collecting x.1 (args ++ [b])), mdo := some 0 } })))

/-! ### Invariants that every step keeps -/

/-- Every step keeps the shape of the request queue. -/
def Obligations.QueueInvariantKept : Prop :=
  ∀ s t : State, s.QueueInv → step s = .next t → t.QueueInv

/-- Every step keeps the epoch stack, the log head and the engine in order. -/
def Obligations.StackInvariantKept : Prop :=
  ∀ s t : State, s.StackInv → step s = .next t → t.StackInv

/-- Every step keeps the head within the log, with room for the records still to be written, and the
supervision timer locked exactly while it runs in a mode that rolls back. -/
def Obligations.RoomAndTimerInvariantsKept : Prop :=
  (∀ s t : State, s.StackInv → s.RoomInv → step s = .next t → t.RoomInv) ∧
  (∀ s t : State, s.StackInv → s.TimerInv → step s = .next t → t.TimerInv)

/-- Every step keeps enabled descriptors and log area apart and within the capacity. -/
def Obligations.RegionInvariantsKept : Prop :=
  (∀ s t : State, s.RegionsInv → step s = .next t → t.RegionsInv) ∧
  (∀ s t : State, s.CapacityInv → step s = .next t → t.CapacityInv)

/-- Every step keeps the bounds of fault queue, owed count and activation history; WATCH pending exactly
while the capture is full; the filter empty while no epoch is open, every line in its own set, and the
serials of frames and entries not given again before the filter is emptied (with the carried serials,
log 27); the DRAM bytes in their canonical form. -/
def Obligations.BoundsWatchFilterMemoryKept : Prop :=
  (∀ s t : State, s.BoundsInv → step s = .next t → t.BoundsInv) ∧
  (∀ s t : State, s.WatchInv → step s = .next t → t.WatchInv) ∧
  (∀ s t : State, s.FilterInv → step s = .next t → t.FilterInv) ∧
  (∀ s t : State, s.MemoryInv → step s = .next t → t.MemoryInv)
end

