-- ==== Sys2Proof/Laws/State.lean ====
section
/-! SUPPORT. One lemma for each field under each block update. -/
namespace Sys2Proof.Machine

variable (s : State)

@[simp] theorem State.setSlp_slp (x : Slp) : (s.setSlp x).slp = x := rfl
@[simp] theorem State.setSlp_rmap (x : Slp) : (s.setSlp x).rmap = s.rmap := rfl
@[simp] theorem State.setSlp_rqp (x : Slp) : (s.setSlp x).rqp = s.rqp := rfl
@[simp] theorem State.setSlp_fwf (x : Slp) : (s.setSlp x).fwf = s.fwf := rfl
@[simp] theorem State.setSlp_ulc (x : Slp) : (s.setSlp x).ulc = s.ulc := rfl
@[simp] theorem State.setSlp_esu (x : Slp) : (s.setSlp x).esu = s.esu := rfl
@[simp] theorem State.setSlp_est (x : Slp) : (s.setSlp x).est = s.est := rfl
@[simp] theorem State.setSlp_dsq (x : Slp) : (s.setSlp x).dsq = s.dsq := rfl
@[simp] theorem State.setSlp_evu (x : Slp) : (s.setSlp x).evu = s.evu := rfl
@[simp] theorem State.setSlp_mlp (x : Slp) : (s.setSlp x).mlp = s.mlp := rfl
@[simp] theorem State.setSlp_pins (x : Slp) : (s.setSlp x).pins = s.pins := rfl
@[simp] theorem State.setSlp_resetPhase (x : Slp) : (s.setSlp x).resetPhase = s.resetPhase := rfl
@[simp] theorem State.setSlp_dram (x : Slp) : (s.setSlp x).dram = s.dram := rfl
@[simp] theorem State.setSlp_dramGeneration (x : Slp) : (s.setSlp x).dramGeneration = s.dramGeneration := rfl
@[simp] theorem State.setSlp_now (x : Slp) : (s.setSlp x).now = s.now := rfl
@[simp] theorem State.setSlp_choices (x : Slp) : (s.setSlp x).choices = s.choices := rfl
@[simp] theorem State.setSlp_pending (x : Slp) : (s.setSlp x).pending = s.pending := rfl

@[simp] theorem State.setRmap_slp (x : Rmap) : (s.setRmap x).slp = s.slp := rfl
@[simp] theorem State.setRmap_rmap (x : Rmap) : (s.setRmap x).rmap = x := rfl
@[simp] theorem State.setRmap_rqp (x : Rmap) : (s.setRmap x).rqp = s.rqp := rfl
@[simp] theorem State.setRmap_fwf (x : Rmap) : (s.setRmap x).fwf = s.fwf := rfl
@[simp] theorem State.setRmap_ulc (x : Rmap) : (s.setRmap x).ulc = s.ulc := rfl
@[simp] theorem State.setRmap_esu (x : Rmap) : (s.setRmap x).esu = s.esu := rfl
@[simp] theorem State.setRmap_est (x : Rmap) : (s.setRmap x).est = s.est := rfl
@[simp] theorem State.setRmap_dsq (x : Rmap) : (s.setRmap x).dsq = s.dsq := rfl
@[simp] theorem State.setRmap_evu (x : Rmap) : (s.setRmap x).evu = s.evu := rfl
@[simp] theorem State.setRmap_mlp (x : Rmap) : (s.setRmap x).mlp = s.mlp := rfl
@[simp] theorem State.setRmap_pins (x : Rmap) : (s.setRmap x).pins = s.pins := rfl
@[simp] theorem State.setRmap_resetPhase (x : Rmap) : (s.setRmap x).resetPhase = s.resetPhase := rfl
@[simp] theorem State.setRmap_dram (x : Rmap) : (s.setRmap x).dram = s.dram := rfl
@[simp] theorem State.setRmap_dramGeneration (x : Rmap) : (s.setRmap x).dramGeneration = s.dramGeneration := rfl
@[simp] theorem State.setRmap_now (x : Rmap) : (s.setRmap x).now = s.now := rfl
@[simp] theorem State.setRmap_choices (x : Rmap) : (s.setRmap x).choices = s.choices := rfl
@[simp] theorem State.setRmap_pending (x : Rmap) : (s.setRmap x).pending = s.pending := rfl

@[simp] theorem State.setRqp_slp (x : Rqp) : (s.setRqp x).slp = s.slp := rfl
@[simp] theorem State.setRqp_rmap (x : Rqp) : (s.setRqp x).rmap = s.rmap := rfl
@[simp] theorem State.setRqp_rqp (x : Rqp) : (s.setRqp x).rqp = x := rfl
@[simp] theorem State.setRqp_fwf (x : Rqp) : (s.setRqp x).fwf = s.fwf := rfl
@[simp] theorem State.setRqp_ulc (x : Rqp) : (s.setRqp x).ulc = s.ulc := rfl
@[simp] theorem State.setRqp_esu (x : Rqp) : (s.setRqp x).esu = s.esu := rfl
@[simp] theorem State.setRqp_est (x : Rqp) : (s.setRqp x).est = s.est := rfl
@[simp] theorem State.setRqp_dsq (x : Rqp) : (s.setRqp x).dsq = s.dsq := rfl
@[simp] theorem State.setRqp_evu (x : Rqp) : (s.setRqp x).evu = s.evu := rfl
@[simp] theorem State.setRqp_mlp (x : Rqp) : (s.setRqp x).mlp = s.mlp := rfl
@[simp] theorem State.setRqp_pins (x : Rqp) : (s.setRqp x).pins = s.pins := rfl
@[simp] theorem State.setRqp_resetPhase (x : Rqp) : (s.setRqp x).resetPhase = s.resetPhase := rfl
@[simp] theorem State.setRqp_dram (x : Rqp) : (s.setRqp x).dram = s.dram := rfl
@[simp] theorem State.setRqp_dramGeneration (x : Rqp) : (s.setRqp x).dramGeneration = s.dramGeneration := rfl
@[simp] theorem State.setRqp_now (x : Rqp) : (s.setRqp x).now = s.now := rfl
@[simp] theorem State.setRqp_choices (x : Rqp) : (s.setRqp x).choices = s.choices := rfl
@[simp] theorem State.setRqp_pending (x : Rqp) : (s.setRqp x).pending = s.pending := rfl

@[simp] theorem State.setFwf_slp (x : Fwf) : (s.setFwf x).slp = s.slp := rfl
@[simp] theorem State.setFwf_rmap (x : Fwf) : (s.setFwf x).rmap = s.rmap := rfl
@[simp] theorem State.setFwf_rqp (x : Fwf) : (s.setFwf x).rqp = s.rqp := rfl
@[simp] theorem State.setFwf_fwf (x : Fwf) : (s.setFwf x).fwf = x := rfl
@[simp] theorem State.setFwf_ulc (x : Fwf) : (s.setFwf x).ulc = s.ulc := rfl
@[simp] theorem State.setFwf_esu (x : Fwf) : (s.setFwf x).esu = s.esu := rfl
@[simp] theorem State.setFwf_est (x : Fwf) : (s.setFwf x).est = s.est := rfl
@[simp] theorem State.setFwf_dsq (x : Fwf) : (s.setFwf x).dsq = s.dsq := rfl
@[simp] theorem State.setFwf_evu (x : Fwf) : (s.setFwf x).evu = s.evu := rfl
@[simp] theorem State.setFwf_mlp (x : Fwf) : (s.setFwf x).mlp = s.mlp := rfl
@[simp] theorem State.setFwf_pins (x : Fwf) : (s.setFwf x).pins = s.pins := rfl
@[simp] theorem State.setFwf_resetPhase (x : Fwf) : (s.setFwf x).resetPhase = s.resetPhase := rfl
@[simp] theorem State.setFwf_dram (x : Fwf) : (s.setFwf x).dram = s.dram := rfl
@[simp] theorem State.setFwf_dramGeneration (x : Fwf) : (s.setFwf x).dramGeneration = s.dramGeneration := rfl
@[simp] theorem State.setFwf_now (x : Fwf) : (s.setFwf x).now = s.now := rfl
@[simp] theorem State.setFwf_choices (x : Fwf) : (s.setFwf x).choices = s.choices := rfl
@[simp] theorem State.setFwf_pending (x : Fwf) : (s.setFwf x).pending = s.pending := rfl

@[simp] theorem State.setUlc_slp (x : Ulc) : (s.setUlc x).slp = s.slp := rfl
@[simp] theorem State.setUlc_rmap (x : Ulc) : (s.setUlc x).rmap = s.rmap := rfl
@[simp] theorem State.setUlc_rqp (x : Ulc) : (s.setUlc x).rqp = s.rqp := rfl
@[simp] theorem State.setUlc_fwf (x : Ulc) : (s.setUlc x).fwf = s.fwf := rfl
@[simp] theorem State.setUlc_ulc (x : Ulc) : (s.setUlc x).ulc = x := rfl
@[simp] theorem State.setUlc_esu (x : Ulc) : (s.setUlc x).esu = s.esu := rfl
@[simp] theorem State.setUlc_est (x : Ulc) : (s.setUlc x).est = s.est := rfl
@[simp] theorem State.setUlc_dsq (x : Ulc) : (s.setUlc x).dsq = s.dsq := rfl
@[simp] theorem State.setUlc_evu (x : Ulc) : (s.setUlc x).evu = s.evu := rfl
@[simp] theorem State.setUlc_mlp (x : Ulc) : (s.setUlc x).mlp = s.mlp := rfl
@[simp] theorem State.setUlc_pins (x : Ulc) : (s.setUlc x).pins = s.pins := rfl
@[simp] theorem State.setUlc_resetPhase (x : Ulc) : (s.setUlc x).resetPhase = s.resetPhase := rfl
@[simp] theorem State.setUlc_dram (x : Ulc) : (s.setUlc x).dram = s.dram := rfl
@[simp] theorem State.setUlc_dramGeneration (x : Ulc) : (s.setUlc x).dramGeneration = s.dramGeneration := rfl
@[simp] theorem State.setUlc_now (x : Ulc) : (s.setUlc x).now = s.now := rfl
@[simp] theorem State.setUlc_choices (x : Ulc) : (s.setUlc x).choices = s.choices := rfl
@[simp] theorem State.setUlc_pending (x : Ulc) : (s.setUlc x).pending = s.pending := rfl

@[simp] theorem State.setEsu_slp (x : Esu) : (s.setEsu x).slp = s.slp := rfl
@[simp] theorem State.setEsu_rmap (x : Esu) : (s.setEsu x).rmap = s.rmap := rfl
@[simp] theorem State.setEsu_rqp (x : Esu) : (s.setEsu x).rqp = s.rqp := rfl
@[simp] theorem State.setEsu_fwf (x : Esu) : (s.setEsu x).fwf = s.fwf := rfl
@[simp] theorem State.setEsu_ulc (x : Esu) : (s.setEsu x).ulc = s.ulc := rfl
@[simp] theorem State.setEsu_esu (x : Esu) : (s.setEsu x).esu = x := rfl
@[simp] theorem State.setEsu_est (x : Esu) : (s.setEsu x).est = s.est := rfl
@[simp] theorem State.setEsu_dsq (x : Esu) : (s.setEsu x).dsq = s.dsq := rfl
@[simp] theorem State.setEsu_evu (x : Esu) : (s.setEsu x).evu = s.evu := rfl
@[simp] theorem State.setEsu_mlp (x : Esu) : (s.setEsu x).mlp = s.mlp := rfl
@[simp] theorem State.setEsu_pins (x : Esu) : (s.setEsu x).pins = s.pins := rfl
@[simp] theorem State.setEsu_resetPhase (x : Esu) : (s.setEsu x).resetPhase = s.resetPhase := rfl
@[simp] theorem State.setEsu_dram (x : Esu) : (s.setEsu x).dram = s.dram := rfl
@[simp] theorem State.setEsu_dramGeneration (x : Esu) : (s.setEsu x).dramGeneration = s.dramGeneration := rfl
@[simp] theorem State.setEsu_now (x : Esu) : (s.setEsu x).now = s.now := rfl
@[simp] theorem State.setEsu_choices (x : Esu) : (s.setEsu x).choices = s.choices := rfl
@[simp] theorem State.setEsu_pending (x : Esu) : (s.setEsu x).pending = s.pending := rfl

@[simp] theorem State.setEst_slp (x : Est) : (s.setEst x).slp = s.slp := rfl
@[simp] theorem State.setEst_rmap (x : Est) : (s.setEst x).rmap = s.rmap := rfl
@[simp] theorem State.setEst_rqp (x : Est) : (s.setEst x).rqp = s.rqp := rfl
@[simp] theorem State.setEst_fwf (x : Est) : (s.setEst x).fwf = s.fwf := rfl
@[simp] theorem State.setEst_ulc (x : Est) : (s.setEst x).ulc = s.ulc := rfl
@[simp] theorem State.setEst_esu (x : Est) : (s.setEst x).esu = s.esu := rfl
@[simp] theorem State.setEst_est (x : Est) : (s.setEst x).est = x := rfl
@[simp] theorem State.setEst_dsq (x : Est) : (s.setEst x).dsq = s.dsq := rfl
@[simp] theorem State.setEst_evu (x : Est) : (s.setEst x).evu = s.evu := rfl
@[simp] theorem State.setEst_mlp (x : Est) : (s.setEst x).mlp = s.mlp := rfl
@[simp] theorem State.setEst_pins (x : Est) : (s.setEst x).pins = s.pins := rfl
@[simp] theorem State.setEst_resetPhase (x : Est) : (s.setEst x).resetPhase = s.resetPhase := rfl
@[simp] theorem State.setEst_dram (x : Est) : (s.setEst x).dram = s.dram := rfl
@[simp] theorem State.setEst_dramGeneration (x : Est) : (s.setEst x).dramGeneration = s.dramGeneration := rfl
@[simp] theorem State.setEst_now (x : Est) : (s.setEst x).now = s.now := rfl
@[simp] theorem State.setEst_choices (x : Est) : (s.setEst x).choices = s.choices := rfl
@[simp] theorem State.setEst_pending (x : Est) : (s.setEst x).pending = s.pending := rfl

@[simp] theorem State.setDsq_slp (x : Dsq) : (s.setDsq x).slp = s.slp := rfl
@[simp] theorem State.setDsq_rmap (x : Dsq) : (s.setDsq x).rmap = s.rmap := rfl
@[simp] theorem State.setDsq_rqp (x : Dsq) : (s.setDsq x).rqp = s.rqp := rfl
@[simp] theorem State.setDsq_fwf (x : Dsq) : (s.setDsq x).fwf = s.fwf := rfl
@[simp] theorem State.setDsq_ulc (x : Dsq) : (s.setDsq x).ulc = s.ulc := rfl
@[simp] theorem State.setDsq_esu (x : Dsq) : (s.setDsq x).esu = s.esu := rfl
@[simp] theorem State.setDsq_est (x : Dsq) : (s.setDsq x).est = s.est := rfl
@[simp] theorem State.setDsq_dsq (x : Dsq) : (s.setDsq x).dsq = x := rfl
@[simp] theorem State.setDsq_evu (x : Dsq) : (s.setDsq x).evu = s.evu := rfl
@[simp] theorem State.setDsq_mlp (x : Dsq) : (s.setDsq x).mlp = s.mlp := rfl
@[simp] theorem State.setDsq_pins (x : Dsq) : (s.setDsq x).pins = s.pins := rfl
@[simp] theorem State.setDsq_resetPhase (x : Dsq) : (s.setDsq x).resetPhase = s.resetPhase := rfl
@[simp] theorem State.setDsq_dram (x : Dsq) : (s.setDsq x).dram = s.dram := rfl
@[simp] theorem State.setDsq_dramGeneration (x : Dsq) : (s.setDsq x).dramGeneration = s.dramGeneration := rfl
@[simp] theorem State.setDsq_now (x : Dsq) : (s.setDsq x).now = s.now := rfl
@[simp] theorem State.setDsq_choices (x : Dsq) : (s.setDsq x).choices = s.choices := rfl
@[simp] theorem State.setDsq_pending (x : Dsq) : (s.setDsq x).pending = s.pending := rfl

@[simp] theorem State.setEvu_slp (x : Evu) : (s.setEvu x).slp = s.slp := rfl
@[simp] theorem State.setEvu_rmap (x : Evu) : (s.setEvu x).rmap = s.rmap := rfl
@[simp] theorem State.setEvu_rqp (x : Evu) : (s.setEvu x).rqp = s.rqp := rfl
@[simp] theorem State.setEvu_fwf (x : Evu) : (s.setEvu x).fwf = s.fwf := rfl
@[simp] theorem State.setEvu_ulc (x : Evu) : (s.setEvu x).ulc = s.ulc := rfl
@[simp] theorem State.setEvu_esu (x : Evu) : (s.setEvu x).esu = s.esu := rfl
@[simp] theorem State.setEvu_est (x : Evu) : (s.setEvu x).est = s.est := rfl
@[simp] theorem State.setEvu_dsq (x : Evu) : (s.setEvu x).dsq = s.dsq := rfl
@[simp] theorem State.setEvu_evu (x : Evu) : (s.setEvu x).evu = x := rfl
@[simp] theorem State.setEvu_mlp (x : Evu) : (s.setEvu x).mlp = s.mlp := rfl
@[simp] theorem State.setEvu_pins (x : Evu) : (s.setEvu x).pins = s.pins := rfl
@[simp] theorem State.setEvu_resetPhase (x : Evu) : (s.setEvu x).resetPhase = s.resetPhase := rfl
@[simp] theorem State.setEvu_dram (x : Evu) : (s.setEvu x).dram = s.dram := rfl
@[simp] theorem State.setEvu_dramGeneration (x : Evu) : (s.setEvu x).dramGeneration = s.dramGeneration := rfl
@[simp] theorem State.setEvu_now (x : Evu) : (s.setEvu x).now = s.now := rfl
@[simp] theorem State.setEvu_choices (x : Evu) : (s.setEvu x).choices = s.choices := rfl
@[simp] theorem State.setEvu_pending (x : Evu) : (s.setEvu x).pending = s.pending := rfl

@[simp] theorem State.setMlp_slp (x : Mlp) : (s.setMlp x).slp = s.slp := rfl
@[simp] theorem State.setMlp_rmap (x : Mlp) : (s.setMlp x).rmap = s.rmap := rfl
@[simp] theorem State.setMlp_rqp (x : Mlp) : (s.setMlp x).rqp = s.rqp := rfl
@[simp] theorem State.setMlp_fwf (x : Mlp) : (s.setMlp x).fwf = s.fwf := rfl
@[simp] theorem State.setMlp_ulc (x : Mlp) : (s.setMlp x).ulc = s.ulc := rfl
@[simp] theorem State.setMlp_esu (x : Mlp) : (s.setMlp x).esu = s.esu := rfl
@[simp] theorem State.setMlp_est (x : Mlp) : (s.setMlp x).est = s.est := rfl
@[simp] theorem State.setMlp_dsq (x : Mlp) : (s.setMlp x).dsq = s.dsq := rfl
@[simp] theorem State.setMlp_evu (x : Mlp) : (s.setMlp x).evu = s.evu := rfl
@[simp] theorem State.setMlp_mlp (x : Mlp) : (s.setMlp x).mlp = x := rfl
@[simp] theorem State.setMlp_pins (x : Mlp) : (s.setMlp x).pins = s.pins := rfl
@[simp] theorem State.setMlp_resetPhase (x : Mlp) : (s.setMlp x).resetPhase = s.resetPhase := rfl
@[simp] theorem State.setMlp_dram (x : Mlp) : (s.setMlp x).dram = s.dram := rfl
@[simp] theorem State.setMlp_dramGeneration (x : Mlp) : (s.setMlp x).dramGeneration = s.dramGeneration := rfl
@[simp] theorem State.setMlp_now (x : Mlp) : (s.setMlp x).now = s.now := rfl
@[simp] theorem State.setMlp_choices (x : Mlp) : (s.setMlp x).choices = s.choices := rfl
@[simp] theorem State.setMlp_pending (x : Mlp) : (s.setMlp x).pending = s.pending := rfl

@[simp] theorem State.setPins_slp (x : Pins) : (s.setPins x).slp = s.slp := rfl
@[simp] theorem State.setPins_rmap (x : Pins) : (s.setPins x).rmap = s.rmap := rfl
@[simp] theorem State.setPins_rqp (x : Pins) : (s.setPins x).rqp = s.rqp := rfl
@[simp] theorem State.setPins_fwf (x : Pins) : (s.setPins x).fwf = s.fwf := rfl
@[simp] theorem State.setPins_ulc (x : Pins) : (s.setPins x).ulc = s.ulc := rfl
@[simp] theorem State.setPins_esu (x : Pins) : (s.setPins x).esu = s.esu := rfl
@[simp] theorem State.setPins_est (x : Pins) : (s.setPins x).est = s.est := rfl
@[simp] theorem State.setPins_dsq (x : Pins) : (s.setPins x).dsq = s.dsq := rfl
@[simp] theorem State.setPins_evu (x : Pins) : (s.setPins x).evu = s.evu := rfl
@[simp] theorem State.setPins_mlp (x : Pins) : (s.setPins x).mlp = s.mlp := rfl
@[simp] theorem State.setPins_pins (x : Pins) : (s.setPins x).pins = x := rfl
@[simp] theorem State.setPins_resetPhase (x : Pins) : (s.setPins x).resetPhase = s.resetPhase := rfl
@[simp] theorem State.setPins_dram (x : Pins) : (s.setPins x).dram = s.dram := rfl
@[simp] theorem State.setPins_dramGeneration (x : Pins) : (s.setPins x).dramGeneration = s.dramGeneration := rfl
@[simp] theorem State.setPins_now (x : Pins) : (s.setPins x).now = s.now := rfl
@[simp] theorem State.setPins_choices (x : Pins) : (s.setPins x).choices = s.choices := rfl
@[simp] theorem State.setPins_pending (x : Pins) : (s.setPins x).pending = s.pending := rfl

@[simp] theorem State.setResetPhase_slp (x : ResetPhase) : (s.setResetPhase x).slp = s.slp := rfl
@[simp] theorem State.setResetPhase_rmap (x : ResetPhase) : (s.setResetPhase x).rmap = s.rmap := rfl
@[simp] theorem State.setResetPhase_rqp (x : ResetPhase) : (s.setResetPhase x).rqp = s.rqp := rfl
@[simp] theorem State.setResetPhase_fwf (x : ResetPhase) : (s.setResetPhase x).fwf = s.fwf := rfl
@[simp] theorem State.setResetPhase_ulc (x : ResetPhase) : (s.setResetPhase x).ulc = s.ulc := rfl
@[simp] theorem State.setResetPhase_esu (x : ResetPhase) : (s.setResetPhase x).esu = s.esu := rfl
@[simp] theorem State.setResetPhase_est (x : ResetPhase) : (s.setResetPhase x).est = s.est := rfl
@[simp] theorem State.setResetPhase_dsq (x : ResetPhase) : (s.setResetPhase x).dsq = s.dsq := rfl
@[simp] theorem State.setResetPhase_evu (x : ResetPhase) : (s.setResetPhase x).evu = s.evu := rfl
@[simp] theorem State.setResetPhase_mlp (x : ResetPhase) : (s.setResetPhase x).mlp = s.mlp := rfl
@[simp] theorem State.setResetPhase_pins (x : ResetPhase) : (s.setResetPhase x).pins = s.pins := rfl
@[simp] theorem State.setResetPhase_resetPhase (x : ResetPhase) : (s.setResetPhase x).resetPhase = x := rfl
@[simp] theorem State.setResetPhase_dram (x : ResetPhase) : (s.setResetPhase x).dram = s.dram := rfl
@[simp] theorem State.setResetPhase_dramGeneration (x : ResetPhase) : (s.setResetPhase x).dramGeneration = s.dramGeneration := rfl
@[simp] theorem State.setResetPhase_now (x : ResetPhase) : (s.setResetPhase x).now = s.now := rfl
@[simp] theorem State.setResetPhase_choices (x : ResetPhase) : (s.setResetPhase x).choices = s.choices := rfl
@[simp] theorem State.setResetPhase_pending (x : ResetPhase) : (s.setResetPhase x).pending = s.pending := rfl

@[simp] theorem State.setDram_slp (x : Memory) : (s.setDram x).slp = s.slp := rfl
@[simp] theorem State.setDram_rmap (x : Memory) : (s.setDram x).rmap = s.rmap := rfl
@[simp] theorem State.setDram_rqp (x : Memory) : (s.setDram x).rqp = s.rqp := rfl
@[simp] theorem State.setDram_fwf (x : Memory) : (s.setDram x).fwf = s.fwf := rfl
@[simp] theorem State.setDram_ulc (x : Memory) : (s.setDram x).ulc = s.ulc := rfl
@[simp] theorem State.setDram_esu (x : Memory) : (s.setDram x).esu = s.esu := rfl
@[simp] theorem State.setDram_est (x : Memory) : (s.setDram x).est = s.est := rfl
@[simp] theorem State.setDram_dsq (x : Memory) : (s.setDram x).dsq = s.dsq := rfl
@[simp] theorem State.setDram_evu (x : Memory) : (s.setDram x).evu = s.evu := rfl
@[simp] theorem State.setDram_mlp (x : Memory) : (s.setDram x).mlp = s.mlp := rfl
@[simp] theorem State.setDram_pins (x : Memory) : (s.setDram x).pins = s.pins := rfl
@[simp] theorem State.setDram_resetPhase (x : Memory) : (s.setDram x).resetPhase = s.resetPhase := rfl
@[simp] theorem State.setDram_dram (x : Memory) : (s.setDram x).dram = x := rfl
@[simp] theorem State.setDram_dramGeneration (x : Memory) : (s.setDram x).dramGeneration = s.dramGeneration := rfl
@[simp] theorem State.setDram_now (x : Memory) : (s.setDram x).now = s.now := rfl
@[simp] theorem State.setDram_choices (x : Memory) : (s.setDram x).choices = s.choices := rfl
@[simp] theorem State.setDram_pending (x : Memory) : (s.setDram x).pending = s.pending := rfl

@[simp] theorem State.setNow_slp (x : Nat) : (s.setNow x).slp = s.slp := rfl
@[simp] theorem State.setNow_rmap (x : Nat) : (s.setNow x).rmap = s.rmap := rfl
@[simp] theorem State.setNow_rqp (x : Nat) : (s.setNow x).rqp = s.rqp := rfl
@[simp] theorem State.setNow_fwf (x : Nat) : (s.setNow x).fwf = s.fwf := rfl
@[simp] theorem State.setNow_ulc (x : Nat) : (s.setNow x).ulc = s.ulc := rfl
@[simp] theorem State.setNow_esu (x : Nat) : (s.setNow x).esu = s.esu := rfl
@[simp] theorem State.setNow_est (x : Nat) : (s.setNow x).est = s.est := rfl
@[simp] theorem State.setNow_dsq (x : Nat) : (s.setNow x).dsq = s.dsq := rfl
@[simp] theorem State.setNow_evu (x : Nat) : (s.setNow x).evu = s.evu := rfl
@[simp] theorem State.setNow_mlp (x : Nat) : (s.setNow x).mlp = s.mlp := rfl
@[simp] theorem State.setNow_pins (x : Nat) : (s.setNow x).pins = s.pins := rfl
@[simp] theorem State.setNow_resetPhase (x : Nat) : (s.setNow x).resetPhase = s.resetPhase := rfl
@[simp] theorem State.setNow_dram (x : Nat) : (s.setNow x).dram = s.dram := rfl
@[simp] theorem State.setNow_dramGeneration (x : Nat) : (s.setNow x).dramGeneration = s.dramGeneration := rfl
@[simp] theorem State.setNow_now (x : Nat) : (s.setNow x).now = x := rfl
@[simp] theorem State.setNow_choices (x : Nat) : (s.setNow x).choices = s.choices := rfl
@[simp] theorem State.setNow_pending (x : Nat) : (s.setNow x).pending = s.pending := rfl

@[simp] theorem State.setChoices_slp (x : Nat) : (s.setChoices x).slp = s.slp := rfl
@[simp] theorem State.setChoices_rmap (x : Nat) : (s.setChoices x).rmap = s.rmap := rfl
@[simp] theorem State.setChoices_rqp (x : Nat) : (s.setChoices x).rqp = s.rqp := rfl
@[simp] theorem State.setChoices_fwf (x : Nat) : (s.setChoices x).fwf = s.fwf := rfl
@[simp] theorem State.setChoices_ulc (x : Nat) : (s.setChoices x).ulc = s.ulc := rfl
@[simp] theorem State.setChoices_esu (x : Nat) : (s.setChoices x).esu = s.esu := rfl
@[simp] theorem State.setChoices_est (x : Nat) : (s.setChoices x).est = s.est := rfl
@[simp] theorem State.setChoices_dsq (x : Nat) : (s.setChoices x).dsq = s.dsq := rfl
@[simp] theorem State.setChoices_evu (x : Nat) : (s.setChoices x).evu = s.evu := rfl
@[simp] theorem State.setChoices_mlp (x : Nat) : (s.setChoices x).mlp = s.mlp := rfl
@[simp] theorem State.setChoices_pins (x : Nat) : (s.setChoices x).pins = s.pins := rfl
@[simp] theorem State.setChoices_resetPhase (x : Nat) : (s.setChoices x).resetPhase = s.resetPhase := rfl
@[simp] theorem State.setChoices_dram (x : Nat) : (s.setChoices x).dram = s.dram := rfl
@[simp] theorem State.setChoices_dramGeneration (x : Nat) : (s.setChoices x).dramGeneration = s.dramGeneration := rfl
@[simp] theorem State.setChoices_now (x : Nat) : (s.setChoices x).now = s.now := rfl
@[simp] theorem State.setChoices_choices (x : Nat) : (s.setChoices x).choices = x := rfl
@[simp] theorem State.setChoices_pending (x : Nat) : (s.setChoices x).pending = s.pending := rfl

@[simp] theorem State.setPending_slp (x : List Instr) : (s.setPending x).slp = s.slp := rfl
@[simp] theorem State.setPending_rmap (x : List Instr) : (s.setPending x).rmap = s.rmap := rfl
@[simp] theorem State.setPending_rqp (x : List Instr) : (s.setPending x).rqp = s.rqp := rfl
@[simp] theorem State.setPending_fwf (x : List Instr) : (s.setPending x).fwf = s.fwf := rfl
@[simp] theorem State.setPending_ulc (x : List Instr) : (s.setPending x).ulc = s.ulc := rfl
@[simp] theorem State.setPending_esu (x : List Instr) : (s.setPending x).esu = s.esu := rfl
@[simp] theorem State.setPending_est (x : List Instr) : (s.setPending x).est = s.est := rfl
@[simp] theorem State.setPending_dsq (x : List Instr) : (s.setPending x).dsq = s.dsq := rfl
@[simp] theorem State.setPending_evu (x : List Instr) : (s.setPending x).evu = s.evu := rfl
@[simp] theorem State.setPending_mlp (x : List Instr) : (s.setPending x).mlp = s.mlp := rfl
@[simp] theorem State.setPending_pins (x : List Instr) : (s.setPending x).pins = s.pins := rfl
@[simp] theorem State.setPending_resetPhase (x : List Instr) : (s.setPending x).resetPhase = s.resetPhase := rfl
@[simp] theorem State.setPending_dram (x : List Instr) : (s.setPending x).dram = s.dram := rfl
@[simp] theorem State.setPending_dramGeneration (x : List Instr) : (s.setPending x).dramGeneration = s.dramGeneration := rfl
@[simp] theorem State.setPending_now (x : List Instr) : (s.setPending x).now = s.now := rfl
@[simp] theorem State.setPending_choices (x : List Instr) : (s.setPending x).choices = s.choices := rfl
@[simp] theorem State.setPending_pending (x : List Instr) : (s.setPending x).pending = x := rfl

end Sys2Proof.Machine
end

