-- ==== Sys2Proof/Laws/Blocks.lean ====
section
/-! SUPPORT. For each shared operation, the blocks it leaves unchanged. -/
namespace Sys2Proof.Machine

variable (s : State)

@[simp] theorem State.raise_slp (f : Flag) : (s.raise f).slp = s.slp := rfl
@[simp] theorem State.raise_rmap (f : Flag) : (s.raise f).rmap = s.rmap := rfl
@[simp] theorem State.raise_rqp (f : Flag) : (s.raise f).rqp = s.rqp := rfl
@[simp] theorem State.raise_fwf (f : Flag) : (s.raise f).fwf = s.fwf := rfl
@[simp] theorem State.raise_ulc (f : Flag) : (s.raise f).ulc = s.ulc := rfl
@[simp] theorem State.raise_esu (f : Flag) : (s.raise f).esu = s.esu := rfl
@[simp] theorem State.raise_est (f : Flag) : (s.raise f).est = s.est := rfl
@[simp] theorem State.raise_dsq (f : Flag) : (s.raise f).dsq = s.dsq := rfl
@[simp] theorem State.raise_mlp (f : Flag) : (s.raise f).mlp = s.mlp := rfl
@[simp] theorem State.raise_pins (f : Flag) : (s.raise f).pins = s.pins := rfl
@[simp] theorem State.raise_resetPhase (f : Flag) : (s.raise f).resetPhase = s.resetPhase := rfl
@[simp] theorem State.raise_dram (f : Flag) : (s.raise f).dram = s.dram := rfl
@[simp] theorem State.raise_dramGeneration (f : Flag) : (s.raise f).dramGeneration = s.dramGeneration := rfl
@[simp] theorem State.raise_now (f : Flag) : (s.raise f).now = s.now := rfl
@[simp] theorem State.raise_choices (f : Flag) : (s.raise f).choices = s.choices := rfl
@[simp] theorem State.raise_pending (f : Flag) : (s.raise f).pending = s.pending := rfl

@[simp] theorem State.advance_slp (d : Nat) : (s.advance d).slp = s.slp := rfl
@[simp] theorem State.advance_rmap (d : Nat) : (s.advance d).rmap = s.rmap := rfl
@[simp] theorem State.advance_rqp (d : Nat) : (s.advance d).rqp = s.rqp := rfl
@[simp] theorem State.advance_fwf (d : Nat) : (s.advance d).fwf = s.fwf := rfl
@[simp] theorem State.advance_ulc (d : Nat) : (s.advance d).ulc = s.ulc := rfl
@[simp] theorem State.advance_esu (d : Nat) : (s.advance d).esu = s.esu := rfl
@[simp] theorem State.advance_dsq (d : Nat) : (s.advance d).dsq = s.dsq := rfl
@[simp] theorem State.advance_evu (d : Nat) : (s.advance d).evu = s.evu := rfl
@[simp] theorem State.advance_mlp (d : Nat) : (s.advance d).mlp = s.mlp := rfl
@[simp] theorem State.advance_pins (d : Nat) : (s.advance d).pins = s.pins := rfl
@[simp] theorem State.advance_resetPhase (d : Nat) : (s.advance d).resetPhase = s.resetPhase := rfl
@[simp] theorem State.advance_dram (d : Nat) : (s.advance d).dram = s.dram := rfl
@[simp] theorem State.advance_dramGeneration (d : Nat) : (s.advance d).dramGeneration = s.dramGeneration := rfl
@[simp] theorem State.advance_choices (d : Nat) : (s.advance d).choices = s.choices := rfl
@[simp] theorem State.advance_pending (d : Nat) : (s.advance d).pending = s.pending := rfl

@[simp] theorem State.advanceTo_slp (t : Nat) : (s.advanceTo t).slp = s.slp := rfl
@[simp] theorem State.advanceTo_rmap (t : Nat) : (s.advanceTo t).rmap = s.rmap := rfl
@[simp] theorem State.advanceTo_rqp (t : Nat) : (s.advanceTo t).rqp = s.rqp := rfl
@[simp] theorem State.advanceTo_fwf (t : Nat) : (s.advanceTo t).fwf = s.fwf := rfl
@[simp] theorem State.advanceTo_ulc (t : Nat) : (s.advanceTo t).ulc = s.ulc := rfl
@[simp] theorem State.advanceTo_esu (t : Nat) : (s.advanceTo t).esu = s.esu := rfl
@[simp] theorem State.advanceTo_dsq (t : Nat) : (s.advanceTo t).dsq = s.dsq := rfl
@[simp] theorem State.advanceTo_evu (t : Nat) : (s.advanceTo t).evu = s.evu := rfl
@[simp] theorem State.advanceTo_mlp (t : Nat) : (s.advanceTo t).mlp = s.mlp := rfl
@[simp] theorem State.advanceTo_pins (t : Nat) : (s.advanceTo t).pins = s.pins := rfl
@[simp] theorem State.advanceTo_resetPhase (t : Nat) : (s.advanceTo t).resetPhase = s.resetPhase := rfl
@[simp] theorem State.advanceTo_dram (t : Nat) : (s.advanceTo t).dram = s.dram := rfl
@[simp] theorem State.advanceTo_dramGeneration (t : Nat) : (s.advanceTo t).dramGeneration = s.dramGeneration := rfl
@[simp] theorem State.advanceTo_choices (t : Nat) : (s.advanceTo t).choices = s.choices := rfl
@[simp] theorem State.advanceTo_pending (t : Nat) : (s.advanceTo t).pending = s.pending := rfl

@[simp] theorem State.reload_slp : (s.reload).slp = s.slp := rfl
@[simp] theorem State.reload_rmap : (s.reload).rmap = s.rmap := rfl
@[simp] theorem State.reload_rqp : (s.reload).rqp = s.rqp := rfl
@[simp] theorem State.reload_fwf : (s.reload).fwf = s.fwf := rfl
@[simp] theorem State.reload_ulc : (s.reload).ulc = s.ulc := rfl
@[simp] theorem State.reload_esu : (s.reload).esu = s.esu := rfl
@[simp] theorem State.reload_dsq : (s.reload).dsq = s.dsq := rfl
@[simp] theorem State.reload_evu : (s.reload).evu = s.evu := rfl
@[simp] theorem State.reload_mlp : (s.reload).mlp = s.mlp := rfl
@[simp] theorem State.reload_pins : (s.reload).pins = s.pins := rfl
@[simp] theorem State.reload_resetPhase : (s.reload).resetPhase = s.resetPhase := rfl
@[simp] theorem State.reload_dram : (s.reload).dram = s.dram := rfl
@[simp] theorem State.reload_dramGeneration : (s.reload).dramGeneration = s.dramGeneration := rfl
@[simp] theorem State.reload_now : (s.reload).now = s.now := rfl
@[simp] theorem State.reload_choices : (s.reload).choices = s.choices := rfl
@[simp] theorem State.reload_pending : (s.reload).pending = s.pending := rfl

@[simp] theorem State.progress_slp : (s.progress).slp = s.slp := rfl
@[simp] theorem State.progress_rmap : (s.progress).rmap = s.rmap := rfl
@[simp] theorem State.progress_rqp : (s.progress).rqp = s.rqp := rfl
@[simp] theorem State.progress_fwf : (s.progress).fwf = s.fwf := rfl
@[simp] theorem State.progress_ulc : (s.progress).ulc = s.ulc := rfl
@[simp] theorem State.progress_esu : (s.progress).esu = s.esu := rfl
@[simp] theorem State.progress_dsq : (s.progress).dsq = s.dsq := rfl
@[simp] theorem State.progress_evu : (s.progress).evu = s.evu := rfl
@[simp] theorem State.progress_mlp : (s.progress).mlp = s.mlp := rfl
@[simp] theorem State.progress_pins : (s.progress).pins = s.pins := rfl
@[simp] theorem State.progress_resetPhase : (s.progress).resetPhase = s.resetPhase := rfl
@[simp] theorem State.progress_dram : (s.progress).dram = s.dram := rfl
@[simp] theorem State.progress_dramGeneration : (s.progress).dramGeneration = s.dramGeneration := rfl
@[simp] theorem State.progress_now : (s.progress).now = s.now := rfl
@[simp] theorem State.progress_choices : (s.progress).choices = s.choices := rfl
@[simp] theorem State.progress_pending : (s.progress).pending = s.pending := rfl

@[simp] theorem State.setBank_slp (b : Fin 8) (x : Bank) : (s.setBank b x).slp = s.slp := rfl
@[simp] theorem State.setBank_rmap (b : Fin 8) (x : Bank) : (s.setBank b x).rmap = s.rmap := rfl
@[simp] theorem State.setBank_rqp (b : Fin 8) (x : Bank) : (s.setBank b x).rqp = s.rqp := rfl
@[simp] theorem State.setBank_fwf (b : Fin 8) (x : Bank) : (s.setBank b x).fwf = s.fwf := rfl
@[simp] theorem State.setBank_ulc (b : Fin 8) (x : Bank) : (s.setBank b x).ulc = s.ulc := rfl
@[simp] theorem State.setBank_esu (b : Fin 8) (x : Bank) : (s.setBank b x).esu = s.esu := rfl
@[simp] theorem State.setBank_est (b : Fin 8) (x : Bank) : (s.setBank b x).est = s.est := rfl
@[simp] theorem State.setBank_evu (b : Fin 8) (x : Bank) : (s.setBank b x).evu = s.evu := rfl
@[simp] theorem State.setBank_mlp (b : Fin 8) (x : Bank) : (s.setBank b x).mlp = s.mlp := rfl
@[simp] theorem State.setBank_pins (b : Fin 8) (x : Bank) : (s.setBank b x).pins = s.pins := rfl
@[simp] theorem State.setBank_resetPhase (b : Fin 8) (x : Bank) : (s.setBank b x).resetPhase = s.resetPhase := rfl
@[simp] theorem State.setBank_dram (b : Fin 8) (x : Bank) : (s.setBank b x).dram = s.dram := rfl
@[simp] theorem State.setBank_dramGeneration (b : Fin 8) (x : Bank) : (s.setBank b x).dramGeneration = s.dramGeneration := rfl
@[simp] theorem State.setBank_now (b : Fin 8) (x : Bank) : (s.setBank b x).now = s.now := rfl
@[simp] theorem State.setBank_choices (b : Fin 8) (x : Bank) : (s.setBank b x).choices = s.choices := rfl
@[simp] theorem State.setBank_pending (b : Fin 8) (x : Bank) : (s.setBank b x).pending = s.pending := rfl

@[simp] theorem State.issue_slp (op : MemOp) : (s.issue op).slp = s.slp := by unfold State.issue; split <;> rfl
@[simp] theorem State.issue_rmap (op : MemOp) : (s.issue op).rmap = s.rmap := by unfold State.issue; split <;> rfl
@[simp] theorem State.issue_rqp (op : MemOp) : (s.issue op).rqp = s.rqp := by unfold State.issue; split <;> rfl
@[simp] theorem State.issue_fwf (op : MemOp) : (s.issue op).fwf = s.fwf := by unfold State.issue; split <;> rfl
@[simp] theorem State.issue_ulc (op : MemOp) : (s.issue op).ulc = s.ulc := by unfold State.issue; split <;> rfl
@[simp] theorem State.issue_esu (op : MemOp) : (s.issue op).esu = s.esu := by unfold State.issue; split <;> rfl
@[simp] theorem State.issue_est (op : MemOp) : (s.issue op).est = s.est := by unfold State.issue; split <;> rfl
@[simp] theorem State.issue_evu (op : MemOp) : (s.issue op).evu = s.evu := by unfold State.issue; split <;> rfl
@[simp] theorem State.issue_mlp (op : MemOp) : (s.issue op).mlp = s.mlp := by unfold State.issue; split <;> rfl
@[simp] theorem State.issue_pins (op : MemOp) : (s.issue op).pins = s.pins := by unfold State.issue; split <;> rfl
@[simp] theorem State.issue_resetPhase (op : MemOp) : (s.issue op).resetPhase = s.resetPhase := by unfold State.issue; split <;> rfl
@[simp] theorem State.issue_dram (op : MemOp) : (s.issue op).dram = s.dram := by unfold State.issue; split <;> rfl
@[simp] theorem State.issue_dramGeneration (op : MemOp) : (s.issue op).dramGeneration = s.dramGeneration := by unfold State.issue; split <;> rfl
@[simp] theorem State.issue_now (op : MemOp) : (s.issue op).now = s.now := by unfold State.issue; split <;> rfl
@[simp] theorem State.issue_choices (op : MemOp) : (s.issue op).choices = s.choices := by unfold State.issue; split <;> rfl
@[simp] theorem State.issue_pending (op : MemOp) : (s.issue op).pending = s.pending := by unfold State.issue; split <;> rfl

@[simp] theorem State.endRequest_rmap : (s.endRequest).rmap = s.rmap := rfl
@[simp] theorem State.endRequest_fwf : (s.endRequest).fwf = s.fwf := rfl
@[simp] theorem State.endRequest_ulc : (s.endRequest).ulc = s.ulc := rfl
@[simp] theorem State.endRequest_est : (s.endRequest).est = s.est := rfl
@[simp] theorem State.endRequest_dsq : (s.endRequest).dsq = s.dsq := rfl
@[simp] theorem State.endRequest_evu : (s.endRequest).evu = s.evu := rfl
@[simp] theorem State.endRequest_mlp : (s.endRequest).mlp = s.mlp := rfl
@[simp] theorem State.endRequest_pins : (s.endRequest).pins = s.pins := rfl
@[simp] theorem State.endRequest_resetPhase : (s.endRequest).resetPhase = s.resetPhase := rfl
@[simp] theorem State.endRequest_dram : (s.endRequest).dram = s.dram := rfl
@[simp] theorem State.endRequest_dramGeneration : (s.endRequest).dramGeneration = s.dramGeneration := rfl
@[simp] theorem State.endRequest_now : (s.endRequest).now = s.now := rfl
@[simp] theorem State.endRequest_choices : (s.endRequest).choices = s.choices := rfl
@[simp] theorem State.endRequest_pending : (s.endRequest).pending = s.pending := rfl

@[simp] theorem State.respond_rmap (r : Response) : (s.respond r).rmap = s.rmap := rfl
@[simp] theorem State.respond_fwf (r : Response) : (s.respond r).fwf = s.fwf := rfl
@[simp] theorem State.respond_ulc (r : Response) : (s.respond r).ulc = s.ulc := rfl
@[simp] theorem State.respond_est (r : Response) : (s.respond r).est = s.est := rfl
@[simp] theorem State.respond_dsq (r : Response) : (s.respond r).dsq = s.dsq := rfl
@[simp] theorem State.respond_evu (r : Response) : (s.respond r).evu = s.evu := rfl
@[simp] theorem State.respond_mlp (r : Response) : (s.respond r).mlp = s.mlp := rfl
@[simp] theorem State.respond_pins (r : Response) : (s.respond r).pins = s.pins := rfl
@[simp] theorem State.respond_resetPhase (r : Response) : (s.respond r).resetPhase = s.resetPhase := rfl
@[simp] theorem State.respond_dram (r : Response) : (s.respond r).dram = s.dram := rfl
@[simp] theorem State.respond_dramGeneration (r : Response) : (s.respond r).dramGeneration = s.dramGeneration := rfl
@[simp] theorem State.respond_now (r : Response) : (s.respond r).now = s.now := rfl
@[simp] theorem State.respond_choices (r : Response) : (s.respond r).choices = s.choices := rfl
@[simp] theorem State.respond_pending (r : Response) : (s.respond r).pending = s.pending := rfl

@[simp] theorem State.dropRequest_rmap : (s.dropRequest).rmap = s.rmap := rfl
@[simp] theorem State.dropRequest_fwf : (s.dropRequest).fwf = s.fwf := rfl
@[simp] theorem State.dropRequest_ulc : (s.dropRequest).ulc = s.ulc := rfl
@[simp] theorem State.dropRequest_est : (s.dropRequest).est = s.est := rfl
@[simp] theorem State.dropRequest_dsq : (s.dropRequest).dsq = s.dsq := rfl
@[simp] theorem State.dropRequest_evu : (s.dropRequest).evu = s.evu := rfl
@[simp] theorem State.dropRequest_mlp : (s.dropRequest).mlp = s.mlp := rfl
@[simp] theorem State.dropRequest_pins : (s.dropRequest).pins = s.pins := rfl
@[simp] theorem State.dropRequest_resetPhase : (s.dropRequest).resetPhase = s.resetPhase := rfl
@[simp] theorem State.dropRequest_dram : (s.dropRequest).dram = s.dram := rfl
@[simp] theorem State.dropRequest_dramGeneration : (s.dropRequest).dramGeneration = s.dramGeneration := rfl
@[simp] theorem State.dropRequest_now : (s.dropRequest).now = s.now := rfl
@[simp] theorem State.dropRequest_choices : (s.dropRequest).choices = s.choices := rfl
@[simp] theorem State.dropRequest_pending : (s.dropRequest).pending = s.pending := rfl

@[simp] theorem State.setEngine_slp (e : Engine) : (s.setEngine e).slp = s.slp := rfl
@[simp] theorem State.setEngine_rmap (e : Engine) : (s.setEngine e).rmap = s.rmap := rfl
@[simp] theorem State.setEngine_rqp (e : Engine) : (s.setEngine e).rqp = s.rqp := rfl
@[simp] theorem State.setEngine_fwf (e : Engine) : (s.setEngine e).fwf = s.fwf := rfl
@[simp] theorem State.setEngine_ulc (e : Engine) : (s.setEngine e).ulc = s.ulc := rfl
@[simp] theorem State.setEngine_est (e : Engine) : (s.setEngine e).est = s.est := rfl
@[simp] theorem State.setEngine_dsq (e : Engine) : (s.setEngine e).dsq = s.dsq := rfl
@[simp] theorem State.setEngine_evu (e : Engine) : (s.setEngine e).evu = s.evu := rfl
@[simp] theorem State.setEngine_mlp (e : Engine) : (s.setEngine e).mlp = s.mlp := rfl
@[simp] theorem State.setEngine_pins (e : Engine) : (s.setEngine e).pins = s.pins := rfl
@[simp] theorem State.setEngine_resetPhase (e : Engine) : (s.setEngine e).resetPhase = s.resetPhase := rfl
@[simp] theorem State.setEngine_dram (e : Engine) : (s.setEngine e).dram = s.dram := rfl
@[simp] theorem State.setEngine_dramGeneration (e : Engine) : (s.setEngine e).dramGeneration = s.dramGeneration := rfl
@[simp] theorem State.setEngine_now (e : Engine) : (s.setEngine e).now = s.now := rfl
@[simp] theorem State.setEngine_choices (e : Engine) : (s.setEngine e).choices = s.choices := rfl
@[simp] theorem State.setEngine_pending (e : Engine) : (s.setEngine e).pending = s.pending := rfl

@[simp] theorem State.emptyFilter_slp : (s.emptyFilter).slp = s.slp := rfl
@[simp] theorem State.emptyFilter_rmap : (s.emptyFilter).rmap = s.rmap := rfl
@[simp] theorem State.emptyFilter_rqp : (s.emptyFilter).rqp = s.rqp := rfl
@[simp] theorem State.emptyFilter_ulc : (s.emptyFilter).ulc = s.ulc := rfl
@[simp] theorem State.emptyFilter_esu : (s.emptyFilter).esu = s.esu := rfl
@[simp] theorem State.emptyFilter_est : (s.emptyFilter).est = s.est := rfl
@[simp] theorem State.emptyFilter_dsq : (s.emptyFilter).dsq = s.dsq := rfl
@[simp] theorem State.emptyFilter_evu : (s.emptyFilter).evu = s.evu := rfl
@[simp] theorem State.emptyFilter_mlp : (s.emptyFilter).mlp = s.mlp := rfl
@[simp] theorem State.emptyFilter_pins : (s.emptyFilter).pins = s.pins := rfl
@[simp] theorem State.emptyFilter_resetPhase : (s.emptyFilter).resetPhase = s.resetPhase := rfl
@[simp] theorem State.emptyFilter_dram : (s.emptyFilter).dram = s.dram := rfl
@[simp] theorem State.emptyFilter_dramGeneration : (s.emptyFilter).dramGeneration = s.dramGeneration := rfl
@[simp] theorem State.emptyFilter_now : (s.emptyFilter).now = s.now := rfl
@[simp] theorem State.emptyFilter_choices : (s.emptyFilter).choices = s.choices := rfl
@[simp] theorem State.emptyFilter_pending : (s.emptyFilter).pending = s.pending := rfl

@[simp] theorem State.headRise_slp : (s.headRise).slp = s.slp := by unfold State.headRise; dsimp only; split <;> rfl
@[simp] theorem State.headRise_rmap : (s.headRise).rmap = s.rmap := by unfold State.headRise; dsimp only; split <;> rfl
@[simp] theorem State.headRise_rqp : (s.headRise).rqp = s.rqp := by unfold State.headRise; dsimp only; split <;> rfl
@[simp] theorem State.headRise_fwf : (s.headRise).fwf = s.fwf := by unfold State.headRise; dsimp only; split <;> rfl
@[simp] theorem State.headRise_esu : (s.headRise).esu = s.esu := by unfold State.headRise; dsimp only; split <;> rfl
@[simp] theorem State.headRise_est : (s.headRise).est = s.est := by unfold State.headRise; dsimp only; split <;> rfl
@[simp] theorem State.headRise_dsq : (s.headRise).dsq = s.dsq := by unfold State.headRise; dsimp only; split <;> rfl
@[simp] theorem State.headRise_mlp : (s.headRise).mlp = s.mlp := by unfold State.headRise; dsimp only; split <;> rfl
@[simp] theorem State.headRise_pins : (s.headRise).pins = s.pins := by unfold State.headRise; dsimp only; split <;> rfl
@[simp] theorem State.headRise_resetPhase : (s.headRise).resetPhase = s.resetPhase := by unfold State.headRise; dsimp only; split <;> rfl
@[simp] theorem State.headRise_dram : (s.headRise).dram = s.dram := by unfold State.headRise; dsimp only; split <;> rfl
@[simp] theorem State.headRise_dramGeneration : (s.headRise).dramGeneration = s.dramGeneration := by unfold State.headRise; dsimp only; split <;> rfl
@[simp] theorem State.headRise_now : (s.headRise).now = s.now := by unfold State.headRise; dsimp only; split <;> rfl
@[simp] theorem State.headRise_choices : (s.headRise).choices = s.choices := by unfold State.headRise; dsimp only; split <;> rfl
@[simp] theorem State.headRise_pending : (s.headRise).pending = s.pending := by unfold State.headRise; dsimp only; split <;> rfl

@[simp] theorem State.headFall_slp : (s.headFall).slp = s.slp := rfl
@[simp] theorem State.headFall_rmap : (s.headFall).rmap = s.rmap := rfl
@[simp] theorem State.headFall_rqp : (s.headFall).rqp = s.rqp := rfl
@[simp] theorem State.headFall_fwf : (s.headFall).fwf = s.fwf := rfl
@[simp] theorem State.headFall_esu : (s.headFall).esu = s.esu := rfl
@[simp] theorem State.headFall_est : (s.headFall).est = s.est := rfl
@[simp] theorem State.headFall_dsq : (s.headFall).dsq = s.dsq := rfl
@[simp] theorem State.headFall_evu : (s.headFall).evu = s.evu := rfl
@[simp] theorem State.headFall_mlp : (s.headFall).mlp = s.mlp := rfl
@[simp] theorem State.headFall_pins : (s.headFall).pins = s.pins := rfl
@[simp] theorem State.headFall_resetPhase : (s.headFall).resetPhase = s.resetPhase := rfl
@[simp] theorem State.headFall_dram : (s.headFall).dram = s.dram := rfl
@[simp] theorem State.headFall_dramGeneration : (s.headFall).dramGeneration = s.dramGeneration := rfl
@[simp] theorem State.headFall_now : (s.headFall).now = s.now := rfl
@[simp] theorem State.headFall_choices : (s.headFall).choices = s.choices := rfl
@[simp] theorem State.headFall_pending : (s.headFall).pending = s.pending := rfl

@[simp] theorem State.endRollback_slp (k : RollbackKind) (o : RollbackOutcome) : (s.endRollback k o).slp = s.slp := by cases k <;> rfl
@[simp] theorem State.endRollback_rmap (k : RollbackKind) (o : RollbackOutcome) : (s.endRollback k o).rmap = s.rmap := by cases k <;> rfl
@[simp] theorem State.endRollback_rqp (k : RollbackKind) (o : RollbackOutcome) : (s.endRollback k o).rqp = s.rqp := by cases k <;> rfl
@[simp] theorem State.endRollback_fwf (k : RollbackKind) (o : RollbackOutcome) : (s.endRollback k o).fwf = s.fwf := by cases k <;> rfl
@[simp] theorem State.endRollback_ulc (k : RollbackKind) (o : RollbackOutcome) : (s.endRollback k o).ulc = s.ulc := by cases k <;> rfl
@[simp] theorem State.endRollback_dsq (k : RollbackKind) (o : RollbackOutcome) : (s.endRollback k o).dsq = s.dsq := by cases k <;> rfl
@[simp] theorem State.endRollback_mlp (k : RollbackKind) (o : RollbackOutcome) : (s.endRollback k o).mlp = s.mlp := by cases k <;> rfl
@[simp] theorem State.endRollback_pins (k : RollbackKind) (o : RollbackOutcome) : (s.endRollback k o).pins = s.pins := by cases k <;> rfl
@[simp] theorem State.endRollback_resetPhase (k : RollbackKind) (o : RollbackOutcome) : (s.endRollback k o).resetPhase = s.resetPhase := by cases k <;> rfl
@[simp] theorem State.endRollback_dram (k : RollbackKind) (o : RollbackOutcome) : (s.endRollback k o).dram = s.dram := by cases k <;> rfl
@[simp] theorem State.endRollback_dramGeneration (k : RollbackKind) (o : RollbackOutcome) : (s.endRollback k o).dramGeneration = s.dramGeneration := by cases k <;> rfl
@[simp] theorem State.endRollback_now (k : RollbackKind) (o : RollbackOutcome) : (s.endRollback k o).now = s.now := by cases k <;> rfl
@[simp] theorem State.endRollback_choices (k : RollbackKind) (o : RollbackOutcome) : (s.endRollback k o).choices = s.choices := by cases k <;> rfl
@[simp] theorem State.endRollback_pending (k : RollbackKind) (o : RollbackOutcome) : (s.endRollback k o).pending = s.pending := by cases k <;> rfl

@[simp] theorem State.beginRecord_slp : (s.beginRecord).slp = s.slp := rfl
@[simp] theorem State.beginRecord_rmap : (s.beginRecord).rmap = s.rmap := rfl
@[simp] theorem State.beginRecord_rqp : (s.beginRecord).rqp = s.rqp := rfl
@[simp] theorem State.beginRecord_fwf : (s.beginRecord).fwf = s.fwf := rfl
@[simp] theorem State.beginRecord_ulc : (s.beginRecord).ulc = s.ulc := rfl
@[simp] theorem State.beginRecord_est : (s.beginRecord).est = s.est := rfl
@[simp] theorem State.beginRecord_evu : (s.beginRecord).evu = s.evu := rfl
@[simp] theorem State.beginRecord_mlp : (s.beginRecord).mlp = s.mlp := rfl
@[simp] theorem State.beginRecord_pins : (s.beginRecord).pins = s.pins := rfl
@[simp] theorem State.beginRecord_resetPhase : (s.beginRecord).resetPhase = s.resetPhase := rfl
@[simp] theorem State.beginRecord_dram : (s.beginRecord).dram = s.dram := rfl
@[simp] theorem State.beginRecord_dramGeneration : (s.beginRecord).dramGeneration = s.dramGeneration := rfl
@[simp] theorem State.beginRecord_now : (s.beginRecord).now = s.now := rfl
@[simp] theorem State.beginRecord_choices : (s.beginRecord).choices = s.choices := rfl
@[simp] theorem State.beginRecord_pending : (s.beginRecord).pending = s.pending := rfl

@[simp] theorem State.popTop_slp : (s.popTop).slp = s.slp := by
  unfold State.popTop; dsimp only; split <;> split <;> simp
@[simp] theorem State.popTop_rmap : (s.popTop).rmap = s.rmap := by
  unfold State.popTop; dsimp only; split <;> split <;> simp
@[simp] theorem State.popTop_rqp : (s.popTop).rqp = s.rqp := by
  unfold State.popTop; dsimp only; split <;> split <;> simp
@[simp] theorem State.popTop_mlp : (s.popTop).mlp = s.mlp := by
  unfold State.popTop; dsimp only; split <;> split <;> simp
@[simp] theorem State.popTop_pins : (s.popTop).pins = s.pins := by
  unfold State.popTop; dsimp only; split <;> split <;> simp
@[simp] theorem State.popTop_resetPhase : (s.popTop).resetPhase = s.resetPhase := by
  unfold State.popTop; dsimp only; split <;> split <;> simp
@[simp] theorem State.popTop_dram : (s.popTop).dram = s.dram := by
  unfold State.popTop; dsimp only; split <;> split <;> simp
@[simp] theorem State.popTop_dramGeneration : (s.popTop).dramGeneration = s.dramGeneration := by
  unfold State.popTop; dsimp only; split <;> split <;> simp
@[simp] theorem State.popTop_now : (s.popTop).now = s.now := by
  unfold State.popTop; dsimp only; split <;> split <;> simp
@[simp] theorem State.popTop_choices : (s.popTop).choices = s.choices := by
  unfold State.popTop; dsimp only; split <;> split <;> simp
@[simp] theorem State.popTop_pending : (s.popTop).pending = s.pending := by
  unfold State.popTop; dsimp only; split <;> split <;> simp

@[simp] theorem State.engineStep_slp : (s.engineStep).slp = s.slp := by
  unfold State.engineStep; split <;> (try split) <;> simp
@[simp] theorem State.engineStep_rmap : (s.engineStep).rmap = s.rmap := by
  unfold State.engineStep; split <;> (try split) <;> simp
@[simp] theorem State.engineStep_rqp : (s.engineStep).rqp = s.rqp := by
  unfold State.engineStep; split <;> (try split) <;> simp
@[simp] theorem State.engineStep_mlp : (s.engineStep).mlp = s.mlp := by
  unfold State.engineStep; split <;> (try split) <;> simp
@[simp] theorem State.engineStep_pins : (s.engineStep).pins = s.pins := by
  unfold State.engineStep; split <;> (try split) <;> simp
@[simp] theorem State.engineStep_resetPhase : (s.engineStep).resetPhase = s.resetPhase := by
  unfold State.engineStep; split <;> (try split) <;> simp
@[simp] theorem State.engineStep_dram : (s.engineStep).dram = s.dram := by
  unfold State.engineStep; split <;> (try split) <;> simp
@[simp] theorem State.engineStep_dramGeneration : (s.engineStep).dramGeneration = s.dramGeneration := by
  unfold State.engineStep; split <;> (try split) <;> simp
@[simp] theorem State.engineStep_now : (s.engineStep).now = s.now := by
  unfold State.engineStep; split <;> (try split) <;> simp
@[simp] theorem State.engineStep_choices : (s.engineStep).choices = s.choices := by
  unfold State.engineStep; split <;> (try split) <;> simp
@[simp] theorem State.engineStep_pending : (s.engineStep).pending = s.pending := by
  unfold State.engineStep; split <;> (try split) <;> simp

@[simp] theorem State.startRollback_slp (k : RollbackKind) : (s.startRollback k).slp = s.slp := by
  unfold State.startRollback; dsimp only; split <;> (try split) <;> simp
@[simp] theorem State.startRollback_rmap (k : RollbackKind) : (s.startRollback k).rmap = s.rmap := by
  unfold State.startRollback; dsimp only; split <;> (try split) <;> simp
@[simp] theorem State.startRollback_rqp (k : RollbackKind) : (s.startRollback k).rqp = s.rqp := by
  unfold State.startRollback; dsimp only; split <;> (try split) <;> simp
@[simp] theorem State.startRollback_mlp (k : RollbackKind) : (s.startRollback k).mlp = s.mlp := by
  unfold State.startRollback; dsimp only; split <;> (try split) <;> simp
@[simp] theorem State.startRollback_pins (k : RollbackKind) : (s.startRollback k).pins = s.pins := by
  unfold State.startRollback; dsimp only; split <;> (try split) <;> simp
@[simp] theorem State.startRollback_resetPhase (k : RollbackKind) : (s.startRollback k).resetPhase = s.resetPhase := by
  unfold State.startRollback; dsimp only; split <;> (try split) <;> simp
@[simp] theorem State.startRollback_dram (k : RollbackKind) : (s.startRollback k).dram = s.dram := by
  unfold State.startRollback; dsimp only; split <;> (try split) <;> simp
@[simp] theorem State.startRollback_dramGeneration (k : RollbackKind) : (s.startRollback k).dramGeneration = s.dramGeneration := by
  unfold State.startRollback; dsimp only; split <;> (try split) <;> simp
@[simp] theorem State.startRollback_now (k : RollbackKind) : (s.startRollback k).now = s.now := by
  unfold State.startRollback; dsimp only; split <;> (try split) <;> simp
@[simp] theorem State.startRollback_choices (k : RollbackKind) : (s.startRollback k).choices = s.choices := by
  unfold State.startRollback; dsimp only; split <;> (try split) <;> simp
@[simp] theorem State.startRollback_pending (k : RollbackKind) : (s.startRollback k).pending = s.pending := by
  unfold State.startRollback; dsimp only; split <;> (try split) <;> simp

@[simp] theorem State.headerRead_slp (r : RecordRef) (l : List Byte) : (s.headerRead r l).slp = s.slp := by
  unfold State.headerRead; dsimp only; split <;> simp
@[simp] theorem State.headerRead_rmap (r : RecordRef) (l : List Byte) : (s.headerRead r l).rmap = s.rmap := by
  unfold State.headerRead; dsimp only; split <;> simp
@[simp] theorem State.headerRead_rqp (r : RecordRef) (l : List Byte) : (s.headerRead r l).rqp = s.rqp := by
  unfold State.headerRead; dsimp only; split <;> simp
@[simp] theorem State.headerRead_mlp (r : RecordRef) (l : List Byte) : (s.headerRead r l).mlp = s.mlp := by
  unfold State.headerRead; dsimp only; split <;> simp
@[simp] theorem State.headerRead_pins (r : RecordRef) (l : List Byte) : (s.headerRead r l).pins = s.pins := by
  unfold State.headerRead; dsimp only; split <;> simp
@[simp] theorem State.headerRead_resetPhase (r : RecordRef) (l : List Byte) : (s.headerRead r l).resetPhase = s.resetPhase := by
  unfold State.headerRead; dsimp only; split <;> simp
@[simp] theorem State.headerRead_dram (r : RecordRef) (l : List Byte) : (s.headerRead r l).dram = s.dram := by
  unfold State.headerRead; dsimp only; split <;> simp
@[simp] theorem State.headerRead_dramGeneration (r : RecordRef) (l : List Byte) : (s.headerRead r l).dramGeneration = s.dramGeneration := by
  unfold State.headerRead; dsimp only; split <;> simp
@[simp] theorem State.headerRead_now (r : RecordRef) (l : List Byte) : (s.headerRead r l).now = s.now := by
  unfold State.headerRead; dsimp only; split <;> simp
@[simp] theorem State.headerRead_choices (r : RecordRef) (l : List Byte) : (s.headerRead r l).choices = s.choices := by
  unfold State.headerRead; dsimp only; split <;> simp
@[simp] theorem State.headerRead_pending (r : RecordRef) (l : List Byte) : (s.headerRead r l).pending = s.pending := by
  unfold State.headerRead; dsimp only; split <;> simp

@[simp] theorem State.imageRead_slp (n : Nat) (l : List Byte) : (s.imageRead n l).slp = s.slp := by
  unfold State.imageRead; simp
@[simp] theorem State.imageRead_rmap (n : Nat) (l : List Byte) : (s.imageRead n l).rmap = s.rmap := by
  unfold State.imageRead; simp
@[simp] theorem State.imageRead_rqp (n : Nat) (l : List Byte) : (s.imageRead n l).rqp = s.rqp := by
  unfold State.imageRead; simp
@[simp] theorem State.imageRead_fwf (n : Nat) (l : List Byte) : (s.imageRead n l).fwf = s.fwf := by
  unfold State.imageRead; simp
@[simp] theorem State.imageRead_ulc (n : Nat) (l : List Byte) : (s.imageRead n l).ulc = s.ulc := by
  unfold State.imageRead; simp
@[simp] theorem State.imageRead_est (n : Nat) (l : List Byte) : (s.imageRead n l).est = s.est := by
  unfold State.imageRead; simp
@[simp] theorem State.imageRead_evu (n : Nat) (l : List Byte) : (s.imageRead n l).evu = s.evu := by
  unfold State.imageRead; simp
@[simp] theorem State.imageRead_mlp (n : Nat) (l : List Byte) : (s.imageRead n l).mlp = s.mlp := by
  unfold State.imageRead; simp
@[simp] theorem State.imageRead_pins (n : Nat) (l : List Byte) : (s.imageRead n l).pins = s.pins := by
  unfold State.imageRead; simp
@[simp] theorem State.imageRead_resetPhase (n : Nat) (l : List Byte) : (s.imageRead n l).resetPhase = s.resetPhase := by
  unfold State.imageRead; simp
@[simp] theorem State.imageRead_dram (n : Nat) (l : List Byte) : (s.imageRead n l).dram = s.dram := by
  unfold State.imageRead; simp
@[simp] theorem State.imageRead_dramGeneration (n : Nat) (l : List Byte) : (s.imageRead n l).dramGeneration = s.dramGeneration := by
  unfold State.imageRead; simp
@[simp] theorem State.imageRead_now (n : Nat) (l : List Byte) : (s.imageRead n l).now = s.now := by
  unfold State.imageRead; simp
@[simp] theorem State.imageRead_choices (n : Nat) (l : List Byte) : (s.imageRead n l).choices = s.choices := by
  unfold State.imageRead; simp
@[simp] theorem State.imageRead_pending (n : Nat) (l : List Byte) : (s.imageRead n l).pending = s.pending := by
  unfold State.imageRead; simp

@[simp] theorem State.restoreDone_slp (n : Nat) : (s.restoreDone n).slp = s.slp := by
  unfold State.restoreDone; simp
@[simp] theorem State.restoreDone_rmap (n : Nat) : (s.restoreDone n).rmap = s.rmap := by
  unfold State.restoreDone; simp
@[simp] theorem State.restoreDone_rqp (n : Nat) : (s.restoreDone n).rqp = s.rqp := by
  unfold State.restoreDone; simp
@[simp] theorem State.restoreDone_mlp (n : Nat) : (s.restoreDone n).mlp = s.mlp := by
  unfold State.restoreDone; simp
@[simp] theorem State.restoreDone_pins (n : Nat) : (s.restoreDone n).pins = s.pins := by
  unfold State.restoreDone; simp
@[simp] theorem State.restoreDone_resetPhase (n : Nat) : (s.restoreDone n).resetPhase = s.resetPhase := by
  unfold State.restoreDone; simp
@[simp] theorem State.restoreDone_dram (n : Nat) : (s.restoreDone n).dram = s.dram := by
  unfold State.restoreDone; simp
@[simp] theorem State.restoreDone_dramGeneration (n : Nat) : (s.restoreDone n).dramGeneration = s.dramGeneration := by
  unfold State.restoreDone; simp
@[simp] theorem State.restoreDone_now (n : Nat) : (s.restoreDone n).now = s.now := by
  unfold State.restoreDone; simp
@[simp] theorem State.restoreDone_choices (n : Nat) : (s.restoreDone n).choices = s.choices := by
  unfold State.restoreDone; simp
@[simp] theorem State.restoreDone_pending (n : Nat) : (s.restoreDone n).pending = s.pending := by
  unfold State.restoreDone; simp

@[simp] theorem State.engineComplete_slp (l : List Byte) : (s.engineComplete l).slp = s.slp := by
  unfold State.engineComplete; split <;> simp
@[simp] theorem State.engineComplete_rmap (l : List Byte) : (s.engineComplete l).rmap = s.rmap := by
  unfold State.engineComplete; split <;> simp
@[simp] theorem State.engineComplete_rqp (l : List Byte) : (s.engineComplete l).rqp = s.rqp := by
  unfold State.engineComplete; split <;> simp
@[simp] theorem State.engineComplete_mlp (l : List Byte) : (s.engineComplete l).mlp = s.mlp := by
  unfold State.engineComplete; split <;> simp
@[simp] theorem State.engineComplete_pins (l : List Byte) : (s.engineComplete l).pins = s.pins := by
  unfold State.engineComplete; split <;> simp
@[simp] theorem State.engineComplete_resetPhase (l : List Byte) : (s.engineComplete l).resetPhase = s.resetPhase := by
  unfold State.engineComplete; split <;> simp
@[simp] theorem State.engineComplete_dram (l : List Byte) : (s.engineComplete l).dram = s.dram := by
  unfold State.engineComplete; split <;> simp
@[simp] theorem State.engineComplete_dramGeneration (l : List Byte) : (s.engineComplete l).dramGeneration = s.dramGeneration := by
  unfold State.engineComplete; split <;> simp
@[simp] theorem State.engineComplete_now (l : List Byte) : (s.engineComplete l).now = s.now := by
  unfold State.engineComplete; split <;> simp
@[simp] theorem State.engineComplete_choices (l : List Byte) : (s.engineComplete l).choices = s.choices := by
  unfold State.engineComplete; split <;> simp
@[simp] theorem State.engineComplete_pending (l : List Byte) : (s.engineComplete l).pending = s.pending := by
  unfold State.engineComplete; split <;> simp

@[simp] theorem State.recordFault_slp (r : FaultRecord) : (s.recordFault r).slp = s.slp := by
  unfold State.recordFault; split <;> rfl
@[simp] theorem State.recordFault_rmap (r : FaultRecord) : (s.recordFault r).rmap = s.rmap := by
  unfold State.recordFault; split <;> rfl
@[simp] theorem State.recordFault_rqp (r : FaultRecord) : (s.recordFault r).rqp = s.rqp := by
  unfold State.recordFault; split <;> rfl
@[simp] theorem State.recordFault_fwf (r : FaultRecord) : (s.recordFault r).fwf = s.fwf := by
  unfold State.recordFault; split <;> rfl
@[simp] theorem State.recordFault_ulc (r : FaultRecord) : (s.recordFault r).ulc = s.ulc := by
  unfold State.recordFault; split <;> rfl
@[simp] theorem State.recordFault_esu (r : FaultRecord) : (s.recordFault r).esu = s.esu := by
  unfold State.recordFault; split <;> rfl
@[simp] theorem State.recordFault_est (r : FaultRecord) : (s.recordFault r).est = s.est := by
  unfold State.recordFault; split <;> rfl
@[simp] theorem State.recordFault_dsq (r : FaultRecord) : (s.recordFault r).dsq = s.dsq := by
  unfold State.recordFault; split <;> rfl
@[simp] theorem State.recordFault_mlp (r : FaultRecord) : (s.recordFault r).mlp = s.mlp := by
  unfold State.recordFault; split <;> rfl
@[simp] theorem State.recordFault_pins (r : FaultRecord) : (s.recordFault r).pins = s.pins := by
  unfold State.recordFault; split <;> rfl
@[simp] theorem State.recordFault_resetPhase (r : FaultRecord) : (s.recordFault r).resetPhase = s.resetPhase := by
  unfold State.recordFault; split <;> rfl
@[simp] theorem State.recordFault_dram (r : FaultRecord) : (s.recordFault r).dram = s.dram := by
  unfold State.recordFault; split <;> rfl
@[simp] theorem State.recordFault_dramGeneration (r : FaultRecord) : (s.recordFault r).dramGeneration = s.dramGeneration := by
  unfold State.recordFault; split <;> rfl
@[simp] theorem State.recordFault_now (r : FaultRecord) : (s.recordFault r).now = s.now := by
  unfold State.recordFault; split <;> rfl
@[simp] theorem State.recordFault_choices (r : FaultRecord) : (s.recordFault r).choices = s.choices := by
  unfold State.recordFault; split <;> rfl
@[simp] theorem State.recordFault_pending (r : FaultRecord) : (s.recordFault r).pending = s.pending := by
  unfold State.recordFault; split <;> rfl

@[simp] theorem State.captureWatch_slp (c : Capture) : (s.captureWatch c).slp = s.slp := rfl
@[simp] theorem State.captureWatch_rmap (c : Capture) : (s.captureWatch c).rmap = s.rmap := rfl
@[simp] theorem State.captureWatch_rqp (c : Capture) : (s.captureWatch c).rqp = s.rqp := rfl
@[simp] theorem State.captureWatch_fwf (c : Capture) : (s.captureWatch c).fwf = s.fwf := rfl
@[simp] theorem State.captureWatch_ulc (c : Capture) : (s.captureWatch c).ulc = s.ulc := rfl
@[simp] theorem State.captureWatch_esu (c : Capture) : (s.captureWatch c).esu = s.esu := rfl
@[simp] theorem State.captureWatch_est (c : Capture) : (s.captureWatch c).est = s.est := rfl
@[simp] theorem State.captureWatch_dsq (c : Capture) : (s.captureWatch c).dsq = s.dsq := rfl
@[simp] theorem State.captureWatch_mlp (c : Capture) : (s.captureWatch c).mlp = s.mlp := rfl
@[simp] theorem State.captureWatch_pins (c : Capture) : (s.captureWatch c).pins = s.pins := rfl
@[simp] theorem State.captureWatch_resetPhase (c : Capture) : (s.captureWatch c).resetPhase = s.resetPhase := rfl
@[simp] theorem State.captureWatch_dram (c : Capture) : (s.captureWatch c).dram = s.dram := rfl
@[simp] theorem State.captureWatch_dramGeneration (c : Capture) : (s.captureWatch c).dramGeneration = s.dramGeneration := rfl
@[simp] theorem State.captureWatch_now (c : Capture) : (s.captureWatch c).now = s.now := rfl
@[simp] theorem State.captureWatch_choices (c : Capture) : (s.captureWatch c).choices = s.choices := rfl
@[simp] theorem State.captureWatch_pending (c : Capture) : (s.captureWatch c).pending = s.pending := rfl

@[simp] theorem State.goData_rmap (c : Current) : (s.goData c).rmap = s.rmap := by
  unfold State.goData; split <;> simp
@[simp] theorem State.goData_fwf (c : Current) : (s.goData c).fwf = s.fwf := by
  unfold State.goData; split <;> simp
@[simp] theorem State.goData_ulc (c : Current) : (s.goData c).ulc = s.ulc := by
  unfold State.goData; split <;> simp
@[simp] theorem State.goData_est (c : Current) : (s.goData c).est = s.est := by
  unfold State.goData; split <;> simp
@[simp] theorem State.goData_evu (c : Current) : (s.goData c).evu = s.evu := by
  unfold State.goData; split <;> simp
@[simp] theorem State.goData_mlp (c : Current) : (s.goData c).mlp = s.mlp := by
  unfold State.goData; split <;> simp
@[simp] theorem State.goData_pins (c : Current) : (s.goData c).pins = s.pins := by
  unfold State.goData; split <;> simp
@[simp] theorem State.goData_resetPhase (c : Current) : (s.goData c).resetPhase = s.resetPhase := by
  unfold State.goData; split <;> simp
@[simp] theorem State.goData_dram (c : Current) : (s.goData c).dram = s.dram := by
  unfold State.goData; split <;> simp
@[simp] theorem State.goData_dramGeneration (c : Current) : (s.goData c).dramGeneration = s.dramGeneration := by
  unfold State.goData; split <;> simp
@[simp] theorem State.goData_now (c : Current) : (s.goData c).now = s.now := by
  unfold State.goData; split <;> simp
@[simp] theorem State.goData_choices (c : Current) : (s.goData c).choices = s.choices := by
  unfold State.goData; split <;> simp
@[simp] theorem State.goData_pending (c : Current) : (s.goData c).pending = s.pending := by
  unfold State.goData; split <;> simp

@[simp] theorem State.nextMissed_rmap (c : Current) : (s.nextMissed c).rmap = s.rmap := by
  unfold State.nextMissed; split <;> (try split) <;> simp
@[simp] theorem State.nextMissed_fwf (c : Current) : (s.nextMissed c).fwf = s.fwf := by
  unfold State.nextMissed; split <;> (try split) <;> simp
@[simp] theorem State.nextMissed_ulc (c : Current) : (s.nextMissed c).ulc = s.ulc := by
  unfold State.nextMissed; split <;> (try split) <;> simp
@[simp] theorem State.nextMissed_est (c : Current) : (s.nextMissed c).est = s.est := by
  unfold State.nextMissed; split <;> (try split) <;> simp
@[simp] theorem State.nextMissed_evu (c : Current) : (s.nextMissed c).evu = s.evu := by
  unfold State.nextMissed; split <;> (try split) <;> simp
@[simp] theorem State.nextMissed_mlp (c : Current) : (s.nextMissed c).mlp = s.mlp := by
  unfold State.nextMissed; split <;> (try split) <;> simp
@[simp] theorem State.nextMissed_pins (c : Current) : (s.nextMissed c).pins = s.pins := by
  unfold State.nextMissed; split <;> (try split) <;> simp
@[simp] theorem State.nextMissed_resetPhase (c : Current) : (s.nextMissed c).resetPhase = s.resetPhase := by
  unfold State.nextMissed; split <;> (try split) <;> simp
@[simp] theorem State.nextMissed_dram (c : Current) : (s.nextMissed c).dram = s.dram := by
  unfold State.nextMissed; split <;> (try split) <;> simp
@[simp] theorem State.nextMissed_dramGeneration (c : Current) : (s.nextMissed c).dramGeneration = s.dramGeneration := by
  unfold State.nextMissed; split <;> (try split) <;> simp
@[simp] theorem State.nextMissed_now (c : Current) : (s.nextMissed c).now = s.now := by
  unfold State.nextMissed; split <;> (try split) <;> simp
@[simp] theorem State.nextMissed_choices (c : Current) : (s.nextMissed c).choices = s.choices := by
  unfold State.nextMissed; split <;> (try split) <;> simp
@[simp] theorem State.nextMissed_pending (c : Current) : (s.nextMissed c).pending = s.pending := by
  unfold State.nextMissed; split <;> (try split) <;> simp

@[simp] theorem State.logReadDone_rmap (c : Current) (l : List Byte) : (s.logReadDone c l).rmap = s.rmap := by
  unfold State.logReadDone; dsimp only; split <;> simp
@[simp] theorem State.logReadDone_fwf (c : Current) (l : List Byte) : (s.logReadDone c l).fwf = s.fwf := by
  unfold State.logReadDone; dsimp only; split <;> simp
@[simp] theorem State.logReadDone_ulc (c : Current) (l : List Byte) : (s.logReadDone c l).ulc = s.ulc := by
  unfold State.logReadDone; dsimp only; split <;> simp
@[simp] theorem State.logReadDone_est (c : Current) (l : List Byte) : (s.logReadDone c l).est = s.est := by
  unfold State.logReadDone; dsimp only; split <;> simp
@[simp] theorem State.logReadDone_evu (c : Current) (l : List Byte) : (s.logReadDone c l).evu = s.evu := by
  unfold State.logReadDone; dsimp only; split <;> simp
@[simp] theorem State.logReadDone_mlp (c : Current) (l : List Byte) : (s.logReadDone c l).mlp = s.mlp := by
  unfold State.logReadDone; dsimp only; split <;> simp
@[simp] theorem State.logReadDone_pins (c : Current) (l : List Byte) : (s.logReadDone c l).pins = s.pins := by
  unfold State.logReadDone; dsimp only; split <;> simp
@[simp] theorem State.logReadDone_resetPhase (c : Current) (l : List Byte) : (s.logReadDone c l).resetPhase = s.resetPhase := by
  unfold State.logReadDone; dsimp only; split <;> simp
@[simp] theorem State.logReadDone_dram (c : Current) (l : List Byte) : (s.logReadDone c l).dram = s.dram := by
  unfold State.logReadDone; dsimp only; split <;> simp
@[simp] theorem State.logReadDone_dramGeneration (c : Current) (l : List Byte) : (s.logReadDone c l).dramGeneration = s.dramGeneration := by
  unfold State.logReadDone; dsimp only; split <;> simp
@[simp] theorem State.logReadDone_now (c : Current) (l : List Byte) : (s.logReadDone c l).now = s.now := by
  unfold State.logReadDone; dsimp only; split <;> simp
@[simp] theorem State.logReadDone_choices (c : Current) (l : List Byte) : (s.logReadDone c l).choices = s.choices := by
  unfold State.logReadDone; dsimp only; split <;> simp
@[simp] theorem State.logReadDone_pending (c : Current) (l : List Byte) : (s.logReadDone c l).pending = s.pending := by
  unfold State.logReadDone; dsimp only; split <;> simp

@[simp] theorem State.logDataDone_slp (c : Current) : (s.logDataDone c).slp = s.slp := by
  unfold State.logDataDone; split <;> simp
@[simp] theorem State.logDataDone_rmap (c : Current) : (s.logDataDone c).rmap = s.rmap := by
  unfold State.logDataDone; split <;> simp
@[simp] theorem State.logDataDone_fwf (c : Current) : (s.logDataDone c).fwf = s.fwf := by
  unfold State.logDataDone; split <;> simp
@[simp] theorem State.logDataDone_ulc (c : Current) : (s.logDataDone c).ulc = s.ulc := by
  unfold State.logDataDone; split <;> simp
@[simp] theorem State.logDataDone_esu (c : Current) : (s.logDataDone c).esu = s.esu := by
  unfold State.logDataDone; split <;> simp
@[simp] theorem State.logDataDone_est (c : Current) : (s.logDataDone c).est = s.est := by
  unfold State.logDataDone; split <;> simp
@[simp] theorem State.logDataDone_evu (c : Current) : (s.logDataDone c).evu = s.evu := by
  unfold State.logDataDone; split <;> simp
@[simp] theorem State.logDataDone_mlp (c : Current) : (s.logDataDone c).mlp = s.mlp := by
  unfold State.logDataDone; split <;> simp
@[simp] theorem State.logDataDone_pins (c : Current) : (s.logDataDone c).pins = s.pins := by
  unfold State.logDataDone; split <;> simp
@[simp] theorem State.logDataDone_resetPhase (c : Current) : (s.logDataDone c).resetPhase = s.resetPhase := by
  unfold State.logDataDone; split <;> simp
@[simp] theorem State.logDataDone_dram (c : Current) : (s.logDataDone c).dram = s.dram := by
  unfold State.logDataDone; split <;> simp
@[simp] theorem State.logDataDone_dramGeneration (c : Current) : (s.logDataDone c).dramGeneration = s.dramGeneration := by
  unfold State.logDataDone; split <;> simp
@[simp] theorem State.logDataDone_now (c : Current) : (s.logDataDone c).now = s.now := by
  unfold State.logDataDone; split <;> simp
@[simp] theorem State.logDataDone_choices (c : Current) : (s.logDataDone c).choices = s.choices := by
  unfold State.logDataDone; split <;> simp
@[simp] theorem State.logDataDone_pending (c : Current) : (s.logDataDone c).pending = s.pending := by
  unfold State.logDataDone; split <;> simp

@[simp] theorem State.countRecord_slp (c : Current) : (s.countRecord c).slp = s.slp := by
  unfold State.countRecord; split <;> (try split) <;> simp
@[simp] theorem State.countRecord_rmap (c : Current) : (s.countRecord c).rmap = s.rmap := by
  unfold State.countRecord; split <;> (try split) <;> simp
@[simp] theorem State.countRecord_rqp (c : Current) : (s.countRecord c).rqp = s.rqp := by
  unfold State.countRecord; split <;> (try split) <;> simp
@[simp] theorem State.countRecord_esu (c : Current) : (s.countRecord c).esu = s.esu := by
  unfold State.countRecord; split <;> (try split) <;> simp
@[simp] theorem State.countRecord_est (c : Current) : (s.countRecord c).est = s.est := by
  unfold State.countRecord; split <;> (try split) <;> simp
@[simp] theorem State.countRecord_dsq (c : Current) : (s.countRecord c).dsq = s.dsq := by
  unfold State.countRecord; split <;> (try split) <;> simp
@[simp] theorem State.countRecord_mlp (c : Current) : (s.countRecord c).mlp = s.mlp := by
  unfold State.countRecord; split <;> (try split) <;> simp
@[simp] theorem State.countRecord_pins (c : Current) : (s.countRecord c).pins = s.pins := by
  unfold State.countRecord; split <;> (try split) <;> simp
@[simp] theorem State.countRecord_resetPhase (c : Current) : (s.countRecord c).resetPhase = s.resetPhase := by
  unfold State.countRecord; split <;> (try split) <;> simp
@[simp] theorem State.countRecord_dram (c : Current) : (s.countRecord c).dram = s.dram := by
  unfold State.countRecord; split <;> (try split) <;> simp
@[simp] theorem State.countRecord_dramGeneration (c : Current) : (s.countRecord c).dramGeneration = s.dramGeneration := by
  unfold State.countRecord; split <;> (try split) <;> simp
@[simp] theorem State.countRecord_now (c : Current) : (s.countRecord c).now = s.now := by
  unfold State.countRecord; split <;> (try split) <;> simp
@[simp] theorem State.countRecord_choices (c : Current) : (s.countRecord c).choices = s.choices := by
  unfold State.countRecord; split <;> (try split) <;> simp
@[simp] theorem State.countRecord_pending (c : Current) : (s.countRecord c).pending = s.pending := by
  unfold State.countRecord; split <;> (try split) <;> simp

@[simp] theorem State.lineDone_rmap (c : Current) (l : List Byte) : (s.lineDone c l).rmap = s.rmap := by
  unfold State.lineDone; dsimp only; split <;> simp
@[simp] theorem State.lineDone_fwf (c : Current) (l : List Byte) : (s.lineDone c l).fwf = s.fwf := by
  unfold State.lineDone; dsimp only; split <;> simp
@[simp] theorem State.lineDone_ulc (c : Current) (l : List Byte) : (s.lineDone c l).ulc = s.ulc := by
  unfold State.lineDone; dsimp only; split <;> simp
@[simp] theorem State.lineDone_est (c : Current) (l : List Byte) : (s.lineDone c l).est = s.est := by
  unfold State.lineDone; dsimp only; split <;> simp
@[simp] theorem State.lineDone_evu (c : Current) (l : List Byte) : (s.lineDone c l).evu = s.evu := by
  unfold State.lineDone; dsimp only; split <;> simp
@[simp] theorem State.lineDone_mlp (c : Current) (l : List Byte) : (s.lineDone c l).mlp = s.mlp := by
  unfold State.lineDone; dsimp only; split <;> simp
@[simp] theorem State.lineDone_pins (c : Current) (l : List Byte) : (s.lineDone c l).pins = s.pins := by
  unfold State.lineDone; dsimp only; split <;> simp
@[simp] theorem State.lineDone_resetPhase (c : Current) (l : List Byte) : (s.lineDone c l).resetPhase = s.resetPhase := by
  unfold State.lineDone; dsimp only; split <;> simp
@[simp] theorem State.lineDone_dram (c : Current) (l : List Byte) : (s.lineDone c l).dram = s.dram := by
  unfold State.lineDone; dsimp only; split <;> simp
@[simp] theorem State.lineDone_dramGeneration (c : Current) (l : List Byte) : (s.lineDone c l).dramGeneration = s.dramGeneration := by
  unfold State.lineDone; dsimp only; split <;> simp
@[simp] theorem State.lineDone_now (c : Current) (l : List Byte) : (s.lineDone c l).now = s.now := by
  unfold State.lineDone; dsimp only; split <;> simp
@[simp] theorem State.lineDone_choices (c : Current) (l : List Byte) : (s.lineDone c l).choices = s.choices := by
  unfold State.lineDone; dsimp only; split <;> simp
@[simp] theorem State.lineDone_pending (c : Current) (l : List Byte) : (s.lineDone c l).pending = s.pending := by
  unfold State.lineDone; dsimp only; split <;> simp

@[simp] theorem State.rqpComplete_rmap (l : List Byte) : (s.rqpComplete l).rmap = s.rmap := by
  unfold State.rqpComplete; split <;> (try split) <;> (try split) <;> simp
@[simp] theorem State.rqpComplete_est (l : List Byte) : (s.rqpComplete l).est = s.est := by
  unfold State.rqpComplete; split <;> (try split) <;> (try split) <;> simp
@[simp] theorem State.rqpComplete_mlp (l : List Byte) : (s.rqpComplete l).mlp = s.mlp := by
  unfold State.rqpComplete; split <;> (try split) <;> (try split) <;> simp
@[simp] theorem State.rqpComplete_pins (l : List Byte) : (s.rqpComplete l).pins = s.pins := by
  unfold State.rqpComplete; split <;> (try split) <;> (try split) <;> simp
@[simp] theorem State.rqpComplete_resetPhase (l : List Byte) : (s.rqpComplete l).resetPhase = s.resetPhase := by
  unfold State.rqpComplete; split <;> (try split) <;> (try split) <;> simp
@[simp] theorem State.rqpComplete_dram (l : List Byte) : (s.rqpComplete l).dram = s.dram := by
  unfold State.rqpComplete; split <;> (try split) <;> (try split) <;> simp
@[simp] theorem State.rqpComplete_dramGeneration (l : List Byte) : (s.rqpComplete l).dramGeneration = s.dramGeneration := by
  unfold State.rqpComplete; split <;> (try split) <;> (try split) <;> simp
@[simp] theorem State.rqpComplete_now (l : List Byte) : (s.rqpComplete l).now = s.now := by
  unfold State.rqpComplete; split <;> (try split) <;> (try split) <;> simp
@[simp] theorem State.rqpComplete_choices (l : List Byte) : (s.rqpComplete l).choices = s.choices := by
  unfold State.rqpComplete; split <;> (try split) <;> (try split) <;> simp
@[simp] theorem State.rqpComplete_pending (l : List Byte) : (s.rqpComplete l).pending = s.pending := by
  unfold State.rqpComplete; split <;> (try split) <;> (try split) <;> simp

@[simp] theorem State.faultRequest_rmap (r : Request) (k : FaultKind) (g : RegionIndex) : (s.faultRequest r k g).rmap = s.rmap := by
  simp [State.faultRequest]
@[simp] theorem State.faultRequest_fwf (r : Request) (k : FaultKind) (g : RegionIndex) : (s.faultRequest r k g).fwf = s.fwf := by
  simp [State.faultRequest]
@[simp] theorem State.faultRequest_ulc (r : Request) (k : FaultKind) (g : RegionIndex) : (s.faultRequest r k g).ulc = s.ulc := by
  simp [State.faultRequest]
@[simp] theorem State.faultRequest_est (r : Request) (k : FaultKind) (g : RegionIndex) : (s.faultRequest r k g).est = s.est := by
  simp [State.faultRequest]
@[simp] theorem State.faultRequest_dsq (r : Request) (k : FaultKind) (g : RegionIndex) : (s.faultRequest r k g).dsq = s.dsq := by
  simp [State.faultRequest]
@[simp] theorem State.faultRequest_mlp (r : Request) (k : FaultKind) (g : RegionIndex) : (s.faultRequest r k g).mlp = s.mlp := by
  simp [State.faultRequest]
@[simp] theorem State.faultRequest_pins (r : Request) (k : FaultKind) (g : RegionIndex) : (s.faultRequest r k g).pins = s.pins := by
  simp [State.faultRequest]
@[simp] theorem State.faultRequest_resetPhase (r : Request) (k : FaultKind) (g : RegionIndex) : (s.faultRequest r k g).resetPhase = s.resetPhase := by
  simp [State.faultRequest]
@[simp] theorem State.faultRequest_dram (r : Request) (k : FaultKind) (g : RegionIndex) : (s.faultRequest r k g).dram = s.dram := by
  simp [State.faultRequest]
@[simp] theorem State.faultRequest_dramGeneration (r : Request) (k : FaultKind) (g : RegionIndex) : (s.faultRequest r k g).dramGeneration = s.dramGeneration := by
  simp [State.faultRequest]
@[simp] theorem State.faultRequest_now (r : Request) (k : FaultKind) (g : RegionIndex) : (s.faultRequest r k g).now = s.now := by
  simp [State.faultRequest]
@[simp] theorem State.faultRequest_choices (r : Request) (k : FaultKind) (g : RegionIndex) : (s.faultRequest r k g).choices = s.choices := by
  simp [State.faultRequest]
@[simp] theorem State.faultRequest_pending (r : Request) (k : FaultKind) (g : RegionIndex) : (s.faultRequest r k g).pending = s.pending := by
  simp [State.faultRequest]

@[simp] theorem State.watchRequest_slp (r : Request) (l : List LinePart) : (s.watchRequest r l).slp = s.slp := by
  unfold State.watchRequest; split <;> simp
@[simp] theorem State.watchRequest_rmap (r : Request) (l : List LinePart) : (s.watchRequest r l).rmap = s.rmap := by
  unfold State.watchRequest; split <;> simp
@[simp] theorem State.watchRequest_rqp (r : Request) (l : List LinePart) : (s.watchRequest r l).rqp = s.rqp := by
  unfold State.watchRequest; split <;> simp
@[simp] theorem State.watchRequest_fwf (r : Request) (l : List LinePart) : (s.watchRequest r l).fwf = s.fwf := by
  unfold State.watchRequest; split <;> simp
@[simp] theorem State.watchRequest_ulc (r : Request) (l : List LinePart) : (s.watchRequest r l).ulc = s.ulc := by
  unfold State.watchRequest; split <;> simp
@[simp] theorem State.watchRequest_esu (r : Request) (l : List LinePart) : (s.watchRequest r l).esu = s.esu := by
  unfold State.watchRequest; split <;> simp
@[simp] theorem State.watchRequest_est (r : Request) (l : List LinePart) : (s.watchRequest r l).est = s.est := by
  unfold State.watchRequest; split <;> simp
@[simp] theorem State.watchRequest_dsq (r : Request) (l : List LinePart) : (s.watchRequest r l).dsq = s.dsq := by
  unfold State.watchRequest; split <;> simp
@[simp] theorem State.watchRequest_mlp (r : Request) (l : List LinePart) : (s.watchRequest r l).mlp = s.mlp := by
  unfold State.watchRequest; split <;> simp
@[simp] theorem State.watchRequest_pins (r : Request) (l : List LinePart) : (s.watchRequest r l).pins = s.pins := by
  unfold State.watchRequest; split <;> simp
@[simp] theorem State.watchRequest_resetPhase (r : Request) (l : List LinePart) : (s.watchRequest r l).resetPhase = s.resetPhase := by
  unfold State.watchRequest; split <;> simp
@[simp] theorem State.watchRequest_dram (r : Request) (l : List LinePart) : (s.watchRequest r l).dram = s.dram := by
  unfold State.watchRequest; split <;> simp
@[simp] theorem State.watchRequest_dramGeneration (r : Request) (l : List LinePart) : (s.watchRequest r l).dramGeneration = s.dramGeneration := by
  unfold State.watchRequest; split <;> simp
@[simp] theorem State.watchRequest_now (r : Request) (l : List LinePart) : (s.watchRequest r l).now = s.now := by
  unfold State.watchRequest; split <;> simp
@[simp] theorem State.watchRequest_choices (r : Request) (l : List LinePart) : (s.watchRequest r l).choices = s.choices := by
  unfold State.watchRequest; split <;> simp
@[simp] theorem State.watchRequest_pending (r : Request) (l : List LinePart) : (s.watchRequest r l).pending = s.pending := by
  unfold State.watchRequest; split <;> simp

@[simp] theorem State.breakFrames_slp : (s.breakFrames).slp = s.slp := rfl
@[simp] theorem State.breakFrames_rmap : (s.breakFrames).rmap = s.rmap := rfl
@[simp] theorem State.breakFrames_rqp : (s.breakFrames).rqp = s.rqp := rfl
@[simp] theorem State.breakFrames_fwf : (s.breakFrames).fwf = s.fwf := rfl
@[simp] theorem State.breakFrames_ulc : (s.breakFrames).ulc = s.ulc := rfl
@[simp] theorem State.breakFrames_est : (s.breakFrames).est = s.est := rfl
@[simp] theorem State.breakFrames_dsq : (s.breakFrames).dsq = s.dsq := rfl
@[simp] theorem State.breakFrames_mlp : (s.breakFrames).mlp = s.mlp := rfl
@[simp] theorem State.breakFrames_pins : (s.breakFrames).pins = s.pins := rfl
@[simp] theorem State.breakFrames_resetPhase : (s.breakFrames).resetPhase = s.resetPhase := rfl
@[simp] theorem State.breakFrames_dram : (s.breakFrames).dram = s.dram := rfl
@[simp] theorem State.breakFrames_dramGeneration : (s.breakFrames).dramGeneration = s.dramGeneration := rfl
@[simp] theorem State.breakFrames_now : (s.breakFrames).now = s.now := rfl
@[simp] theorem State.breakFrames_choices : (s.breakFrames).choices = s.choices := rfl
@[simp] theorem State.breakFrames_pending : (s.breakFrames).pending = s.pending := rfl

@[simp] theorem State.setPolicies_slp (dc : DefaultClass) (ac : Bool) (fm : FilterMode) (pp : PagePolicy) (rp : RecoveryPolicy) : (s.setPolicies dc ac fm pp rp).slp = s.slp := rfl
@[simp] theorem State.setPolicies_rqp (dc : DefaultClass) (ac : Bool) (fm : FilterMode) (pp : PagePolicy) (rp : RecoveryPolicy) : (s.setPolicies dc ac fm pp rp).rqp = s.rqp := rfl
@[simp] theorem State.setPolicies_ulc (dc : DefaultClass) (ac : Bool) (fm : FilterMode) (pp : PagePolicy) (rp : RecoveryPolicy) : (s.setPolicies dc ac fm pp rp).ulc = s.ulc := rfl
@[simp] theorem State.setPolicies_esu (dc : DefaultClass) (ac : Bool) (fm : FilterMode) (pp : PagePolicy) (rp : RecoveryPolicy) : (s.setPolicies dc ac fm pp rp).esu = s.esu := rfl
@[simp] theorem State.setPolicies_evu (dc : DefaultClass) (ac : Bool) (fm : FilterMode) (pp : PagePolicy) (rp : RecoveryPolicy) : (s.setPolicies dc ac fm pp rp).evu = s.evu := rfl
@[simp] theorem State.setPolicies_mlp (dc : DefaultClass) (ac : Bool) (fm : FilterMode) (pp : PagePolicy) (rp : RecoveryPolicy) : (s.setPolicies dc ac fm pp rp).mlp = s.mlp := rfl
@[simp] theorem State.setPolicies_pins (dc : DefaultClass) (ac : Bool) (fm : FilterMode) (pp : PagePolicy) (rp : RecoveryPolicy) : (s.setPolicies dc ac fm pp rp).pins = s.pins := rfl
@[simp] theorem State.setPolicies_resetPhase (dc : DefaultClass) (ac : Bool) (fm : FilterMode) (pp : PagePolicy) (rp : RecoveryPolicy) : (s.setPolicies dc ac fm pp rp).resetPhase = s.resetPhase := rfl
@[simp] theorem State.setPolicies_dram (dc : DefaultClass) (ac : Bool) (fm : FilterMode) (pp : PagePolicy) (rp : RecoveryPolicy) : (s.setPolicies dc ac fm pp rp).dram = s.dram := rfl
@[simp] theorem State.setPolicies_dramGeneration (dc : DefaultClass) (ac : Bool) (fm : FilterMode) (pp : PagePolicy) (rp : RecoveryPolicy) : (s.setPolicies dc ac fm pp rp).dramGeneration = s.dramGeneration := rfl
@[simp] theorem State.setPolicies_now (dc : DefaultClass) (ac : Bool) (fm : FilterMode) (pp : PagePolicy) (rp : RecoveryPolicy) : (s.setPolicies dc ac fm pp rp).now = s.now := rfl
@[simp] theorem State.setPolicies_choices (dc : DefaultClass) (ac : Bool) (fm : FilterMode) (pp : PagePolicy) (rp : RecoveryPolicy) : (s.setPolicies dc ac fm pp rp).choices = s.choices := rfl
@[simp] theorem State.setPolicies_pending (dc : DefaultClass) (ac : Bool) (fm : FilterMode) (pp : PagePolicy) (rp : RecoveryPolicy) : (s.setPolicies dc ac fm pp rp).pending = s.pending := rfl

@[simp] theorem State.serve_rmap (c : Current) : (s.serve c).rmap = s.rmap := by
  simp [State.serve]
@[simp] theorem State.serve_fwf (c : Current) : (s.serve c).fwf = s.fwf := by
  simp [State.serve]
@[simp] theorem State.serve_ulc (c : Current) : (s.serve c).ulc = s.ulc := by
  simp [State.serve]
@[simp] theorem State.serve_est (c : Current) : (s.serve c).est = s.est := by
  simp [State.serve]
@[simp] theorem State.serve_mlp (c : Current) : (s.serve c).mlp = s.mlp := by
  simp [State.serve]
@[simp] theorem State.serve_pins (c : Current) : (s.serve c).pins = s.pins := by
  simp [State.serve]
@[simp] theorem State.serve_resetPhase (c : Current) : (s.serve c).resetPhase = s.resetPhase := by
  simp [State.serve]
@[simp] theorem State.serve_dram (c : Current) : (s.serve c).dram = s.dram := by
  simp [State.serve]
@[simp] theorem State.serve_dramGeneration (c : Current) : (s.serve c).dramGeneration = s.dramGeneration := by
  simp [State.serve]
@[simp] theorem State.serve_now (c : Current) : (s.serve c).now = s.now := by
  simp [State.serve]
@[simp] theorem State.serve_choices (c : Current) : (s.serve c).choices = s.choices := by
  simp [State.serve]
@[simp] theorem State.serve_pending (c : Current) : (s.serve c).pending = s.pending := by
  simp [State.serve]

@[simp] theorem State.settle_rmap (r : Request) (l : List Classification) (k : Classification) : (s.settle r l k).rmap = s.rmap := by
  unfold State.settle; dsimp only
  split <;> (try split) <;> (try split) <;> (try split) <;> simp
@[simp] theorem State.settle_fwf (r : Request) (l : List Classification) (k : Classification) : (s.settle r l k).fwf = s.fwf := by
  unfold State.settle; dsimp only
  split <;> (try split) <;> (try split) <;> (try split) <;> simp
@[simp] theorem State.settle_ulc (r : Request) (l : List Classification) (k : Classification) : (s.settle r l k).ulc = s.ulc := by
  unfold State.settle; dsimp only
  split <;> (try split) <;> (try split) <;> (try split) <;> simp
@[simp] theorem State.settle_est (r : Request) (l : List Classification) (k : Classification) : (s.settle r l k).est = s.est := by
  unfold State.settle; dsimp only
  split <;> (try split) <;> (try split) <;> (try split) <;> simp
@[simp] theorem State.settle_mlp (r : Request) (l : List Classification) (k : Classification) : (s.settle r l k).mlp = s.mlp := by
  unfold State.settle; dsimp only
  split <;> (try split) <;> (try split) <;> (try split) <;> simp
@[simp] theorem State.settle_pins (r : Request) (l : List Classification) (k : Classification) : (s.settle r l k).pins = s.pins := by
  unfold State.settle; dsimp only
  split <;> (try split) <;> (try split) <;> (try split) <;> simp
@[simp] theorem State.settle_resetPhase (r : Request) (l : List Classification) (k : Classification) : (s.settle r l k).resetPhase = s.resetPhase := by
  unfold State.settle; dsimp only
  split <;> (try split) <;> (try split) <;> (try split) <;> simp
@[simp] theorem State.settle_dram (r : Request) (l : List Classification) (k : Classification) : (s.settle r l k).dram = s.dram := by
  unfold State.settle; dsimp only
  split <;> (try split) <;> (try split) <;> (try split) <;> simp
@[simp] theorem State.settle_dramGeneration (r : Request) (l : List Classification) (k : Classification) : (s.settle r l k).dramGeneration = s.dramGeneration := by
  unfold State.settle; dsimp only
  split <;> (try split) <;> (try split) <;> (try split) <;> simp
@[simp] theorem State.settle_now (r : Request) (l : List Classification) (k : Classification) : (s.settle r l k).now = s.now := by
  unfold State.settle; dsimp only
  split <;> (try split) <;> (try split) <;> (try split) <;> simp
@[simp] theorem State.settle_choices (r : Request) (l : List Classification) (k : Classification) : (s.settle r l k).choices = s.choices := by
  unfold State.settle; dsimp only
  split <;> (try split) <;> (try split) <;> (try split) <;> simp
@[simp] theorem State.settle_pending (r : Request) (l : List Classification) (k : Classification) : (s.settle r l k).pending = s.pending := by
  unfold State.settle; dsimp only
  split <;> (try split) <;> (try split) <;> (try split) <;> simp

@[simp] theorem State.checkRequest_rmap (r : Request) : (s.checkRequest r).rmap = s.rmap := by
  unfold State.checkRequest; dsimp only
  split <;> (try split) <;> (try split) <;> (try split) <;> simp
@[simp] theorem State.checkRequest_fwf (r : Request) : (s.checkRequest r).fwf = s.fwf := by
  unfold State.checkRequest; dsimp only
  split <;> (try split) <;> (try split) <;> (try split) <;> simp
@[simp] theorem State.checkRequest_ulc (r : Request) : (s.checkRequest r).ulc = s.ulc := by
  unfold State.checkRequest; dsimp only
  split <;> (try split) <;> (try split) <;> (try split) <;> simp
@[simp] theorem State.checkRequest_est (r : Request) : (s.checkRequest r).est = s.est := by
  unfold State.checkRequest; dsimp only
  split <;> (try split) <;> (try split) <;> (try split) <;> simp
@[simp] theorem State.checkRequest_mlp (r : Request) : (s.checkRequest r).mlp = s.mlp := by
  unfold State.checkRequest; dsimp only
  split <;> (try split) <;> (try split) <;> (try split) <;> simp
@[simp] theorem State.checkRequest_pins (r : Request) : (s.checkRequest r).pins = s.pins := by
  unfold State.checkRequest; dsimp only
  split <;> (try split) <;> (try split) <;> (try split) <;> simp
@[simp] theorem State.checkRequest_resetPhase (r : Request) : (s.checkRequest r).resetPhase = s.resetPhase := by
  unfold State.checkRequest; dsimp only
  split <;> (try split) <;> (try split) <;> (try split) <;> simp
@[simp] theorem State.checkRequest_dram (r : Request) : (s.checkRequest r).dram = s.dram := by
  unfold State.checkRequest; dsimp only
  split <;> (try split) <;> (try split) <;> (try split) <;> simp
@[simp] theorem State.checkRequest_dramGeneration (r : Request) : (s.checkRequest r).dramGeneration = s.dramGeneration := by
  unfold State.checkRequest; dsimp only
  split <;> (try split) <;> (try split) <;> (try split) <;> simp
@[simp] theorem State.checkRequest_now (r : Request) : (s.checkRequest r).now = s.now := by
  unfold State.checkRequest; dsimp only
  split <;> (try split) <;> (try split) <;> (try split) <;> simp
@[simp] theorem State.checkRequest_choices (r : Request) : (s.checkRequest r).choices = s.choices := by
  unfold State.checkRequest; dsimp only
  split <;> (try split) <;> (try split) <;> (try split) <;> simp
@[simp] theorem State.checkRequest_pending (r : Request) : (s.checkRequest r).pending = s.pending := by
  unfold State.checkRequest; dsimp only
  split <;> (try split) <;> (try split) <;> (try split) <;> simp

@[simp] theorem State.expiryRollback_slp : (s.expiryRollback).slp = s.slp := by
  unfold State.expiryRollback; dsimp only; split <;> (try split) <;> simp
@[simp] theorem State.expiryRollback_rmap : (s.expiryRollback).rmap = s.rmap := by
  unfold State.expiryRollback; dsimp only; split <;> (try split) <;> simp
@[simp] theorem State.expiryRollback_rqp : (s.expiryRollback).rqp = s.rqp := by
  unfold State.expiryRollback; dsimp only; split <;> (try split) <;> simp
@[simp] theorem State.expiryRollback_mlp : (s.expiryRollback).mlp = s.mlp := by
  unfold State.expiryRollback; dsimp only; split <;> (try split) <;> simp
@[simp] theorem State.expiryRollback_pins : (s.expiryRollback).pins = s.pins := by
  unfold State.expiryRollback; dsimp only; split <;> (try split) <;> simp
@[simp] theorem State.expiryRollback_resetPhase : (s.expiryRollback).resetPhase = s.resetPhase := by
  unfold State.expiryRollback; dsimp only; split <;> (try split) <;> simp
@[simp] theorem State.expiryRollback_dram : (s.expiryRollback).dram = s.dram := by
  unfold State.expiryRollback; dsimp only; split <;> (try split) <;> simp
@[simp] theorem State.expiryRollback_dramGeneration : (s.expiryRollback).dramGeneration = s.dramGeneration := by
  unfold State.expiryRollback; dsimp only; split <;> (try split) <;> simp
@[simp] theorem State.expiryRollback_now : (s.expiryRollback).now = s.now := by
  unfold State.expiryRollback; dsimp only; split <;> (try split) <;> simp
@[simp] theorem State.expiryRollback_choices : (s.expiryRollback).choices = s.choices := by
  unfold State.expiryRollback; dsimp only; split <;> (try split) <;> simp
@[simp] theorem State.expiryRollback_pending : (s.expiryRollback).pending = s.pending := by
  unfold State.expiryRollback; dsimp only; split <;> (try split) <;> simp

@[simp] theorem State.recover_slp : (s.recover).slp = s.slp := by
  unfold State.recover; split <;> (try split) <;> (try split) <;> simp
@[simp] theorem State.recover_rmap : (s.recover).rmap = s.rmap := by
  unfold State.recover; split <;> (try split) <;> (try split) <;> simp
@[simp] theorem State.recover_rqp : (s.recover).rqp = s.rqp := by
  unfold State.recover; split <;> (try split) <;> (try split) <;> simp
@[simp] theorem State.recover_mlp : (s.recover).mlp = s.mlp := by
  unfold State.recover; split <;> (try split) <;> (try split) <;> simp
@[simp] theorem State.recover_pins : (s.recover).pins = s.pins := by
  unfold State.recover; split <;> (try split) <;> (try split) <;> simp
@[simp] theorem State.recover_resetPhase : (s.recover).resetPhase = s.resetPhase := by
  unfold State.recover; split <;> (try split) <;> (try split) <;> simp
@[simp] theorem State.recover_dram : (s.recover).dram = s.dram := by
  unfold State.recover; split <;> (try split) <;> (try split) <;> simp
@[simp] theorem State.recover_dramGeneration : (s.recover).dramGeneration = s.dramGeneration := by
  unfold State.recover; split <;> (try split) <;> (try split) <;> simp
@[simp] theorem State.recover_now : (s.recover).now = s.now := by
  unfold State.recover; split <;> (try split) <;> (try split) <;> simp
@[simp] theorem State.recover_choices : (s.recover).choices = s.choices := by
  unfold State.recover; split <;> (try split) <;> (try split) <;> simp
@[simp] theorem State.recover_pending : (s.recover).pending = s.pending := by
  unfold State.recover; split <;> (try split) <;> (try split) <;> simp

@[simp] theorem State.hostResetLink_rmap : (s.hostResetLink).rmap = s.rmap := by
  unfold State.hostResetLink; dsimp only; split <;> simp
@[simp] theorem State.hostResetLink_fwf : (s.hostResetLink).fwf = s.fwf := by
  unfold State.hostResetLink; dsimp only; split <;> simp
@[simp] theorem State.hostResetLink_ulc : (s.hostResetLink).ulc = s.ulc := by
  unfold State.hostResetLink; dsimp only; split <;> simp
@[simp] theorem State.hostResetLink_est : (s.hostResetLink).est = s.est := by
  unfold State.hostResetLink; dsimp only; split <;> simp
@[simp] theorem State.hostResetLink_dsq : (s.hostResetLink).dsq = s.dsq := by
  unfold State.hostResetLink; dsimp only; split <;> simp
@[simp] theorem State.hostResetLink_mlp : (s.hostResetLink).mlp = s.mlp := by
  unfold State.hostResetLink; dsimp only; split <;> simp
@[simp] theorem State.hostResetLink_pins : (s.hostResetLink).pins = s.pins := by
  unfold State.hostResetLink; dsimp only; split <;> simp
@[simp] theorem State.hostResetLink_resetPhase : (s.hostResetLink).resetPhase = s.resetPhase := by
  unfold State.hostResetLink; dsimp only; split <;> simp
@[simp] theorem State.hostResetLink_dram : (s.hostResetLink).dram = s.dram := by
  unfold State.hostResetLink; dsimp only; split <;> simp
@[simp] theorem State.hostResetLink_dramGeneration : (s.hostResetLink).dramGeneration = s.dramGeneration := by
  unfold State.hostResetLink; dsimp only; split <;> simp
@[simp] theorem State.hostResetLink_now : (s.hostResetLink).now = s.now := by
  unfold State.hostResetLink; dsimp only; split <;> simp
@[simp] theorem State.hostResetLink_choices : (s.hostResetLink).choices = s.choices := by
  unfold State.hostResetLink; dsimp only; split <;> simp
@[simp] theorem State.hostResetLink_pending : (s.hostResetLink).pending = s.pending := by
  unfold State.hostResetLink; dsimp only; split <;> simp

@[simp] theorem State.refreshBank_slp (b : Fin 8) : (s.refreshBank b).slp = s.slp := rfl
@[simp] theorem State.refreshBank_rmap (b : Fin 8) : (s.refreshBank b).rmap = s.rmap := rfl
@[simp] theorem State.refreshBank_rqp (b : Fin 8) : (s.refreshBank b).rqp = s.rqp := rfl
@[simp] theorem State.refreshBank_fwf (b : Fin 8) : (s.refreshBank b).fwf = s.fwf := rfl
@[simp] theorem State.refreshBank_ulc (b : Fin 8) : (s.refreshBank b).ulc = s.ulc := rfl
@[simp] theorem State.refreshBank_esu (b : Fin 8) : (s.refreshBank b).esu = s.esu := rfl
@[simp] theorem State.refreshBank_est (b : Fin 8) : (s.refreshBank b).est = s.est := rfl
@[simp] theorem State.refreshBank_evu (b : Fin 8) : (s.refreshBank b).evu = s.evu := rfl
@[simp] theorem State.refreshBank_mlp (b : Fin 8) : (s.refreshBank b).mlp = s.mlp := rfl
@[simp] theorem State.refreshBank_pins (b : Fin 8) : (s.refreshBank b).pins = s.pins := rfl
@[simp] theorem State.refreshBank_resetPhase (b : Fin 8) : (s.refreshBank b).resetPhase = s.resetPhase := rfl
@[simp] theorem State.refreshBank_dram (b : Fin 8) : (s.refreshBank b).dram = s.dram := rfl
@[simp] theorem State.refreshBank_dramGeneration (b : Fin 8) : (s.refreshBank b).dramGeneration = s.dramGeneration := rfl
@[simp] theorem State.refreshBank_now (b : Fin 8) : (s.refreshBank b).now = s.now := rfl
@[simp] theorem State.refreshBank_choices (b : Fin 8) : (s.refreshBank b).choices = s.choices := rfl
@[simp] theorem State.refreshBank_pending (b : Fin 8) : (s.refreshBank b).pending = s.pending := rfl

@[simp] theorem State.idleBank_slp (b : Fin 8) : (s.idleBank b).slp = s.slp := rfl
@[simp] theorem State.idleBank_rmap (b : Fin 8) : (s.idleBank b).rmap = s.rmap := rfl
@[simp] theorem State.idleBank_rqp (b : Fin 8) : (s.idleBank b).rqp = s.rqp := rfl
@[simp] theorem State.idleBank_fwf (b : Fin 8) : (s.idleBank b).fwf = s.fwf := rfl
@[simp] theorem State.idleBank_ulc (b : Fin 8) : (s.idleBank b).ulc = s.ulc := rfl
@[simp] theorem State.idleBank_esu (b : Fin 8) : (s.idleBank b).esu = s.esu := rfl
@[simp] theorem State.idleBank_est (b : Fin 8) : (s.idleBank b).est = s.est := rfl
@[simp] theorem State.idleBank_evu (b : Fin 8) : (s.idleBank b).evu = s.evu := rfl
@[simp] theorem State.idleBank_mlp (b : Fin 8) : (s.idleBank b).mlp = s.mlp := rfl
@[simp] theorem State.idleBank_pins (b : Fin 8) : (s.idleBank b).pins = s.pins := rfl
@[simp] theorem State.idleBank_resetPhase (b : Fin 8) : (s.idleBank b).resetPhase = s.resetPhase := rfl
@[simp] theorem State.idleBank_dram (b : Fin 8) : (s.idleBank b).dram = s.dram := rfl
@[simp] theorem State.idleBank_dramGeneration (b : Fin 8) : (s.idleBank b).dramGeneration = s.dramGeneration := rfl
@[simp] theorem State.idleBank_now (b : Fin 8) : (s.idleBank b).now = s.now := rfl
@[simp] theorem State.idleBank_choices (b : Fin 8) : (s.idleBank b).choices = s.choices := rfl
@[simp] theorem State.idleBank_pending (b : Fin 8) : (s.idleBank b).pending = s.pending := rfl

@[simp] theorem State.enterReady_slp : (s.enterReady).slp = s.slp := rfl
@[simp] theorem State.enterReady_rmap : (s.enterReady).rmap = s.rmap := rfl
@[simp] theorem State.enterReady_rqp : (s.enterReady).rqp = s.rqp := rfl
@[simp] theorem State.enterReady_fwf : (s.enterReady).fwf = s.fwf := rfl
@[simp] theorem State.enterReady_ulc : (s.enterReady).ulc = s.ulc := rfl
@[simp] theorem State.enterReady_esu : (s.enterReady).esu = s.esu := rfl
@[simp] theorem State.enterReady_est : (s.enterReady).est = s.est := rfl
@[simp] theorem State.enterReady_mlp : (s.enterReady).mlp = s.mlp := rfl
@[simp] theorem State.enterReady_pins : (s.enterReady).pins = s.pins := rfl
@[simp] theorem State.enterReady_resetPhase : (s.enterReady).resetPhase = s.resetPhase := rfl
@[simp] theorem State.enterReady_dram : (s.enterReady).dram = s.dram := rfl
@[simp] theorem State.enterReady_dramGeneration : (s.enterReady).dramGeneration = s.dramGeneration := rfl
@[simp] theorem State.enterReady_now : (s.enterReady).now = s.now := rfl
@[simp] theorem State.enterReady_choices : (s.enterReady).choices = s.choices := rfl
@[simp] theorem State.enterReady_pending : (s.enterReady).pending = s.pending := rfl

@[simp] theorem State.beginClose_slp (b : Fin 8) : (s.beginClose b).slp = s.slp := rfl
@[simp] theorem State.beginClose_rmap (b : Fin 8) : (s.beginClose b).rmap = s.rmap := rfl
@[simp] theorem State.beginClose_rqp (b : Fin 8) : (s.beginClose b).rqp = s.rqp := rfl
@[simp] theorem State.beginClose_fwf (b : Fin 8) : (s.beginClose b).fwf = s.fwf := rfl
@[simp] theorem State.beginClose_ulc (b : Fin 8) : (s.beginClose b).ulc = s.ulc := rfl
@[simp] theorem State.beginClose_esu (b : Fin 8) : (s.beginClose b).esu = s.esu := rfl
@[simp] theorem State.beginClose_est (b : Fin 8) : (s.beginClose b).est = s.est := rfl
@[simp] theorem State.beginClose_evu (b : Fin 8) : (s.beginClose b).evu = s.evu := rfl
@[simp] theorem State.beginClose_mlp (b : Fin 8) : (s.beginClose b).mlp = s.mlp := rfl
@[simp] theorem State.beginClose_pins (b : Fin 8) : (s.beginClose b).pins = s.pins := rfl
@[simp] theorem State.beginClose_resetPhase (b : Fin 8) : (s.beginClose b).resetPhase = s.resetPhase := rfl
@[simp] theorem State.beginClose_dram (b : Fin 8) : (s.beginClose b).dram = s.dram := rfl
@[simp] theorem State.beginClose_dramGeneration (b : Fin 8) : (s.beginClose b).dramGeneration = s.dramGeneration := rfl
@[simp] theorem State.beginClose_now (b : Fin 8) : (s.beginClose b).now = s.now := rfl
@[simp] theorem State.beginClose_choices (b : Fin 8) : (s.beginClose b).choices = s.choices := rfl
@[simp] theorem State.beginClose_pending (b : Fin 8) : (s.beginClose b).pending = s.pending := rfl

@[simp] theorem State.finishOp_slp (op : MemOp) : (s.finishOp op).slp = s.slp := by
  unfold State.finishOp; dsimp only; split <;> simp
@[simp] theorem State.finishOp_rmap (op : MemOp) : (s.finishOp op).rmap = s.rmap := by
  unfold State.finishOp; dsimp only; split <;> simp
@[simp] theorem State.finishOp_rqp (op : MemOp) : (s.finishOp op).rqp = s.rqp := by
  unfold State.finishOp; dsimp only; split <;> simp
@[simp] theorem State.finishOp_fwf (op : MemOp) : (s.finishOp op).fwf = s.fwf := by
  unfold State.finishOp; dsimp only; split <;> simp
@[simp] theorem State.finishOp_ulc (op : MemOp) : (s.finishOp op).ulc = s.ulc := by
  unfold State.finishOp; dsimp only; split <;> simp
@[simp] theorem State.finishOp_esu (op : MemOp) : (s.finishOp op).esu = s.esu := by
  unfold State.finishOp; dsimp only; split <;> simp
@[simp] theorem State.finishOp_est (op : MemOp) : (s.finishOp op).est = s.est := by
  unfold State.finishOp; dsimp only; split <;> simp
@[simp] theorem State.finishOp_evu (op : MemOp) : (s.finishOp op).evu = s.evu := by
  unfold State.finishOp; dsimp only; split <;> simp
@[simp] theorem State.finishOp_mlp (op : MemOp) : (s.finishOp op).mlp = s.mlp := by
  unfold State.finishOp; dsimp only; split <;> simp
@[simp] theorem State.finishOp_pins (op : MemOp) : (s.finishOp op).pins = s.pins := by
  unfold State.finishOp; dsimp only; split <;> simp
@[simp] theorem State.finishOp_resetPhase (op : MemOp) : (s.finishOp op).resetPhase = s.resetPhase := by
  unfold State.finishOp; dsimp only; split <;> simp
@[simp] theorem State.finishOp_dramGeneration (op : MemOp) : (s.finishOp op).dramGeneration = s.dramGeneration := by
  unfold State.finishOp; dsimp only; split <;> simp
@[simp] theorem State.finishOp_now (op : MemOp) : (s.finishOp op).now = s.now := by
  unfold State.finishOp; dsimp only; split <;> simp
@[simp] theorem State.finishOp_choices (op : MemOp) : (s.finishOp op).choices = s.choices := by
  unfold State.finishOp; dsimp only; split <;> simp
@[simp] theorem State.finishOp_pending (op : MemOp) : (s.finishOp op).pending = s.pending := by
  unfold State.finishOp; dsimp only; split <;> simp

@[simp] theorem State.closePages_slp (l : List (Fin 8)) : (s.closePages l).slp = s.slp := by
  induction l generalizing s with
  | nil => rfl
  | cons b l ih => unfold State.closePages; rw [ih]; split <;> simp
@[simp] theorem State.closePages_rmap (l : List (Fin 8)) : (s.closePages l).rmap = s.rmap := by
  induction l generalizing s with
  | nil => rfl
  | cons b l ih => unfold State.closePages; rw [ih]; split <;> simp
@[simp] theorem State.closePages_rqp (l : List (Fin 8)) : (s.closePages l).rqp = s.rqp := by
  induction l generalizing s with
  | nil => rfl
  | cons b l ih => unfold State.closePages; rw [ih]; split <;> simp
@[simp] theorem State.closePages_fwf (l : List (Fin 8)) : (s.closePages l).fwf = s.fwf := by
  induction l generalizing s with
  | nil => rfl
  | cons b l ih => unfold State.closePages; rw [ih]; split <;> simp
@[simp] theorem State.closePages_ulc (l : List (Fin 8)) : (s.closePages l).ulc = s.ulc := by
  induction l generalizing s with
  | nil => rfl
  | cons b l ih => unfold State.closePages; rw [ih]; split <;> simp
@[simp] theorem State.closePages_esu (l : List (Fin 8)) : (s.closePages l).esu = s.esu := by
  induction l generalizing s with
  | nil => rfl
  | cons b l ih => unfold State.closePages; rw [ih]; split <;> simp
@[simp] theorem State.closePages_est (l : List (Fin 8)) : (s.closePages l).est = s.est := by
  induction l generalizing s with
  | nil => rfl
  | cons b l ih => unfold State.closePages; rw [ih]; split <;> simp
@[simp] theorem State.closePages_evu (l : List (Fin 8)) : (s.closePages l).evu = s.evu := by
  induction l generalizing s with
  | nil => rfl
  | cons b l ih => unfold State.closePages; rw [ih]; split <;> simp
@[simp] theorem State.closePages_mlp (l : List (Fin 8)) : (s.closePages l).mlp = s.mlp := by
  induction l generalizing s with
  | nil => rfl
  | cons b l ih => unfold State.closePages; rw [ih]; split <;> simp
@[simp] theorem State.closePages_pins (l : List (Fin 8)) : (s.closePages l).pins = s.pins := by
  induction l generalizing s with
  | nil => rfl
  | cons b l ih => unfold State.closePages; rw [ih]; split <;> simp
@[simp] theorem State.closePages_resetPhase (l : List (Fin 8)) : (s.closePages l).resetPhase = s.resetPhase := by
  induction l generalizing s with
  | nil => rfl
  | cons b l ih => unfold State.closePages; rw [ih]; split <;> simp
@[simp] theorem State.closePages_dram (l : List (Fin 8)) : (s.closePages l).dram = s.dram := by
  induction l generalizing s with
  | nil => rfl
  | cons b l ih => unfold State.closePages; rw [ih]; split <;> simp
@[simp] theorem State.closePages_dramGeneration (l : List (Fin 8)) : (s.closePages l).dramGeneration = s.dramGeneration := by
  induction l generalizing s with
  | nil => rfl
  | cons b l ih => unfold State.closePages; rw [ih]; split <;> simp
@[simp] theorem State.closePages_now (l : List (Fin 8)) : (s.closePages l).now = s.now := by
  induction l generalizing s with
  | nil => rfl
  | cons b l ih => unfold State.closePages; rw [ih]; split <;> simp
@[simp] theorem State.closePages_choices (l : List (Fin 8)) : (s.closePages l).choices = s.choices := by
  induction l generalizing s with
  | nil => rfl
  | cons b l ih => unfold State.closePages; rw [ih]; split <;> simp
@[simp] theorem State.closePages_pending (l : List (Fin 8)) : (s.closePages l).pending = s.pending := by
  induction l generalizing s with
  | nil => rfl
  | cons b l ih => unfold State.closePages; rw [ih]; split <;> simp

end Sys2Proof.Machine
end

