-- ==== Sys2Proof/Laws/Commands.lean ====
section
/-! SUPPORT. For each management command, the blocks its taking leaves unchanged; what a taking can do
at all. -/
namespace Sys2Proof.Machine

variable (s : State) (args : List Byte)

@[simp] theorem identAct_state : (identAct args s).1 = s := rfl

@[simp] theorem statusAct_state : (statusAct args s).1 = s := rfl

@[simp] theorem unknownAct_state : (unknownAct args s).1 = s := rfl

@[simp] theorem deviceResetAct_state : (deviceResetAct args s).1 = s := rfl

theorem geometryAct_changes : (geometryAct args s).1 =
    { s with dsq := (geometryAct args s).1.dsq } := by
  unfold geometryAct; dsimp only
  repeat (first | rfl | split)

theorem timingAct_changes : (timingAct args s).1 =
    { s with dsq := (timingAct args s).1.dsq } := by
  unfold timingAct; dsimp only
  repeat (first | rfl | split)

theorem dramInitAct_changes : (dramInitAct args s).1 =
    { s with dsq := (dramInitAct args s).1.dsq } := by
  unfold dramInitAct; dsimp only
  repeat (first | rfl | split)

theorem setLogAct_changes : (setLogAct args s).1 =
    { s with ulc := (setLogAct args s).1.ulc } := by
  unfold setLogAct; dsimp only
  repeat (first | rfl | split)

/-- SET_POLICY refuses and changes nothing, or replaces its five fields and closes pages (R160). -/
theorem setPolicyAct_cases :
    (setPolicyAct args s).1 = s ∨
      ∃ dc ac fm pp rp, (setPolicyAct args s).1 =
        (s.setPolicies dc ac fm pp rp).closePages allBanks := by
  unfold setPolicyAct
  split
  · exact .inl rfl
  · split
    · exact .inl rfl
    · rcases defaultClassOf (argByte args 0) with _ | dc
      · exact .inl rfl
      rcases alignCheckOf (argByte args 1) with _ | ac
      · exact .inl rfl
      rcases filterModeOf (argByte args 2) with _ | fm
      · exact .inl rfl
      rcases pagePolicyOf (argByte args 3) with _ | pp
      · exact .inl rfl
      rcases recoveryPolicyOf (argByte args 4) with _ | rp
      · exact .inl rfl
      refine .inr ⟨dc, ac, fm, pp, rp, ?_⟩
      dsimp only

theorem regionWriteAct_changes : (regionWriteAct args s).1 =
    { s with rmap := (regionWriteAct args s).1.rmap } := by
  unfold regionWriteAct; dsimp only
  repeat (first | rfl | split)

@[simp] theorem regionReadAct_state : (regionReadAct args s).1 = s := by
  unfold regionReadAct; dsimp only; split <;> rfl

theorem watchSetAct_changes : (watchSetAct args s).1 =
    { s with rqp := (watchSetAct args s).1.rqp } := by
  unfold watchSetAct; dsimp only
  repeat (first | rfl | split)

theorem openAct_changes : (openAct args s).1 =
    { s with esu := (openAct args s).1.esu, fwf := (openAct args s).1.fwf, est := (openAct args s).1.est } := by
  unfold openAct; dsimp only
  repeat (first | rfl | split)

theorem commitAct_changes : (commitAct args s).1 =
    { s with esu := (commitAct args s).1.esu, ulc := (commitAct args s).1.ulc, fwf := (commitAct args s).1.fwf, est := (commitAct args s).1.est } := by
  unfold commitAct
  repeat (first | rfl | split)

@[simp] theorem rollbackAct_slp : (rollbackAct args s).1.slp = s.slp := by
  unfold rollbackAct; split <;> simp

@[simp] theorem rollbackAct_rmap : (rollbackAct args s).1.rmap = s.rmap := by
  unfold rollbackAct; split <;> simp

@[simp] theorem rollbackAct_rqp : (rollbackAct args s).1.rqp = s.rqp := by
  unfold rollbackAct; split <;> simp

@[simp] theorem rollbackAct_mlp : (rollbackAct args s).1.mlp = s.mlp := by
  unfold rollbackAct; split <;> simp

@[simp] theorem rollbackAct_pins : (rollbackAct args s).1.pins = s.pins := by
  unfold rollbackAct; split <;> simp

@[simp] theorem rollbackAct_resetPhase : (rollbackAct args s).1.resetPhase = s.resetPhase := by
  unfold rollbackAct; split <;> simp

@[simp] theorem rollbackAct_dram : (rollbackAct args s).1.dram = s.dram := by
  unfold rollbackAct; split <;> simp

@[simp] theorem rollbackAct_dramGeneration : (rollbackAct args s).1.dramGeneration = s.dramGeneration := by
  unfold rollbackAct; split <;> simp

@[simp] theorem rollbackAct_now : (rollbackAct args s).1.now = s.now := by
  unfold rollbackAct; split <;> simp

@[simp] theorem rollbackAct_choices : (rollbackAct args s).1.choices = s.choices := by
  unfold rollbackAct; split <;> simp

@[simp] theorem rollbackAct_pending : (rollbackAct args s).1.pending = s.pending := by
  unfold rollbackAct; split <;> simp

@[simp] theorem rollbackAllAct_slp : (rollbackAllAct args s).1.slp = s.slp := by
  unfold rollbackAllAct; split <;> simp

@[simp] theorem rollbackAllAct_rmap : (rollbackAllAct args s).1.rmap = s.rmap := by
  unfold rollbackAllAct; split <;> simp

@[simp] theorem rollbackAllAct_rqp : (rollbackAllAct args s).1.rqp = s.rqp := by
  unfold rollbackAllAct; split <;> simp

@[simp] theorem rollbackAllAct_mlp : (rollbackAllAct args s).1.mlp = s.mlp := by
  unfold rollbackAllAct; split <;> simp

@[simp] theorem rollbackAllAct_pins : (rollbackAllAct args s).1.pins = s.pins := by
  unfold rollbackAllAct; split <;> simp

@[simp] theorem rollbackAllAct_resetPhase : (rollbackAllAct args s).1.resetPhase = s.resetPhase := by
  unfold rollbackAllAct; split <;> simp

@[simp] theorem rollbackAllAct_dram : (rollbackAllAct args s).1.dram = s.dram := by
  unfold rollbackAllAct; split <;> simp

@[simp] theorem rollbackAllAct_dramGeneration : (rollbackAllAct args s).1.dramGeneration = s.dramGeneration := by
  unfold rollbackAllAct; split <;> simp

@[simp] theorem rollbackAllAct_now : (rollbackAllAct args s).1.now = s.now := by
  unfold rollbackAllAct; split <;> simp

@[simp] theorem rollbackAllAct_choices : (rollbackAllAct args s).1.choices = s.choices := by
  unfold rollbackAllAct; split <;> simp

@[simp] theorem rollbackAllAct_pending : (rollbackAllAct args s).1.pending = s.pending := by
  unfold rollbackAllAct; split <;> simp

@[simp] theorem frameReadAct_state : (frameReadAct args s).1 = s := by
  unfold frameReadAct; split <;> rfl

theorem superviseSetAct_changes : (superviseSetAct args s).1 =
    { s with est := (superviseSetAct args s).1.est } := by
  unfold superviseSetAct; dsimp only
  repeat (first | rfl | split)

theorem superviseStartAct_changes : (superviseStartAct args s).1 =
    { s with est := (superviseStartAct args s).1.est } := by
  unfold superviseStartAct
  repeat (first | rfl | split)

theorem superviseStopAct_changes : (superviseStopAct args s).1 =
    { s with est := (superviseStopAct args s).1.est } := by
  unfold superviseStopAct
  repeat (first | rfl | split)

theorem kickAct_changes : (kickAct args s).1 =
    { s with est := (kickAct args s).1.est } := by
  unfold kickAct
  repeat (first | rfl | split)

theorem faultPopAct_changes : (faultPopAct args s).1 =
    { s with evu := (faultPopAct args s).1.evu } := by
  unfold faultPopAct
  repeat (first | rfl | split)

@[simp] theorem eventsReadAct_state : (eventsReadAct args s).1 = s := rfl

theorem eventsClearAct_changes : (eventsClearAct args s).1 =
    { s with evu := (eventsClearAct args s).1.evu } := by
  unfold eventsClearAct
  repeat (first | rfl | split)

theorem maskWriteAct_changes : (maskWriteAct args s).1 =
    { s with evu := (maskWriteAct args s).1.evu } := by
  unfold maskWriteAct
  repeat (first | rfl | split)

/-- A property that the frame in progress does not bear on survives a taking whose act keeps it. -/
theorem take_keeps {P : State → Prop} {code : Byte} {act : Act}
    (hm : ∀ x m, P x → P (x.setMlp m)) (h : P (act args s).1) : P (take code args act s) :=
  hm _ _ h

theorem takeAtCode_keeps {P : State → Prop} {code : Byte} {act : Act}
    (hm : ∀ x m, P x → P (x.setMlp m)) (h : P s) (ha : P (act [] s).1) : P (takeAtCode code act s) := by
  unfold takeAtCode
  split
  · exact hm _ _ ha
  · exact h

theorem takeAtLast_keeps {P : State → Prop} {code last : Byte} {n : Nat} {act : Act}
    (hm : ∀ x m, P x → P (x.setMlp m)) (h : P s) (ha : ∀ l, P (act l s).1) :
    P (takeAtLast code n last act s) := by
  unfold takeAtLast
  split
  · split
    · exact hm _ _ (ha _)
    · exact h
  · exact h

/-- Every act of the command table keeps a property that each of them keeps. -/
theorem actOf_cases {P : Act → Prop} (code : Byte)
    (h : ∀ a ∈ [identAct, statusAct, geometryAct, timingAct, dramInitAct, setLogAct, setPolicyAct,
      regionWriteAct, regionReadAct, watchSetAct, openAct, commitAct, rollbackAct, rollbackAllAct,
      frameReadAct, superviseSetAct, superviseStartAct, superviseStopAct, kickAct, faultPopAct,
      eventsReadAct, eventsClearAct, maskWriteAct, deviceResetAct, unknownAct], P a) :
    P (actOf code) := by
  unfold actOf
  split <;> exact h _ (by simp)

end Sys2Proof.Machine
end

