-- ==== Sys2Proof/Laws/Exec.lean ====
section
/-! SUPPORT. What a step can do at all: every command answers a next state, and a property is kept by
every command once the acts of the management link and the other events keep it. -/
namespace Sys2Proof.Machine

/-- The state that a command answers. -/
def after (i : Instr) (s : State) : State :=
  match exec i s with
  | .next t => t
  | .fault _ => s
  | .refused _ => s

theorem exec_next (i : Instr) (s : State) : exec i s = .next (after i s) := by
  cases i <;> rfl

/-- The acts of the command table (Table 11.1), the one of an unknown code last. -/
def allActs : List Act :=
  [identAct, statusAct, geometryAct, timingAct, dramInitAct, setLogAct, setPolicyAct,
    regionWriteAct, regionReadAct, watchSetAct, openAct, commitAct, rollbackAct, rollbackAllAct,
    frameReadAct, superviseSetAct, superviseStartAct, superviseStopAct, kickAct, faultPopAct,
    eventsReadAct, eventsClearAct, maskWriteAct, deviceResetAct, unknownAct]

theorem actOf_mem (code : Byte) : actOf code ∈ allActs :=
  actOf_cases (P := (· ∈ allActs)) code fun _ h => h

/-- The commands that are events of the part or of its pins, and no command of the management link. -/
def isEvent : Instr → Bool
  | .requestAccept _ | .requestTake | .operationStart | .transferStart | .operationComplete
  | .rollbackFirstStep | .hostResetAssert | .hostResetRelease | .powerOn | .powerOnResetEnd
  | .drstNAssert | .drstNRelease | .frameBegin | .frameEnd | .supervisionExpiry | .initWaitExpiry
  | .closeAllWaitExpiry | .initRefreshExpiry | .bankActivation | .openWaitExpiry _ | .bankClose _
  | .closeWaitExpiry _ | .writeGuardExpiry _ | .refreshTickExpiry | .bankRefreshStart
  | .bankRefreshWaitExpiry | .actWindowAgeOut => true
  | _ => false

/-- A property that the frame in progress does not bear on is kept by every command of the management
link and every byte on it, if every act of the command table keeps it. -/
theorem command_keeps {P : State → Prop} (hm : ∀ x m, P x → P (x.setMlp m))
    (hacts : ∀ a ∈ allActs, ∀ l x, P x → P (a l x).1) (i : Instr) (he : isEvent i = false)
    (s : State) (h : P s) : P (after i s) := by
  have c0 (code : Byte) (a : Act) (ha : a ∈ allActs) : P (takeAtCode code a s) :=
    takeAtCode_keeps s hm h (hacts a ha _ _ h)
  have cn (code last : Byte) (n : Nat) (a : Act) (ha : a ∈ allActs) : P (takeAtLast code n last a s) :=
    takeAtLast_keeps s hm h fun l => hacts a ha l _ h
  have tk (code : Byte) (l : List Byte) (a : Act) (ha : a ∈ allActs) : P (take code l a s) :=
    hm _ _ (hacts a ha l _ h)
  cases i
  case unknown code =>
    show P (if (argBytes code).isNone then takeAtCode code unknownAct s else s)
    split
    · exact c0 _ _ (by simp [allActs])
    · exact h
  case byteShiftedIn b =>
    show P (if s.pins.mcsLow then _ else s)
    split
    · split
      · split
        · exact hm _ _ h
        · unfold State.byteIn
          split
          · split
            · exact hm _ _ h
            · exact tk _ _ _ (actOf_mem _)
            · exact tk _ _ _ (by simp [allActs])
          · split
            · exact tk _ _ _ (actOf_mem _)
            · exact hm _ _ h
      · exact hm _ _ h
    · exact h
  all_goals first
    | (exact Bool.noConfusion he)
    | (exact c0 _ _ (by simp [allActs]))
    | (exact cn _ _ _ _ (by simp [allActs]))

/-- A property that the frame in progress does not bear on is kept by every command, if every act of
the command table keeps it and every other event does. -/
theorem after_keeps {P : State → Prop} (hm : ∀ x m, P x → P (x.setMlp m))
    (hacts : ∀ a ∈ allActs, ∀ l x, P x → P (a l x).1)
    (hev : ∀ i, isEvent i = true → ∀ x, P x → P (after i x)) (i : Instr) (s : State) (h : P s) :
    P (after i s) := by
  by_cases he : isEvent i = true
  · exact hev i he s h
  · exact command_keeps hm hacts i (by simpa using he) s h

/-- A property kept by every command, and blind to the queue and to the choice counter, is kept by every
step. -/
theorem step_keeps {P : State → Prop} (hq : ∀ x l, P x → P (x.setPending l))
    (hc : ∀ x n, P x → P (x.setChoices n)) (h : ∀ i x, P x → P (after i x)) {s t : State}
    (hs : P s) (ht : step s = .next t) : P t := by
  unfold step at ht
  split at ht
  · rw [exec_next] at ht
    cases ht
    exact h _ _ (hq _ _ hs)
  · split at ht
    · rw [exec_next] at ht
      cases ht
      exact h _ _ (hc _ _ hs)
    · cases ht
      exact hs

end Sys2Proof.Machine
end

