-- ==== Sys2Proof/Laws/Memory.lean ====
section
/-! SUPPORT. Reading after writing DRAM bytes, and the canonical form of the byte list. -/
namespace Sys2Proof.Machine

theorem Memory.find_write_same (m : Memory) (a : Nat) (b : Byte) :
    (m.write a b).find a = some b := by
  induction m with
  | nil => simp [Memory.write, Memory.find]
  | cons c rest ih =>
    obtain ⟨x, v⟩ := c
    unfold Memory.write
    split
    · simp [Memory.find]
    · split
      · simp [Memory.find]
      · have h : x ≠ a := fun h => by omega
        simp [Memory.find, h, ih]

theorem Memory.find_write_other (m : Memory) {a k : Nat} (b : Byte) (h : k ≠ a) :
    (m.write a b).find k = m.find k := by
  induction m with
  | nil => simp [Memory.write, Memory.find, Ne.symm h]
  | cons c rest ih =>
    obtain ⟨x, v⟩ := c
    unfold Memory.write
    split
    · simp [Memory.find, Ne.symm h]
    · split
      · subst_vars; simp [Memory.find, Ne.symm h]
      · simp [Memory.find, ih]

theorem Memory.mem_write {m : Memory} {a : Nat} {b : Byte} {c : Host.Cell} (h : c ∈ m.write a b) :
    c.1 = a ∨ c ∈ m := by
  induction m with
  | nil => simp [Memory.write] at h; exact .inl (by rw [h])
  | cons d rest ih =>
    obtain ⟨x, v⟩ := d
    unfold Memory.write at h
    split at h
    · rcases List.mem_cons.mp h with h | h
      · exact .inl (by rw [h])
      · exact .inr h
    · split at h
      · rcases List.mem_cons.mp h with h | h
        · exact .inl (by rw [h])
        · exact .inr (List.mem_cons_of_mem _ h)
      · rcases List.mem_cons.mp h with h | h
        · exact .inr (by rw [h]; exact List.mem_cons_self)
        · rcases ih h with h | h
          · exact .inl h
          · exact .inr (List.mem_cons_of_mem _ h)

theorem Memory.write_wf {m : Memory} (h : m.wf) (a : Nat) (b : Byte) : (m.write a b).wf := by
  induction m with
  | nil => simp [Memory.write, Memory.wf]
  | cons d rest ih =>
    obtain ⟨x, v⟩ := d
    obtain ⟨hx, hrest⟩ := List.pairwise_cons.mp h
    unfold Memory.write
    split
    · rename_i hlt
      refine List.pairwise_cons.mpr ⟨fun c hc => ?_, h⟩
      rcases List.mem_cons.mp hc with hc | hc
      · rw [hc]; exact hlt
      · exact Nat.lt_trans hlt (hx c hc)
    · split
      · rename_i heq
        subst heq
        exact List.pairwise_cons.mpr ⟨hx, hrest⟩
      · rename_i hlt hne
        refine List.pairwise_cons.mpr ⟨fun c hc => ?_, ih hrest⟩
        rcases Memory.mem_write hc with hc | hc
        · show x < c.1
          omega
        · exact hx c hc

theorem Memory.writeMasked_wf {m : Memory} (h : m.wf) (a : Nat) (es : List Bool) (bs : List Byte) :
    (m.writeMasked a es bs).wf := by
  induction es generalizing m a bs with
  | nil => exact h
  | cons e es ih =>
    cases bs with
    | nil => exact h
    | cons b bs =>
      refine ih ?_ (a + 1) bs
      split
      · exact Memory.write_wf h a b
      · exact h

/-- What an address holds after a masked write: the byte of an enabled place within the data, else
what it held before (R134). -/
theorem Memory.find_writeMasked (m : Memory) (a k : Nat) (es : List Bool) (bs : List Byte) :
    (m.writeMasked a es bs).find k =
      if a ≤ k ∧ k - a < bs.length ∧ es.getD (k - a) false = true then bs[k - a]? else m.find k := by
  induction es generalizing m a bs with
  | nil => simp [Memory.writeMasked]
  | cons e es ih =>
    cases bs with
    | nil => simp [Memory.writeMasked]
    | cons b bs =>
      rw [Memory.writeMasked, ih]
      rcases Nat.lt_trichotomy k a with h | h | h
      · have h1 : ¬ a + 1 ≤ k := by omega
        have h2 : ¬ a ≤ k := by omega
        simp only [h1, h2, false_and, if_false]
        split
        · exact Memory.find_write_other m b (by omega)
        · rfl
      · subst h
        have h1 : ¬ k + 1 ≤ k := by omega
        cases e <;> simp [h1, Memory.find_write_same]
      · obtain ⟨d, rfl⟩ : ∃ d, k = a + 1 + d := ⟨k - (a + 1), by omega⟩
        have h1 : a + 1 + d - a = d + 1 := by omega
        have h2 : a + 1 + d - (a + 1) = d := by omega
        have h3 : a ≤ a + 1 + d := by omega
        have h4 : a + 1 ≤ a + 1 + d := by omega
        have h5 : (if e = true then m.write a b else m).find (a + 1 + d) = m.find (a + 1 + d) := by
          split
          · exact Memory.find_write_other m b (by omega)
          · rfl
        simp [h1, h2, h3, h4, h5]

end Sys2Proof.Machine
end

