-- ==== Sys2Proof/Laws/Effects.lean ====
section
/-! SUPPORT. For each shared operation, the block it changes; flags raised; frames popped; serials
given. -/
namespace Sys2Proof.Machine

variable (s : State)

/-! ### Flags and events -/

@[simp] theorem State.raise_faults (f : Flag) : (s.raise f).evu.faults = s.evu.faults := rfl
@[simp] theorem State.raise_masks (f : Flag) : (s.raise f).evu.masks = s.evu.masks := rfl
@[simp] theorem State.raise_capture (f : Flag) : (s.raise f).evu.capture = s.evu.capture := rfl

theorem State.isPending_raise (f g : Flag) :
    (s.raise f).isPending g = (s.isPending g || f == g) := by
  unfold State.isPending State.raise
  simp only [State.setEvu_evu, BitVec.getLsbD_or]
  congr 1
  cases f <;> cases g <;> decide

/-! ### Log head and engine -/

@[simp] theorem State.headRise_ulc :
    s.headRise.ulc = { s.ulc with head := s.ulc.head + 1 } := by
  unfold State.headRise; dsimp only; split <;> rfl

@[simp] theorem State.headFall_ulc :
    s.headFall.ulc = { s.ulc with head := s.ulc.head - 1 } := rfl

section
variable (e : Esu) (l : List Frame)
@[simp] theorem Esu.withStack_stack : (e.withStack l).stack = l := rfl
@[simp] theorem Esu.withStack_nextSerial : (e.withStack l).nextSerial = e.nextSerial := rfl
@[simp] theorem Esu.withStack_carried :
    (e.withStack l).carried = if l.isEmpty then [] else e.carried := rfl
@[simp] theorem Esu.withStack_engine : (e.withStack l).engine = e.engine := rfl
@[simp] theorem Esu.withStack_lastOutcome : (e.withStack l).lastOutcome = e.lastOutcome := rfl
end

@[simp] theorem State.setEngine_esu (e : Engine) :
    (s.setEngine e).esu = { s.esu with engine := e } := rfl

@[simp] theorem State.beginRecord_esu : s.beginRecord.esu =
    { s.esu with engine :=
      { s.esu.engine with
        state := .rbHeader, record := some (s.ulc.recordRef (s.ulc.head - 1))
        line := none, image := none } } := rfl

@[simp] theorem State.endRollback_esu (k : RollbackKind) (o : RollbackOutcome) :
    (s.endRollback k o).esu = { s.esu with engine := Engine.idle, lastOutcome := o } := by
  cases k <;> rfl

@[simp] theorem State.imageRead_esu (line : Nat) (data : List Byte) :
    (s.imageRead line data).esu =
      { s.esu with engine := { s.esu.engine with state := .rbRestore, image := some data } } := rfl

@[simp] theorem State.emptyFilter_fwf : s.emptyFilter.fwf = s.fwf.emptied := rfl

@[simp] theorem State.breakFrames_esu : s.breakFrames.esu =
    { s.esu with stack := s.esu.stack.map (fun f => { f with broken := true }) } := rfl

/-! ### Requests -/

@[simp] theorem State.endRequest_rqp :
    s.endRequest.rqp = { s.rqp with stage := .waiting, current := none } := rfl
@[simp] theorem State.endRequest_esu :
    s.endRequest.esu = { s.esu with engine := { s.esu.engine with awaits := false } } := rfl
@[simp] theorem State.dropRequest_rqp :
    s.dropRequest.rqp = { s.rqp with stage := .waiting, current := none } := rfl
@[simp] theorem State.dropRequest_esu :
    s.dropRequest.esu = { s.esu with engine := { s.esu.engine with awaits := false } } := rfl
@[simp] theorem State.respond_rqp (r : Response) :
    (s.respond r).rqp = { s.rqp with stage := .waiting, current := none } := rfl
@[simp] theorem State.respond_esu (r : Response) :
    (s.respond r).esu = { s.esu with engine := { s.esu.engine with awaits := false } } := rfl

/-! ### What the request path leaves of the epoch stack unit: all but the engine's wait -/

@[simp] theorem State.goData_stack (c : Current) : (s.goData c).esu.stack = s.esu.stack := by
  unfold State.goData; split <;> simp
@[simp] theorem State.nextMissed_stack (c : Current) :
    (s.nextMissed c).esu.stack = s.esu.stack := by
  unfold State.nextMissed; split <;> (try split) <;> simp
@[simp] theorem State.logReadDone_stack (c : Current) (l : List Byte) :
    (s.logReadDone c l).esu.stack = s.esu.stack := by
  unfold State.logReadDone; split <;> simp
@[simp] theorem State.lineDone_stack (c : Current) (l : List Byte) :
    (s.lineDone c l).esu.stack = s.esu.stack := by
  unfold State.lineDone; dsimp only; split <;> simp
@[simp] theorem State.rqpComplete_stack (l : List Byte) :
    (s.rqpComplete l).esu.stack = s.esu.stack := by
  unfold State.rqpComplete; split <;> (try split) <;> (try split) <;> simp
@[simp] theorem State.serve_stack (c : Current) : (s.serve c).esu.stack = s.esu.stack := by
  unfold State.serve; simp
@[simp] theorem State.faultRequest_stack (r : Request) (k : FaultKind) (i : RegionIndex) :
    (s.faultRequest r k i).esu.stack = s.esu.stack := by
  unfold State.faultRequest; simp

@[simp] theorem State.goData_nextSerial (c : Current) : (s.goData c).esu.nextSerial = s.esu.nextSerial := by
  unfold State.goData; split <;> simp
@[simp] theorem State.nextMissed_nextSerial (c : Current) :
    (s.nextMissed c).esu.nextSerial = s.esu.nextSerial := by
  unfold State.nextMissed; split <;> (try split) <;> simp
@[simp] theorem State.logReadDone_nextSerial (c : Current) (l : List Byte) :
    (s.logReadDone c l).esu.nextSerial = s.esu.nextSerial := by
  unfold State.logReadDone; split <;> simp
@[simp] theorem State.lineDone_nextSerial (c : Current) (l : List Byte) :
    (s.lineDone c l).esu.nextSerial = s.esu.nextSerial := by
  unfold State.lineDone; dsimp only; split <;> simp
@[simp] theorem State.rqpComplete_nextSerial (l : List Byte) :
    (s.rqpComplete l).esu.nextSerial = s.esu.nextSerial := by
  unfold State.rqpComplete; split <;> (try split) <;> (try split) <;> simp
@[simp] theorem State.serve_nextSerial (c : Current) : (s.serve c).esu.nextSerial = s.esu.nextSerial := by
  unfold State.serve; simp
@[simp] theorem State.faultRequest_nextSerial (r : Request) (k : FaultKind) (i : RegionIndex) :
    (s.faultRequest r k i).esu.nextSerial = s.esu.nextSerial := by
  unfold State.faultRequest; simp

@[simp] theorem State.goData_carried (c : Current) : (s.goData c).esu.carried = s.esu.carried := by
  unfold State.goData; split <;> simp
@[simp] theorem State.nextMissed_carried (c : Current) :
    (s.nextMissed c).esu.carried = s.esu.carried := by
  unfold State.nextMissed; split <;> (try split) <;> simp
@[simp] theorem State.logReadDone_carried (c : Current) (l : List Byte) :
    (s.logReadDone c l).esu.carried = s.esu.carried := by
  unfold State.logReadDone; split <;> simp
@[simp] theorem State.lineDone_carried (c : Current) (l : List Byte) :
    (s.lineDone c l).esu.carried = s.esu.carried := by
  unfold State.lineDone; dsimp only; split <;> simp
@[simp] theorem State.rqpComplete_carried (l : List Byte) :
    (s.rqpComplete l).esu.carried = s.esu.carried := by
  unfold State.rqpComplete; split <;> (try split) <;> (try split) <;> simp
@[simp] theorem State.serve_carried (c : Current) : (s.serve c).esu.carried = s.esu.carried := by
  unfold State.serve; simp
@[simp] theorem State.faultRequest_carried (r : Request) (k : FaultKind) (i : RegionIndex) :
    (s.faultRequest r k i).esu.carried = s.esu.carried := by
  unfold State.faultRequest; simp

@[simp] theorem State.goData_kind (c : Current) : (s.goData c).esu.engine.kind = s.esu.engine.kind := by
  unfold State.goData; split <;> simp
@[simp] theorem State.nextMissed_kind (c : Current) :
    (s.nextMissed c).esu.engine.kind = s.esu.engine.kind := by
  unfold State.nextMissed; split <;> (try split) <;> simp
@[simp] theorem State.logReadDone_kind (c : Current) (l : List Byte) :
    (s.logReadDone c l).esu.engine.kind = s.esu.engine.kind := by
  unfold State.logReadDone; split <;> simp
@[simp] theorem State.lineDone_kind (c : Current) (l : List Byte) :
    (s.lineDone c l).esu.engine.kind = s.esu.engine.kind := by
  unfold State.lineDone; dsimp only; split <;> simp
@[simp] theorem State.rqpComplete_kind (l : List Byte) :
    (s.rqpComplete l).esu.engine.kind = s.esu.engine.kind := by
  unfold State.rqpComplete; split <;> (try split) <;> (try split) <;> simp
@[simp] theorem State.serve_kind (c : Current) : (s.serve c).esu.engine.kind = s.esu.engine.kind := by
  unfold State.serve; simp
@[simp] theorem State.faultRequest_kind (r : Request) (k : FaultKind) (i : RegionIndex) :
    (s.faultRequest r k i).esu.engine.kind = s.esu.engine.kind := by
  unfold State.faultRequest; simp

@[simp] theorem State.goData_engineState (c : Current) : (s.goData c).esu.engine.state = s.esu.engine.state := by
  unfold State.goData; split <;> simp
@[simp] theorem State.nextMissed_engineState (c : Current) :
    (s.nextMissed c).esu.engine.state = s.esu.engine.state := by
  unfold State.nextMissed; split <;> (try split) <;> simp
@[simp] theorem State.logReadDone_engineState (c : Current) (l : List Byte) :
    (s.logReadDone c l).esu.engine.state = s.esu.engine.state := by
  unfold State.logReadDone; split <;> simp
@[simp] theorem State.lineDone_engineState (c : Current) (l : List Byte) :
    (s.lineDone c l).esu.engine.state = s.esu.engine.state := by
  unfold State.lineDone; dsimp only; split <;> simp
@[simp] theorem State.rqpComplete_engineState (l : List Byte) :
    (s.rqpComplete l).esu.engine.state = s.esu.engine.state := by
  unfold State.rqpComplete; split <;> (try split) <;> (try split) <;> simp
@[simp] theorem State.serve_engineState (c : Current) : (s.serve c).esu.engine.state = s.esu.engine.state := by
  unfold State.serve; simp
@[simp] theorem State.faultRequest_engineState (r : Request) (k : FaultKind) (i : RegionIndex) :
    (s.faultRequest r k i).esu.engine.state = s.esu.engine.state := by
  unfold State.faultRequest; simp

/-! ### The log area stays where it is -/

@[simp] theorem State.popTop_basePage : s.popTop.ulc.basePage = s.ulc.basePage := by
  unfold State.popTop; dsimp only; split <;> split <;> simp
@[simp] theorem State.engineStep_basePage : s.engineStep.ulc.basePage = s.ulc.basePage := by
  unfold State.engineStep; split <;> (try split) <;> simp
@[simp] theorem State.startRollback_basePage (k : RollbackKind) :
    (s.startRollback k).ulc.basePage = s.ulc.basePage := by
  unfold State.startRollback; dsimp only; split <;> (try split) <;> simp
@[simp] theorem State.engineComplete_basePage (l : List Byte) :
    (s.engineComplete l).ulc.basePage = s.ulc.basePage := by
  unfold State.engineComplete State.headerRead State.restoreDone
  split <;> (try dsimp only) <;> (try split) <;> simp
@[simp] theorem State.countRecord_basePage (c : Current) : (s.countRecord c).ulc.basePage = s.ulc.basePage := by
  unfold State.countRecord; split <;> (try split) <;> simp
@[simp] theorem State.rqpComplete_basePage (l : List Byte) : (s.rqpComplete l).ulc.basePage = s.ulc.basePage := by
  unfold State.rqpComplete; split <;> (try split) <;> (try split) <;> simp
@[simp] theorem State.recover_basePage : s.recover.ulc.basePage = s.ulc.basePage := by
  unfold State.recover; split <;> (try split) <;> (try split) <;> simp
@[simp] theorem State.hostResetLink_basePage : s.hostResetLink.ulc.basePage = s.ulc.basePage := by
  unfold State.hostResetLink; dsimp only; split <;> rfl

@[simp] theorem State.popTop_pages : s.popTop.ulc.pages = s.ulc.pages := by
  unfold State.popTop; dsimp only; split <;> split <;> simp
@[simp] theorem State.engineStep_pages : s.engineStep.ulc.pages = s.ulc.pages := by
  unfold State.engineStep; split <;> (try split) <;> simp
@[simp] theorem State.startRollback_pages (k : RollbackKind) :
    (s.startRollback k).ulc.pages = s.ulc.pages := by
  unfold State.startRollback; dsimp only; split <;> (try split) <;> simp
@[simp] theorem State.engineComplete_pages (l : List Byte) :
    (s.engineComplete l).ulc.pages = s.ulc.pages := by
  unfold State.engineComplete State.headerRead State.restoreDone
  split <;> (try dsimp only) <;> (try split) <;> simp
@[simp] theorem State.countRecord_pages (c : Current) : (s.countRecord c).ulc.pages = s.ulc.pages := by
  unfold State.countRecord; split <;> (try split) <;> simp
@[simp] theorem State.rqpComplete_pages (l : List Byte) : (s.rqpComplete l).ulc.pages = s.ulc.pages := by
  unfold State.rqpComplete; split <;> (try split) <;> (try split) <;> simp
@[simp] theorem State.recover_pages : s.recover.ulc.pages = s.ulc.pages := by
  unfold State.recover; split <;> (try split) <;> (try split) <;> simp
@[simp] theorem State.hostResetLink_pages : s.hostResetLink.ulc.pages = s.ulc.pages := by
  unfold State.hostResetLink; dsimp only; split <;> rfl

@[simp] theorem State.popTop_threshold : s.popTop.ulc.threshold = s.ulc.threshold := by
  unfold State.popTop; dsimp only; split <;> split <;> simp
@[simp] theorem State.engineStep_threshold : s.engineStep.ulc.threshold = s.ulc.threshold := by
  unfold State.engineStep; split <;> (try split) <;> simp
@[simp] theorem State.startRollback_threshold (k : RollbackKind) :
    (s.startRollback k).ulc.threshold = s.ulc.threshold := by
  unfold State.startRollback; dsimp only; split <;> (try split) <;> simp
@[simp] theorem State.engineComplete_threshold (l : List Byte) :
    (s.engineComplete l).ulc.threshold = s.ulc.threshold := by
  unfold State.engineComplete State.headerRead State.restoreDone
  split <;> (try dsimp only) <;> (try split) <;> simp
@[simp] theorem State.countRecord_threshold (c : Current) : (s.countRecord c).ulc.threshold = s.ulc.threshold := by
  unfold State.countRecord; split <;> (try split) <;> simp
@[simp] theorem State.rqpComplete_threshold (l : List Byte) : (s.rqpComplete l).ulc.threshold = s.ulc.threshold := by
  unfold State.rqpComplete; split <;> (try split) <;> (try split) <;> simp
@[simp] theorem State.recover_threshold : s.recover.ulc.threshold = s.ulc.threshold := by
  unfold State.recover; split <;> (try split) <;> (try split) <;> simp
@[simp] theorem State.hostResetLink_threshold : s.hostResetLink.ulc.threshold = s.ulc.threshold := by
  unfold State.hostResetLink; dsimp only; split <;> rfl

/-! ### Serials (R82) -/

/-- The value the allocator examines after `i` advances from `n`. -/
def serialOrbit (n i : Nat) : Nat := if n + i ≤ 65535 then n + i else n + i - 65535

theorem serialAfter_range {n : Nat} (h : 1 ≤ n) (h' : n ≤ 65535) :
    1 ≤ serialAfter n ∧ serialAfter n ≤ 65535 := by
  unfold serialAfter; split <;> omega

theorem serialOrbit_succ {n i : Nat} (hi : i < 65535) :
    serialOrbit (serialAfter n) i = serialOrbit n (i + 1) := by
  unfold serialOrbit serialAfter
  split_ifs <;> omega

theorem serialOrbit_injective {n i j : Nat} (hi : i < 65535) (hj : j < 65535)
    (e : serialOrbit n i = serialOrbit n j) : i = j := by
  unfold serialOrbit at e
  split_ifs at e <;> omega

/-- The allocator may give this value: no frame holds it, and it is not carried unless a wrap has been
made (R82, log 27). -/
def givable (held carried : List Nat) (w : Bool) (n : Nat) : Prop :=
  n ∉ held ∧ (w = false → n ∉ carried)

/-- Either the value given is free, or every value examined before it was held or carried. -/
theorem allocate_free_or (held carried : List Nat) : ∀ (fuel n : Nat) (w : Bool), 1 ≤ n → n ≤ 65535 →
    fuel < 65535 →
    givable held carried (allocate held carried fuel n w).wrapped
        (allocate held carried fuel n w).serial ∨
      ∀ i < fuel + 1, serialOrbit n i ∈ held ++ carried
  | 0, n, w, h, h', _ => by
    by_cases hm : n ∈ held ++ carried
    · right
      intro i hi
      have : i = 0 := by omega
      subst this
      simpa [serialOrbit, h'] using hm
    · left
      simp only [List.mem_append, not_or] at hm
      exact ⟨hm.1, fun _ => hm.2⟩
  | fuel + 1, n, w, h, h', hf => by
    unfold allocate
    dsimp only
    by_cases hm : (held.contains n || (!(w || n == 65535) && carried.contains n)) = true
    · rw [if_pos hm]
      have hm' : n ∈ held ++ carried := by
        simp at hm
        rcases hm with hm | hm <;> simp [hm]
      obtain ⟨l, u⟩ := serialAfter_range h h'
      rcases allocate_free_or held carried fuel (serialAfter n) (w || n == 65535) l u (by omega) with
        hr | hr
      · exact .inl hr
      · right
        intro i hi
        rcases i with _ | i
        · simpa [serialOrbit, h'] using hm'
        · rw [← serialOrbit_succ (by omega)]
          exact hr i (by omega)
    · rw [if_neg hm]
      left
      simp at hm
      exact ⟨hm.1, fun hw => by simp at hw; exact hm.2 hw.1 hw.2⟩

theorem allocate_range (held carried : List Nat) : ∀ (fuel n : Nat) (w : Bool), 1 ≤ n → n ≤ 65535 →
    let a := allocate held carried fuel n w
    (1 ≤ a.serial ∧ a.serial ≤ 65535) ∧ 1 ≤ a.next ∧ a.next ≤ 65535
  | 0, n, w, h, h' => ⟨⟨h, h'⟩, serialAfter_range h h'⟩
  | fuel + 1, n, w, h, h' => by
    unfold allocate
    dsimp only
    split
    · exact allocate_range held carried fuel _ _ (serialAfter_range h h').1 (serialAfter_range h h').2
    · exact ⟨⟨h, h'⟩, serialAfter_range h h'⟩

/-- A wrap that has been made is kept. -/
theorem allocate_wrapped (held carried : List Nat) : ∀ (fuel n : Nat),
    (allocate held carried fuel n true).wrapped = true
  | 0, n => by simp [allocate]
  | fuel + 1, n => by
    unfold allocate
    dsimp only
    split
    · simpa using allocate_wrapped held carried fuel (serialAfter n)
    · simp

/-- The serial given is held by no frame, and is not carried where the allocation does not wrap
(R82, log 27). -/
theorem allocate_fresh {held carried : List Nat} {n : Nat} (w : Bool) (h : 1 ≤ n) (h' : n ≤ 65535)
    (hl : held.length + carried.length < 65534) :
    let a := allocate held carried (held.length + carried.length) n w
    givable held carried a.wrapped a.serial := by
  rcases allocate_free_or held carried (held.length + carried.length) n w h h' (by omega) with hr | hr
  · exact hr
  · exfalso
    have hn : ((List.range (held.length + carried.length + 1)).map (serialOrbit n)).Nodup := by
      refine (List.nodup_map_iff_inj_on List.nodup_range).mpr fun i hi j hj e => ?_
      have hi := List.mem_range.mp hi
      have hj := List.mem_range.mp hj
      exact serialOrbit_injective (by omega) (by omega) e
    have hs : (List.range (held.length + carried.length + 1)).map (serialOrbit n) ⊆ held ++ carried := by
      intro x hx
      obtain ⟨i, hi, rfl⟩ := List.mem_map.mp hx
      exact hr i (List.mem_range.mp hi)
    have := (hn.subperm hs).length_le
    simp at this

/-- Every value examined lies in the range of the serials (R82). -/
theorem allocation_range {s : State} (h : 1 ≤ s.esu.nextSerial) (h' : s.esu.nextSerial ≤ 65535) :
    (1 ≤ s.allocation.serial ∧ s.allocation.serial ≤ 65535) ∧
      1 ≤ s.allocation.next ∧ s.allocation.next ≤ 65535 :=
  allocate_range _ _ _ _ _ h h'

/-- The serial that an OPEN gives is held by no frame, and is not carried unless the OPEN empties the
filter (R82, log 27). -/
theorem allocation_fresh {s : State} (h : 1 ≤ s.esu.nextSerial) (h' : s.esu.nextSerial ≤ 65535)
    (hd : s.esu.stack.length ≤ 8) (hc : s.esu.carried.length ≤ 7) :
    s.allocation.serial ∉ s.serials ∧
      (s.allocation.wrapped = false → s.allocation.serial ∉ s.esu.carried) :=
  allocate_fresh (held := s.serials) false h h' (by simp [State.serials]; omega)

/-- At most 7 serials are carried: an OPEN finds at most 7 frames. -/
theorem carriedAfter_short {s : State} (hd : s.esu.stack.length ≤ 7) (hc : s.esu.carried.length ≤ 7)
    (a : Allocation) : (s.carriedAfter a).length ≤ 7 := by
  unfold State.carriedAfter
  split
  · simpa [State.serials] using hd
  · exact hc

/-- An allocation that does not wrap moves next serial up, past the serial it gives; one that wraps has
given 65535 or moves next serial past the serial it gives (R82). -/
theorem allocate_next (held carried : List Nat) : ∀ (fuel n : Nat) (w : Bool),
    let a := allocate held carried fuel n w
    (a.wrapped = false → n ≤ a.serial ∧ a.serial < a.next ∧ a.serial ≠ 65535) ∧
      (a.serial = 65535 ∨ a.serial < a.next)
  | 0, n, w => by
    simp only [allocate, serialAfter]
    split_ifs <;> simp_all
  | fuel + 1, n, w => by
    unfold allocate
    dsimp only
    split
    · obtain ⟨h1, h2⟩ := allocate_next held carried fuel (serialAfter n) (w || n == 65535)
      refine ⟨fun h => ?_, h2⟩
      have hn : n ≠ 65535 := by
        rintro rfl
        exact absurd h (by simp [allocate_wrapped])
      have := h1 h
      simp only [serialAfter, hn, if_false] at this ⊢
      exact ⟨by omega, this.2⟩
    · simp only [serialAfter]
      split_ifs <;> simp_all

end Sys2Proof.Machine
end

