-- ==== Sys2Proof/Laws/Dsq.lean ====
section
/-! SUPPORT. The sequencer seen from its clients: the shared operations of the request path, the engine
and the timer change nothing of it but the waiting operations. -/
namespace Sys2Proof.Machine

/-- The sequencers agree but for the waiting operations. -/
def SameSequencer (s t : State) : Prop :=
  t.dsq = { s.dsq with waitRqp := t.dsq.waitRqp, waitRollback := t.dsq.waitRollback }

theorem SameSequencer.of_eq {s t : State} (h : t.dsq = s.dsq) : SameSequencer s t := by
  unfold SameSequencer; rw [h]

theorem SameSequencer.refl (s : State) : SameSequencer s s := .of_eq rfl

theorem SameSequencer.trans {s t u : State} (h : SameSequencer s t) (h' : SameSequencer t u) :
    SameSequencer s u := by
  unfold SameSequencer at *
  rw [h', h]

theorem SameSequencer.owed {s t : State} (h : SameSequencer s t) : t.dsq.owed = s.dsq.owed := by
  rw [h]

theorem SameSequencer.history {s t : State} (h : SameSequencer s t) :
    t.dsq.history = s.dsq.history := by
  rw [h]

theorem SameSequencer.banks {s t : State} (h : SameSequencer s t) : t.dsq.banks = s.dsq.banks := by
  rw [h]

theorem SameSequencer.current {s t : State} (h : SameSequencer s t) :
    t.dsq.current = s.dsq.current := by
  rw [h]

theorem SameSequencer.state {s t : State} (h : SameSequencer s t) : t.dsq.state = s.dsq.state := by
  rw [h]

theorem SameSequencer.geometry {s t : State} (h : SameSequencer s t) :
    t.dsq.geometry = s.dsq.geometry := by
  rw [h]

variable (s : State)

theorem issue_sequencer (op : MemOp) : SameSequencer s (s.issue op) := by
  unfold State.issue
  split <;> rfl

theorem beginRecord_sequencer : SameSequencer s s.beginRecord := issue_sequencer _ _

theorem popTop_sequencer : SameSequencer s s.popTop := by
  unfold State.popTop
  dsimp only
  split
  · refine .of_eq ?_
    simp only [State.endRollback_dsq]
    split <;> rfl
  · refine .trans (.of_eq ?_) (beginRecord_sequencer _)
    split <;> rfl

theorem engineStep_sequencer : SameSequencer s s.engineStep := by
  unfold State.engineStep
  split
  · split
    · exact beginRecord_sequencer s
    · exact popTop_sequencer s
  · exact popTop_sequencer s

theorem startRollback_sequencer (k : RollbackKind) : SameSequencer s (s.startRollback k) := by
  unfold State.startRollback
  dsimp only
  split
  · exact .of_eq (by simp)
  · split
    · exact .of_eq rfl
    · exact .trans (.of_eq rfl) (engineStep_sequencer _)

theorem engineComplete_sequencer (data : List Byte) : SameSequencer s (s.engineComplete data) := by
  unfold State.engineComplete
  split
  · unfold State.headerRead
    dsimp only
    split
    · exact .trans (.of_eq rfl) (engineStep_sequencer _)
    · exact .trans (.of_eq rfl) (issue_sequencer _ _)
  · exact .trans (.of_eq rfl) (issue_sequencer _ _)
  · exact .trans (.of_eq rfl) (engineStep_sequencer _)
  · exact .refl s

theorem goData_sequencer (c : Current) : SameSequencer s (s.goData c) := by
  unfold State.goData
  split
  · exact .of_eq rfl
  · exact .trans (.of_eq rfl) (issue_sequencer _ _)

theorem nextMissed_sequencer (c : Current) : SameSequencer s (s.nextMissed c) := by
  unfold State.nextMissed
  split
  · exact goData_sequencer s c
  · split
    · exact goData_sequencer s c
    · exact .trans (.of_eq rfl) (issue_sequencer _ _)

theorem rqpComplete_sequencer (data : List Byte) : SameSequencer s (s.rqpComplete data) := by
  unfold State.rqpComplete
  split
  · exact .refl s
  · split
    · refine .of_eq ?_
      rw [State.dropRequest_dsq]
      split <;> simp
    · split
      · unfold State.logReadDone
        split
        · exact goData_sequencer s _
        · exact .trans (.of_eq rfl) (issue_sequencer _ _)
      · unfold State.logDataDone
        split
        · exact .trans (.of_eq rfl) (issue_sequencer _ _)
        · exact .refl s
      · exact .trans (.of_eq (by simp)) (nextMissed_sequencer _ _)
      · unfold State.lineDone
        dsimp only
        split
        · exact .of_eq rfl
        · exact .trans (.of_eq rfl) (issue_sequencer _ _)
      · exact .refl s
      · exact .refl s

theorem serve_sequencer (c : Current) : SameSequencer s (s.serve c) :=
  .trans (.of_eq (by simp)) (nextMissed_sequencer _ _)

theorem checkRequest_sequencer (r : Request) : SameSequencer s (s.checkRequest r) := by
  unfold State.checkRequest
  split
  · exact .of_eq rfl
  · dsimp only
    split
    · exact .of_eq rfl
    · split
      · exact .of_eq rfl
      · split
        · exact .of_eq (by simp)
        · unfold State.settle
          dsimp only
          split
          · exact .of_eq rfl
          · split
            · exact serve_sequencer _ _
            · exact serve_sequencer _ _
            · split
              · exact serve_sequencer _ _
              · split
                · exact .of_eq (by simp)
                · exact .trans (.of_eq (by simp)) (serve_sequencer _ _)

theorem recover_sequencer : SameSequencer s s.recover := by
  unfold State.recover
  split
  · split
    · split <;> exact .of_eq rfl
    · exact startRollback_sequencer s _
  · exact .refl s

theorem hostResetLink_dsq : s.hostResetLink.dsq = s.dsq := by
  unfold State.hostResetLink
  dsimp only
  split <;> rfl

theorem expiryRollback_sequencer : SameSequencer s s.expiryRollback := by
  unfold State.expiryRollback
  split
  · exact .of_eq rfl
  · dsimp only
    split
    · exact .trans (startRollback_sequencer s _) (.of_eq rfl)
    · exact startRollback_sequencer s _

theorem rollbackAct_sequencer (args : List Byte) : SameSequencer s (rollbackAct args s).1 := by
  unfold rollbackAct
  split
  · exact .refl s
  · exact startRollback_sequencer s _

theorem rollbackAllAct_sequencer (args : List Byte) : SameSequencer s (rollbackAllAct args s).1 := by
  unfold rollbackAllAct
  split
  · exact .refl s
  · exact startRollback_sequencer s _

/-! ### The start and the page close -/

/-- When the arbiter starts an operation for a bank. -/
theorem State.startsFor_iff (s : State) (b : Fin 8) :
    s.startsFor b = true ↔ ∃ op, s.startable = some op ∧ bankOfLine op.line = b := by
  unfold State.startsFor
  cases s.startable <;> simp

/-- When the page policy asks for a close of a bank. -/
theorem State.closePageDue_iff (s : State) (b : Fin 8) :
    s.closePageDue b = true ↔
      s.dsq.pagePolicy = .closePage ∧ s.held b = false ∧ s.startsFor b = false := by
  simp [State.closePageDue, and_assoc]

/-- A close of one bank leaves the start of an operation as it is. -/
@[simp] theorem State.startable_beginClose (s : State) (b : Fin 8) :
    (s.beginClose b).startable = s.startable := rfl

@[simp] theorem State.startsFor_beginClose (s : State) (b c : Fin 8) :
    (s.beginClose b).startsFor c = s.startsFor c := rfl

end Sys2Proof.Machine
end

