-- ==== Sys2Proof/Laws/Regions.lean ====
section
/-! SUPPORT. The region map and the log area: sharing a page, what a command keeps of
State.RegionsInv. -/
namespace Sys2Proof.Machine

/-- The invariant speaks of the descriptors and of the log's base page and pages. -/
theorem State.RegionsInv.congr {s t : State} (h : s.RegionsInv) (hd : t.rmap.descs = s.rmap.descs)
    (hb : t.ulc.basePage = s.ulc.basePage) (hp : t.ulc.pages = s.ulc.pages) : t.RegionsInv := by
  obtain ⟨a, b⟩ := h
  have e : ∀ i, t.desc i = s.desc i := fun i => by unfold State.desc; rw [hd]
  have u : ∀ p, t.ulc.coversPage p = s.ulc.coversPage p := fun p => by
    unfold Ulc.coversPage; rw [hb, hp]
  constructor
  · simp only [e]; exact a
  · simp only [e, u]; exact b

theorem mem_allDescs (i : Fin 16) : i ∈ allDescs := by revert i; decide

/-- A page that descriptor i and a range both cover makes them meet. -/
theorem meetsDesc_of_page {s : State} {i : Fin 16} {base last page : Nat}
    (hi : (s.desc i).coversPage page = true) (h1 : base ≤ page) (h2 : page ≤ last) :
    s.meetsDesc i base last = true := by
  simp [Descriptor.coversPage] at hi
  simp [State.meetsDesc, rangesMeet]
  exact ⟨hi.1.1, by omega, by omega⟩

/-- A page that the log area and a range both cover makes them meet. -/
theorem meetsLog_of_page {s : State} {base last page : Nat} (hl : s.ulc.coversPage page = true)
    (h1 : base ≤ page) (h2 : page ≤ last) : s.meetsLog base last = true := by
  simp [Ulc.coversPage] at hl
  simp [State.meetsLog, rangesMeet]
  omega

theorem setDescs_desc (s : State) (k : Nat) (hk : k < 16) (d : Descriptor) (i : Fin 16) :
    (s.setRmap { s.rmap with descs := s.rmap.descs.set k d hk }).desc i =
      if i.val = k then d else s.desc i := by
  unfold State.desc
  simp only [State.setRmap_rmap, Vector.get_eq_getElem]
  split
  · rename_i h; subst h; exact Vector.getElem_set_self _
  · rename_i h; exact Vector.getElem_set_ne _ _ (fun h0 => h h0.symm)

theorem regionWriteAct_regionsInv {s : State} (h : s.RegionsInv) (args : List Byte) :
    (regionWriteAct args s).1.RegionsInv := by
  unfold regionWriteAct
  dsimp only
  split
  · exact h
  · split
    · exact h
    · split
      · exact h
      · split
        · exact h
        · rename_i d _
          split
          · rename_i hk
            split
            · exact h
            · split
              · exact h
              · rename_i ho
                simp only [Bool.and_eq_true, Bool.or_eq_true, List.any_eq_true, decide_eq_true_eq,
                  not_and, not_or, not_exists] at ho
                have key : ∀ (i : Fin 16) page, i.val ≠ (argByte args 0).toNat →
                    (s.desc i).coversPage page = true → d.coversPage page = true → False := by
                  intro i page hne hi hd
                  simp [Descriptor.coversPage] at hd
                  exact (ho hd.1.1).2 i (mem_allDescs i) hne (meetsDesc_of_page hi hd.1.2 hd.2)
                constructor
                · intro i j page hi hj
                  rw [setDescs_desc] at hi hj
                  split at hi <;> split at hj
                  · rename_i h1 h2; exact Fin.ext (h1.trans h2.symm)
                  · rename_i h1 h2; exact (key j page h2 hj hi).elim
                  · rename_i h1 h2; exact (key i page h1 hi hj).elim
                  · exact h.descsApart i j page hi hj
                · intro i page hi
                  rw [setDescs_desc] at hi
                  split at hi
                  · by_contra h0
                    simp [Descriptor.coversPage] at hi
                    exact (ho hi.1.1).1 (meetsLog_of_page (by simpa using h0) hi.1.2 hi.2)
                  · exact h.logApart i page hi
          · exact h

theorem setLogAct_regionsInv {s : State} (h : s.RegionsInv) (args : List Byte) :
    (setLogAct args s).1.RegionsInv := by
  unfold setLogAct
  dsimp only
  split
  · exact h
  · split
    · exact h
    · split
      · exact h
      · split
        · exact h
        · split
          · exact h
          · split
            · exact h
            · rename_i ho
              refine ⟨h.descsApart, ?_⟩
              intro i page hi
              by_contra h1
              have h0 := (Bool.not_eq_false _).mp h1
              unfold Ulc.coversPage at h0
              rw [Bool.and_eq_true, decide_eq_true_eq, decide_eq_true_eq] at h0
              have h2 : argField args 0 4 ≤ page := h0.1
              have h3 : page < argField args 0 4 + argField args 4 2 := h0.2
              apply ho
              have hp : 1 ≤ argField args 4 2 := by omega
              simp only [Bool.and_eq_true, List.any_eq_true, decide_eq_true_eq]
              exact ⟨hp, i, mem_allDescs i, meetsDesc_of_page (page := page) hi (by omega) (by omega)⟩

end Sys2Proof.Machine
end

