-- ==== Sys2Proof/Laws/Capacity.lean ====
section
/-! SUPPORT. Descriptors and log area against the capacity: what a command keeps of
State.CapacityInv. -/
namespace Sys2Proof.Machine

/-- The invariant speaks of the descriptors, of the log's place and threshold, of the geometry, and of
the sequencer state. -/
theorem State.CapacityInv.congr {s t : State} (h : s.CapacityInv) (hd : t.rmap.descs = s.rmap.descs)
    (hb : t.ulc.basePage = s.ulc.basePage) (hp : t.ulc.pages = s.ulc.pages)
    (ht : t.ulc.threshold = s.ulc.threshold) (hg : t.dsq.geometry = s.dsq.geometry)
    (hs : t.dsq.state ≠ .uninit → s.dsq.state ≠ .uninit) : t.CapacityInv := by
  obtain ⟨a, b, c, d, e, f⟩ := h
  have ed : ∀ i, t.desc i = s.desc i := fun i => by unfold State.desc; rw [hd]
  have ec : t.capacityPages = s.capacityPages := by
    simp [State.capacityPages, State.capacityLines, State.rowsPerBank, hg]
  constructor <;> simp only [ed, ec, hb, hp, ht, hg] <;> try assumption
  exact fun h => f (hs h)

/-- What leaves the map, the log's place and the sequencer as they are keeps the invariant. -/
theorem State.CapacityInv.same {s t : State} (h : s.CapacityInv) (hd : t.rmap = s.rmap)
    (hb : t.ulc.basePage = s.ulc.basePage) (hp : t.ulc.pages = s.ulc.pages)
    (ht : t.ulc.threshold = s.ulc.threshold) (hq : SameSequencer s t) : t.CapacityInv :=
  h.congr (by rw [hd]) hb hp ht hq.geometry (by rw [hq.state]; exact id)

theorem regionWriteAct_capacityInv {s : State} (h : s.CapacityInv) (args : List Byte) :
    (regionWriteAct args s).1.CapacityInv := by
  unfold regionWriteAct
  dsimp only
  split
  · exact h
  split
  · exact h
  split
  · exact h
  split
  · exact h
  rename_i d _
  split
  · rename_i hk
    split
    · exact h
    · rename_i hb
      split
      · exact h
      · obtain ⟨a, b, c, d', e, f⟩ := h
        constructor
        · intro i; rw [setDescs_desc]; split
          · omega
          · exact a i
        · intro i; rw [setDescs_desc]; split
          · left; show d.lastPage < s.capacityPages; omega
          · exact b i
        · exact c
        · exact d'
        · exact e
        · exact f
  · exact h

theorem setLogAct_capacityInv {s : State} (h : s.CapacityInv) (args : List Byte) :
    (setLogAct args s).1.CapacityInv := by
  unfold setLogAct
  dsimp only
  split
  · exact h
  split
  · exact h
  split
  · exact h
  split
  · exact h
  rename_i hb
  split
  · exact h
  split
  · exact h
  · obtain ⟨a, b, c, d', e, f⟩ := h
    refine ⟨a, b, ?_, ?_, ?_, f⟩
    · simp [Config.maxLogPages] at hb ⊢; omega
    · right; show argField args 0 4 + argField args 4 2 ≤ s.capacityPages; omega
    · simp [Config.recordsPerPage] at hb ⊢; omega

end Sys2Proof.Machine
end

