-- ==== Sys2Proof/Laws/Evu.lean ====
section
/-! SUPPORT. The event unit: a property that no raise of a flag but WATCH disturbs is kept by every
shared operation that makes no fault record and no watch match. -/
namespace Sys2Proof.Machine

/-- No raise of a flag other than WATCH disturbs the property. -/
abbrev RaiseClosed (P : Evu → Prop) : Prop :=
  ∀ e f, f ≠ Flag.watch → P e → P { e with flags := e.flags ||| f.set }

variable {P : Evu → Prop} (hP : RaiseClosed P) {s : State}
include hP

theorem raise_evu {f : Flag} (hf : f ≠ .watch) (h : P s.evu) : P (s.raise f).evu := hP _ _ hf h

theorem endRollback_evu (k : RollbackKind) (o : RollbackOutcome) (h : P s.evu) :
    P (s.endRollback k o).evu := by
  have h1 := hP s.evu .rollbackDone (by decide) h
  cases k
  · exact h1
  · exact h1
  · exact h1
  · exact hP _ .recoveryDone (by decide) h1

theorem popTop_evu (h : P s.evu) : P s.popTop.evu := by
  unfold State.popTop
  dsimp only
  split
  · refine endRollback_evu hP _ _ ?_
    split <;> exact h
  · rw [State.beginRecord_evu]
    split <;> exact h

theorem engineStep_evu (h : P s.evu) : P s.engineStep.evu := by
  unfold State.engineStep
  split
  · split
    · exact h
    · exact popTop_evu hP h
  · exact popTop_evu hP h

theorem startRollback_evu (k : RollbackKind) (h : P s.evu) : P (s.startRollback k).evu := by
  unfold State.startRollback
  dsimp only
  split
  · exact endRollback_evu hP _ _ h
  · split
    · exact h
    · exact engineStep_evu hP h

theorem engineComplete_evu (data : List Byte) (h : P s.evu) : P (s.engineComplete data).evu := by
  unfold State.engineComplete
  split
  · unfold State.headerRead
    dsimp only
    split
    · exact engineStep_evu hP h
    · simpa using h
  · simpa using h
  · exact engineStep_evu hP h
  · exact h

theorem headRise_evu (h : P s.evu) : P s.headRise.evu := by
  unfold State.headRise
  dsimp only
  split
  · exact hP _ .lowSpace (by decide) h
  · exact h

theorem countRecord_evu (c : Current) (h : P s.evu) : P (s.countRecord c).evu := by
  unfold State.countRecord
  split
  · exact h
  · split
    · exact headRise_evu hP h
    · exact headRise_evu hP h

theorem rqpComplete_evu (data : List Byte) (h : P s.evu) : P (s.rqpComplete data).evu := by
  unfold State.rqpComplete
  split
  · exact h
  · split
    · rw [State.dropRequest_evu]
      split
      · exact countRecord_evu hP _ h
      · exact h
    · split
      · simpa using h
      · simpa using h
      · rw [State.nextMissed_evu]; exact countRecord_evu hP _ h
      · simpa using h
      · exact h
      · exact h

theorem recover_evu (h : P s.evu) : P s.recover.evu := by
  unfold State.recover
  split
  · split
    · split <;> exact h
    · exact startRollback_evu hP _ h
  · exact h

theorem hostResetLink_evu (h : P s.evu) : P s.hostResetLink.evu := by
  unfold State.hostResetLink
  dsimp only
  split <;> exact hP _ .hostReset (by decide) h

theorem expiryRollback_evu (h : P s.evu) : P s.expiryRollback.evu := by
  unfold State.expiryRollback
  split
  · exact h
  · dsimp only
    split <;> exact startRollback_evu hP _ h

theorem enterReady_evu (h : P s.evu) : P s.enterReady.evu := hP _ .dramReady (by decide) h

theorem breakFrames_evu (h : P s.evu) : P s.breakFrames.evu := hP _ .broken (by decide) h

/-- The check, where a fault record and a watch match keep the property too. -/
theorem checkRequest_evu (hf : ∀ x r, P x.evu → P (State.recordFault x r).evu)
    (hw : ∀ x c, P x.evu → P (State.captureWatch x c).evu) (r : Request) (h : P s.evu) :
    P (s.checkRequest r).evu := by
  have hs : ∀ (x : State) c, P x.evu → P (x.serve c).evu := by
    intro x c hx
    unfold State.serve
    rw [State.nextMissed_evu]
    unfold State.watchRequest
    split
    · exact hw _ _ hx
    · exact hx
  have hr : ∀ k reg, P (s.faultRequest r k reg).evu := fun k reg => by
    unfold State.faultRequest
    rw [State.respond_evu]
    exact hf _ _ h
  unfold State.checkRequest
  split
  · exact h
  · dsimp only
    split
    · exact h
    · split
      · exact h
      · split
        · exact hr _ _
        · unfold State.settle
          dsimp only
          split
          · exact h
          · split
            · exact hs _ _ h
            · exact hs _ _ h
            · split
              · exact hs _ _ h
              · split
                · exact hr _ _
                · exact hs _ _ (breakFrames_evu hP h)

/-- Every event keeps the property, where fault records, watch matches and the reset value do. -/
theorem event_evu (hf : ∀ x r, P x.evu → P (State.recordFault x r).evu)
    (hw : ∀ x c, P x.evu → P (State.captureWatch x c).evu) (hr : P Evu.reset) (i : Instr)
    (hi : isEvent i = true) (s : State) (h : P s.evu) : P (after i s).evu := by
  cases i <;> simp only [isEvent, Bool.false_eq_true] at hi <;> clear hi
  case requestTake =>
    simp only [after, exec, execRequestTake]
    split
    · split
      · exact checkRequest_evu hP hf hw _ h
      · exact h
    · exact h
  case operationComplete =>
    simp only [after, exec, execOperationComplete]
    split
    · split
      · split
        · exact rqpComplete_evu hP _ (by simpa using h)
        · exact engineComplete_evu hP _ (by simpa using h)
      · exact h
    · exact h
  case rollbackFirstStep =>
    simp only [after, exec, execRollbackFirstStep]
    split
    · exact engineStep_evu hP h
    · exact h
  case hostResetAssert =>
    simp only [after, exec, execHostResetAssert]
    split
    · exact h
    · split
      · exact h
      · exact recover_evu hP (hostResetLink_evu hP h)
  case supervisionExpiry =>
    simp only [after, exec, execSupervisionExpiry]
    split
    · have h1 : P ((s.advance s.est.remainingNs).raise .supervision).evu :=
        hP _ _ (by decide) (by simpa using h)
      split
      · exact h1
      · exact h1
      · exact expiryRollback_evu hP h1
      · exact expiryRollback_evu hP h1
    · exact h
  case initRefreshExpiry =>
    simp only [after, exec, execInitRefreshExpiry]
    split
    · split
      · split
        · exact enterReady_evu hP (by simpa using h)
        · simpa using h
      · exact h
    · exact h
  case refreshTickExpiry =>
    simp only [after, exec, execRefreshTickExpiry]
    split
    · split
      · simpa using h
      · exact hP _ _ (by decide) (by simpa using h)
    · exact h
  case powerOn => exact hr
  case drstNAssert =>
    simp only [after, exec, execDrstNAssert]
    split
    · exact h
    · split <;> first | exact hr | exact h
  case frameEnd =>
    simp only [after, exec, execFrameEnd]
    split
    · split <;> first | exact hr | exact h
    · exact h
  all_goals
    simp only [after, exec, execRequestAccept, execOperationStart, execTransferStart,
      execHostResetRelease, execPowerOnResetEnd, execDrstNRelease, execFrameBegin,
      execInitWaitExpiry, execCloseAllWaitExpiry, execBankActivation, execOpenWaitExpiry,
      execBankClose, execCloseWaitExpiry, execWriteGuardExpiry, execBankRefreshStart,
      execBankRefreshWaitExpiry, execActWindowAgeOut]
    repeat' split
    all_goals exact h

end Sys2Proof.Machine
end

