-- ==== Sys2Proof/Laws/Filter.lean ====
section
/-! SUPPORT. The first-write filter: what emptying, filling and invalidating do to one entry, and what
each shared operation keeps of State.FilterInv. -/
namespace Sys2Proof.Machine

/-! ### One entry -/

/-- Every valid entry of the second filter stands there already in the first. -/
def Fwf.Below (g f : Fwf) : Prop := ∀ i w, (g.entry i w).valid = true → g.entry i w = f.entry i w

theorem Fwf.Below.of_sets {g f : Fwf} (h : g.sets = f.sets) : g.Below f := by
  intro i w _
  unfold Fwf.entry
  rw [h]

theorem Fwf.emptied_invalid (f : Fwf) (i : Fin 256) (w : Fin 4) :
    (f.emptied.entry i w).valid = false := by
  simp [Fwf.emptied, FilterSet.emptied, Vector.get_eq_getElem]

theorem Fwf.emptied_below (f : Fwf) : f.emptied.Below f := by
  intro i w h
  rw [f.emptied_invalid] at h
  cases h

theorem Fwf.putSet_get (f : Fwf) (line : Nat) (x : FilterSet) (i : Fin 256) :
    (f.putSet line x).sets.get i = if i = setOfLine line then x else f.sets.get i := by
  by_cases h : i = setOfLine line
  · subst h
    simp [Fwf.putSet, Vector.get_eq_getElem]
  · have hv : (setOfLine line).val ≠ i.val := fun h0 => h (Fin.ext h0.symm)
    simp only [Fwf.putSet, Vector.get_eq_getElem, h, if_false]
    exact Vector.getElem_set_ne _ _ hv

/-- An invalidation leaves every entry that is valid afterwards as it was (R59). -/
theorem Fwf.invalidate_below (f : Fwf) (line serial : Nat) : (f.invalidate line serial).Below f := by
  intro i w
  unfold Fwf.invalidate
  split
  · unfold Fwf.entry
    rw [Fwf.putSet_get]
    split
    · rename_i hi
      subst hi
      simp only [FilterSet.invalidate, Fwf.setFor, Vector.get_eq_getElem, Vector.getElem_map]
      split
      · simp
      · exact fun _ => rfl
    · exact fun _ => rfl
  · exact fun _ => rfl

theorem ways_set (v : Vector FilterEntry 4) (w u : Fin 4) (e : FilterEntry) :
    (v.set w.val e w.isLt).get u = if u = w then e else v.get u := by
  by_cases h : u = w
  · subst h
    simp [Vector.get_eq_getElem]
  · have hv : w.val ≠ u.val := fun h0 => h (Fin.ext h0.symm)
    simp only [Vector.get_eq_getElem, h, if_false]
    exact Vector.getElem_set_ne _ _ hv

/-- A fill writes at most the filled line and serial, in the line's own set (R55). -/
theorem Fwf.fill_entry (f : Fwf) (line serial : Nat) (i : Fin 256) (w : Fin 4) :
    (f.fill line serial).entry i w = f.entry i w ∨
      i = setOfLine line ∧
        (f.fill line serial).entry i w = { valid := true, line := line, serial := serial } := by
  unfold Fwf.fill
  split
  · unfold Fwf.entry
    rw [Fwf.putSet_get]
    split
    · rename_i hi
      subst hi
      unfold FilterSet.fill Fwf.setFor
      dsimp only
      split
      · exact .inl rfl
      · split
        · rw [ways_set]
          split
          · exact .inr ⟨rfl, rfl⟩
          · exact .inl rfl
        · rw [ways_set]
          split
          · exact .inr ⟨rfl, rfl⟩
          · exact .inl rfl
    · exact .inl rfl
  · exact .inl rfl

/-! ### The invariant -/

/-- The invariant is kept where the frames hold serials that were held before, the allocator stands as
it stood, and every valid entry stood there before or names a line in its own set under a held serial;
with no frame left, no entry is valid. -/
theorem State.FilterInv.kept {s t : State} (h : s.FilterInv)
    (hs : ∀ f ∈ t.esu.stack, f.serial ∈ s.serials) (hn : t.esu.nextSerial = s.esu.nextSerial)
    (hc : t.esu.carried = if t.esu.stack.isEmpty then [] else s.esu.carried)
    (hf : ∀ i w, (t.fwf.entry i w).valid = true → t.esu.stack ≠ [] ∧
      (t.fwf.entry i w = s.fwf.entry i w ∨
        setOfLine (t.fwf.entry i w).line = i ∧ (t.fwf.entry i w).serial ∈ s.serials)) :
    t.FilterInv := by
  have held : ∀ n ∈ s.serials, s.esu.spent n := by
    intro n hm
    obtain ⟨f, hf, rfl⟩ := List.mem_map.mp hm
    exact h.framesSpent f hf
  have spent : t.esu.stack ≠ [] → ∀ n, s.esu.spent n → t.esu.spent n := by
    intro h0 n h1
    have : t.esu.carried = s.esu.carried := by rw [hc]; simp [h0]
    unfold Esu.spent at *
    rwa [hn, this]
  constructor
  case closed =>
    intro h0 i w
    by_contra hv
    exact (hf i w (by simpa using hv)).1 h0
  case closedCarried => intro h0; rw [hc, h0]; rfl
  case ownSet =>
    intro i w hv
    rcases (hf i w hv).2 with h1 | h1
    · rw [h1] at hv ⊢
      exact h.ownSet i w hv
    · exact h1.1
  case framesSpent =>
    exact fun f hm => spent (List.ne_nil_of_mem hm) _ (held _ (hs f hm))
  case entriesSpent =>
    intro i w hv
    obtain ⟨h0, h1 | h1⟩ := hf i w hv
    · rw [h1] at hv ⊢
      exact spent h0 _ (h.entriesSpent i w hv)
    · exact spent h0 _ (held _ h1.2)

/-- Frames may leave and entries may go, where the last frame takes every entry with it (R61). -/
theorem State.FilterInv.shrink {s t : State} (h : s.FilterInv)
    (hs : ∀ f ∈ t.esu.stack, f.serial ∈ s.serials) (hn : t.esu.nextSerial = s.esu.nextSerial)
    (hc : t.esu.carried = if t.esu.stack.isEmpty then [] else s.esu.carried)
    (hb : t.fwf.Below s.fwf) (h0 : t.esu.stack = [] → ∀ i w, (t.fwf.entry i w).valid = false) :
    t.FilterInv :=
  h.kept hs hn hc fun i w hv =>
    ⟨fun he => (by rw [h0 he] at hv; cases hv), .inl (hb i w hv)⟩

/-- The invariant speaks of the frames' serials, the allocator and the entries. -/
theorem State.FilterInv.of_serials {s t : State} (h : s.FilterInv) (hs : t.serials = s.serials)
    (hn : t.esu.nextSerial = s.esu.nextSerial) (hc : t.esu.carried = s.esu.carried)
    (hb : t.fwf.Below s.fwf) : t.FilterInv := by
  have he : t.esu.stack = [] → s.esu.stack = [] := by
    intro h0
    have : s.serials = [] := by rw [← hs]; simp [State.serials, h0]
    simpa [State.serials] using this
  refine h.shrink (fun f hm => hs ▸ List.mem_map_of_mem hm) hn ?_ hb fun h0 i w => ?_
  · rw [hc]
    split
    · rename_i h0
      exact h.closedCarried (he (by simpa using h0))
    · rfl
  · by_contra hv
    have hv : (t.fwf.entry i w).valid = true := by simpa using hv
    have := h.closed (he h0) i w
    rw [hb i w hv] at hv
    rw [hv] at this
    cases this

theorem State.FilterInv.congr {s t : State} (h : s.FilterInv) (he : t.esu.stack = s.esu.stack)
    (hn : t.esu.nextSerial = s.esu.nextSerial) (hc : t.esu.carried = s.esu.carried)
    (hf : t.fwf.sets = s.fwf.sets) : t.FilterInv :=
  h.of_serials (by unfold State.serials; rw [he]) hn hc (.of_sets hf)

/-- The device reset's values have the invariant. -/
theorem filterInv_of_reset {s : State} (hf : s.fwf = Fwf.reset) (he : s.esu = Esu.reset) :
    s.FilterInv := by
  have hv : ∀ i w, (s.fwf.entry i w).valid = false := by
    intro i w
    rw [hf]
    simp [Fwf.reset, FilterSet.reset, FilterEntry.reset, Vector.get_eq_getElem]
  constructor
  case closed => exact fun _ => hv
  case closedCarried => rw [he]; exact fun _ => rfl
  case ownSet => intro i w h; rw [hv i w] at h; cases h
  case framesSpent => rw [he]; simp [Esu.reset]
  case entriesSpent => intro i w h; rw [hv i w] at h; cases h

/-- After an accepted OPEN no entry carries the top serial: every valid entry is STALE (R57), and every
lookup misses. -/
theorem allocation_misses {s : State} (h : s.FilterInv) (hn : 1 ≤ s.esu.nextSerial)
    (hn' : s.esu.nextSerial ≤ 65535) (hd : s.esu.stack.length ≤ 8) (hc : s.esu.carried.length ≤ 7)
    (i : Fin 256) (w : Fin 4) :
    let f := if s.allocation.wrapped then s.fwf.emptied else s.fwf
    (f.entry i w).standing s.allocation.serial ≠ .current := by
  intro f
  have hv : (f.entry i w).valid = true → (f.entry i w).serial ≠ s.allocation.serial := by
    intro hv he
    cases hw : s.allocation.wrapped with
    | true =>
      simp only [f, hw, if_true] at hv
      rw [Fwf.emptied_invalid] at hv
      cases hv
    | false =>
      have hff : f = s.fwf := by simp [f, hw]
      rw [hff] at hv he
      have ha := (allocate_next s.serials s.esu.carried (s.serials.length + s.esu.carried.length)
        s.esu.nextSerial false).1 hw
      have hfresh := (allocation_fresh hn hn' hd hc).2 hw
      have := h.entriesSpent i w hv
      unfold Esu.spent at this
      rw [he] at this
      unfold State.allocation at *
      rcases this with h1 | h1 | h1
      · omega
      · exact hfresh h1
      · exact ha.2.2 h1
  unfold FilterEntry.standing
  split
  · simp
  · rename_i h0
    rw [if_neg (hv (by simpa using h0))]
    simp

/-- An accepted OPEN keeps the invariant: at a wrap the filter is emptied and the serials of the frames
below are carried; else next serial passes the one it gives (R82, R63). -/
theorem open_filterInv {s t : State} (h : s.FilterInv) (depth start : Nat)
    (he : t.esu = { s.esu with
      stack := { depth := depth, serial := s.allocation.serial, start := start, broken := false } ::
        s.esu.stack
      nextSerial := s.allocation.next, carried := s.carriedAfter s.allocation })
    (hf : t.fwf.sets = (if s.allocation.wrapped then s.fwf.emptied else s.fwf).sets) :
    t.FilterInv := by
  have hne : t.esu.stack ≠ [] := by rw [he]; simp
  have hn := allocate_next s.serials s.esu.carried (s.serials.length + s.esu.carried.length)
    s.esu.nextSerial false
  dsimp only at hn
  change (s.allocation.wrapped = false → _ ≤ s.allocation.serial ∧
    s.allocation.serial < s.allocation.next ∧ s.allocation.serial ≠ 65535) ∧
    (s.allocation.serial = 65535 ∨ s.allocation.serial < s.allocation.next) at hn
  have new : t.esu.spent s.allocation.serial := by
    rw [he]
    rcases hn.2 with h1 | h1
    · exact .inr (.inr h1)
    · exact .inl h1
  have old : s.allocation.wrapped = false → ∀ n, s.esu.spent n → t.esu.spent n := by
    intro hw n h1
    have := hn.1 hw
    rw [he]
    unfold Esu.spent at *
    simp only [State.carriedAfter, hw]
    rcases h1 with h1 | h1 | h1
    · exact .inl (by omega)
    · exact .inr (.inl (by simpa using h1))
    · exact .inr (.inr h1)
  have entry : ∀ i w, (t.fwf.entry i w).valid = true →
      s.allocation.wrapped = false ∧ t.fwf.entry i w = s.fwf.entry i w := by
    intro i w hv
    unfold Fwf.entry at *
    rw [hf] at hv ⊢
    cases hw : s.allocation.wrapped with
    | true =>
      simp only [hw, if_true] at hv
      have := Fwf.emptied_invalid s.fwf i w
      unfold Fwf.entry at this
      rw [this] at hv
      cases hv
    | false => exact ⟨rfl, by simp⟩
  constructor
  case closed => exact fun h0 => absurd h0 hne
  case closedCarried => exact fun h0 => absurd h0 hne
  case ownSet =>
    intro i w hv
    have he' := (entry i w hv).2
    rw [he'] at hv ⊢
    exact h.ownSet i w hv
  case framesSpent =>
    intro f hm
    have hm' : f.serial = s.allocation.serial ∨ f ∈ s.esu.stack := by
      rw [he] at hm
      rcases List.mem_cons.mp hm with h1 | h1
      · exact .inl (by rw [h1])
      · exact .inr h1
    rcases hm' with h1 | h1
    · rw [h1]; exact new
    · cases hw : s.allocation.wrapped with
      | true =>
        refine .inr (.inl ?_)
        rw [he]
        simp only [State.carriedAfter, hw, if_true, State.serials]
        exact List.mem_map_of_mem h1
      | false => exact old hw _ (h.framesSpent f h1)
  case entriesSpent =>
    intro i w hv
    obtain ⟨hw, he'⟩ := entry i w hv
    rw [he'] at hv ⊢
    exact old hw _ (h.entriesSpent i w hv)

/-! ### The rollback engine -/

/-- The frames that pops leave are frames that stood before (R96). -/
theorem popFrames_mem (k : RollbackKind) (head : Nat) : ∀ (l : List Frame) (f : Frame),
    f ∈ (popFrames k head l).1 → f ∈ l
  | [], f, h => by simp [popFrames] at h
  | [_], f, h => by simp [popFrames] at h
  | _ :: top :: rest, f, h => by
    unfold popFrames at h
    dsimp only at h
    split at h
    · exact List.mem_cons_of_mem _ h
    · split at h
      · exact List.mem_cons_of_mem _ h
      · split at h
        · exact List.mem_cons_of_mem _ h
        · exact List.mem_cons_of_mem _ (popFrames_mem k head (top :: rest) f h)

theorem popTop_filterInv {s : State} (h : s.FilterInv) : s.popTop.FilterInv := by
  have hm := popFrames_mem (s.esu.engine.kind.getD .single) s.ulc.head s.esu.stack
  unfold State.popTop
  dsimp only
  generalize popFrames (s.esu.engine.kind.getD .single) s.ulc.head s.esu.stack = r at *
  obtain ⟨r1, r2⟩ := r
  have key : ∀ t : State, t.esu.stack = r1 → t.esu.nextSerial = s.esu.nextSerial →
      t.esu.carried = (if r1.isEmpty then [] else s.esu.carried) →
      t.fwf.sets = (if r1.isEmpty then s.fwf.emptied else s.fwf).sets → t.FilterInv := by
    intro t h1 h2 h3 h4
    refine h.shrink (fun f hf => List.mem_map_of_mem (hm f (h1 ▸ hf))) h2 (h1 ▸ h3) ?_ ?_
    · split at h4
      · exact fun i w hv => by
          have := (Fwf.Below.of_sets h4) i w hv
          rw [this] at hv ⊢
          exact s.fwf.emptied_below i w hv
      · exact .of_sets h4
    · intro h0 i w
      rw [h1] at h0
      subst h0
      unfold Fwf.entry
      rw [h4]
      exact s.fwf.emptied_invalid i w
  cases r1 with
  | nil => cases r2 <;> exact key _ (by simp) (by simp) (by simp) (by simp)
  | cons f l => cases r2 <;> exact key _ (by simp) (by simp) (by simp) (by simp)

theorem engineStep_filterInv {s : State} (h : s.FilterInv) : s.engineStep.FilterInv := by
  unfold State.engineStep
  split
  · split
    · exact h.congr (by simp) (by simp) (by simp) (by simp)
    · exact popTop_filterInv h
  · exact popTop_filterInv h

theorem startRollback_filterInv {s : State} (h : s.FilterInv) (k : RollbackKind) :
    (s.startRollback k).FilterInv := by
  unfold State.startRollback
  dsimp only
  split
  · exact h.congr (by simp) (by simp) (by simp) (by simp)
  · split
    · exact h.congr (by simp) (by simp) (by simp) (by simp)
    · exact engineStep_filterInv (h.congr (by simp) (by simp) (by simp) (by simp))

theorem engineComplete_filterInv {s : State} (h : s.FilterInv) (data : List Byte) :
    (s.engineComplete data).FilterInv := by
  unfold State.engineComplete
  split
  · unfold State.headerRead
    dsimp only
    split
    · exact engineStep_filterInv (h.congr (by simp) (by simp) (by simp) (by simp))
    · exact h.congr (by simp) (by simp) (by simp) (by simp)
  · exact h.congr (by simp) (by simp) (by simp) (by simp)
  · refine engineStep_filterInv (h.of_serials (by simp [State.serials]) (by simp) (by simp) ?_)
    simpa using s.fwf.invalidate_below _ _
  · exact h

/-! ### The request path -/

theorem countRecord_filterInv {s : State} (h : s.FilterInv) (c : Current) :
    (s.countRecord c).FilterInv := by
  unfold State.countRecord
  split
  · exact h
  · rename_i hd
    obtain ⟨f, l, hl⟩ : ∃ f l, s.esu.stack = f :: l := by
      cases hs : s.esu.stack with
      | nil => exact absurd (by simp [State.depth, hs]) hd
      | cons f l => exact ⟨f, l, rfl⟩
    split
    · rename_i line _
      refine h.kept (fun g hg => List.mem_map_of_mem (by simpa using hg)) (by simp)
        (by simp [hl]) fun i w hv => ⟨by simp [hl], ?_⟩
      rcases s.fwf.fill_entry line s.topSerial i w with h1 | ⟨h1, h2⟩
      · exact .inl (by simpa using h1)
      · refine .inr ?_
        have h2 : ((s.headRise.setFwf (s.fwf.fill line s.topSerial)).fwf.entry i w) =
          { valid := true, line := line, serial := s.topSerial } := by simpa using h2
        rw [h2]
        exact ⟨h1.symm, by simp [State.serials, State.topSerial, State.topFrame, hl]⟩
    · exact h.congr (by simp) (by simp) (by simp) (by simp)

theorem rqpComplete_filterInv {s : State} (h : s.FilterInv) (data : List Byte) :
    (s.rqpComplete data).FilterInv := by
  unfold State.rqpComplete
  split
  · exact h
  · split
    · split
      · exact (countRecord_filterInv h _).congr (by simp) (by simp) (by simp) rfl
      · exact h.congr (by simp) (by simp) (by simp) rfl
    · split
      · exact h.congr (by simp) (by simp) (by simp) (by simp)
      · exact h.congr (by simp) (by simp) (by simp) (by simp)
      · exact (countRecord_filterInv h ‹Current›).congr (by simp) (by simp) (by simp) (by simp)
      · exact h.congr (by simp) (by simp) (by simp) (by simp)
      · exact h
      · exact h

theorem breakFrames_filterInv {s : State} (h : s.FilterInv) : s.breakFrames.FilterInv :=
  h.of_serials (by simp [State.serials, Function.comp_def]) (by simp) (by simp) (.of_sets (by simp))

theorem checkRequest_filterInv {s : State} (h : s.FilterInv) (r : Request) :
    (s.checkRequest r).FilterInv := by
  have key : ∀ t : State, t.esu.stack = s.esu.stack → t.esu.nextSerial = s.esu.nextSerial →
      t.esu.carried = s.esu.carried → t.fwf.sets = s.fwf.sets → t.FilterInv :=
    fun t => h.congr
  unfold State.checkRequest
  split
  · exact key _ (by simp) (by simp) (by simp) (by simp)
  · dsimp only
    split
    · exact key _ (by simp) (by simp) (by simp) (by simp)
    · split
      · exact key _ (by simp) (by simp) (by simp) (by simp)
      · split
        · exact key _ (by simp) (by simp) (by simp) (by simp)
        · unfold State.settle
          dsimp only
          split
          · exact key _ (by simp) (by simp) (by simp) (by simp)
          · split
            · exact key _ (by simp) (by simp) (by simp) (by simp)
            · exact key _ (by simp) (by simp) (by simp) (by simp)
            · split
              · exact key _ (by simp) (by simp) (by simp) (by simp)
              · split
                · exact key _ (by simp) (by simp) (by simp) (by simp)
                · exact (breakFrames_filterInv h).congr (by simp) (by simp) (by simp) (by simp)

end Sys2Proof.Machine
end

