-- ==== Sys2Proof/Laws/Queue.lean ====
section
/-! SUPPORT. The request queue and the request path: what each operation keeps of State.QueueInv. -/
namespace Sys2Proof.Machine

/-- The invariant speaks of the queue and of the request path's stage and request. -/
theorem State.QueueInv.congr {s t : State} (h : s.QueueInv) (hq : t.slp.queue = s.slp.queue)
    (hr : t.rqp.stage = s.rqp.stage) (hc : t.rqp.current = s.rqp.current) : t.QueueInv := by
  obtain ⟨a, b, c, d, e, f⟩ := h
  constructor <;> simp only [hq, hr, hc] <;> assumption

/-- The oldest entry is IN_SERVICE with this request, and the others wait. -/
structure Serving (s : State) (r : Request) (rest : List Entry) : Prop where
  bounded : s.slp.queue.length ≤ 8
  head : ∃ e, s.slp.queue = e :: rest ∧ e.mark = .inService ∧ e.req = r
  restWaiting : ∀ e ∈ rest, e.mark = .waiting ∧ e.dropped = false

theorem Serving.congr {s t : State} {r rest} (h : Serving s r rest)
    (hq : t.slp.queue = s.slp.queue) : Serving t r rest := by
  obtain ⟨a, b, c⟩ := h
  exact ⟨by rw [hq]; exact a, by rw [hq]; exact b, c⟩

theorem State.QueueInv.serving {s : State} (h : s.QueueInv) {c : Current}
    (hc : s.rqp.current = some c) : ∃ rest, Serving s c.req rest := by
  obtain ⟨e, he, hm, hr⟩ := h.headServed c hc
  cases hq : s.slp.queue with
  | nil => simp [hq] at he
  | cons g rest =>
    simp [hq] at he
    subst he
    refine ⟨rest, by have := h.bounded; omega, ⟨g, hq, hm, hr⟩, ?_⟩
    have := h.restWaiting
    simpa [hq] using this

theorem Serving.endRequest {s : State} {r rest} (h : Serving s r rest) :
    s.endRequest.slp.queue = rest := by
  obtain ⟨e, hq, hm, _⟩ := h.head
  simp [State.endRequest, hq, hm]

/-- A queue of waiting entries with no request in the request path. -/
theorem idle_queueInv {t : State} (hb : t.slp.queue.length ≤ 8)
    (hw : ∀ e ∈ t.slp.queue, e.mark = .waiting ∧ e.dropped = false) (hs : t.rqp.stage = .waiting)
    (hc : t.rqp.current = none) : t.QueueInv := by
  constructor
  · exact hb
  · exact fun e he => hw e (List.mem_of_mem_tail he)
  · simp [hc]
  · exact fun _ e he => hw e (List.mem_of_mem_head? he)
  · simp [hs, hc]
  · simp [hs]

theorem Serving.ended {s t : State} {r rest} (h : Serving s r rest)
    (hq : t.slp.queue = s.endRequest.slp.queue) (hs : t.rqp.stage = .waiting)
    (hc : t.rqp.current = none) : t.QueueInv := by
  have hb := h.bounded
  obtain ⟨e, hq', _⟩ := h.head
  apply idle_queueInv
  · rw [hq, h.endRequest]; simp [hq'] at hb; omega
  · rw [hq, h.endRequest]; exact h.restWaiting
  · exact hs
  · exact hc

theorem Serving.respond {s : State} {r rest} (h : Serving s r rest) (x : Response) :
    (s.respond x).QueueInv :=
  h.ended rfl rfl rfl

theorem Serving.dropRequest {s : State} {r rest} (h : Serving s r rest) : s.dropRequest.QueueInv :=
  h.ended rfl rfl rfl

/-- The request path holds the request of the oldest entry. -/
theorem Serving.working {s t : State} {r rest} (h : Serving s r rest)
    (hq : t.slp.queue = s.slp.queue) (hc : t.rqp.current.map Current.req = some r)
    (h1 : t.rqp.stage ≠ .waiting) (h2 : t.rqp.stage ≠ .check) : t.QueueInv := by
  obtain ⟨e, hq', hm, hr'⟩ := h.head
  constructor
  · rw [hq]; exact h.bounded
  · rw [hq, hq']; exact h.restWaiting
  · intro c' hc'
    rw [hc'] at hc
    simp at hc
    exact ⟨e, by rw [hq, hq']; rfl, hm, by rw [hr', hc]⟩
  · intro h0
    simp [h0] at hc
  · refine ⟨fun h0 => absurd h0 h1, fun h0 => ?_⟩
    simp [h0] at hc
  · exact h2

theorem Serving.goData {s : State} {r rest} (h : Serving s r rest) {c : Current} (hr : c.req = r) :
    (s.goData c).QueueInv := by
  unfold State.goData
  split
  · exact h.respond _
  · exact h.working (by simp) (by simpa using hr) (by simp) (by simp)

theorem Serving.nextMissed {s : State} {r rest} (h : Serving s r rest) {c : Current}
    (hr : c.req = r) : (s.nextMissed c).QueueInv := by
  unfold State.nextMissed
  split
  · exact h.goData hr
  · split
    · exact h.goData hr
    · exact h.working (by simp) (by simpa using hr) (by simp) (by simp)

theorem rqpComplete_queueInv {s : State} (h : s.QueueInv) (data : List Byte) :
    (s.rqpComplete data).QueueInv := by
  unfold State.rqpComplete
  split
  · exact h
  · rename_i c hc
    obtain ⟨rest, hv⟩ := h.serving hc
    have hcount : Serving (s.countRecord c) c.req rest := hv.congr (by simp)
    split
    · split
      · exact hcount.dropRequest
      · exact hv.dropRequest
    · split
      · unfold State.logReadDone
        split
        · exact hv.goData rfl
        · exact hv.working (by simp) (by simp) (by simp) (by simp)
      · unfold State.logDataDone
        split
        · exact hv.working (by simp) (by simp [hc]) (by simp) (by simp)
        · exact h
      · exact hcount.nextMissed rfl
      · rename_i hs
        unfold State.lineDone
        dsimp only
        split
        · exact hv.respond _
        · exact hv.working (by simp) (by simp) (by simp [hs]) (by simp [hs])
      · exact h
      · exact h

theorem Serving.checkRequest {s : State} {r rest} (h : Serving s r rest) :
    (s.checkRequest r).QueueInv := by
  have hf : ∀ k reg, (s.faultRequest r k reg).QueueInv := fun k reg => by
    unfold State.faultRequest
    exact (h.congr (by simp)).respond _
  have hs : ∀ c : Current, c.req = r → (s.serve c).QueueInv := fun c hr => by
    unfold State.serve
    exact (h.congr (by simp)).nextMissed hr
  unfold State.checkRequest
  split
  · exact h.respond _
  · dsimp only
    split
    · exact h.respond _
    · split
      · exact h.respond _
      · split
        · exact hf _ _
        · unfold State.settle
          dsimp only
          split
          · exact h.respond _
          · split
            · exact hs _ rfl
            · exact hs _ rfl
            · split
              · exact hs _ rfl
              · split
                · exact hf _ _
                · unfold State.serve
                  exact (h.congr (by simp)).nextMissed rfl

theorem hostResetLink_queueInv {s : State} (h : s.QueueInv) : s.hostResetLink.QueueInv := by
  have hall : ∀ l : List Entry, (∀ e ∈ l, e.mark = .waiting ∧ e.dropped = false) →
      l.filter (fun e => e.mark == .inService) = [] := by
    intro l hl
    rw [List.filter_eq_nil_iff]
    intro e he
    simp [(hl e he).1]
  unfold State.hostResetLink
  dsimp only
  cases hc : s.rqp.current with
  | none =>
    have hw : ∀ e ∈ s.slp.queue, e.mark = .waiting ∧ e.dropped = false := by
      intro e he
      cases hq : s.slp.queue with
      | nil => simp [hq] at he
      | cons g rest =>
        rw [hq] at he
        rcases List.mem_cons.mp he with h1 | h1
        · subst h1; exact h.headWaiting hc _ (by simp [hq])
        · exact h.restWaiting e (by simpa [hq] using h1)
    have hst := h.stageWaiting.mpr hc
    rw [hall _ hw]
    split
    · exact idle_queueInv (by simp) (by simp) (by simpa using hst) (by simpa using hc)
    · exact idle_queueInv (by simp [State.dropRequest, State.endRequest])
        (by simp [State.dropRequest, State.endRequest]) rfl rfl
  | some c =>
    obtain ⟨rest, hv⟩ := h.serving hc
    obtain ⟨e, hq, hm, hr⟩ := hv.head
    have hstage : s.rqp.stage ≠ .waiting := fun h0 => by
      rw [h.stageWaiting.mp h0] at hc; cases hc
    have hnew : (s.slp.queue.filter (fun e => e.mark == .inService)).map
        (fun e => { e with dropped := true }) = [{ e with dropped := true }] := by
      rw [hq, List.filter_cons]
      simp [hm, hall rest hv.restWaiting]
    rw [hnew]
    have hv2 : Serving ((s.setSlp { s.slp with
        queue := [{ e with dropped := true }], gateOpen := false }).raise .hostReset) c.req [] :=
      ⟨by simp, ⟨{ e with dropped := true }, rfl, hm, hr⟩, by simp⟩
    split
    · exact hv2.working rfl (by simp [hc]) (by simpa using hstage)
        (by simpa using h.stageNotCheck)
    · exact hv2.dropRequest

theorem requestAccept_queueInv {s : State} (h : s.QueueInv) (r : Request) :
    (after (.requestAccept r) s).QueueInv := by
  simp only [after, exec, execRequestAccept]
  split
  · rename_i hc
    simp [Config.queueCapacity] at hc
    have hl : s.slp.queue.length < 8 := of_decide_eq_true hc.1.1.2
    constructor
    · simp only [State.setSlp_slp, List.length_append, List.length_singleton]; omega
    · intro e he
      cases hq : s.slp.queue with
      | nil => simp [hq] at he
      | cons g rest =>
        simp [hq] at he
        rcases he with he | he
        · exact h.restWaiting e (by simpa [hq] using he)
        · subst he; exact ⟨rfl, rfl⟩
    · intro c hc'
      obtain ⟨e, he, h1, h2⟩ := h.headServed c (by simpa using hc')
      refine ⟨e, ?_, h1, h2⟩
      cases hq : s.slp.queue with
      | nil => simp [hq] at he
      | cons g rest => simpa [hq] using he
    · intro hc' e he
      cases hq : s.slp.queue with
      | nil => simp [hq] at he; subst he; exact ⟨rfl, rfl⟩
      | cons g rest =>
        exact h.headWaiting (by simpa using hc') e (by simpa [hq] using he)
    · simpa using h.stageWaiting
    · simpa using h.stageNotCheck
  · exact h

theorem requestTake_queueInv {s : State} (h : s.QueueInv) :
    (after .requestTake s).QueueInv := by
  simp only [after, exec, execRequestTake]
  split
  · split
    · rename_i e rest hq
      have hb := h.bounded
      have hw := h.restWaiting
      rw [hq] at hb hw
      exact Serving.checkRequest (rest := rest) ⟨by simpa using hb, ⟨{ e with mark := .inService }, rfl, rfl, rfl⟩, hw⟩
    · exact h
  · exact h

end Sys2Proof.Machine
end

