-- ==== Sys2Proof/Laws/Stack.lean ====
section
/-! SUPPORT. The epoch stack, the log head and the rollback engine: what each operation keeps of
State.StackInv. -/
namespace Sys2Proof.Machine

/-- The invariant speaks of the epoch stack unit, the head, and the request path's stage and request. -/
theorem State.StackInv.congr {s t : State} (h : s.StackInv) (he : t.esu = s.esu)
    (hu : t.ulc.head = s.ulc.head) (hr : t.rqp.stage = s.rqp.stage)
    (hc : t.rqp.current = s.rqp.current) : t.StackInv := by
  have htop : t.topFrame = s.topFrame := by unfold State.topFrame; rw [he]
  obtain ⟨a, b, c, d, d', e, f, g, h, i, j, k, l⟩ := h
  constructor <;> simp only [he, hu, hr, hc, htop] <;> assumption

/-- The engine runs and is about to take a step. -/
structure Stepping (s : State) : Prop where
  frames : framesOk s.esu.stack s.ulc.head
  depthBound : s.esu.stack.length ≤ 8
  nextLow : 1 ≤ s.esu.nextSerial
  nextHigh : s.esu.nextSerial ≤ 65535
  carriedShort : s.esu.carried.length ≤ 7
  idleStage : s.rqp.current = none → s.rqp.stage = .waiting
  kind : s.esu.engine.kind ≠ none
  awaits : s.esu.engine.awaits = false
  noLog : s.rqp.stage.logs = false

theorem popFrames_spec (k : RollbackKind) (head : Nat) : ∀ l : List Frame, framesOk l head →
    (∀ f, l.head? = some f → f.start = head) →
    framesOk (popFrames k head l).1 (if (popFrames k head l).1 = [] then 0 else head) ∧
    (popFrames k head l).1.length ≤ l.length ∧
    ((popFrames k head l).2 = none → ∃ f rest, (popFrames k head l).1 = f :: rest ∧ f.start < head)
  | [], _, _ => by simp [popFrames, framesOk]
  | [f], _, _ => by simp [popFrames, framesOk]
  | f :: top :: rest, h, hs => by
    have h0 : f.start = head := hs f rfl
    have h1 : framesOk (top :: rest) head := h0 ▸ h.2.2.2.2.2.2
    unfold popFrames
    dsimp only
    split
    · exact ⟨by simpa using h1, by simp, by simp⟩
    · split
      · exact ⟨by simpa using h1, by simp, by simp⟩
      · split
        · exact ⟨by simpa using h1, by simp, fun _ => ⟨_, _, rfl, by assumption⟩⟩
        · have := popFrames_spec k head (top :: rest) h1 (by
            rintro g hg; cases hg
            have := h1.2.2.2.2.1; omega)
          refine ⟨this.1, ?_, this.2.2⟩
          have := this.2.1
          simp at this ⊢; omega

theorem framesOk.mono {l : List Frame} {a b : Nat} (h : framesOk l a) (hab : a ≤ b) (hl : l ≠ []) :
    framesOk l b := by
  cases l with
  | nil => exact absurd rfl hl
  | cons f r =>
    obtain ⟨h1, h2, h3, h4, h5, h6⟩ := h
    exact ⟨h1, h2, h3, h4, by omega, h6⟩

theorem framesOk.lower {f : Frame} {l : List Frame} {a b : Nat} (h : framesOk (f :: l) a)
    (hb : f.start ≤ b) : framesOk (f :: l) b := by
  obtain ⟨h1, h2, h3, h4, h5, h6⟩ := h
  exact ⟨h1, h2, h3, h4, hb, h6⟩

theorem framesOk.broken : ∀ {l : List Frame} {a : Nat}, framesOk l a →
    framesOk (l.map (fun f => { f with broken := true })) a
  | [], _, h => h
  | f :: r, _, ⟨h1, h2, h3, h4, h5, _, h7⟩ => by
    refine ⟨by simpa using h1, h2, h3, ?_, h5, by simp, h7.broken⟩
    simpa [List.map_map, Function.comp_def] using h4

theorem idle_stackInv {s : State} (h1 : framesOk s.esu.stack s.ulc.head)
    (h2 : s.esu.stack.length ≤ 8) (h3 : 1 ≤ s.esu.nextSerial) (h4 : s.esu.nextSerial ≤ 65535)
    (h4' : s.esu.carried.length ≤ 7) (h5 : s.rqp.current = none → s.rqp.stage = .waiting) (h6 : s.esu.engine = Engine.idle) :
    s.StackInv := by
  constructor <;> simp_all [Engine.idle]

theorem beginRecord_stackInv {s : State} (h : Stepping s) {f rest} (hf : s.esu.stack = f :: rest)
    (hlt : f.start < s.ulc.head) : s.beginRecord.StackInv := by
  constructor
  case frames => simpa using h.frames
  case depthBound => simpa using h.depthBound
  case nextLow => simpa using h.nextLow
  case nextHigh => simpa using h.nextHigh
  case carriedShort => simpa using h.carriedShort
  case idleStage => simpa using h.idleStage
  case idleKind => simpa using h.kind
  case idleRecord => simp
  case busyStack => simp [hf]
  case busyRecord => simp
  case recordNewest =>
    intro r hr
    simp [Ulc.recordRef] at hr
    subst hr
    simp [State.topFrame, hf]
    omega
  case awaitsFirst => simp [h.awaits]
  case noLogging => intros; simpa using h.noLog

theorem popTop_stackInv {s : State} (h : Stepping s)
    (hs : ∀ f, s.topFrame = some f → ¬ f.start < s.ulc.head) : s.popTop.StackInv := by
  have sp := popFrames_spec (s.esu.engine.kind.getD .single) s.ulc.head s.esu.stack h.frames (by
    intro f hf
    have h1 := hs f hf
    have h2 := h.frames
    cases hl : s.esu.stack with
    | nil => simp [hl] at hf
    | cons g l =>
      rw [hl] at h2 hf; cases hf
      have := h2.2.2.2.2.1; omega)
  have hd := h.depthBound
  unfold State.popTop
  dsimp only
  generalize popFrames (s.esu.engine.kind.getD .single) s.ulc.head s.esu.stack = r at *
  obtain ⟨r1, r2⟩ := r
  obtain ⟨p1, p2, p3⟩ := sp
  have hd' : r1.length ≤ 8 := by simp at p2; omega
  cases r2 with
  | some o =>
    dsimp only
    apply idle_stackInv
    · cases r1 <;> simpa using p1
    · cases r1 with
      | nil => simp
      | cons _ _ => simpa [-List.length_cons] using hd'
    · cases r1 <;> simpa using h.nextLow
    · cases r1 <;> simpa using h.nextHigh
    · cases r1 with
      | nil => simp
      | cons _ _ => simpa using h.carriedShort
    · cases r1 <;> simpa using h.idleStage
    · cases r1 <;> simp
  | none =>
    obtain ⟨f, rest, e, hlt⟩ := p3 rfl
    dsimp only at e
    subst e
    dsimp only [List.isEmpty_cons]
    apply beginRecord_stackInv (f := f) (rest := rest)
    · constructor
      · simpa using p1
      · simpa using hd'
      · simpa using h.nextLow
      · simpa using h.nextHigh
      · simpa using h.carriedShort
      · simpa using h.idleStage
      · simpa using h.kind
      · simpa using h.awaits
      · simpa using h.noLog
    · simp
    · simpa using hlt

theorem engineStep_stackInv {s : State} (h : Stepping s) : s.engineStep.StackInv := by
  unfold State.engineStep
  split
  · rename_i f hf
    split
    · cases hl : s.esu.stack with
      | nil => simp [State.topFrame, hl] at hf
      | cons g l =>
        simp [State.topFrame, hl] at hf; subst hf
        exact beginRecord_stackInv h hl (by assumption)
    · exact popTop_stackInv h (by intro g hg; rw [hf] at hg; cases hg; assumption)
  · rename_i hf
    exact popTop_stackInv h (by intro g hg; rw [hf] at hg; cases hg)

theorem startRollback_stackInv {s : State} (h : s.StackInv) (hne : s.esu.stack ≠ [])
    (k : RollbackKind) : (s.startRollback k).StackInv := by
  unfold State.startRollback
  dsimp only
  split
  · apply idle_stackInv
    · simpa using h.frames
    · simpa using h.depthBound
    · simpa using h.nextLow
    · simpa using h.nextHigh
    · simpa using h.carriedShort
    · simpa using h.idleStage
    · simp
  · split
    · rename_i hc
      have hn : s.rqp.current ≠ none := by
        intro h0; simp [State.holdsPastCheck, h0] at hc
      constructor
      case frames => simpa using h.frames
      case depthBound => simpa using h.depthBound
      case nextLow => simpa using h.nextLow
      case nextHigh => simpa using h.nextHigh
      case carriedShort => simpa using h.carriedShort
      case idleStage => simpa using h.idleStage
      all_goals simp [hne, hc, hn]
    · rename_i hc
      have hcur : s.rqp.current = none := by simpa [State.holdsPastCheck] using hc
      apply engineStep_stackInv
      constructor
      · simpa using h.frames
      · simpa using h.depthBound
      · simpa using h.nextLow
      · simpa using h.nextHigh
      · simpa using h.carriedShort
      · simpa using h.idleStage
      · simp
      · simpa using hc
      · simp [h.idleStage hcur, Stage.logs]

/-- A running engine that waits for nothing takes a step from a state like `s`, with the head at `n`. -/
theorem stepping_of {s t : State} (h : s.StackInv) (hb : s.esu.engine.state ≠ .idle)
    (ha : s.esu.engine.awaits = false) (hstack : t.esu.stack = s.esu.stack)
    (hnext : t.esu.nextSerial = s.esu.nextSerial) (hcar : t.esu.carried = s.esu.carried)
    (hkind : t.esu.engine.kind = s.esu.engine.kind)
    (hta : t.esu.engine.awaits = false) (hr : t.rqp = s.rqp)
    (hlow : ∀ f, s.topFrame = some f → f.start ≤ t.ulc.head) : Stepping t := by
  constructor
  · rw [hstack]
    have hf := h.frames
    cases hl : s.esu.stack with
    | nil => exact absurd hl (h.busyStack hb)
    | cons g l => exact (hl ▸ hf).lower (hlow g (by simp [State.topFrame, hl]))
  · rw [hstack]; exact h.depthBound
  · rw [hnext]; exact h.nextLow
  · rw [hnext]; exact h.nextHigh
  · rw [hcar]; exact h.carriedShort
  · rw [hr]; exact h.idleStage
  · rw [hkind]; exact fun h0 => hb (h.idleKind.mpr h0)
  · exact hta
  · rw [hr]; exact h.noLogging hb ha

theorem firstStep_stackInv {s : State} (h : s.StackInv) (hd : s.firstStepDue = true) :
    s.engineStep.StackInv := by
  simp [State.firstStepDue] at hd
  obtain ⟨⟨h1, h2⟩, h3⟩ := hd
  refine engineStep_stackInv (stepping_of h (by simp [h1]) h3 rfl rfl rfl rfl h3 rfl fun f hf => ?_)
  have hf' := h.frames
  cases hl : s.esu.stack with
  | nil => simp [State.topFrame, hl] at hf
  | cons g l =>
    simp [State.topFrame, hl] at hf
    subst hf
    exact (hl ▸ hf').2.2.2.2.1

theorem engineComplete_stackInv {s : State} (h : s.StackInv) (data : List Byte) :
    (s.engineComplete data).StackInv := by
  have aw : s.esu.engine.record ≠ none → s.esu.engine.awaits = false := by
    intro hr
    by_contra ha
    exact hr (h.awaitsFirst (by simpa using ha)).2.1
  unfold State.engineComplete
  split
  · -- header read
    rename_i ref hs hr
    have hb : s.esu.engine.state ≠ .idle := by simp [hs]
    have ha := aw (by simp [hr])
    unfold State.headerRead
    dsimp only
    split
    · refine engineStep_stackInv (stepping_of h hb ha (by simp) (by simp) (by simp) (by simp)
        (by simpa using ha) (by simp) fun f hf => ?_)
      obtain ⟨r1, r2⟩ := h.recordNewest ref hr
      have := r2 f hf
      simp; omega
    · constructor
      case frames => simpa using h.frames
      case depthBound => simpa using h.depthBound
      case nextLow => simpa using h.nextLow
      case nextHigh => simpa using h.nextHigh
      case carriedShort => simpa using h.carriedShort
      case idleStage => simpa using h.idleStage
      case idleKind => simpa using fun h0 => hb (h.idleKind.mpr h0)
      case idleRecord => simp
      case busyStack => simpa using h.busyStack hb
      case busyRecord => simp [hr]
      case recordNewest =>
        intro r h0
        have h0 : s.esu.engine.record = some r := by simpa using h0
        simpa [State.topFrame] using h.recordNewest r h0
      case awaitsFirst => simp [ha]
      case noLogging => intros; simpa using h.noLogging hb ha
  · -- data read
    rename_i line hs hl
    have hb : s.esu.engine.state ≠ .idle := by simp [hs]
    have hr := h.busyRecord (.inl hs)
    have ha := aw hr
    constructor
    case frames => simpa using h.frames
    case depthBound => simpa using h.depthBound
    case nextLow => simpa using h.nextLow
    case nextHigh => simpa using h.nextHigh
    case carriedShort => simpa using h.carriedShort
    case idleStage => simpa using h.idleStage
    case idleKind => simpa using fun h0 => hb (h.idleKind.mpr h0)
    case idleRecord => simp
    case busyStack => simpa using h.busyStack hb
    case busyRecord => simpa using hr
    case recordNewest =>
      intro r h0
      have h0 : s.esu.engine.record = some r := by simpa using h0
      simpa [State.topFrame] using h.recordNewest r h0
    case awaitsFirst => simp [ha]
    case noLogging => intros; simpa using h.noLogging hb ha
  · -- restore write
    rename_i line hs hl
    have hb : s.esu.engine.state ≠ .idle := by simp [hs]
    have hr := h.busyRecord (.inr hs)
    have ha := aw hr
    obtain ⟨ref, hr⟩ := Option.ne_none_iff_exists'.mp hr
    unfold State.restoreDone
    refine engineStep_stackInv (stepping_of h hb ha (by simp) (by simp) (by simp) (by simp) (by simpa using ha)
      (by simp) fun f hf => ?_)
    obtain ⟨r1, r2⟩ := h.recordNewest ref hr
    have := r2 f hf
    simp; omega
  · exact h

/-! ### The request path's side -/

theorem ended_stackInv {s t : State} (h : s.StackInv)
    (he : t.esu = { s.esu with engine := { s.esu.engine with awaits := false } })
    (hu : t.ulc.head = s.ulc.head) (hst : t.rqp.stage = .waiting) : t.StackInv := by
  have htop : t.topFrame = s.topFrame := by unfold State.topFrame; rw [he]
  constructor
  case frames => rw [he, hu]; exact h.frames
  case depthBound => rw [he]; exact h.depthBound
  case nextLow => rw [he]; exact h.nextLow
  case nextHigh => rw [he]; exact h.nextHigh
  case carriedShort => rw [he]; exact h.carriedShort
  case idleStage => exact fun _ => hst
  case idleKind => rw [he]; exact h.idleKind
  case idleRecord => rw [he]; exact fun h0 => ⟨(h.idleRecord h0).1, rfl⟩
  case busyStack => rw [he]; exact h.busyStack
  case busyRecord => rw [he]; exact h.busyRecord
  case recordNewest => rw [he, hu, htop]; exact h.recordNewest
  case awaitsFirst => rw [he]; simp
  case noLogging => simp [hst, Stage.logs]

theorem respond_stackInv {s : State} (h : s.StackInv) (r : Response) : (s.respond r).StackInv :=
  ended_stackInv h rfl rfl rfl

theorem dropRequest_stackInv {s : State} (h : s.StackInv) : s.dropRequest.StackInv :=
  ended_stackInv h rfl rfl rfl

/-- The request path moves to a stage with its request; a stage of the log chain needs an engine that
is idle or waits. -/
theorem working_stackInv {s t : State} (h : s.StackInv) (he : t.esu = s.esu)
    (hu : t.ulc.head = s.ulc.head) (hc : t.rqp.current ≠ none)
    (hl : t.rqp.stage.logs = true → s.esu.engine.state = .idle ∨ s.esu.engine.awaits = true) :
    t.StackInv := by
  have htop : t.topFrame = s.topFrame := by unfold State.topFrame; rw [he]
  constructor
  case frames => rw [he, hu]; exact h.frames
  case depthBound => rw [he]; exact h.depthBound
  case nextLow => rw [he]; exact h.nextLow
  case nextHigh => rw [he]; exact h.nextHigh
  case carriedShort => rw [he]; exact h.carriedShort
  case idleStage => exact fun h0 => absurd h0 hc
  case idleKind => rw [he]; exact h.idleKind
  case idleRecord => rw [he]; exact h.idleRecord
  case busyStack => rw [he]; exact h.busyStack
  case busyRecord => rw [he]; exact h.busyRecord
  case recordNewest => rw [he, hu, htop]; exact h.recordNewest
  case awaitsFirst =>
    rw [he]
    exact fun h0 => ⟨(h.awaitsFirst h0).1, (h.awaitsFirst h0).2.1, hc⟩
  case noLogging =>
    rw [he]
    intro h1 h2
    by_contra h0
    rcases hl (by simpa using h0) with h3 | h3
    · exact h1 h3
    · rw [h2] at h3; cases h3

theorem goData_stackInv {s : State} (h : s.StackInv) (c : Current) : (s.goData c).StackInv := by
  unfold State.goData
  split
  · exact respond_stackInv h _
  · exact working_stackInv h (by simp) (by simp) (by simp) (by simp [Stage.logs])

theorem nextMissed_stackInv {s : State} (h : s.StackInv) (c : Current)
    (hl : c.missed ≠ [] → s.esu.engine.state = .idle ∨ s.esu.engine.awaits = true) :
    (s.nextMissed c).StackInv := by
  unfold State.nextMissed
  split
  · exact goData_stackInv h c
  · rename_i he
    split
    · exact goData_stackInv h c
    · exact working_stackInv h (by simp) (by simp) (by simp) (fun _ => hl (by simp [he]))

/-- While the request path is in its log chain the engine is idle or waits (R47). -/
theorem State.StackInv.chain {s : State} (h : s.StackInv) (hl : s.rqp.stage.logs = true) :
    s.esu.engine.state = .idle ∨ s.esu.engine.awaits = true := by
  by_contra h0
  simp only [not_or, Bool.not_eq_true] at h0
  have := h.noLogging h0.1 h0.2
  rw [hl] at this
  cases this

theorem countRecord_stackInv {s : State} (h : s.StackInv) (c : Current)
    (hl : s.rqp.stage.logs = true) : (s.countRecord c).StackInv := by
  have key : ∀ t : State, t.esu = s.esu → t.ulc.head = s.ulc.head + 1 → t.rqp = s.rqp → s.depth ≠ 0 →
      t.StackInv := by
    intro t he hu hr hd
    have htop : t.topFrame = s.topFrame := by unfold State.topFrame; rw [he]
    constructor
    case frames =>
      rw [he, hu]
      exact h.frames.mono (by omega) (fun h0 => hd (by simp [State.depth, h0]))
    case depthBound => rw [he]; exact h.depthBound
    case nextLow => rw [he]; exact h.nextLow
    case nextHigh => rw [he]; exact h.nextHigh
    case carriedShort => rw [he]; exact h.carriedShort
    case idleStage => rw [hr]; exact h.idleStage
    case idleKind => rw [he]; exact h.idleKind
    case idleRecord => rw [he]; exact h.idleRecord
    case busyStack => rw [he]; exact h.busyStack
    case busyRecord => rw [he]; exact h.busyRecord
    case recordNewest =>
      rw [he]
      intro r h0
      exfalso
      rcases h.chain hl with h1 | h1
      · rw [(h.idleRecord h1).1] at h0; cases h0
      · rw [(h.awaitsFirst h1).2.1] at h0; cases h0
    case awaitsFirst => rw [he, hr]; exact h.awaitsFirst
    case noLogging => rw [he, hr]; exact h.noLogging
  unfold State.countRecord
  split
  · exact h
  · rename_i hd
    split
    · exact key _ (by simp) (by simp) (by simp) hd
    · exact key _ (by simp) (by simp) (by simp) hd

theorem countRecord_rqp (s : State) (c : Current) : (s.countRecord c).rqp = s.rqp := by simp

theorem countRecord_esu (s : State) (c : Current) : (s.countRecord c).esu = s.esu := by simp

theorem rqpComplete_stackInv {s : State} (h : s.StackInv) (data : List Byte) :
    (s.rqpComplete data).StackInv := by
  unfold State.rqpComplete
  split
  · exact h
  · rename_i c hc
    split
    · apply dropRequest_stackInv
      split
      · rename_i hs
        exact countRecord_stackInv h c (by simp [hs, Stage.logs])
      · exact h
    · split
      · rename_i hs
        unfold State.logReadDone
        split
        · exact goData_stackInv h c
        · exact working_stackInv h (by simp) (by simp) (by simp)
            (fun _ => h.chain (by simp [hs, Stage.logs]))
      · rename_i hs
        unfold State.logDataDone
        split
        · exact working_stackInv h (by simp) (by simp) (by simp [hc])
            (fun _ => h.chain (by simp [hs, Stage.logs]))
        · exact h
      · rename_i hs
        have hl : s.rqp.stage.logs = true := by simp [hs, Stage.logs]
        exact nextMissed_stackInv (countRecord_stackInv h c hl) _
          (fun _ => by rw [countRecord_esu]; exact h.chain hl)
      · unfold State.lineDone
        dsimp only
        split
        · exact respond_stackInv h _
        · exact working_stackInv h (by simp) (by simp) (by simp)
            (fun h0 => by
              rename_i hs _ _ _ _
              simp [hs, Stage.logs] at h0)
      · exact h
      · exact h

theorem breakFrames_stackInv {s : State} (h : s.StackInv) (hi : s.esu.engine.state = .idle) :
    s.breakFrames.StackInv := by
  constructor
  case frames => simpa using h.frames.broken
  case depthBound => simpa using h.depthBound
  case nextLow => simpa using h.nextLow
  case nextHigh => simpa using h.nextHigh
  case carriedShort => simpa using h.carriedShort
  case idleStage => simpa using h.idleStage
  case idleKind => simpa using h.idleKind
  case idleRecord => simpa using h.idleRecord
  case busyStack => simp [hi]
  case busyRecord => simp [hi]
  case recordNewest => simp [(h.idleRecord hi).1]
  case awaitsFirst => simp [(h.idleRecord hi).2]
  case noLogging => simp [hi]

/-! ### Commands and events -/

theorem openAct_stackInv {s : State} (h : s.StackInv) (args : List Byte) :
    (openAct args s).1.StackInv := by
  unfold openAct
  split
  · exact h
  · split
    · exact h
    · rename_i hb
      split
      · exact h
      · split
        · exact h
        · rename_i hd
          have hi : s.esu.engine.state = .idle := by
            simp [State.rollbackInProgress] at hb
            exact hb.1
          have hl : s.esu.stack.length < 8 := by
            simpa [State.depth, Config.stackCapacity] using hd
          obtain ⟨⟨a1, a2⟩, a3, a4⟩ := allocation_range h.nextLow h.nextHigh
          have af : s.allocation.serial ∉ s.esu.stack.map Frame.serial :=
            (allocation_fresh h.nextLow h.nextHigh h.depthBound h.carriedShort).1
          have ac : (s.carriedAfter s.allocation).length ≤ 7 :=
            carriedAfter_short (by omega) h.carriedShort _
          have key : ∀ t : State, t.rqp = s.rqp → t.ulc = s.ulc →
              t.esu = { s.esu with
                stack := { depth := s.depth + 1, serial := s.allocation.serial, start := s.ulc.head, broken := false } :: s.esu.stack
                nextSerial := s.allocation.next
                carried := s.carriedAfter s.allocation } → t.StackInv := by
            intro t hr hu he
            constructor
            case frames =>
              rw [he, hu]
              exact ⟨rfl, a1, a2, af, Nat.le_refl _, by simp, h.frames⟩
            case depthBound => rw [he]; simp; omega
            case nextLow => rw [he]; exact a3
            case nextHigh => rw [he]; exact a4
            case carriedShort => rw [he]; exact ac
            case idleStage => rw [hr]; exact h.idleStage
            case idleKind => rw [he]; exact h.idleKind
            case idleRecord => rw [he]; exact h.idleRecord
            case busyStack => rw [he]; simp
            case busyRecord => rw [he]; exact h.busyRecord
            case recordNewest => rw [he]; simp [(h.idleRecord hi).1]
            case awaitsFirst => rw [he, hr]; exact h.awaitsFirst
            case noLogging => rw [he, hr]; exact h.noLogging
          dsimp only
          split <;> exact key _ (by simp) (by simp) (by simp)

theorem commitAct_stackInv {s : State} (h : s.StackInv) (args : List Byte) :
    (commitAct args s).1.StackInv := by
  unfold commitAct
  split
  · exact h
  · rename_i hb
    have hi : s.esu.engine.state = .idle := by simpa [State.rollbackInProgress] using hb
    have key : ∀ t : State, t.rqp = s.rqp → framesOk t.esu.stack t.ulc.head → t.esu.stack.length ≤ 8 →
        t.esu.nextSerial = s.esu.nextSerial → t.esu.carried.length ≤ 7 →
        t.esu.engine = s.esu.engine → t.StackInv := by
      intro t hr hf hd hn hk he
      constructor
      case frames => exact hf
      case depthBound => exact hd
      case nextLow => rw [hn]; exact h.nextLow
      case nextHigh => rw [hn]; exact h.nextHigh
      case carriedShort => exact hk
      case idleStage => rw [hr]; exact h.idleStage
      case idleKind => rw [he]; exact h.idleKind
      case idleRecord => rw [he]; exact h.idleRecord
      case busyStack => rw [he]; simp [hi]
      case busyRecord => rw [he]; simp [hi]
      case recordNewest => rw [he]; simp [(h.idleRecord hi).1]
      case awaitsFirst => rw [he, hr]; exact h.awaitsFirst
      case noLogging => rw [he, hr]; exact h.noLogging
    have hf := h.frames
    have hd := h.depthBound
    split
    · exact h
    · exact key _ (by simp) (by simp [framesOk]) (by simp) (by simp) (by simp) (by simp)
    · rename_i top below rest hs
      rw [hs] at hf hd
      obtain ⟨f1, f2, f3, f4, f5, f6, g1, g2, g3, g4, g5, g6, g7⟩ := hf
      refine key _ (by simp) ?_ (by simp at hd ⊢; omega) (by simp)
        (by simpa using h.carriedShort) (by simp)
      exact ⟨g1, f2, f3, fun hm => f4 (by simp at hm ⊢; exact .inr hm), by simp at f5 ⊢; omega, g6, g7⟩

theorem rollbackRefusal_none {s : State} (h : s.rollbackRefusal = none) :
    s.esu.stack ≠ [] ∧ s.rollbackInProgress = false ∧ s.topBroken = false := by
  unfold State.rollbackRefusal at h
  split at h
  · cases h
  · split at h
    · cases h
    · split at h
      · cases h
      · refine ⟨?_, by simpa using ‹¬ s.rollbackInProgress = true›, by simpa using ‹¬ s.topBroken = true›⟩
        intro h0
        apply ‹¬ s.depth = 0›
        simp [State.depth, h0]

theorem rollbackAct_stackInv {s : State} (h : s.StackInv) (args : List Byte) :
    (rollbackAct args s).1.StackInv := by
  unfold rollbackAct
  split
  · exact h
  · exact startRollback_stackInv h (rollbackRefusal_none ‹_›).1 .single

theorem rollbackAllAct_stackInv {s : State} (h : s.StackInv) (args : List Byte) :
    (rollbackAllAct args s).1.StackInv := by
  unfold rollbackAllAct
  split
  · exact h
  · exact startRollback_stackInv h (rollbackRefusal_none ‹_›).1 .all

theorem recover_stackInv {s : State} (h : s.StackInv) : s.recover.StackInv := by
  have key : ∀ k, s.esu.engine.kind = some k →
      (s.setEngine { s.esu.engine with kind := some .recovery }).StackInv := by
    intro k hk
    have hb : s.esu.engine.state ≠ .idle := fun h0 => by rw [h.idleKind.mp h0] at hk; cases hk
    constructor
    case frames => simpa using h.frames
    case depthBound => simpa using h.depthBound
    case nextLow => simpa using h.nextLow
    case nextHigh => simpa using h.nextHigh
    case carriedShort => simpa using h.carriedShort
    case idleStage => simpa using h.idleStage
    case idleKind => simpa using hb
    case idleRecord => simpa using h.idleRecord
    case busyStack => simpa using h.busyStack
    case busyRecord => simpa using h.busyRecord
    case recordNewest => simpa [State.topFrame] using h.recordNewest
    case awaitsFirst => simpa using h.awaitsFirst
    case noLogging => simpa using h.noLogging
  unfold State.recover
  split
  · rename_i hp
    split
    · split
      · exact key _ ‹_›
      · exact key _ ‹_›
      · exact h
      · exact h
      · exact h
    · refine startRollback_stackInv h ?_ _
      intro h0
      have := hp.2
      simp [State.depth, h0] at this
  · exact h

theorem expiryRollback_stackInv {s : State} (h : s.StackInv) (hd : 0 < s.depth) :
    s.expiryRollback.StackInv := by
  have hne : s.esu.stack ≠ [] := by
    intro h0; simp [State.depth, h0] at hd
  unfold State.expiryRollback
  split
  · obtain ⟨a, b, c, d, d', e, f, g, i, j, k, l, m⟩ := h
    constructor <;> simp_all [State.topFrame]
  · dsimp only
    split
    · exact (startRollback_stackInv h hne .supervision).congr (by simp) (by simp) (by simp) (by simp)
    · exact startRollback_stackInv h hne .supervision

theorem supervisionExpiry_stackInv {s : State} (h : s.StackInv) :
    (after .supervisionExpiry s).StackInv := by
  simp only [after, exec, execSupervisionExpiry]
  split
  · rename_i hc
    have hd : 0 < s.depth := by
      simp [State.counting] at hc
      exact hc.1.1.2
    have h1 : ((s.advance s.est.remainingNs).raise .supervision).StackInv :=
      h.congr (by simp) (by simp) (by simp) (by simp)
    have hd1 : 0 < ((s.advance s.est.remainingNs).raise .supervision).depth := by
      simpa [State.depth] using hd
    split
    · exact h1
    · exact h1.congr (by simp) (by simp) (by simp) (by simp)
    · exact expiryRollback_stackInv h1 hd1
    · exact expiryRollback_stackInv h1 hd1
  · exact h

theorem serve_stackInv {s : State} (h : s.StackInv) (c : Current)
    (hl : c.missed ≠ [] → s.esu.engine.state = .idle) : (s.serve c).StackInv := by
  unfold State.serve
  refine nextMissed_stackInv (h.congr ?_ ?_ ?_ ?_) c ?_
  all_goals simp
  intro h0
  exact .inl (hl h0)

/-- The service settled names a logging write only for a protected class (R35). -/
theorem serviceFor_logging {s : State} {r : Request} {cls : LineClass}
    (h : s.serviceFor r cls = .loggingWrite) :
    r.kind = .write ∧ (cls = .tracked ∨ cls = .guarded) ∧ 0 < s.depth ∧ s.topBroken = false := by
  unfold State.serviceFor at h
  cases hk : r.kind with
  | read => simp [hk] at h
  | write =>
    simp only [hk] at h
    split at h
    · rename_i hc
      simp at hc
      exact ⟨rfl, hc.1.1, hc.1.2, hc.2⟩
    · cases h

theorem faultRequest_stackInv {s : State} (h : s.StackInv) (r k reg) :
    (s.faultRequest r k reg).StackInv := by
  unfold State.faultRequest
  exact respond_stackInv (h.congr (by simp) (by simp) (by simp) (by simp)) _

theorem checkRequest_stackInv {s : State} (h : s.StackInv) (r : Request) :
    (s.checkRequest r).StackInv := by
  unfold State.checkRequest
  split
  · exact respond_stackInv h _
  · dsimp only
    split
    · exact respond_stackInv h _
    · rename_i hheld
      split
      · exact respond_stackInv h _
      · rename_i first more hcl
        split
        · exact faultRequest_stackInv h _ _ _
        · unfold State.settle
          dsimp only
          split
          · exact respond_stackInv h _
          · split
            · exact serve_stackInv h _ (by simp)
            · exact serve_stackInv h _ (by simp)
            · rename_i hs
              obtain ⟨_, hcls, _, _⟩ := serviceFor_logging hs
              have hi : s.esu.engine.state = .idle := by
                by_contra h0
                apply hheld
                rw [hcl]
                rcases hcls with h1 | h1 <;>
                  simp [State.rollbackInProgress, h0, Classification.heldByRollback, h1]
              split
              · exact serve_stackInv h _ (fun _ => hi)
              · split
                · exact faultRequest_stackInv h _ _ _
                · exact serve_stackInv (breakFrames_stackInv h hi) _ (by simp)


end Sys2Proof.Machine
end

