-- ==== Sys2Proof/Laws/Room.lean ====
section
/-! SUPPORT. Room in the log: what each operation keeps of State.RoomInv. -/
namespace Sys2Proof.Machine

/-- The invariant speaks of the log controller, the request path and the depth. -/
theorem State.RoomInv.congr {s t : State} (h : s.RoomInv) (hu : t.ulc = s.ulc)
    (hst : t.rqp.stage = s.rqp.stage) (hc : t.rqp.current = s.rqp.current)
    (hs : t.esu.stack = s.esu.stack) : t.RoomInv := by
  obtain ⟨a, b⟩ := h
  have hp : t.holdsProtectedWrite = s.holdsProtectedWrite := by
    unfold State.holdsProtectedWrite; rw [hc]
  have hd : t.depth = s.depth := by unfold State.depth; rw [hs]
  have hl : t.logCapacity = s.logCapacity := by unfold State.logCapacity; rw [hu]
  constructor
  · rw [hl, hu]; exact a
  · rw [hst, hc, hp, hd, hl, hu]; exact b

/-- The head falls, or stays, and the request path is as it was. -/
theorem State.RoomInv.lowered {s t : State} (h : s.RoomInv) (hu : t.ulc.head ≤ s.ulc.head)
    (hp : t.ulc.pages = s.ulc.pages) (hr : t.rqp = s.rqp)
    (hd : s.depth = 0 → t.depth = 0) : t.RoomInv := by
  obtain ⟨a, b⟩ := h
  have hl : t.logCapacity = s.logCapacity := by unfold State.logCapacity; rw [hp]
  have hw : t.holdsProtectedWrite = s.holdsProtectedWrite := by
    unfold State.holdsProtectedWrite; rw [hr]
  constructor
  · omega
  · rw [hr, hw, hl]
    intro h0
    obtain ⟨c, h1, h2, h3, h4⟩ := b h0
    refine ⟨c, h1, h2, h3, ?_⟩
    rcases h4 with h4 | h4
    · exact .inl (hd h4)
    · exact .inr (by omega)

/-- Outside the log chain only the head's bound remains. -/
theorem roomInv_of_head {s : State} (h : s.ulc.head ≤ s.logCapacity)
    (hl : s.rqp.stage.logs = false) : s.RoomInv :=
  ⟨h, fun h0 => by rw [hl] at h0; cases h0⟩

theorem popTop_head_le (s : State) : s.popTop.ulc.head ≤ s.ulc.head := by
  unfold State.popTop
  dsimp only
  split <;> split <;> simp

theorem engineStep_head_le (s : State) : s.engineStep.ulc.head ≤ s.ulc.head := by
  unfold State.engineStep
  split
  · split
    · simp
    · exact popTop_head_le s
  · exact popTop_head_le s

theorem popFrames_nil (k : RollbackKind) (n : Nat) : (popFrames k n []).1 = [] := by simp [popFrames]

theorem popTop_depth (s : State) (h : s.depth = 0) : s.popTop.depth = 0 := by
  have h0 : s.esu.stack = [] := by simpa [State.depth] using h
  unfold State.popTop
  dsimp only
  rw [h0]
  simp [popFrames, State.depth]

theorem engineStep_depth (s : State) (h : s.depth = 0) : s.engineStep.depth = 0 := by
  have h0 : s.esu.stack = [] := by simpa [State.depth] using h
  unfold State.engineStep
  simp only [State.topFrame, h0]
  exact popTop_depth s h

theorem engineStep_roomInv {s : State} (h : s.RoomInv) : s.engineStep.RoomInv :=
  h.lowered (engineStep_head_le s) (by simp) (by simp) (engineStep_depth s)

theorem startRollback_roomInv {s : State} (h : s.RoomInv) (k : RollbackKind) :
    (s.startRollback k).RoomInv := by
  unfold State.startRollback
  dsimp only
  split
  · exact h.congr (by simp) (by simp) (by simp) (by simp)
  · split
    · exact h.congr rfl rfl rfl rfl
    · exact engineStep_roomInv (h.congr rfl rfl rfl rfl)

theorem engineComplete_roomInv {s : State} (h : s.RoomInv) (data : List Byte) :
    (s.engineComplete data).RoomInv := by
  unfold State.engineComplete
  split
  · unfold State.headerRead
    dsimp only
    split
    · exact engineStep_roomInv (h.lowered (by simp) (by simp) (by simp) (by simp [State.depth]))
    · exact h.congr (by simp) (by simp) (by simp) (by simp)
  · exact h.congr (by simp) (by simp) (by simp) (by simp)
  · exact engineStep_roomInv (h.lowered (by simp) (by simp) (by simp) (by simp [State.depth]))
  · exact h

theorem recover_roomInv {s : State} (h : s.RoomInv) : s.recover.RoomInv := by
  unfold State.recover
  split
  · split
    · split <;> first | exact h | exact h.congr rfl rfl rfl rfl
    · exact startRollback_roomInv h _
  · exact h

theorem expiryRollback_roomInv {s : State} (h : s.RoomInv) : s.expiryRollback.RoomInv := by
  unfold State.expiryRollback
  split
  · exact h.congr rfl rfl rfl rfl
  · dsimp only
    split
    · exact (startRollback_roomInv h .supervision).congr rfl rfl rfl rfl
    · exact startRollback_roomInv h .supervision

theorem goData_roomInv {s : State} (h : s.ulc.head ≤ s.logCapacity) (c : Current) :
    (s.goData c).RoomInv := by
  unfold State.goData
  split
  · exact roomInv_of_head h rfl
  · refine roomInv_of_head ?_ (by simp [Stage.logs])
    simpa [State.logCapacity] using h

/-- A request whose class is TRACKED or GUARDED and that writes. -/
def Current.isProtectedWrite (c : Current) : Bool :=
  c.req.kind == .write &&
    (match c.classes.head? with
      | some k => k.cls == .tracked || k.cls == .guarded
      | none => false)

theorem holdsProtectedWrite_of {s : State} {c : Current} (h : s.rqp.current = some c) :
    s.holdsProtectedWrite = c.isProtectedWrite := by
  unfold State.holdsProtectedWrite
  rw [h]
  rfl

theorem nextMissed_roomInv {s : State} (h : s.ulc.head ≤ s.logCapacity) (c : Current)
    (hc : c.missed ≠ [] → c.isProtectedWrite = true ∧
      (s.depth = 0 ∨ s.ulc.head + c.missed.length ≤ s.logCapacity)) : (s.nextMissed c).RoomInv := by
  unfold State.nextMissed
  split
  · exact goData_roomInv h c
  · rename_i hm
    obtain ⟨h1, h2⟩ := hc (by simp [hm])
    split
    · exact goData_roomInv h c
    · refine ⟨by simpa [State.logCapacity] using h, fun _ => ⟨{ c with record := none }, by simp, by simp [hm], ?_, ?_⟩⟩
      · rw [holdsProtectedWrite_of (c := { c with record := none }) (by simp)]
        exact h1
      · simpa [State.depth, State.logCapacity] using h2

theorem rqpComplete_roomInv {s : State} (h : s.RoomInv) (data : List Byte) :
    (s.rqpComplete data).RoomInv := by
  have hh := h.headInLog
  unfold State.rqpComplete
  split
  · exact h
  · rename_i c hc
    have hcount : s.rqp.stage = .logHeader →
        (s.countRecord c).ulc.head ≤ (s.countRecord c).logCapacity ∧
        (c.missed.tail ≠ [] → c.isProtectedWrite = true ∧
          ((s.countRecord c).depth = 0 ∨
            (s.countRecord c).ulc.head + c.missed.tail.length ≤ (s.countRecord c).logCapacity)) := by
      intro hs
      obtain ⟨c', h1, h2, h3, h4⟩ := h.chain (by simp [hs, Stage.logs])
      rw [hc] at h1
      cases h1
      have hlc : (s.countRecord c).logCapacity = s.logCapacity := by simp [State.logCapacity]
      have hdc : (s.countRecord c).depth = s.depth := by simp [State.depth]
      have hhead : (s.countRecord c).ulc.head = if s.depth = 0 then s.ulc.head else s.ulc.head + 1 := by
        unfold State.countRecord
        split
        · rfl
        · split <;> simp
      have hlen : c.missed.length = c.missed.tail.length + 1 := by
        cases hm : c.missed with
        | nil => exact absurd hm h2
        | cons a l => rfl
      rw [holdsProtectedWrite_of hc] at h3
      rw [hlc, hdc, hhead]
      split
      · exact ⟨hh, fun _ => ⟨h3, .inl ‹_›⟩⟩
      · rcases h4 with h4 | h4
        · contradiction
        · exact ⟨by omega, fun _ => ⟨h3, .inr (by omega)⟩⟩
    split
    · split
      · rename_i hs
        refine roomInv_of_head ?_ rfl
        simpa [State.logCapacity] using (hcount hs).1
      · exact roomInv_of_head hh rfl
    · split
      · rename_i hs
        unfold State.logReadDone
        split
        · exact goData_roomInv hh c
        · obtain ⟨c', h1, h2, h3, h4⟩ := h.chain (by simp [hs, Stage.logs])
          rw [hc] at h1
          cases h1
          rw [holdsProtectedWrite_of hc] at h3
          refine ⟨by simpa [State.logCapacity] using hh,
            fun _ => ⟨{ c with record := some (s.ulc.recordRef s.ulc.head) }, by simp, h2, ?_, ?_⟩⟩
          · rw [holdsProtectedWrite_of
              (c := { c with record := some (s.ulc.recordRef s.ulc.head) }) (by simp)]
            exact h3
          · simpa [State.depth, State.logCapacity] using h4
      · rename_i hs
        unfold State.logDataDone
        split
        · obtain ⟨c', h1, h2, h3, h4⟩ := h.chain (by simp [hs, Stage.logs])
          refine ⟨by simpa [State.logCapacity] using hh, fun _ => ⟨c', by simpa using h1, h2, ?_, ?_⟩⟩
          · simpa [State.holdsProtectedWrite] using h3
          · simpa [State.depth, State.logCapacity] using h4
        · exact h
      · rename_i hs
        exact nextMissed_roomInv (hcount hs).1 _ (hcount hs).2
      · rename_i hs
        unfold State.lineDone
        dsimp only
        split
        · exact roomInv_of_head hh rfl
        · refine roomInv_of_head ?_ (by simp [hs, Stage.logs])
          simpa [State.logCapacity] using hh
      · exact h
      · exact h

theorem checkRequest_roomInv {s : State} (h : s.ulc.head ≤ s.logCapacity) (r : Request) :
    (s.checkRequest r).RoomInv := by
  have hend : ∀ t : State, t.ulc = s.ulc → t.rqp.stage = .waiting → t.RoomInv := by
    intro t hu hs
    refine roomInv_of_head ?_ (by simp [hs, Stage.logs])
    unfold State.logCapacity at *
    rw [hu]
    exact h
  have hserve : ∀ (t : State) (c : Current), t.ulc = s.ulc → t.esu.stack.length = s.esu.stack.length →
      (c.missed ≠ [] → c.isProtectedWrite = true ∧ s.ulc.head + c.missed.length ≤ s.logCapacity) →
      (t.serve c).RoomInv := by
    intro t c hu hd hc
    unfold State.serve
    refine nextMissed_roomInv ?_ c ?_
    · simpa [State.logCapacity, hu] using h
    · intro hm
      exact ⟨(hc hm).1, .inr (by simpa [State.logCapacity, hu] using (hc hm).2)⟩
  unfold State.checkRequest
  split
  · exact hend _ rfl rfl
  · dsimp only
    split
    · exact hend _ rfl rfl
    · split
      · exact hend _ rfl rfl
      · rename_i first more hcl
        split
        · exact hend _ (by simp) rfl
        · unfold State.settle
          dsimp only
          split
          · exact hend _ rfl rfl
          · split
            · exact hserve _ _ rfl rfl (by simp)
            · exact hserve _ _ rfl rfl (by simp)
            · rename_i hs
              obtain ⟨hk, hcls, _, _⟩ := serviceFor_logging hs
              split
              · rename_i hroom
                refine hserve _ _ rfl rfl fun _ => ⟨?_, ?_⟩
                · rw [hcl]
                  simpa [Current.isProtectedWrite, hk] using hcls
                · simpa [State.hasRoom] using hroom
              · split
                · exact hend _ (by simp) rfl
                · exact hserve _ _ (by simp) (by simp) (by simp)

theorem openAct_roomInv {s : State} (h : s.RoomInv) (args : List Byte) :
    (openAct args s).1.RoomInv := by
  unfold openAct
  split
  · exact h
  · split
    · exact h
    · rename_i hb
      split
      · exact h
      · split
        · exact h
        · have hp : s.rqp.stage.logs = false := by
            by_contra h0
            obtain ⟨c, _, _, h3, _⟩ := h.chain (by simpa using h0)
            apply hb
            rw [h3]; simp
          have key : ∀ t : State, t.ulc = s.ulc → t.rqp = s.rqp → t.RoomInv := by
            intro t hu hr
            refine roomInv_of_head ?_ (by rw [hr]; exact hp)
            have := h.headInLog
            unfold State.logCapacity at *
            rw [hu]; exact this
          dsimp only
          split <;> exact key _ (by simp) (by simp)

theorem commitAct_roomInv {s : State} (h : s.RoomInv) (args : List Byte) :
    (commitAct args s).1.RoomInv := by
  unfold commitAct
  split
  · exact h
  · split
    · exact h
    · exact h.lowered (by simp) (by simp) (by simp) (by simp [State.depth])
    · rename_i hs
      exact h.lowered (by simp) (by simp) (by simp) (by simp [State.depth, hs])

theorem setLogAct_roomInv {s : State} (h : s.RoomInv) (hs : s.StackInv) (args : List Byte) :
    (setLogAct args s).1.RoomInv := by
  unfold setLogAct
  dsimp only
  split
  · exact h
  · split
    · exact h
    · split
      · exact h
      · rename_i hd
        have hd : s.depth = 0 := by omega
        have h0 : s.ulc.head = 0 := by
          have := hs.frames
          have e : s.esu.stack = [] := by simpa [State.depth] using hd
          rw [e] at this
          exact this
        split
        · exact h
        · split
          · exact h
          · split
            · exact h
            · refine ⟨by simp [h0], fun hl => ?_⟩
              obtain ⟨c, h1, h2, h3, _⟩ := h.chain hl
              exact ⟨c, h1, h2, h3, .inl hd⟩

end Sys2Proof.Machine
end

