-- ==== Sys2Proof/Laws/Timer.lean ====
section
/-! SUPPORT. The supervision timer: what each shared operation keeps of State.TimerInv. -/
namespace Sys2Proof.Machine

section
variable (s : State)

/-! ### What an operation leaves of the timer's setting -/

@[simp] theorem State.endRollback_mode (k : RollbackKind) (o : RollbackOutcome) :
    (s.endRollback k o).est.mode = s.est.mode := by cases k <;> rfl
@[simp] theorem State.popTop_mode : s.popTop.est.mode = s.est.mode := by
  unfold State.popTop; dsimp only; split <;> split <;> simp
@[simp] theorem State.engineStep_mode : s.engineStep.est.mode = s.est.mode := by
  unfold State.engineStep; split <;> (try split) <;> simp
@[simp] theorem State.startRollback_mode (k : RollbackKind) :
    (s.startRollback k).est.mode = s.est.mode := by
  unfold State.startRollback; dsimp only; split <;> (try split) <;> simp
@[simp] theorem State.engineComplete_mode (l : List Byte) :
    (s.engineComplete l).est.mode = s.est.mode := by
  unfold State.engineComplete State.headerRead State.restoreDone
  split <;> (try dsimp only) <;> (try split) <;> simp
@[simp] theorem State.recover_mode : s.recover.est.mode = s.est.mode := by
  unfold State.recover; split <;> (try split) <;> (try split) <;> simp
@[simp] theorem State.expiryRollback_mode : s.expiryRollback.est.mode = s.est.mode := by
  unfold State.expiryRollback; split <;> (try dsimp only) <;> (try split) <;> simp
@[simp] theorem State.advance_mode (d : Nat) : (s.advance d).est.mode = s.est.mode := by
  unfold State.advance; dsimp only; split <;> rfl
@[simp] theorem State.advanceTo_mode (d : Nat) : (s.advanceTo d).est.mode = s.est.mode := by
  simp [State.advanceTo]

@[simp] theorem State.endRollback_period (k : RollbackKind) (o : RollbackOutcome) :
    (s.endRollback k o).est.periodMs = s.est.periodMs := by cases k <;> rfl
@[simp] theorem State.popTop_period : s.popTop.est.periodMs = s.est.periodMs := by
  unfold State.popTop; dsimp only; split <;> split <;> simp
@[simp] theorem State.engineStep_period : s.engineStep.est.periodMs = s.est.periodMs := by
  unfold State.engineStep; split <;> (try split) <;> simp
@[simp] theorem State.startRollback_period (k : RollbackKind) :
    (s.startRollback k).est.periodMs = s.est.periodMs := by
  unfold State.startRollback; dsimp only; split <;> (try split) <;> simp
@[simp] theorem State.engineComplete_period (l : List Byte) :
    (s.engineComplete l).est.periodMs = s.est.periodMs := by
  unfold State.engineComplete State.headerRead State.restoreDone
  split <;> (try dsimp only) <;> (try split) <;> simp
@[simp] theorem State.recover_period : s.recover.est.periodMs = s.est.periodMs := by
  unfold State.recover; split <;> (try split) <;> (try split) <;> simp
@[simp] theorem State.expiryRollback_period : s.expiryRollback.est.periodMs = s.est.periodMs := by
  unfold State.expiryRollback; split <;> (try dsimp only) <;> (try split) <;> simp
@[simp] theorem State.advance_period (d : Nat) : (s.advance d).est.periodMs = s.est.periodMs := by
  unfold State.advance; dsimp only; split <;> rfl
@[simp] theorem State.advanceTo_period (d : Nat) : (s.advanceTo d).est.periodMs = s.est.periodMs := by
  simp [State.advanceTo]

@[simp] theorem State.endRollback_running (k : RollbackKind) (o : RollbackOutcome) :
    (s.endRollback k o).est.running = s.est.running := by cases k <;> rfl
@[simp] theorem State.popTop_running : s.popTop.est.running = s.est.running := by
  unfold State.popTop; dsimp only; split <;> split <;> simp
@[simp] theorem State.engineStep_running : s.engineStep.est.running = s.est.running := by
  unfold State.engineStep; split <;> (try split) <;> simp
@[simp] theorem State.startRollback_running (k : RollbackKind) :
    (s.startRollback k).est.running = s.est.running := by
  unfold State.startRollback; dsimp only; split <;> (try split) <;> simp
@[simp] theorem State.engineComplete_running (l : List Byte) :
    (s.engineComplete l).est.running = s.est.running := by
  unfold State.engineComplete State.headerRead State.restoreDone
  split <;> (try dsimp only) <;> (try split) <;> simp
@[simp] theorem State.recover_running : s.recover.est.running = s.est.running := by
  unfold State.recover; split <;> (try split) <;> (try split) <;> simp
@[simp] theorem State.expiryRollback_running : s.expiryRollback.est.running = s.est.running := by
  unfold State.expiryRollback; split <;> (try dsimp only) <;> (try split) <;> simp
@[simp] theorem State.advance_running (d : Nat) : (s.advance d).est.running = s.est.running := by
  unfold State.advance; dsimp only; split <;> rfl
@[simp] theorem State.advanceTo_running (d : Nat) : (s.advanceTo d).est.running = s.est.running := by
  simp [State.advanceTo]

@[simp] theorem State.endRollback_lock (k : RollbackKind) (o : RollbackOutcome) :
    (s.endRollback k o).est.lock = s.est.lock := by cases k <;> rfl
@[simp] theorem State.popTop_lock : s.popTop.est.lock = s.est.lock := by
  unfold State.popTop; dsimp only; split <;> split <;> simp
@[simp] theorem State.engineStep_lock : s.engineStep.est.lock = s.est.lock := by
  unfold State.engineStep; split <;> (try split) <;> simp
@[simp] theorem State.startRollback_lock (k : RollbackKind) :
    (s.startRollback k).est.lock = s.est.lock := by
  unfold State.startRollback; dsimp only; split <;> (try split) <;> simp
@[simp] theorem State.engineComplete_lock (l : List Byte) :
    (s.engineComplete l).est.lock = s.est.lock := by
  unfold State.engineComplete State.headerRead State.restoreDone
  split <;> (try dsimp only) <;> (try split) <;> simp
@[simp] theorem State.recover_lock : s.recover.est.lock = s.est.lock := by
  unfold State.recover; split <;> (try split) <;> (try split) <;> simp
@[simp] theorem State.expiryRollback_lock : s.expiryRollback.est.lock = s.est.lock := by
  unfold State.expiryRollback; split <;> (try dsimp only) <;> (try split) <;> simp
@[simp] theorem State.advance_lock (d : Nat) : (s.advance d).est.lock = s.est.lock := by
  unfold State.advance; dsimp only; split <;> rfl
@[simp] theorem State.advanceTo_lock (d : Nat) : (s.advanceTo d).est.lock = s.est.lock := by
  simp [State.advanceTo]

@[simp] theorem State.endRollback_recovery (k : RollbackKind) (o : RollbackOutcome) :
    (s.endRollback k o).est.recovery = s.est.recovery := by cases k <;> rfl
@[simp] theorem State.popTop_recovery : s.popTop.est.recovery = s.est.recovery := by
  unfold State.popTop; dsimp only; split <;> split <;> simp
@[simp] theorem State.engineStep_recovery : s.engineStep.est.recovery = s.est.recovery := by
  unfold State.engineStep; split <;> (try split) <;> simp
@[simp] theorem State.startRollback_recovery (k : RollbackKind) :
    (s.startRollback k).est.recovery = s.est.recovery := by
  unfold State.startRollback; dsimp only; split <;> (try split) <;> simp
@[simp] theorem State.engineComplete_recovery (l : List Byte) :
    (s.engineComplete l).est.recovery = s.est.recovery := by
  unfold State.engineComplete State.headerRead State.restoreDone
  split <;> (try dsimp only) <;> (try split) <;> simp
@[simp] theorem State.recover_recovery : s.recover.est.recovery = s.est.recovery := by
  unfold State.recover; split <;> (try split) <;> (try split) <;> simp
@[simp] theorem State.expiryRollback_recovery : s.expiryRollback.est.recovery = s.est.recovery := by
  unfold State.expiryRollback; split <;> (try dsimp only) <;> (try split) <;> simp
@[simp] theorem State.advance_recovery (d : Nat) : (s.advance d).est.recovery = s.est.recovery := by
  unfold State.advance; dsimp only; split <;> rfl
@[simp] theorem State.advanceTo_recovery (d : Nat) : (s.advanceTo d).est.recovery = s.est.recovery := by
  simp [State.advanceTo]

end

/-- The invariant speaks of the timer and of the engine's kind. -/
theorem State.TimerInv.congr {s t : State} (h : s.TimerInv) (he : t.est = s.est)
    (hk : t.esu.engine.kind = s.esu.engine.kind) : t.TimerInv := by
  obtain ⟨a, b, c, d, e⟩ := h
  constructor <;> simp only [he, hk] <;> assumption

/-- The remaining time does not matter. -/
theorem State.TimerInv.remaining {s t : State} (h : s.TimerInv) (n : Nat)
    (he : t.est = { s.est with remainingNs := n })
    (hk : t.esu.engine.kind = s.esu.engine.kind) : t.TimerInv := by
  obtain ⟨a, b, c, d, e⟩ := h
  constructor <;> simp only [he, hk] <;> assumption

theorem State.TimerInv.advance {s : State} (h : s.TimerInv) (d : Nat) : (s.advance d).TimerInv := by
  by_cases hc : s.counting = true
  · exact h.remaining (s.est.remainingNs - d) (by simp [State.advance, hc]) rfl
  · exact h.congr (by simp [State.advance, hc]) rfl

/-- Time passes up to an instant. -/
theorem State.TimerInv.advanceTo {s t : State} (h : s.TimerInv) (n : Nat)
    (he : t.est = (s.advanceTo n).est) (hk : t.esu.engine.kind = s.esu.engine.kind) : t.TimerInv :=
  (h.advance (n - s.now)).congr he hk

/-- The end of a rollback of the kind that runs. -/
theorem endRollback_timerInv {s : State} (h : s.TimerInv) (k : RollbackKind) (o : RollbackOutcome)
    (hk : s.esu.engine.kind = some k ∨ (k ≠ .supervision ∧ s.esu.engine.kind = none)) :
    (s.endRollback k o).TimerInv := by
  obtain ⟨a, b, c, d, e⟩ := h
  have hdrive : k ≠ .supervision → s.est.hrstoDriven = false := by
    intro hne
    by_contra h0
    have := (e (by simpa using h0)).1
    rcases hk with hk | ⟨_, hk⟩ <;> rw [hk] at this
    · cases this; exact hne rfl
    · cases this
  cases k
  case supervision =>
    have hl : s.est.lock = true := by
      rcases hk with hk | ⟨hk, _⟩
      · exact d hk
      · exact absurd rfl hk
    constructor <;> (try simp only [State.endRollback_esu, Engine.idle])
    · exact a
    · exact b
    · intro _; exact hl
    · simp
    · simp [State.endRollback]
  all_goals
    have hd := hdrive (by decide)
    constructor <;> (try simp only [State.endRollback_esu, Engine.idle])
    · exact a
    · exact b
    · exact c
    · simp
    · intro h0
      have h0 : s.est.hrstoDriven = true := h0
      rw [hd] at h0
      cases h0

theorem popTop_timerInv {s : State} (h : s.TimerInv) (hk : s.esu.engine.kind ≠ none) :
    s.popTop.TimerInv := by
  obtain ⟨k, hk⟩ := Option.ne_none_iff_exists'.mp hk
  have hg : s.esu.engine.kind.getD .single = k := by rw [hk]; rfl
  unfold State.popTop
  dsimp only
  rw [hg]
  generalize popFrames k s.ulc.head s.esu.stack = r
  obtain ⟨r1, r2⟩ := r
  cases r2 with
  | some o =>
    cases r1 <;>
    · refine endRollback_timerInv ?_ k o ?_
      · exact h.congr rfl rfl
      · exact .inl hk
  | none => cases r1 <;> exact h.congr rfl rfl

theorem engineStep_timerInv {s : State} (h : s.TimerInv) (hk : s.esu.engine.kind ≠ none) :
    s.engineStep.TimerInv := by
  unfold State.engineStep
  split
  · split
    · exact h.congr rfl rfl
    · exact popTop_timerInv h hk
  · exact popTop_timerInv h hk

/-- A rollback starts while none runs; a SUPERVISION start needs the lock. -/
theorem startRollback_timerInv {s : State} (h : s.TimerInv) (k : RollbackKind)
    (hn : s.esu.engine.kind = none) (hk : k = .supervision → s.est.lock = true) :
    (s.startRollback k).TimerInv := by
  have hd : s.est.hrstoDriven = false := by
    by_contra h0
    have := (h.driveOnly (by simpa using h0)).1
    rw [hn] at this
    cases this
  unfold State.startRollback
  dsimp only
  split
  · exact endRollback_timerInv h _ _ (.inr ⟨by decide, hn⟩)
  · have h1 : ∀ e : Engine, e.kind = some k → (s.setEngine e).TimerInv := by
      intro e he
      obtain ⟨a, b, c, d, f⟩ := h
      constructor
      · exact a
      · exact b
      · exact c
      · simp only [State.setEngine_esu, he, State.setEngine_est]
        intro h0
        cases h0
        exact hk rfl
      · simp [hd]
    split
    · exact h1 _ rfl
    · exact engineStep_timerInv (h1 _ rfl) (by simp)

theorem engineComplete_timerInv {s : State} (h : s.TimerInv) (hs : s.StackInv) (data : List Byte) :
    (s.engineComplete data).TimerInv := by
  have hk : s.esu.engine.state ≠ .idle → s.esu.engine.kind ≠ none :=
    fun h0 h1 => h0 (hs.idleKind.mpr h1)
  unfold State.engineComplete
  split
  · have hk := hk (by simp [*])
    unfold State.headerRead
    dsimp only
    split
    · exact engineStep_timerInv (h.congr rfl rfl) hk
    · exact h.congr rfl rfl
  · exact h.congr rfl rfl
  · have hk := hk (by simp [*])
    exact engineStep_timerInv (h.congr rfl rfl) hk
  · exact h

theorem recover_timerInv {s : State} (h : s.TimerInv) (hs : s.StackInv) : s.recover.TimerInv := by
  have hrec : s.esu.engine.kind ≠ some .supervision →
      (s.setEngine { s.esu.engine with kind := some .recovery }).TimerInv := by
    intro hne
    obtain ⟨a, b, c, d, e⟩ := h
    constructor
    · exact a
    · exact b
    · exact c
    · simp
    · intro h0
      exact absurd (e h0).1 hne
  unfold State.recover
  split
  · split
    · split
      · exact hrec (by simp [*])
      · exact hrec (by simp [*])
      · exact h
      · exact h
      · exact h
    · rename_i hb
      refine startRollback_timerInv h _ (hs.idleKind.mp ?_) (by simp)
      simpa [State.rollbackInProgress] using hb
  · exact h

/-- A rollback that has started and still runs is of the kind it was started with. -/
theorem popTop_kind (s : State) :
    s.popTop.esu.engine = Engine.idle ∨ s.popTop.esu.engine.kind = s.esu.engine.kind := by
  unfold State.popTop
  dsimp only
  split
  · exact .inl (by simp)
  · right
    split <;> rfl

theorem engineStep_kind (s : State) :
    s.engineStep.esu.engine = Engine.idle ∨ s.engineStep.esu.engine.kind = s.esu.engine.kind := by
  unfold State.engineStep
  split
  · split
    · exact .inr rfl
    · exact popTop_kind s
  · exact popTop_kind s

theorem startRollback_kind (s : State) (k : RollbackKind) :
    (s.startRollback k).esu.engine = Engine.idle ∨
      (s.startRollback k).esu.engine.kind = some k := by
  unfold State.startRollback
  dsimp only
  split
  · exact .inl (by simp)
  · split
    · exact .inr rfl
    · exact engineStep_kind _

theorem expiryRollback_timerInv {s : State} (h : s.TimerInv) (hn : s.esu.engine.kind = none)
    (hl : s.est.lock = true) : s.expiryRollback.TimerInv := by
  unfold State.expiryRollback
  split
  · obtain ⟨a, b, c, d, e⟩ := h
    exact ⟨a, b, fun _ => hl, d, e⟩
  · have h1 := startRollback_timerInv h .supervision hn (fun _ => hl)
    dsimp only
    split
    · rename_i hc
      simp [State.rollbackInProgress] at hc
      have hk : (s.startRollback .supervision).esu.engine.kind = some .supervision := by
        rcases startRollback_kind s .supervision with h2 | h2
        · exact absurd (by rw [h2]; rfl) hc.1
        · exact h2
      obtain ⟨a, b, c, d, e⟩ := h1
      exact ⟨a, b, c, d, fun _ => ⟨hk, by simpa using hc.2⟩⟩
    · exact h1

end Sys2Proof.Machine
end

