-- ==== Sys2Proof/Tests/Slice0.lean ====
section
/-! SUPPORT. Tests: ill-formed commands, the spec's worked examples, and for every claim with
hypotheses a state that meets them. -/
namespace Sys2Proof.Tests
open Sys2Proof.Machine

/-! ### Small requests and states -/

/-- A beat whose eight enables are all alike. -/
def beat (e : Bool) : Beat := { data := Vector.replicate 8 0x11, enables := Vector.replicate 8 e }

def readReq (a : BitVec 32) (n : Nat) : Request := { kind := .read, addr := a, beats := n, wbeats := [] }

/-- A WRITE whose beats have these enables. -/
def writeReq (a : BitVec 32) (es : List Bool) : Request :=
  { kind := .write, addr := a, beats := es.length, wbeats := es.map beat }

def descr (base last : Nat) (c : RegionClass) (w al : Bool) : Descriptor :=
  { enabled := true, basePage := base, lastPage := last, cls := c, readRight := true, writeRight := w,
    align := al }

/-- The map of Table 2.8, with the sequencer READY and the log at page 0x7000. -/
def up : State :=
  { State.reset with
    rmap := {
      descs := ((((Vector.replicate 16 Descriptor.reset).set 0 (descr 0 0xFF .plain true false)).set 1
        (descr 0x100 0x4FF .tracked true true)).set 2 (descr 0x500 0x50F .guarded true false)).set 3
        (descr 0x510 0x513 .plain false false)
      defaultClass := .deny, alignCheck := true }
    ulc := { Ulc.reset with basePage := 0x7000, pages := 0x200, threshold := 40 }
    dsq := { Dsq.reset with state := .ready, geometry := some .rows8192, tick := some 4000 } }

def frame1 : Frame := { depth := 1, serial := 1, start := 0, broken := false }

/-- The frames open, newest first. -/
def opened (s : State) (fs : List Frame) : State :=
  { s with esu := { s.esu with stack := fs, nextSerial := 5 } }

def up1 : State := opened up [frame1]

def upBroken : State := opened up [{ frame1 with broken := true }]

/-- A frame in progress on the management link. -/
def framed (s : State) (f : MgmtFrame) : State :=
  { s with mlp := { s.mlp with frame := some f }, pins := { s.pins with mcsLow := true } }

def waiting (r : Request) : Entry := { req := r, mark := .waiting, dropped := false }

/-- One request waits. -/
def queued (s : State) (r : Request) : State := { s with slp := { s.slp with queue := [waiting r] } }

/-- A rollback of this kind is in progress. -/
def rolling (s : State) (st : EngineState) (k : RollbackKind) : State :=
  { s with esu := { s.esu with engine := {
      state := st, kind := some k, record := some (s.ulc.recordRef 0), line := some 0x4000
      image := none, awaits := false } } }

/-- A transfer runs until instant 20. -/
def moving (s : State) (op : MemOp) : State :=
  { s with dsq := { s.dsq with current := some { op := op, transfer := some 20 } } }

def entry (r : Request) (d : Bool) : Entry := { req := r, mark := .inService, dropped := d }

/-- A request past the check is in this stage. -/
def serving (s : State) (st : Stage) (c : Current) (d : Bool) : State :=
  { s with
    slp := { s.slp with queue := [entry c.req d] }
    rqp := { s.rqp with stage := st, current := some c } }

/-- A one-line write of line 0x4000, with these missed lines. -/
def logging (missed : List Nat) : Current :=
  { currentOf up1 (writeReq 0x100000 [true]) .loggingWrite with
    missed := missed, record := some (up.ulc.recordRef 0), left := touchedParts (writeReq 0x100000 [true]) }

def bank0 (s : State) (st : BankState) (g : Option Nat) : State :=
  { s with dsq := { s.dsq with banks := s.dsq.banks.set 0 { state := st, guardTill := g } } }

/-- A bank-0 operation of the request path that is current. -/
def current (s : State) : State :=
  { s with dsq := { s.dsq with current := some { op := readLine .rqp 0x4000, transfer := none } } }

/-! ### Ill-formed commands -/

theorem test_illFormed_unalignedAddress :
    (Instr.requestAccept (readReq 0x1004 1)).wellFormed = false := by decide
theorem test_illFormed_noBeat : (Instr.requestAccept (readReq 0x1000 0)).wellFormed = false := by decide
theorem test_illFormed_nineBeats :
    (Instr.requestAccept (readReq 0x1000 9)).wellFormed = false := by decide
theorem test_illFormed_readWithData :
    (Instr.requestAccept { readReq 0x1000 1 with wbeats := [beat true] }).wellFormed = false := by decide
theorem test_illFormed_writeWithTooFewBeats :
    (Instr.requestAccept { writeReq 0x1000 [true] with beats := 2 }).wellFormed = false := by decide
theorem test_illFormed_unknownOfACommand : (Instr.unknown 0x30).wellFormed = false := by decide
theorem test_wellFormed_boundaries :
    (Instr.requestAccept (readReq 0xFFFFFFF8 8)).wellFormed = true ∧
      (Instr.requestAccept (readReq 0 1)).wellFormed = true ∧
      (Instr.unknown 0x00).wellFormed = true ∧ (Instr.unknown 0xFF).wellFormed = true := by decide

/-! ### Worked examples of the spec -/

/-- Table 1.2: the covered lines and the beats in each. -/
theorem test_linesCovered :
    ([readReq 0x1000 8, readReq 0x1008 7, readReq 0x1008 8, readReq 0x1038 2, readReq 0xFFFFFFF8 2].map
        (fun r => (coveredParts r).map (fun p => (p.line, p.beats)))) =
      [[(0x40, 8)], [(0x40, 7)], [(0x40, 7), (0x41, 1)], [(0x40, 1), (0x41, 1)],
        [(0x3FFFFFF, 1), (0x4000000, 1)]] := by decide

/-- Table 2.9: the outcomes of the ten requests. -/
theorem test_tenRequests :
    checkOf up (readReq 0x200000 8) = none ∧
    checkOf up1 (writeReq 0x4FFFF8 [true, true]) = some (.split, .desc 1) ∧
    checkOf up (writeReq 0x100038 [true, true]) = some (.align, .desc 1) ∧
    checkOf up (writeReq 0x500000 [true]) = some (.guard, .desc 2) ∧
    checkOf up1 (writeReq 0x500000 [true]) = none ∧
    checkOf up1 (writeReq 0x510000 [true]) = some (.protect, .desc 3) ∧
    checkOf up (readReq 0x800000 1) = some (.unmapped, .none) ∧
    checkOf up (writeReq 0x7000000 [true]) = some (.protect, .log) ∧
    checkOf up (readReq 0x7000E00 1) = none ∧
    checkOf up (readReq 0x7FFFFF8 2) = some (.beyond, .none) := by decide

/-- Table 5.9: the places of six records. -/
theorem test_recordPlaces :
    ([0, 55, 56, 100, 111, 167].map (fun i =>
        let r := ({ Ulc.reset with basePage := 0x6000, pages := 3 } : Ulc).recordRef i
        (r.dataLine, r.headerLine, r.headerBeat))) =
      [(0x180000, 0x180038, 0), (0x180037, 0x18003E, 7), (0x180040, 0x180078, 0),
        (0x18006C, 0x18007D, 4), (0x180077, 0x18007E, 7), (0x1800B7, 0x1800BE, 7)] := by decide

/-- Table 6.9: an allocation across the wrap. -/
theorem test_allocationAcrossWrap :
    allocate [1, 65535] [] 2 65535 false = { serial := 2, next := 3, wrapped := true } := by decide

/-- R63: a carried serial is passed over before the wrap, and is given again by the OPEN that wraps. -/
theorem test_allocationForgetsCarriedAtWrap :
    allocate [65535] [1] 2 65535 false = { serial := 1, next := 2, wrapped := true } ∧
    allocate [65535] [100] 2 100 false = { serial := 101, next := 102, wrapped := false } := by decide

/-- The header of record {0x4012, 7, 1} in DRAM (Table 11.6). -/
theorem test_headerBytes : headerBytes 0x4012 7 1 = [0x12, 0x40, 0, 0, 7, 0, 1, 0xA5] := by decide

/-- The codes of Tables 11.4 and 11.5. -/
theorem test_codes :
    ([.beyond, .unmapped, .split, .protect, .align, .guard, .logFull] : List FaultKind).map
      FaultKind.code = [1, 2, 3, 4, 5, 6, 7] ∧
    ([.desc 15, .log, .none] : List RegionIndex).map RegionIndex.code = [15, 0x10, 0xFF] ∧
    ([.uninit, .initWait 0, .closeAllWait 0, .initRefresh 0, .ready] : List SeqState).map
      SeqState.code = [0, 1, 1, 2, 3] ∧
    ([none, some .single, some .all, some .supervision, some .recovery] :
      List (Option RollbackKind)).map rollbackCode = [0, 1, 2, 3, 4] ∧
    ([.complete, .haltedBroken] : List RollbackOutcome).map RollbackOutcome.code = [0, 1] ∧
    ([.powerOn, .resetPin, .command] : List ResetCause).map ResetCause.code = [0, 1, 2] ∧
    ([.busy, .stackFull, .stackEmpty, .notReady, .broken, .locked, .alreadySet, .epochOpen, .noLog,
      .state, .overlap, .badArg, .unknown] : List Reason).map Reason.code =
      [0x10, 0x11, 0x12, 0x13, 0x14, 0x15, 0x16, 0x17, 0x18, 0x19, 0x1A, 0x1B, 0x1F] := by decide

/-- Every command code has the row of the claims, and no other code has one (Table 11.1). -/
theorem test_commandCodes :
    ∀ code : Byte, argBytes code =
      if code ∈ commandsAtCode.map Prod.fst then some 0
      else (commandsAtLast.find? (fun x => x.1 == code)).map (fun x => x.2.1) := by decide

/-- A byte of the management link completes IDENT, and the answer is shifted out. -/
theorem test_identByte :
    (after (.byteShiftedIn 0) (after (.byteShiftedIn 0x01) (framed State.reset .empty))).mlp.mdo =
      some 0x01 := by decide

/-- A header that counts takes the head to the threshold's crossing (R76). -/
theorem test_lowSpaceAtCrossing :
    let s := { up1 with ulc := { up1.ulc with pages := 3, basePage := 0x6000, head := 127 } }
    s.headRise.isPending .lowSpace = true ∧ s.headRise.ulc.head = 128 := by decide

/-- Two refreshes of the same bank cannot overlap: the target is refreshing, not due again (R140). -/
theorem test_refreshTarget :
    (after .bankRefreshStart { up with dsq := { up.dsq with owed := 2 } }).dsq.owed = 1 ∧
    (after .bankRefreshStart { up with dsq := { up.dsq with owed := 2 } }).refreshDue = none := by decide

/-- A step takes the front command and leaves the rest. -/
theorem test_stepTakesFront :
    (match step { up with pending := [.refreshTickExpiry, .kick] } with
      | .next t => t.pending == [.kick] && t.dsq.owed == 1 && t.now == 4000
      | .fault _ => false
      | .refused _ => false) = true := by decide

/-! ### The claims' hypotheses can be met

One theorem for each claim that has hypotheses, named after it, with a state for every clause. -/

theorem test_meets_StepRunsFrontCommand :
    ({ up with pending := [.kick, .commit] } : State).pending = .kick :: [.commit] := rfl

theorem test_meets_EmptyQueueStepRunsOwnEvent :
    (State.reset.pending = [] ∧ State.reset.nextEvent = none) ∧
    ((queued up (readReq 0x1000 1)).pending = [] ∧
      (queued up (readReq 0x1000 1)).nextEvent = some .requestTake) ∧
    (up.pending = [] ∧ up.nextEvent = some .refreshTickExpiry) := by decide

theorem no_transfer (op : MemOp) (till : Nat) : ¬ Transferring State.reset op till := by
  rintro ⟨h⟩
  cases h

theorem test_meets_UnmetEventChangesNothing_commands :
    (¬ State.reset.frameIs MgmtFrame.empty) ∧ ((argBytes 0x01).isSome = true) ∧
    (∀ args, ¬ State.reset.frameIs (.collecting 0x10 args)) ∧
    (readReq 0x1004 1).wellFormed = false ∧
    (∀ e rest, State.reset.slp.queue = e :: rest → e.mark ≠ .waiting) ∧
    (serving up1 .data (logging []) false).rqp.stage ≠ .waiting ∧
    (serving up1 .data (logging []) false).rqp.current ≠ none ∧
    (current up).dsq.current ≠ none ∧
    8 ≤ ({ up with dsq := { up.dsq with owed := 8 } } : State).dsq.owed ∧
    (up.dsq.waitRqp = none ∧ up.dsq.waitRollback = none) ∧
    (∀ op, State.reset.dsq.current ≠ some { op := op, transfer := none }) ∧
    (∀ op till, ¬ Transferring State.reset op till) ∧
    up.esu.engine.state ≠ .rbHeader ∧ (rolling up1 .rbHeader .single).esu.engine.record ≠ none := by
  refine ⟨nofun, rfl, fun _ => nofun, rfl, fun _ _ => nofun, by decide, by decide, by decide, by decide,
    by decide, fun _ => nofun, no_transfer, by decide, by decide⟩

theorem test_meets_UnmetEventChangesNothing_pins :
    let high := State.reset
    let low := { high with pins := { mcsLow := true, hrstAsserted := true, drstAsserted := true } }
    low.pins.hrstAsserted = true ∧ high.pins.hrstAsserted = false ∧ high.resetPhase ≠ .powerOn ∧
    low.pins.drstAsserted = true ∧ high.pins.drstAsserted = false ∧ low.pins.mcsLow = true ∧
    high.pins.mcsLow = false := by decide

theorem test_meets_UnmetEventChangesNothing_intervals :
    State.reset.counting = false ∧ (∀ till, up.dsq.state ≠ .initWait till) ∧
    (∀ till, up.dsq.state ≠ .closeAllWait till) ∧ (∀ b, up.dsq.state ≠ .initRefresh b) ∧
    up.dsq.current = none ∧
    ((current (bank0 up (.opened 0) none)).bank 0).state ≠ .idle ∧
    (∀ row till, (up.bank 0).state ≠ .opening row till) ∧ (∀ row, (up.bank 0).state ≠ .opened row) ∧
    ((bank0 up (.opened 0) (some 9)).bank 0).guardTill ≠ none ∧
    (∀ till, (up.bank 0).state ≠ .closing till) ∧ (up.bank 0).guardTill = none ∧
    State.reset.dsq.tick = none ∧ up.dsq.owed = 0 ∧
    ({ up with dsq := { up.dsq with refreshing := some 3 } } : State).dsq.refreshing ≠ none ∧
    ((bank0 up (.opened 0) none).bank 0).state ≠ .idle ∧ (current up).held 0 = true ∧
    up.dsq.refreshing = none ∧ up.dsq.history = [] := by
  have idle : (up.bank 0).state = .idle := by decide
  refine ⟨by decide, fun _ => nofun, fun _ => nofun, fun _ => nofun, rfl, by decide, ?_, ?_, by decide,
    ?_, by decide, rfl, rfl, by decide, by decide, by decide, rfl, rfl⟩
  all_goals rw [idle]
  · exact fun _ _ => nofun
  · exact fun _ => nofun
  · exact fun _ => nofun

/-- A timer that runs with an epoch open. -/
def ticking (s : State) (m : SupMode) : State :=
  { s with est := { s.est with mode := m, running := true, lock := m.rollsBack } }

theorem test_meets_TimePassing :
    (ticking up1 .rollback).counting = true ∧ (ticking up .rollback).counting = false := by decide

theorem test_meets_OnlyWritesAndResetsChangeDram :
    (∃ t, exec .kick up = .next t) ∧ ¬ Resets up .kick ∧
    (∃ t, exec .operationComplete (moving up (readLine .rqp 0)) = .next t) ∧
    Transferring (moving up (readLine .rqp 0)) (readLine .rqp 0) 20 ∧ (readLine .rqp 0).kind = .read ∧
    ∀ op till, Transferring (moving up (readLine .rqp 0)) op till → op.kind = .read := by
  refine ⟨⟨_, rfl⟩, id, ⟨_, rfl⟩, ⟨rfl⟩, rfl, ?_⟩
  rintro op till ⟨h⟩
  cases h
  rfl

theorem test_meets_RequestAcceptedOrWithheld :
    (readReq 0x1000 1).wellFormed = true ∧
    (up.slp.queue.length < 8 ∧ up.slp.gateOpen = true ∧ up.resetPhase = .running) ∧
    8 ≤ ({ up with slp := { up.slp with
      queue := List.replicate 8 (entry (readReq 0x1000 1) false) } } : State).slp.queue.length ∧
    ({ up with slp := { up.slp with gateOpen := false } } : State).slp.gateOpen = false ∧
    ({ up with resetPhase := .pin } : State).resetPhase ≠ .running := by decide

theorem test_meets_RequestCoversOneOrTwoLines :
    (readReq 0x1008 7).wellFormed = true ∧ (readReq 0x1008 8).wellFormed = true ∧
    (readReq 0x1008 7).addr.toNat % 64 + 8 * (readReq 0x1008 7).beats = 64 ∧
    (readReq 0x1008 8).addr.toNat % 64 + 8 * (readReq 0x1008 8).beats = 72 := by decide

theorem test_meets_TouchedLinesAndTheirOperations :
    (readReq 0x1038 2).wellFormed = true ∧ (writeReq 0x1038 [false, true]).wellFormed = true ∧
    ((touchedParts (writeReq 0x1038 [false, true])).map LinePart.line = [0x41]) ∧
    ((touchedParts (readReq 0x1038 2)).map LinePart.line = [0x40, 0x41]) := by decide

/-- The pages that the enabled descriptors of Table 2.8 cover. -/
theorem up_covers (i : Fin 16) (page : Nat) (h : (up.desc i).coversPage page = true) :
    (i = 0 ∧ page ≤ 0xFF) ∨ (i = 1 ∧ 0x100 ≤ page ∧ page ≤ 0x4FF) ∨
      (i = 2 ∧ 0x500 ≤ page ∧ page ≤ 0x50F) ∨ (i = 3 ∧ 0x510 ≤ page ∧ page ≤ 0x513) := by
  fin_cases i <;> simp_all [State.desc, up, descr, Descriptor.coversPage, Descriptor.reset,
    Vector.get_eq_getElem]

theorem up_regionsInv : up.RegionsInv := by
  constructor
  · intro i j page hi hj
    have := up_covers i page hi
    have := up_covers j page hj
    omega
  · intro i page hi
    have := up_covers i page hi
    have hb : up.ulc.basePage = 0x7000 := rfl
    have hp : up.ulc.pages = 0x200 := rfl
    simp [Ulc.coversPage, hb, hp]
    omega

theorem test_meets_LineClassification :
    up.RegionsInv ∧ ({ up with rmap := { up.rmap with defaultClass := .plain } } : State).RegionsInv ∧
    (up.capacityLines ≤ 0x200000 ∧ 0x1FFFFF < up.capacityLines) ∧
    (up.ulc.coversPage 0x7000 = true ∧ up.ulc.coversPage 0x71FF = true) ∧
    ((up.desc 1).coversPage 0x100 = true ∧ (up.desc 1).coversPage 0x4FF = true) ∧
    (up.ulc.coversPage 0x7FFF = false ∧ ∀ i, (up.desc i).coversPage 0x7FFF = false) ∧
    State.reset.dsq.geometry = none ∧ up.dsq.geometry = some .rows8192 := by
  refine ⟨up_regionsInv, ⟨up_regionsInv.descsApart, up_regionsInv.logApart⟩, by decide, by decide,
    by decide, by decide, rfl, rfl⟩

theorem test_meets_LinesInSameRegion :
    up.RegionsInv ∧ 0x4000 < up.capacityLines ∧ 0x4001 < up.capacityLines := by
  exact ⟨up_regionsInv, by decide, by decide⟩

/-- A classification in descriptor 1. -/
def inDesc (c : LineClass) (r w al : Bool) : Classification :=
  { cls := c, region := .desc 1, readRight := r, writeRight := w, align := al }

theorem test_meets_RequestChecksInOrder :
    let check (k : Kind) (a : Classification) (b : Option Classification) := requestCheck k a b true 0
    let t := inDesc .tracked true true false
    check .read t (some { t with cls := .beyond }) = some (.beyond, .none) ∧
    check .read t (some { t with cls := .deny }) = some (.unmapped, .none) ∧
    check .read t (some { t with region := .desc 2 }) = some (.split, .desc 1) ∧
    check .write (inDesc .tracked true false true) none = some (.protect, .desc 1) ∧
    check .read (inDesc .tracked true true true) (some (inDesc .tracked true true true)) =
      some (.align, .desc 1) ∧
    check .write (inDesc .guarded true true false) none = some (.guard, .desc 1) ∧
    check .write t none = none := by decide

/-- A waiting request is ready to be taken. -/
theorem queued_ready (s : State) (r : Request) (h : s.rqp = Rqp.reset)
    (h' : s.esu.engine.awaits = false) :
    TakeReady (queued s r) (waiting r) [] :=
  ⟨rfl, rfl, by simp [queued, h, Rqp.reset], by simp [queued, h, Rqp.reset], h'⟩

theorem test_meets_TakeAnswersRetryOrFault :
    let r := readReq 0x100000 1
    (TakeReady (queued State.reset r) (waiting r) [] ∧ (queued State.reset r).dsq.state ≠ .ready) ∧
    (TakeReady (queued (rolling up1 .rbData .all) r) (waiting r) [] ∧ HeldOff (queued (rolling up1 .rbData .all) r) r) ∧
    (TakeReady (queued up (readReq 0x800000 1)) (waiting (readReq 0x800000 1)) [] ∧ ¬ HeldOff up (readReq 0x800000 1) ∧
      checkOf up (readReq 0x800000 1) = some (.unmapped, .none)) := by
  refine ⟨⟨queued_ready _ _ rfl rfl, by decide⟩, ⟨queued_ready _ _ rfl rfl, ?_⟩,
    ⟨queued_ready _ _ rfl rfl, ?_, by decide⟩⟩
  · unfold HeldOff; decide
  · unfold HeldOff; decide

/-- A request that no rollback holds off and that fails no check passes. -/
theorem passes_of (s : State) (r : Request) (h : s.dsq.state = .ready) (h' : s.esu.engine.state = .idle)
    (h'' : checkOf s r = none) : Passes s r := ⟨h, fun x => x.1 h', h''⟩

theorem test_meets_TakeServesReadsAndDirectWrites :
    let none_ := writeReq 0x100000 [false]
    (TakeReady (queued up none_) (waiting none_) [] ∧ Passes (queued up none_) none_ ∧ touchedParts none_ = []) ∧
    (∃ p more, TakeReady (queued up (readReq 0x100000 1)) (waiting (readReq 0x100000 1)) [] ∧
      Passes (queued up (readReq 0x100000 1)) (readReq 0x100000 1) ∧
      touchedParts (readReq 0x100000 1) = p :: more) ∧
    (∃ p more, TakeReady (queued up (writeReq 0x100000 [true])) (waiting (writeReq 0x100000 [true])) [] ∧
      Passes (queued up (writeReq 0x100000 [true])) (writeReq 0x100000 [true]) ∧
      ¬ Logged (queued up (writeReq 0x100000 [true])) (writeReq 0x100000 [true]) ∧
      touchedParts (writeReq 0x100000 [true]) = p :: more) := by
  refine ⟨⟨queued_ready _ _ rfl rfl, passes_of _ _ rfl rfl (by decide), by decide⟩,
    ⟨_, _, queued_ready _ _ rfl rfl, passes_of _ _ rfl rfl (by decide), rfl⟩,
    ⟨_, _, queued_ready _ _ rfl rfl, passes_of _ _ rfl rfl (by decide), ?_, rfl⟩⟩
  exact fun h => h.2.2.1 rfl

/-- The one-beat WRITE of line 0x4000, under the open epoch. -/
def tracked : Request := writeReq 0x100000 [true]

theorem tracked_logged : Logged up1 tracked := ⟨rfl, .inl (by decide), by decide, by decide⟩

theorem test_meets_TakeServesLoggingWrites :
    let hit := queued { up1 with fwf := up1.fwf.fill 0x4000 1 } tracked
    let last := queued { up1 with ulc := { up1.ulc with head := 56 * 0x200 - 1 } } tracked
    (∃ p more, TakeReady last (waiting tracked) [] ∧ Passes last tracked ∧ Logged last tracked ∧
      touchedParts tracked = p :: more ∧
      last.ulc.head + (missedOf last tracked).length = 56 * last.ulc.pages ∧
      missedOf last tracked = [0x4000]) ∧
    (TakeReady hit (waiting tracked) [] ∧ Passes hit tracked ∧ Logged hit tracked ∧
      missedOf hit tracked = []) := by
  refine ⟨⟨_, _, queued_ready _ _ rfl rfl, passes_of _ _ rfl rfl (by decide), tracked_logged, rfl,
    by decide, by decide⟩, queued_ready _ _ rfl rfl, passes_of _ _ rfl rfl (by decide), tracked_logged,
    by decide⟩

theorem test_meets_TakeMeetsFullLog :
    let full := queued { up1 with ulc := { up1.ulc with head := 56 * 0x200 } } tracked
    let fullBreak := { full with ulc := { full.ulc with fullPolicy := .brk } }
    (∃ p more, TakeReady full (waiting tracked) [] ∧ Passes full tracked ∧ Logged full tracked ∧
      touchedParts tracked = p :: more ∧
      56 * full.ulc.pages < full.ulc.head + (missedOf full tracked).length ∧
      full.ulc.fullPolicy = .refuse) ∧
    (TakeReady fullBreak (waiting tracked) [] ∧ Passes fullBreak tracked ∧ Logged fullBreak tracked ∧
      56 * fullBreak.ulc.pages < fullBreak.ulc.head + (missedOf fullBreak tracked).length ∧
      fullBreak.ulc.fullPolicy = .brk) := by
  refine ⟨⟨_, _, queued_ready _ _ rfl rfl, passes_of _ _ rfl rfl (by decide), tracked_logged, rfl,
    by decide, rfl⟩, ⟨rfl, rfl, rfl, rfl, rfl⟩, passes_of _ _ rfl rfl (by decide), tracked_logged,
    by decide, rfl⟩

theorem test_meets_WatchMatchesAndIsSet :
    (framed up (.collecting 0x22 [7, 0, 0, 0, 1, 0, 0, 0])).frameIs
      (.collecting 0x22 [7, 0, 0, 0, 1, 0, 0, 0]) ∧
    word4 3 0xFF 0xFF 0xFF = 0x3FFFFFF ∧ word4 0 0 0 0 < word4 0 0 0 1 ∧
    0x3FFFFFF < word4 4 0 0 0 := by
  exact ⟨rfl, by decide, by decide, by decide⟩

theorem test_meets_CompletionWritesEnabledBytes :
    Transferring (moving up (readLine .rqp 0)) (readLine .rqp 0) 20 ∧
    Transferring (moving up (writeLine .rqp 0 (List.replicate 64 7)))
      (writeLine .rqp 0 (List.replicate 64 7)) 20 := ⟨⟨rfl⟩, ⟨rfl⟩⟩

/-- A completion of the request path in a stage. -/
theorem completing_of (st : Stage) (c : Current) (d : Bool) (op : MemOp) (h : op.client = .rqp) :
    Completing (moving (serving up1 st c d) op) op 20 st c (entry c.req d) [] :=
  ⟨⟨rfl⟩, h, rfl, rfl, rfl, rfl, by simp⟩

theorem test_meets_DataOperationCompletes :
    let two := { logging [] with
      left := coveredParts (readReq 0x1038 2), touched := coveredParts (readReq 0x1038 2) }
    (∃ e p more, Completing (moving (serving up1 .data two false) (readLine .rqp 0)) (readLine .rqp 0) 20
      .data two e [] ∧ e.dropped = false ∧ two.left.tail = p :: more) ∧
    (∃ e, Completing (moving (serving up1 .data (logging []) false) (readLine .rqp 0)) (readLine .rqp 0)
      20 .data (logging []) e [] ∧ e.dropped = false ∧ (logging []).left.tail = []) := by
  exact ⟨⟨_, _, _, completing_of _ _ _ _ rfl, rfl, rfl⟩, ⟨_, completing_of _ _ _ _ rfl, rfl, rfl⟩⟩

theorem test_meets_LogReadAndLogDataComplete :
    let c := logging [0x4000]
    ∃ e p more, e.dropped = false ∧ c.touched = p :: more ∧
    Completing (moving (serving up1 .logRead c false) (readLine .rqp 0)) (readLine .rqp 0) 20 .logRead c
      e [] ∧ up1.esu.stack ≠ [] ∧
    Completing (moving (serving up1 .logData c false) (readLine .rqp 0)) (readLine .rqp 0) 20 .logData c
      e [] ∧ c.missed = [0x4000] ∧ c.record = some (up.ulc.recordRef 0) := by
  exact ⟨_, _, _, rfl, rfl, completing_of _ _ _ _ rfl, by decide, completing_of _ _ _ _ rfl, rfl, rfl⟩

/-- The same request after an outermost COMMIT: depth 0. -/
theorem test_meets_LogReadComplete_depth0 :
    let c := logging [0x4000]
    let s := opened (moving (serving up1 .logRead c false) (readLine .rqp 0)) []
    Completing s (readLine .rqp 0) 20 .logRead c (entry c.req false) [] ∧ s.esu.stack = [] := by
  exact ⟨⟨⟨rfl⟩, rfl, rfl, rfl, rfl, rfl, by simp⟩, rfl⟩

theorem test_meets_LogHeaderCompletes :
    let c (missed : List Nat) := logging missed
    (∃ e p more, e.dropped = false ∧ (c [0x4000]).touched = p :: more ∧
      Completing (moving (serving up1 .logHeader (c [0x4000]) false) (readLine .rqp 0)) (readLine .rqp 0)
        20 .logHeader (c [0x4000]) e [] ∧ (c [0x4000]).missed = [0x4000]) ∧
    (∃ e, e.dropped = false ∧
      Completing (moving (serving up1 .logHeader (c [0x4000, 0x4001]) false) (readLine .rqp 0))
        (readLine .rqp 0) 20 .logHeader (c [0x4000, 0x4001]) e [] ∧
      (c [0x4000, 0x4001]).missed = 0x4000 :: [0x4001]) := by
  exact ⟨⟨_, _, _, rfl, rfl, completing_of _ _ _ _ rfl, rfl⟩, ⟨_, rfl, completing_of _ _ _ _ rfl, rfl⟩⟩

theorem test_meets_DroppedRequestCompletes :
    let c := logging [0x4000]
    (∃ e, e.dropped = true ∧ Completing (moving (serving up1 .data c true) (readLine .rqp 0))
      (readLine .rqp 0) 20 .data c e []) ∧
    (∃ e, e.dropped = true ∧ Completing (moving (serving up1 .logHeader c true) (readLine .rqp 0))
      (readLine .rqp 0) 20 .logHeader c e [] ∧ up1.esu.stack ≠ []) := by
  exact ⟨⟨_, rfl, completing_of _ _ _ _ rfl⟩, ⟨_, rfl, completing_of _ _ _ _ rfl, by decide⟩⟩

/-- The engine's header read, with the header of record 0 in DRAM naming this line. -/
def headerMoving (line : Nat) : State :=
  { moving (rolling up1 .rbHeader .single) (readHeader (up.ulc.recordRef 0)) with
    dram := Memory.writeMasked [] ((up.ulc.recordRef 0).headerLine * 64) (List.replicate 8 true)
      (headerBytes line 1 1) }

theorem test_meets_EngineReadsComplete :
    let op := readHeader (up.ulc.recordRef 0)
    (EngineCompleting (headerMoving 0x1FFFFF) op 20 .rbHeader ∧ op.kind = .read ∧ op.beats = 1 ∧
      (headerMoving 0x1FFFFF).esu.engine.record = some (up.ulc.recordRef 0)) ∧
    headerLineIndex ((headerMoving 0x1FFFFF).handed op) = 0x1FFFFF ∧
    headerLineIndex ((headerMoving 0x200000).handed op) = 0x200000 ∧
    (EngineCompleting (moving (rolling up1 .rbData .single) (readLine .rollback 0)) (readLine .rollback 0)
      20 .rbData ∧ (rolling up1 .rbData .single).esu.engine.line = some 0x4000) := by
  refine ⟨⟨⟨⟨rfl⟩, rfl, rfl⟩, rfl, rfl, rfl⟩, ?_, ?_, ⟨⟨rfl⟩, rfl, rfl⟩, rfl⟩
  · decide
  · decide

theorem test_meets_RestoreWriteCompletes :
    let op := writeLine .rollback 0x4000 (List.replicate 64 7)
    EngineCompleting (moving (rolling up1 .rbRestore .single) op) op 20 .rbRestore ∧
    (rolling up1 .rbRestore .single).esu.engine.line = some 0x4000 := ⟨⟨⟨rfl⟩, rfl, rfl⟩, rfl⟩

theorem test_meets_EngineStepsAndPops :
    let one := rolling (opened { up with ulc := { up.ulc with head := 1 } } [frame1]) .rbHeader .all
    let second : Frame := { depth := 2, serial := 2, start := 1, broken := false }
    let two (b : Bool) := rolling (opened { up with ulc := { up.ulc with head := 1 } }
      [second, { frame1 with broken := b }]) .rbHeader .all
    let fresh := { up1 with esu := { up1.esu with engine := Engine.started .single false } }
    (one.esu.stack = frame1 :: [] ∧ frame1.start < one.ulc.head) ∧
    ((rolling up1 .rbHeader .all).ulc.head ≤ frame1.start ∧
      (rolling up1 .rbHeader .all).esu.engine.kind = some .all) ∧
    ((two true).esu.stack = second :: [{ frame1 with broken := true }] ∧
      (two true).ulc.head ≤ second.start) ∧
    ((two false).esu.stack = second :: [frame1] ∧ (two false).ulc.head ≤ second.start) ∧
    (fresh.esu.engine.state = .rbHeader ∧ fresh.esu.engine.record = none ∧
      fresh.esu.engine.awaits = false) := by decide

theorem test_meets_FilterSetsAndStandings :
    ({ valid := false, line := 0, serial := 1 } : FilterEntry).standing 1 = .invalid ∧
    ({ valid := true, line := 0, serial := 1 } : FilterEntry).standing 1 = .current ∧
    ({ valid := true, line := 0, serial := 2 } : FilterEntry).standing 1 = .stale := by decide

/-- Set 18 with four CURRENT entries (Table 4.6). -/
def fullSet : Fwf :=
  [0x4012, 0x4112, 0x4212, 0x4312].foldl (fun f l => f.fill l 7) Fwf.reset

theorem test_meets_FilterLookupAndFill :
    Fwf.reset.mode = .on ∧ ({ Fwf.reset with mode := .bypass } : Fwf).mode = .bypass ∧
    fullSet.hit 0x4012 7 = true ∧ fullSet.hit 0x4412 7 = false ∧
    (∀ w, ((fullSet.setFor 0x4412).ways.get w).standing 7 = .current) ∧
    ((fullSet.setFor 0x4412).ways.get 0).standing 8 ≠ .current ∧
    ((fullSet.fill 0x4412 7).setFor 0x4412).victim = 1 := by decide

theorem test_meets_FilterInvalidationAndEmptying :
    fullSet.mode = .on ∧ ({ fullSet with mode := .bypass } : Fwf).mode = .bypass ∧
    (fullSet.invalidate 0x4012 7).hit 0x4012 7 = false := by decide +kernel

theorem test_meets_RecordPlacesAndHeader :
    0xFFFFFFFF < 2 ^ 32 ∧ 0xFFFF < 2 ^ 16 ∧ 0xFF < 2 ^ 8 := by decide

/-- Four bytes of a number, most significant first. -/
theorem test_words : word4 0 0 0x60 0 = 0x6000 ∧ word2 0x10 0 = 4096 ∧ word4 0 0 0 168 = 168 := by decide

/-- The arguments of SET_LOG but for the policy byte: base page, pages, threshold. -/
def setLogArgs (base3 base2 pages thr : Byte) : List Byte :=
  [0, 0, base3, base2, 0, pages, 0, 0, 0, thr]

theorem test_meets_SetLogReplacesConfiguration :
    let f := MgmtFrame.collecting 0x13 (setLogArgs 0x60 0 3 168)
    (∀ s : State, (framed s f).frameIs f) ∧ (∀ n, (up.desc n).basePage ≤ (up.desc n).lastPage) ∧
    State.reset.dsq.geometry = none ∧ up.dsq.geometry ≠ none ∧
    (rolling up1 .rbData .all).esu.engine.state ≠ .idle ∧ up1.esu.stack ≠ [] ∧ up1.esu.engine.state = .idle ∧
    up.esu.stack = [] ∧ (0x6000 + 3 ≤ up.capacityPages ∧ 168 ≤ 56 * 3) ∧
    (∀ n, (up.desc n).coversPage 0x6000 = false ∧ (up.desc n).coversPage 0x6002 = false) ∧
    (up.desc 1).coversPage 0x100 = true := by
  refine ⟨fun _ => rfl, ?_⟩
  decide

theorem test_meets_SerialAllocation :
    1 ≤ up1.esu.nextSerial ∧ up1.esu.nextSerial ≤ 65535 ∧ up1.esu.stack.length ≤ 8 ∧
    up1.esu.carried.length ≤ 7 := by decide

/-- Eight open epochs. -/
def up8 : State :=
  opened up ((List.range 8).reverse.map (fun i => { frame1 with depth := i + 1, serial := i + 1 }))

theorem up_stackInv : up.StackInv := by
  constructor <;> simp [up, framesOk, State.reset, Rqp.reset, Ulc.reset, Esu.reset, Engine.idle]

theorem up_filterInv : up.FilterInv := filterInv_of_reset rfl rfl

theorem test_meets_OpenPushesFrame :
    (∀ s : State, (framed s .empty).frameIs MgmtFrame.empty) ∧ State.reset.dsq.state ≠ .ready ∧
    up.dsq.state = .ready ∧ (rolling up1 .rbData .all).esu.engine.state ≠ .idle ∧
    HoldsProtected (serving up1 .logRead (logging [0x4000]) false) ∧ ¬ HoldsProtected up ∧
    ({ up with ulc := Ulc.reset } : State).ulc.pages = 0 ∧ up.ulc.pages ≠ 0 ∧
    8 ≤ up8.esu.stack.length ∧ up.esu.stack.length < 8 ∧ up.StackInv ∧ up.FilterInv := by
  refine ⟨fun _ => rfl, by decide, by decide, by decide, ?_, ?_, by decide, by decide, by decide,
    by decide, up_stackInv, up_filterInv⟩
  · exact ⟨_, _, rfl, rfl, rfl, .inl (by decide)⟩
  · rintro ⟨c, k, h, _⟩; cases h

/-- R63, R57: a serial held over a wrap, filled under after it and given up by adoption does not return:
the next OPEN passes it over, and the entry under it stays STALE (log 27). -/
theorem test_openPassesOverGivenUpSerial :
    let s : State := { opened up [{ frame1 with serial := 100 }] with
      esu := { (opened up [{ frame1 with serial := 100 }]).esu with nextSerial := 65535 } }
    let wrapped := after .openEpoch (framed s .empty)
    let filled := { wrapped with
      fwf := wrapped.fwf.fill 0x4000 100, esu := { wrapped.esu with nextSerial := 100 } }
    let committed := after .commit (framed filled .empty)
    let t := after .openEpoch (framed committed .empty)
    wrapped.esu.nextSerial = 1 ∧ wrapped.esu.carried = [100] ∧
    committed.esu.stack = [{ frame1 with serial := 65535 }] ∧
    t.topSerial = 101 ∧ t.fwf.hit 0x4000 100 = true ∧ t.fwf.hit 0x4000 t.topSerial = false ∧
    (after .commit (framed committed .empty)).esu.carried = [] := by
  decide +kernel

theorem test_meets_CommitPopsFrame :
    (∀ s : State, (framed s .empty).frameIs MgmtFrame.empty) ∧
    (rolling up1 .rbData .all).esu.engine.state ≠ .idle ∧ up.esu.engine.state = .idle ∧
    up.esu.stack = [] ∧ up1.esu.stack = [frame1] ∧
    (∃ f g more, up8.esu.stack = f :: g :: more) := by
  exact ⟨fun _ => rfl, by decide, rfl, rfl, rfl, ⟨_, _, _, rfl⟩⟩

theorem test_meets_RollbackCommandsStartEngine :
    (∀ s : State, (framed s .empty).frameIs MgmtFrame.empty) ∧ up.esu.stack = [] ∧
    up1.esu.stack = frame1 :: [] ∧ (rolling up1 .rbData .all).esu.engine.state ≠ .idle ∧
    up1.esu.engine.state = .idle ∧ frame1.broken = false ∧
    upBroken.esu.stack = { frame1 with broken := true } :: [] := by
  refine ⟨fun _ => rfl, ?_⟩
  decide

theorem test_meets_FrameReadAnswersFrame :
    (∀ s : State, (framed s (.collecting 0x34 [])).frameIs (.collecting 0x34 [])) ∧
    (∃ above f below, up8.esu.stack = above ++ f :: below ∧ (8 : Byte).toNat = below.length + 1) ∧
    (∃ above f below, up8.esu.stack = above ++ f :: below ∧ (1 : Byte).toNat = below.length + 1) ∧
    up8.esu.stack.length < (9 : Byte).toNat := by
  refine ⟨fun _ => rfl, ⟨[], _, _, rfl, rfl⟩, ⟨up8.esu.stack.dropLast, { frame1 with }, [], ?_, rfl⟩, ?_⟩
  · decide
  · decide

theorem test_meets_SuperviseSetReplacesModeAndPeriod :
    (∀ (s : State) (l : List Byte), (framed s (.collecting 0x40 l)).frameIs (.collecting 0x40 l)) ∧
    (ticking up .rollback).est.lock = true ∧
    ((ticking up .notify).est.lock = false ∧ (ticking up .notify).est.running = true) ∧
    (up.est.lock = false ∧ up.est.running = false) ∧ 3 < (4 : Byte).toNat ∧ word2 0 0 = 0 ∧
    word2 0xFF 0xFF = 65535 ∧ (3 : Byte) = SupMode.rollbackReset.code := by
  refine ⟨fun _ _ => rfl, ?_⟩
  decide

theorem test_meets_SuperviseStartStopAndKick :
    (∀ s : State, (framed s .empty).frameIs MgmtFrame.empty) ∧ (ticking up .rollback).est.lock = true ∧
    (up.est.lock = false ∧ up.est.mode = .off) ∧
    ((ticking up .notify).est.lock = false ∧ (ticking up .notify).est.mode ≠ .off) := by
  refine ⟨fun _ => rfl, ?_⟩
  decide

theorem test_meets_SupervisionExpiryActsByMode :
    (ticking up1 .notify).counting = true ∧ (ticking up1 .rollback).counting = true ∧
    (ticking up1 .rollbackReset).counting = true ∧ (ticking upBroken .rollback).counting = true ∧
    up1.esu.stack = frame1 :: [] ∧ frame1.broken = false ∧
    upBroken.esu.stack = { frame1 with broken := true } :: [] := by decide

theorem test_meets_SupervisionLockLasts :
    (ticking up1 .rollback).est.lock = true ∧ ¬ Resets (ticking up1 .rollback) .supervisionExpiry ∧
    ∃ t, exec .supervisionExpiry (ticking up1 .rollback) = .next t := ⟨by decide, id, _, rfl⟩

/-- A state with no request in the queue or the request path keeps the queue invariant. -/
theorem empty_queueInv (s : State) (h : s.slp.queue = []) (h' : s.rqp = Rqp.reset) : s.QueueInv := by
  constructor <;> simp [h, h', Rqp.reset]

theorem serving_queueInv : (serving up1 .data (logging []) false).QueueInv := by
  constructor <;> simp [serving, entry]

theorem test_meets_HostResetReachesQueueAndGate :
    up.QueueInv ∧ (serving up1 .data (logging []) false).QueueInv ∧ up.pins.hrstAsserted = false ∧
    ({ up with resetPhase := .pin } : State).resetPhase ≠ .running ∧ up.resetPhase = .running ∧
    up.est.recovery = .none ∧
    ({ up with pins := { up.pins with hrstAsserted := true } } : State).pins.hrstAsserted = true := by
  exact ⟨empty_queueInv _ rfl rfl, serving_queueInv, rfl, by decide, rfl, rfl, rfl⟩

/-- The recovery policy is ROLLBACK_ALL. -/
def recovering (s : State) : State := { s with est := { s.est with recovery := .rollbackAll } }

theorem test_meets_HostResetRecovery :
    (recovering up1).QueueInv ∧ (recovering up1).pins.hrstAsserted = false ∧
    (recovering up1).resetPhase = .running ∧ (recovering up1).est.recovery = .rollbackAll ∧
    (recovering up1).esu.stack = frame1 :: [] ∧ (recovering up1).esu.engine.state = .idle ∧
    (recovering upBroken).esu.stack = { frame1 with broken := true } :: [] ∧
    (rolling (recovering up1) .rbData .single).esu.engine.kind = some .single ∧
    (rolling (recovering up1) .rbData .supervision).esu.engine.state ≠ .idle := by
  refine ⟨empty_queueInv _ rfl rfl, ?_⟩
  decide

theorem test_meets_DeviceResetBeginsAndEnds :
    let taken : MgmtFrame := { code := some 0x7E, args := [], answer := some (.done []), shifted := 0 }
    let low := { up with pins := { up.pins with drstAsserted := true } }
    up.pins.drstAsserted = false ∧ up.resetPhase = .running ∧
    ({ up with resetPhase := .powerOn } : State).resetPhase ≠ .running ∧
    ((framed up taken).pins.mcsLow = true ∧ (framed up taken).mlp.frame = some taken) ∧
    low.pins.drstAsserted = true ∧ ({ low with resetPhase := .pin } : State).resetPhase = .pin ∧
    ({ low with resetPhase := .powerOnHeld } : State).resetPhase = .powerOnHeld := by decide

/-- The 13 argument bytes of TIMING before its last: six intervals, and the first byte of REFRESH_TICK. -/
def timingArgs (closeWait closeAll tick : Byte) : List Byte :=
  [0, 18, 0, closeWait, 0, closeAll, 0, 15, 0, 90, 0, 50, tick]

theorem test_meets_SetUpCommands :
    (∀ (s : State) (f : MgmtFrame), (framed s f).frameIs f) ∧ up.dsq.geometry ≠ none ∧
    State.reset.dsq.geometry = none ∧ word2 0x20 0 = 8192 ∧ word2 0x40 0 = 16384 ∧
    word2 0x80 0 = 32768 ∧ up.dsq.state ≠ .uninit ∧ State.reset.dsq.state = .uninit ∧
    (timingOf (timingArgs 18 18 0x0F ++ [0xA0])).legal = true ∧
    (timingOf (timingArgs 18 17 0x0F ++ [0xA0])).legal = false ∧
    (timingOf (timingArgs 18 18 0x0F ++ [0x3C])).legal = false ∧
    ({ State.reset with dsq := { Dsq.reset with geometry := some .rows8192 } } : State).dsq.geometry ≠
      none := by
  refine ⟨fun _ _ => rfl, ?_⟩
  decide

theorem test_meets_InitializationRunsToReady :
    let at_ (x : SeqState) : State := { State.reset with dsq := { Dsq.reset with state := x } }
    (at_ (.initWait 200000)).dsq.state = .initWait 200000 ∧
    (at_ (.closeAllWait 200021)).dsq.state = .closeAllWait 200021 ∧
    ((bank0 (at_ (.initRefresh 0)) (.refreshing 90) none).dsq.state = .initRefresh 0 ∧
      ((bank0 (at_ (.initRefresh 0)) (.refreshing 90) none).bank 0).state = .refreshing 90) ∧
    ((after .closeAllWaitExpiry (at_ (.closeAllWait 21))).bank 0).state = .refreshing 111 := by decide

/-- Both clients wait. -/
def bothWait (t : Client) : State :=
  { up with dsq := { up.dsq with
      waitRqp := some (readLine .rqp 1), waitRollback := some (readLine .rollback 2), turn := t } }

theorem test_meets_OperationAndTransferStart :
    (bothWait .rqp).dsq.current = none ∧ (bothWait .rqp).dsq.owed < 8 ∧
    (bothWait .rollback).dsq.waitRqp = some (readLine .rqp 1) ∧ (readLine .rqp 1).client = .rqp ∧
    (bothWait .rollback).dsq.turn = .rollback ∧
    (bothWait .rqp).dsq.waitRollback = some (readLine .rollback 2) ∧
    (readLine .rollback 2).client = .rollback ∧ (bothWait .rqp).dsq.turn = .rqp ∧
    (current (bank0 up (.opened 64) none)).dsq.current =
      some { op := readLine .rqp 0x4000, transfer := none } ∧
    ((current (bank0 up (.opened 64) none)).bank (bankOfLine 0x4000)).state =
      .opened (rowOfLine 0x4000) := by decide

theorem test_meets_BanksActivateAndOpen :
    ((current up).dsq.current.isSome ∧ (current up).dsq.history.length < 4 ∧
      ((current up).bank (bankOfLine 0x4000)).state = .idle) ∧
    ((bank0 up (.opening 64 18) none).bank 0).state = .opening 64 18 ∧
    (after .bankActivation (current up)).dsq.history = 0 :: [] := by decide

/-- An operation of the request path on row 64 of bank 0 waits. -/
def waitsFor (s : State) : State :=
  { s with dsq := { s.dsq with waitRqp := some (readLine .rqp 0x4000) } }

theorem test_meets_BanksClose :
    let open_ := bank0 up (.opened 3) none
    let closePage := { open_ with dsq := { open_.dsq with pagePolicy := .closePage } }
    let owing := { open_ with dsq := { open_.dsq with owed := 1 } }
    ((open_.bank 0).state = .opened 3 ∧ (open_.bank 0).guardTill = none) ∧
    ((current open_).held 0 = true ∧ rowOfLine 0x4000 ≠ 3) ∧ closePage.closePageDue 0 = true ∧
    (owing.dsq.pointer = 0 ∧ owing.held 0 = false) ∧ open_.closeDue 0 = false ∧
    (((waitsFor closePage).bank 0).state = .opened 3 ∧
      (waitsFor closePage).nextStarted = some (readLine .rqp 0x4000) ∧
      bankOfLine 0x4000 = 0 ∧ ((waitsFor closePage).bank 0).guardTill = none) ∧
    ((bank0 up (.closing 18) none).bank 0).state = .closing 18 ∧
    ((bank0 up (.opened 3) (some 15)).bank 0).guardTill = some 15 := by decide

/-- R135: with an operation to be started for its bank the close does not begin; and a close that only
the page policy asks for lets the request path take its next request first. -/
theorem test_closePageYieldsToStart :
    let closing := bank0 { up with dsq := { up.dsq with pagePolicy := .closePage } } (.opened 64) none
    ((after (.bankClose 0) closing).bank 0).state = .closing 18 ∧
    ((after (.bankClose 0) (waitsFor closing)).bank 0).state = .opened 64 ∧
    (waitsFor closing).nextEvents = [.operationStart] ∧ closing.nextEvents = [.bankClose 0] ∧
    (queued closing (readReq 0x100000 8)).nextEvents = [.requestTake] ∧
    (after .requestTake (queued closing (readReq 0x100000 8))).nextEvents = [.operationStart] := by
  decide +kernel

theorem test_meets_RefreshIsOwedAndPaid :
    let owing (n : Nat) := { up with dsq := { up.dsq with owed := n } }
    (up.dsq.tick = some 4000 ∧ (owing 7).dsq.owed < 8 ∧ 8 ≤ (owing 8).dsq.owed) ∧
    (0 < (owing 1).dsq.owed ∧ (owing 1).dsq.refreshing = none ∧
      ((owing 1).bank (owing 1).dsq.pointer).state = .idle ∧ (owing 1).dsq.current = none) ∧
    ((after .bankRefreshStart (owing 1)).dsq.refreshing = some 0 ∧
      ((after .bankRefreshStart (owing 1)).bank 0).state = .refreshing 90) := by decide

theorem test_meets_RegionWriteAndRead :
    let f := MgmtFrame.collecting 0x20 [4, 1, 1, 0, 0, 0x60, 0, 0, 0, 0x60]
    (∀ s : State, (framed s f).frameIs f) ∧ (∀ n, (up.desc n).basePage ≤ (up.desc n).lastPage) ∧
    State.reset.dsq.geometry = none ∧ up.dsq.geometry ≠ none ∧
    (rolling up1 .rbData .all).esu.engine.state ≠ .idle ∧ up1.esu.stack ≠ [] ∧ up.esu.stack = [] ∧
    (after (.regionWrite 0xFF) (framed up f)).desc 4 =
      { enabled := true, basePage := 0x6000, lastPage := 0x60FF, cls := .tracked, readRight := false,
        writeRight := false, align := false } ∧
    (∀ s : State, (framed s (.collecting 0x21 [])).frameIs (.collecting 0x21 [])) ∧
    15 < (16 : Byte).toNat ∧ (15 : Fin 16).val = (15 : Byte).toNat := by
  refine ⟨fun _ => rfl, by decide, rfl, by decide, by decide, by decide, rfl, by decide, fun _ => rfl,
    by decide, rfl⟩

theorem test_meets_SetPolicyReplacesFields :
    (∀ (s : State) (l : List Byte), (framed s (.collecting 0x14 l)).frameIs (.collecting 0x14 l)) ∧
    (rolling up1 .rbData .all).esu.engine.state ≠ .idle ∧ up1.esu.engine.state = .idle ∧
    up1.esu.stack ≠ [] ∧ up.esu.stack = [] ∧ 1 < (2 : Byte).toNat ∧
    ((after (.setPolicy 1) (framed (bank0 up (.opened 3) none)
      (.collecting 0x14 [1, 1, 1, 1]))).bank 0).state = .closing 18 ∧
    ((after (.setPolicy 1) (framed (waitsFor (bank0 up (.opened 3) none))
      (.collecting 0x14 [1, 1, 1, 1]))).bank 0).state = .opened 3 := by
  refine ⟨fun _ _ => rfl, ?_⟩
  decide

theorem test_meets_EventCommandsAndInterrupt :
    (∀ (s : State) (f : MgmtFrame), (framed s f).frameIs f) ∧ up.evu.faults = [] ∧
    up.evu.capture = none ∧
    (∃ r rest, (after .requestTake (queued up (readReq 0x800000 1))).evu.faults = r :: rest) ∧
    (∃ c, (up.captureWatch { addr := 0, kind := .read, beats := 1, depth := 0 }).evu.capture =
      some c) ∧ (up.raise .watch).intN = false := by
  exact ⟨fun _ _ => rfl, rfl, rfl, ⟨_, _, rfl⟩, ⟨_, rfl⟩, by decide⟩

theorem test_meets_AnswersWithoutEffect :
    (∀ s : State, (framed s .empty).frameIs MgmtFrame.empty) ∧
    (0xFF : Byte) ∉ commandsAtCode.map Prod.fst ∧ (0xFF : Byte) ∉ commandsAtLast.map Prod.fst := by
  refine ⟨fun _ => rfl, ?_⟩
  decide

theorem test_meets_FramesAndBytes :
    up.pins.mcsLow = false ∧ (framed up .empty).pins.mcsLow = true ∧
    ({ framed up .empty with mlp := up.mlp } : State).mlp.frame = none ∧
    (after (.byteShiftedIn 0x43) (framed up .empty)).mlp.frame =
      some { code := some 0x43, args := [], answer := some (.done []), shifted := 0 } ∧
    (framed up .empty).frameIs MgmtFrame.empty ∧ (0x10, 2, Instr.geometry) ∈ commandsAtLast.take 1 ∧
    (framed up (.collecting 0x10 [])).frameIs (.collecting 0x10 []) ∧
    (framed up (.collecting 0x10 [1])).frameIs (.collecting 0x10 [1]) := by
  exact ⟨rfl, rfl, rfl, by decide, rfl, List.mem_cons_self, rfl, rfl⟩

/-- The map of Table 2.8 with one epoch open meets the hypotheses of the claims about steps. -/
theorem test_meets_QueueInvariantKept : up1.QueueInv ∧ ∃ t, step up1 = .next t :=
  ⟨empty_queueInv _ rfl rfl, _, rfl⟩

theorem up1_stackInv : up1.StackInv := by
  constructor <;> simp [up1, opened, up, frame1, framesOk, State.reset, Rqp.reset, Ulc.reset, Esu.reset,
    Engine.idle]

theorem test_meets_StackInvariantKept : up1.StackInv ∧ ∃ t, step up1 = .next t :=
  ⟨up1_stackInv, _, rfl⟩

theorem test_meets_RoomAndTimerInvariantsKept :
    up1.StackInv ∧ up1.RoomInv ∧ (ticking up1 .rollbackReset).TimerInv ∧ ∃ t, step up1 = .next t := by
  refine ⟨up1_stackInv, ?_, ?_, _, rfl⟩
  · constructor <;> simp [up1, opened, up, State.reset, Ulc.reset, Rqp.reset, Stage.logs]
  · constructor <;> simp [ticking, up1, opened, up, State.reset, Est.reset, Esu.reset, Engine.idle,
      SupMode.rollsBack]

theorem test_meets_RegionInvariantsKept : up1.RegionsInv ∧ up1.CapacityInv ∧ ∃ t, step up1 = .next t := by
  refine ⟨⟨up_regionsInv.descsApart, up_regionsInv.logApart⟩, ?_, _, rfl⟩
  have h : ∀ i, (up1.desc i).basePage ≤ (up1.desc i).lastPage ∧
      (up1.desc i).lastPage < up1.capacityPages := by decide
  exact ⟨fun i => (h i).1, fun i => .inl (h i).2, by decide, .inr (by decide), by decide,
    fun _ => nofun⟩

theorem test_meets_BoundsWatchFilterMemoryKept :
    up.BoundsInv ∧ up.WatchInv ∧ up.FilterInv ∧ up.MemoryInv ∧ ∃ t, step up = .next t := by
  exact ⟨⟨by decide, by decide, by decide⟩, rfl, up_filterInv, List.Pairwise.nil, _, rfl⟩

end Sys2Proof.Tests
end

section
/-! What every step keeps of the shape of the request queue. -/
namespace Sys2Proof.Machine

/-- The queue and the request in service are the same: all that State.QueueInv speaks of. -/
structure SameService (s t : State) : Prop where
  queue : t.slp.queue = s.slp.queue
  stage : t.rqp.stage = s.rqp.stage
  current : t.rqp.current = s.rqp.current

theorem SameService.keeps {s t : State} (h : SameService s t) (hs : s.QueueInv) : t.QueueInv :=
  hs.congr h.queue h.stage h.current

theorem SameService.of_blocks {s t : State} (hq : t.slp.queue = s.slp.queue) (hr : t.rqp = s.rqp) :
    SameService s t :=
  ⟨hq, congrArg Rqp.stage hr, congrArg Rqp.current hr⟩

/-- For an act that a lemma rewrites to a state `u` which shows what it changes. -/
theorem SameService.of_eq {s t u : State} (ht : t = u) (hq : u.slp.queue = s.slp.queue := by rfl)
    (hr : u.rqp = s.rqp := by rfl) : SameService s t :=
  ht ▸ .of_blocks hq hr

/-- WATCH_SET replaces the watch comparator, and nothing else of the request path (R50). -/
theorem watchSetAct_sameService (l : List Byte) (s : State) :
    SameService s (watchSetAct l s).1 := by
  unfold watchSetAct
  dsimp only
  split <;> exact ⟨rfl, rfl, rfl⟩

theorem setPolicyAct_sameService (l : List Byte) (s : State) :
    SameService s (setPolicyAct l s).1 := by
  obtain h | ⟨dc, ac, fm, pp, rp, h⟩ := setPolicyAct_cases s l
  · exact .of_eq h
  · exact .of_eq h (by simp) (by simp)

/-- No command of the management link touches the queue or the request in service. -/
theorem act_sameService :
    ∀ a ∈ allActs, ∀ l s, SameService s (a l s).1 := by
  simp only [allActs, List.forall_mem_cons]
  exact
    ⟨fun l s => .of_eq (identAct_state s l), fun l s => .of_eq (statusAct_state s l),
      fun l s => .of_eq (geometryAct_changes s l), fun l s => .of_eq (timingAct_changes s l),
      fun l s => .of_eq (dramInitAct_changes s l), fun l s => .of_eq (setLogAct_changes s l),
      setPolicyAct_sameService, fun l s => .of_eq (regionWriteAct_changes s l),
      fun l s => .of_eq (regionReadAct_state s l), watchSetAct_sameService,
      fun l s => .of_eq (openAct_changes s l), fun l s => .of_eq (commitAct_changes s l),
      fun l s => .of_blocks (by simp) (by simp), fun l s => .of_blocks (by simp) (by simp),
      fun l s => .of_eq (frameReadAct_state s l), fun l s => .of_eq (superviseSetAct_changes s l),
      fun l s => .of_eq (superviseStartAct_changes s l),
      fun l s => .of_eq (superviseStopAct_changes s l), fun l s => .of_eq (kickAct_changes s l),
      fun l s => .of_eq (faultPopAct_changes s l), fun l s => .of_eq (eventsReadAct_state s l),
      fun l s => .of_eq (eventsClearAct_changes s l), fun l s => .of_eq (maskWriteAct_changes s l),
      fun l s => .of_eq (deviceResetAct_state s l), fun l s => .of_eq (unknownAct_state s l), nofun⟩

/-- A completion hands its data to the client with the queue as it was; only the request path's own
response may end the request (R8, R134). -/
theorem operationComplete_queueInv {s : State} (h : s.QueueInv) :
    (after .operationComplete s).QueueInv := by
  simp only [after, exec, execOperationComplete]
  split
  next c _ =>
    split
    next till _ =>
      have finished : ((s.advanceTo till).finishOp c.op).QueueInv :=
        h.congr (by simp) (by simp) (by simp)
      split
      · exact rqpComplete_queueInv finished _
      · exact finished.congr (by simp) (by simp) (by simp)
    · exact h
  · exact h

/-- After a device reset the queue is empty and the request path holds nothing (R13, R50). -/
theorem deviceReset_queueInv (s : State) : s.deviceReset.QueueInv :=
  idle_queueInv (Nat.zero_le 8) (fun _ he => absurd he List.not_mem_nil) rfl rfl

theorem hostResetAssert_queueInv {s : State} (h : s.QueueInv) :
    (after .hostResetAssert s).QueueInv := by
  simp only [after, exec, execHostResetAssert]
  have pin : (s.setPins { s.pins with hrstAsserted := true }).QueueInv := h.congr rfl rfl rfl
  split
  · exact h
  · split
    · exact pin
    · exact (hostResetLink_queueInv pin).congr (by simp) (by simp) (by simp)

theorem drstNAssert_queueInv {s : State} (h : s.QueueInv) :
    (after .drstNAssert s).QueueInv := by
  have pin : (s.setPins { s.pins with drstAsserted := true }).QueueInv := h.congr rfl rfl rfl
  simp only [after, exec, execDrstNAssert]
  split
  · exact h
  · split
    · exact (deviceReset_queueInv _).congr rfl rfl rfl
    all_goals exact pin

theorem frameEnd_queueInv {s : State} (h : s.QueueInv) : (after .frameEnd s).QueueInv := by
  simp only [after, exec, execFrameEnd]
  split
  · split
    · exact (deviceReset_queueInv _).congr rfl rfl rfl
    · exact h.congr rfl rfl rfl
  · exact h

theorem rollbackFirstStep_sameService (s : State) : SameService s (after .rollbackFirstStep s) := by
  simp only [after, exec, execRollbackFirstStep]
  split
  · exact .of_blocks (by simp) (by simp)
  · exact .of_blocks rfl rfl

theorem supervisionExpiry_sameService (s : State) : SameService s (after .supervisionExpiry s) := by
  simp only [after, exec, execSupervisionExpiry]
  split
  · split <;> exact .of_blocks (by simp) (by simp)
  · exact .of_blocks rfl rfl

/-- Acceptance, taking, completion and the resets reach the queue; the events of the sequencer, the
engine and the timer, the end of a reset and the beginning of a frame leave it as it is. -/
theorem event_queueInv (i : Instr) (hi : isEvent i = true) (s : State) (h : s.QueueInv) :
    (after i s).QueueInv := by
  cases i <;> simp only [isEvent, Bool.false_eq_true] at hi <;> clear hi
  case requestAccept r => exact requestAccept_queueInv h r
  case requestTake => exact requestTake_queueInv h
  case operationComplete => exact operationComplete_queueInv h
  case hostResetAssert => exact hostResetAssert_queueInv h
  case powerOn => exact (deviceReset_queueInv s).congr rfl rfl rfl
  case drstNAssert => exact drstNAssert_queueInv h
  case frameEnd => exact frameEnd_queueInv h
  case rollbackFirstStep => exact (rollbackFirstStep_sameService s).keeps h
  case supervisionExpiry => exact (supervisionExpiry_sameService s).keeps h
  all_goals
    simp only [after, exec, execOperationStart, execTransferStart, execHostResetRelease,
      execPowerOnResetEnd, execDrstNRelease, execFrameBegin, execInitWaitExpiry,
      execCloseAllWaitExpiry, execInitRefreshExpiry, execBankActivation, execOpenWaitExpiry,
      execBankClose, execCloseWaitExpiry, execWriteGuardExpiry, execRefreshTickExpiry,
      execBankRefreshStart, execBankRefreshWaitExpiry, execActWindowAgeOut]
    repeat' split
    all_goals exact h.congr rfl rfl rfl

/-- Settles O56: the acts of the management link leave the queue alone, and every event keeps its
shape. -/
theorem queueInvariantKept : Obligations.QueueInvariantKept := by
  intro s t hs ht
  refine step_keeps (P := State.QueueInv) ?_ ?_ ?_ hs ht
  · exact fun x l h => h.congr rfl rfl rfl
  · exact fun x n h => h.congr rfl rfl rfl
  · exact fun i x h => after_keeps (P := State.QueueInv) (fun y m hy => hy.congr rfl rfl rfl)
      (fun a ha l y hy => (act_sameService a ha l y).keeps hy) event_queueInv i x h

end Sys2Proof.Machine
end

section
/-! Acceptance of a request, the lines it covers and the operations on them (R1 to R3, R6, R36). -/
namespace Sys2Proof.Machine

/-! ### Acceptance -/

/-- When a presented request is recorded (R6). -/
theorem accepts_iff (s : State) (r : Request) :
    (r.wellFormed && decide (s.slp.queue.length < Config.queueCapacity) && s.slp.gateOpen &&
      !s.inReset) = true ↔
      r.wellFormed = true ∧ s.slp.queue.length < 8 ∧ s.slp.gateOpen = true ∧
        s.resetPhase = .running := by
  simp only [Bool.and_eq_true, decide_eq_true_eq, and_assoc, State.inReset, Bool.not_eq_true',
    bne_eq_false_iff_eq]
  rfl

theorem exec_requestAccept (s : State) (r : Request) :
    exec (.requestAccept r) s = execRequestAccept r s := rfl

/-- Settles O9: the three conditions of R6 are the model's condition, and each clause of the withholding
negates one of them. -/
theorem requestAcceptedOrWithheld : Obligations.RequestAcceptedOrWithheld := by
  intro s r hr
  rw [exec_requestAccept, execRequestAccept]
  constructor
  · intro ⟨hlen, hgate, hrun⟩
    rw [if_pos ((accepts_iff s r).mpr ⟨hr, hlen, hgate, hrun⟩)]
    rfl
  · intro hwithheld
    rw [if_neg]
    rw [accepts_iff]
    rintro ⟨-, hlen, hgate, hrun⟩
    obtain hfull | hclosed | hreset := hwithheld
    · omega
    · rw [hgate] at hclosed
      cases hclosed
    · exact hreset hrun

/-! ### The lines of a request -/

/-- What R1 asks of a request. -/
theorem request_wellFormed_iff (r : Request) :
    r.wellFormed = true ↔ r.addr.toNat % 8 = 0 ∧ 1 ≤ r.beats ∧ r.beats ≤ 8 ∧
      (r.kind = .read → r.wbeats = []) ∧ (r.kind = .write → r.wbeats.length = r.beats) := by
  cases hk : r.kind <;> simp [Request.wellFormed, hk, and_assoc]

/-- No request brings more write beats than its beats (R1). -/
theorem wbeats_length_le {r : Request} (h : r.wellFormed = true) :
    r.wbeats.length ≤ r.beats := by
  obtain ⟨-, -, -, hread, hwrite⟩ := (request_wellFormed_iff r).mp h
  cases hk : r.kind with
  | read => simp [hread hk]
  | write => exact (hwrite hk).le

theorem coveredParts_of_fits {r : Request} (h : r.wellFormed = true)
    (hfit : r.addr.toNat % 64 + 8 * r.beats ≤ 64) :
    coveredParts r =
      [{ line := r.addr.toNat / 64, startBeat := r.addr.toNat % 64 / 8, beats := r.beats,
         wbeats := r.wbeats }] := by
  have hone : coversTwoLines r = false := by simpa [coversTwoLines] using hfit
  simp [coveredParts, beatsInFirstLine, hone, List.take_of_length_le (wbeats_length_le h)]

theorem coveredParts_of_crosses {r : Request} (hcross : 64 < r.addr.toNat % 64 + 8 * r.beats) :
    coveredParts r =
      [{ line := r.addr.toNat / 64, startBeat := r.addr.toNat % 64 / 8,
         beats := (64 - r.addr.toNat % 64) / 8,
         wbeats := r.wbeats.take ((64 - r.addr.toNat % 64) / 8) },
       { line := r.addr.toNat / 64 + 1, startBeat := 0,
         beats := r.beats - (64 - r.addr.toNat % 64) / 8,
         wbeats := r.wbeats.drop ((64 - r.addr.toNat % 64) / 8) }] := by
  have htwo : coversTwoLines r = true := by simpa [coversTwoLines] using hcross
  simp [coveredParts, beatsInFirstLine, htwo]

/-- The first covered line is the one that holds the address (R2). -/
theorem coveredParts_eq_cons (r : Request) :
    ∃ first more, coveredParts r = first :: more ∧ first.line = r.addr.toNat / 64 := by
  unfold coveredParts
  dsimp only
  split
  · exact ⟨_, _, rfl, rfl⟩
  · exact ⟨_, _, rfl, rfl⟩

/-- Settles O10: the two cases of R2, by whether the beats reach past the first line's end. -/
theorem requestCoversOneOrTwoLines : Obligations.RequestCoversOneOrTwoLines :=
  fun _ hr => ⟨coveredParts_of_fits hr, coveredParts_of_crosses⟩

/-! ### Touched lines and their operations -/

/-- A beat is touched by one enable (R3). -/
theorem beatTouched_iff (b : Beat) : beatTouched b = true ↔ ∃ j : Fin 8, b.enables.get j = true := by
  simp only [beatTouched, List.any_eq_true, id, Vector.mem_toList_iff, Vector.mem_iff_getElem,
    Vector.get_eq_getElem]
  constructor
  · rintro ⟨x, ⟨i, hi, rfl⟩, hx⟩
    exact ⟨⟨i, hi⟩, hx⟩
  · rintro ⟨j, hj⟩
    exact ⟨_, ⟨j, j.isLt, rfl⟩, hj⟩

theorem touchedParts_read {r : Request} (hk : r.kind = .read) : touchedParts r = coveredParts r := by
  simp [touchedParts, hk, LinePart.touched]

theorem mem_touchedParts_write {r : Request} (hk : r.kind = .write) (p : LinePart) :
    p ∈ touchedParts r ↔
      p ∈ coveredParts r ∧ ∃ b ∈ p.wbeats, ∃ j : Fin 8, b.enables.get j = true := by
  simp [touchedParts, hk, LinePart.touched, beatTouched_iff]

/-- The beats of a covered line lie within it, and a WRITE brings data for each of them (R1, R2). -/
theorem coveredParts_beats {r : Request} (h : r.wellFormed = true) {p : LinePart}
    (hp : p ∈ coveredParts r) :
    p.startBeat + p.beats ≤ 8 ∧ (r.kind = .write → p.wbeats.length = p.beats) := by
  obtain ⟨haligned, hlow, hhigh, -, hwrite⟩ := (request_wellFormed_iff r).mp h
  obtain hfit | hcross := le_or_gt (r.addr.toNat % 64 + 8 * r.beats) 64
  · rw [coveredParts_of_fits h hfit, List.mem_singleton] at hp
    subst hp
    exact ⟨by dsimp only; omega, hwrite⟩
  · rw [coveredParts_of_crosses hcross, List.mem_pair] at hp
    obtain rfl | rfl := hp
    · refine ⟨by dsimp only; omega, fun hk => ?_⟩
      rw [List.length_take, hwrite hk]
      dsimp only
      omega
    · refine ⟨by dsimp only; omega, fun hk => ?_⟩
      rw [List.length_drop, hwrite hk]

/-- Settles O11: touched lines are covered lines, so the beats of a touched line are those of R2. -/
theorem touchedLinesAndTheirOperations : Obligations.TouchedLinesAndTheirOperations := by
  intro r hr
  have hsub : (touchedParts r).Sublist (coveredParts r) := List.filter_sublist
  exact ⟨touchedParts_read, mem_touchedParts_write, hsub,
    fun p hp => ⟨rfl, coveredParts_beats hr (hsub.subset hp)⟩⟩

end Sys2Proof.Machine
end

section
/-! The taking of the oldest request: its check, its answer, and its first operation (R7, R31 to R36). -/
namespace Sys2Proof.Machine

/-! ### The oldest entry is taken -/

/-- The oldest entry has been marked IN_SERVICE (R7). -/
def State.taken (s : State) (e : Entry) (rest : List Entry) : State :=
  s.setSlp { s.slp with queue := { e with mark := .inService } :: rest }

/-- The mark of the oldest entry has no part in a check. -/
theorem checkOf_taken (s : State) (e : Entry) (rest : List Entry) (r : Request) :
    checkOf (s.taken e rest) r = checkOf s r := rfl

theorem exec_requestTake (s : State) : exec .requestTake s = execRequestTake s := rfl

/-- A taking is the check of the entry marked IN_SERVICE (R31, log 20). -/
theorem TakeReady.exec_eq_check {s : State} {e : Entry} {rest : List Entry} (h : TakeReady s e rest) :
    exec .requestTake s = .next ((s.taken e rest).checkRequest e.req) := by
  have hdue : s.takeDue = true := by
    simp [State.takeDue, h.stage, h.noRequest, h.queue, h.waiting]
  rw [exec_requestTake, execRequestTake, if_pos hdue]
  simp only [h.queue]
  rfl

/-- The response to a request that has been taken hands its entry back: the request path was idle, and
no first step of the engine waited, so that the release of the two changes nothing (R8). -/
theorem TakeReady.respond {s : State} {e : Entry} {rest : List Entry} (h : TakeReady s e rest)
    (x : Response) : (s.taken e rest).respond x = s.handedBack rest x := by
  have hrqp : { s.rqp with stage := .waiting, current := none } = s.rqp := by
    rw [← h.stage, ← h.noRequest]
  have hesu : { s.esu with engine := { s.esu.engine with awaits := false } } = s.esu := by
    rw [← h.noWait]
  simp only [State.respond, State.endRequest, State.taken, State.setSlp, State.handedBack, hrqp, hesu]
  rfl

/-- What the event unit holds has no part in a taking. -/
theorem TakeReady.setEvu {s : State} {e : Entry} {rest : List Entry} (h : TakeReady s e rest)
    (v : Evu) : TakeReady { s with evu := v } e rest :=
  ⟨h.queue, h.waiting, h.stage, h.noRequest, h.noWait⟩

/-! ### The event unit -/

/-- A fault record changes the event unit alone (R149). -/
theorem State.recordFault_eq (s : State) (x : FaultRecord) :
    s.recordFault x = { s with evu := s.evu.given x } := by
  unfold State.recordFault Evu.given Config.faultCapacity
  split <;> rfl

/-- A request past its check changes the event unit alone, where it matches the comparator (R51). -/
theorem State.watchRequest_eq (s : State) (r : Request) :
    s.watchRequest r (touchedParts r) = { s with evu := s.watched r s.evu } := by
  unfold State.watchRequest State.watched
  split <;> rfl

theorem TakeReady.faultRequest {s : State} {e : Entry} {rest : List Entry}
    (h : TakeReady s e rest) (k : FaultKind) (region : RegionIndex) :
    (s.taken e rest).faultRequest e.req k region =
      State.handedBack { s with evu := s.evu.given (recordOf s e.req k region) } rest .fault := by
  unfold State.faultRequest
  rw [State.recordFault_eq]
  exact (h.setEvu (s.evu.given (recordOf s e.req k region))).respond .fault

/-! ### The check -/

/-- The line classifications of a request: that of its first line is the first (R22). -/
theorem classes_eq_cons (s : State) (r : Request) :
    ∃ more, (coveredParts r).map (fun p => s.classify p.line) =
      s.classify (r.addr.toNat / 64) :: more := by
  obtain ⟨first, more, hparts, hline⟩ := coveredParts_eq_cons r
  exact ⟨_, by rw [hparts, List.map_cons, hline]⟩

theorem Classification.heldByRollback_iff (k : Classification) :
    k.heldByRollback = true ↔ k.cls = .tracked ∨ k.cls = .guarded ∨ k.cls = .log := by
  simp [Classification.heldByRollback, or_assoc]

theorem heldOff_iff (s : State) (r : Request) :
    HeldOff s r ↔ (s.rollbackInProgress && ((coveredParts r).map (fun p => s.classify p.line)).any
      Classification.heldByRollback) = true := by
  simp [HeldOff, State.rollbackInProgress, Classification.heldByRollback_iff]

theorem checkRequest_of_notReady {s : State} (h : s.dsq.state ≠ .ready) (r : Request) :
    s.checkRequest r = s.respond .retry := by
  simp [State.checkRequest, State.dsqReady, h]

theorem checkRequest_of_heldOff {s : State} {r : Request} (h : s.dsq.state = .ready)
    (hoff : HeldOff s r) : s.checkRequest r = s.respond .retry := by
  simp only [State.checkRequest, State.dsqReady, h, (heldOff_iff s r).mp hoff]
  rfl

/-- A request that no rollback holds off is answered by its check, or settled (R34, R35). -/
theorem checkRequest_of_free {s : State} {r : Request} (h : s.dsq.state = .ready)
    (hoff : ¬ HeldOff s r) :
    s.checkRequest r =
      (checkOf s r).elim
        (s.settle r ((coveredParts r).map (fun p => s.classify p.line))
          (s.classify (r.addr.toNat / 64)))
        (fun x => s.faultRequest r x.1 x.2) := by
  rw [heldOff_iff] at hoff
  obtain ⟨more, hclasses⟩ := classes_eq_cons s r
  have hready : ¬ (!s.dsqReady) = true := by simp [State.dsqReady, h]
  unfold State.checkRequest checkOf
  dsimp only
  rw [if_neg hready, if_neg hoff, hclasses]
  dsimp only
  cases requestCheck r.kind (s.classify (r.addr.toNat / 64)) more.head? s.rmap.alignCheck s.depth with
  | none => rfl
  | some x => rfl

/-- Settles O15: the three answers of the check that hand the request back. -/
theorem takeAnswersRetryOrFault : Obligations.TakeAnswersRetryOrFault := by
  intro s e rest hs
  rw [hs.exec_eq_check]
  refine ⟨fun hnot => ?_, fun hready hoff => ?_, fun hready hfree k region hfault => ?_⟩
  · rw [checkRequest_of_notReady (s := s.taken e rest) hnot, hs.respond]
  · rw [checkRequest_of_heldOff (s := s.taken e rest) hready hoff, hs.respond]
  · rw [checkRequest_of_free (s := s.taken e rest) hready hfree, checkOf_taken, hfault]
    exact congrArg _ (hs.faultRequest k region)

/-! ### Service without a log -/

/-- The service that Table 3.4 gives a READ, and a WRITE that is not to be logged (R35). -/
theorem serviceFor_read {s : State} {r : Request} (hk : r.kind = .read) (cls : LineClass) :
    s.serviceFor r cls = .read := by
  simp [State.serviceFor, hk]

theorem serviceFor_of_not_logged {s : State} {r : Request} (hk : r.kind = .write)
    (h : ¬ Logged s r) : s.serviceFor r (s.classify (r.addr.toNat / 64)).cls = .directWrite := by
  unfold State.serviceFor
  rw [hk]
  refine if_neg fun hlogged => h ?_
  obtain ⟨⟨hcls, hopen⟩, hsound⟩ :
      (((s.classify (r.addr.toNat / 64)).cls = .tracked ∨
        (s.classify (r.addr.toNat / 64)).cls = .guarded) ∧ s.esu.stack ≠ []) ∧
        s.topBroken = false := by
    simpa [State.depth, List.length_pos_iff] using hlogged
  exact ⟨hk, hcls, hopen, hsound⟩

/-- A request without a missed line begins its DATA stage at once, once the watch comparator has seen
it (R36, R51). -/
theorem serve_of_hits {s : State} {c : Current} (ht : c.touched = touchedParts c.req)
    (hm : c.missed = []) :
    s.serve c = State.goData { s with evu := s.watched c.req s.evu } c := by
  unfold State.serve
  rw [ht, State.watchRequest_eq]
  unfold State.nextMissed
  rw [hm]

/-- The DATA stage begins with the operation on the first touched line (R36). -/
theorem goData_of_touched {s : State} {c : Current} {p : LinePart} {more : List LinePart}
    (ht : c.touched = p :: more) :
    s.goData c = s.goesOn .data { c with left := p :: more, missed := [], record := none }
      (lineOp c.req.kind p) := by
  unfold State.goData
  rw [ht]
  rfl

/-- A request past its checks is settled (R35). -/
theorem TakeReady.exec_of_passes {s : State} {e : Entry} {rest : List Entry}
    (h : TakeReady s e rest) (hp : Passes s e.req) :
    exec .requestTake s = .next ((s.taken e rest).settle e.req
      ((coveredParts e.req).map (fun p => s.classify p.line))
      (s.classify (e.req.addr.toNat / 64))) := by
  rw [h.exec_eq_check, checkRequest_of_free (s := s.taken e rest) hp.ready hp.notHeldOff, checkOf_taken,
    hp.noFault]
  rfl

theorem settle_of_untouched {s : State} {r : Request} (h : touchedParts r = [])
    (classes : List Classification) (first : Classification) :
    s.settle r classes first = s.respond (.okay []) := by
  simp [State.settle, h]

/-- What is settled without a log is served with no missed line. -/
theorem settle_of_unlogged {s : State} {r : Request} {p : LinePart} {more : List LinePart}
    (h : touchedParts r = p :: more) (classes : List Classification) {first : Classification}
    {service : Service} (hs : s.serviceFor r first.cls = service) (hl : service ≠ .loggingWrite) :
    s.settle r classes first = s.serve
      { req := r, classes := classes, touched := touchedParts r, service := service,
        logFrame := none, missed := [], record := none, left := [], readData := [] } := by
  have htouched : ¬ (touchedParts r).isEmpty = true := by simp [h]
  unfold State.settle
  dsimp only
  rw [if_neg htouched, hs]
  cases service with
  | read => rfl
  | directWrite => rfl
  | loggingWrite => exact absurd rfl hl

/-- A request past its checks that is not to be logged goes to DATA with its first line operation. -/
theorem TakeReady.exec_of_unlogged {s : State} {e : Entry} {rest : List Entry} {p : LinePart}
    {more : List LinePart} {service : Service} (h : TakeReady s e rest) (hp : Passes s e.req)
    (ht : touchedParts e.req = p :: more)
    (hs : s.serviceFor e.req (s.classify (e.req.addr.toNat / 64)).cls = service)
    (hl : service ≠ .loggingWrite) :
    exec .requestTake s = .next
      (s.inService e rest .data { currentOf s e.req service with left := p :: more }
        (lineOp e.req.kind p)) := by
  rw [h.exec_of_passes hp, settle_of_unlogged (s := s.taken e rest) ht _ hs hl, serve_of_hits rfl rfl,
    goData_of_touched ht]
  rfl

/-- Settles O16: both services without a log take the same way from the check to DATA. -/
theorem takeServesReadsAndDirectWrites : Obligations.TakeServesReadsAndDirectWrites := by
  intro s e rest hs hp
  refine ⟨fun hnone => ?_, fun p more ht => ⟨fun hk => ?_, fun hk hlogged => ?_⟩⟩
  · rw [hs.exec_of_passes hp, settle_of_untouched hnone, hs.respond]
  · rw [hs.exec_of_unlogged hp ht (serviceFor_read hk _) nofun, hk]
  · rw [hs.exec_of_unlogged hp ht (serviceFor_of_not_logged hk hlogged) nofun, hk]

end Sys2Proof.Machine
end

section
/-! The completion of an operation for a request that a host reset has dropped (R10, R48). -/
namespace Sys2Proof.Machine

/-! ### The sequencer's part -/

/-- The sequencer's part of a completion, once the clock has reached the end of the transfer (R134). -/
theorem finishOp_advanceTo (s : State) (op : MemOp) (till : Nat) :
    (s.advanceTo till).finishOp op = s.transferred op till := by
  unfold State.finishOp State.transferred
  cases op.kind with
  | read => rfl
  | write => rfl

section
variable (s : State) (op : MemOp) (till : Nat)

@[simp] theorem State.transferred_slp : (s.transferred op till).slp = s.slp := by
  unfold State.transferred; dsimp only; split <;> rfl
@[simp] theorem State.transferred_rqp : (s.transferred op till).rqp = s.rqp := by
  unfold State.transferred; dsimp only; split <;> rfl
@[simp] theorem State.transferred_esu : (s.transferred op till).esu = s.esu := by
  unfold State.transferred; dsimp only; split <;> rfl
end

theorem exec_operationComplete (s : State) : exec .operationComplete s = execOperationComplete s := rfl

/-- A completion of the request path's operation: the sequencer's part, then the request path's. -/
theorem exec_operationComplete_rqp {s : State} {op : MemOp} {till : Nat}
    (ht : Transferring s op till) (hc : op.client = .rqp) :
    exec .operationComplete s =
      .next ((s.transferred op till).rqpComplete ((s.advanceTo till).opData op)) := by
  rw [exec_operationComplete, execOperationComplete, ht.current]
  dsimp only
  rw [finishOp_advanceTo, hc]

/-! ### The request path's part -/

/-- The oldest entry, in service, leaves the queue with its request (R8, R48). -/
theorem dropRequest_of_served {s : State} {e : Entry} {rest : List Entry}
    (hq : s.slp.queue = e :: rest) (hm : e.mark = .inService) :
    s.dropRequest = s.released rest := by
  simp [State.dropRequest, State.endRequest, State.released, hq, hm]

/-- The mark of the oldest entry tells whether the request in service is dropped. -/
theorem serviceDropped_of_head {s : State} {e : Entry} {rest : List Entry}
    (hq : s.slp.queue = e :: rest) (hm : e.mark = .inService) (hd : e.dropped = true) :
    s.serviceDropped = true := by
  simp [State.serviceDropped, hq, hm, hd]

/-- The head rises by one, with LOW_SPACE at the crossing; a page holds 56 records (R67, R72, R76). -/
theorem headRise_eq (s : State) :
    s.headRise = { s with
      ulc := { s.ulc with head := s.ulc.head + 1 }
      evu :=
        if s.ulc.threshold < 56 * s.ulc.pages - s.ulc.head ∧
            56 * s.ulc.pages - (s.ulc.head + 1) ≤ s.ulc.threshold then
          { s.evu with flags := s.evu.flags ||| Flag.lowSpace.set }
        else s.evu } := by
  have hcapacity : s.logCapacity = 56 * s.ulc.pages := rfl
  unfold State.headRise
  dsimp only
  rw [hcapacity, apply_ite (f := fun v => ({ s with ulc := _, evu := v } : State))]
  rfl

theorem countRecord_of_open {s : State} {c : Current} {line : Nat} {lines : List Nat}
    (hopen : s.esu.stack ≠ []) (hm : c.missed = line :: lines) :
    s.countRecord c = s.counted line := by
  have hdepth : s.depth ≠ 0 := by simpa [State.depth] using hopen
  unfold State.countRecord
  rw [if_neg hdepth, hm, headRise_eq]
  rfl

theorem countRecord_of_closed {s : State} (hclosed : s.esu.stack = []) (c : Current) :
    s.countRecord c = s := by
  simp [State.countRecord, State.depth, hclosed]

/-- A dropped request issues nothing more, and is dropped; a header counts first (R48). -/
theorem rqpComplete_of_dropped {s : State} {c : Current} (hc : s.rqp.current = some c)
    (hd : s.serviceDropped = true) (data : List Byte) :
    s.rqpComplete data =
      (if s.rqp.stage = .logHeader then s.countRecord c else s).dropRequest := by
  unfold State.rqpComplete
  rw [hc]
  dsimp only
  rw [if_pos hd]
  cases s.rqp.stage <;> rfl

/-- What happens at a completion for a dropped request: its header counts if it is one, and the oldest
entry leaves. -/
theorem Completing.exec_of_dropped {s : State} {op : MemOp} {till : Nat} {stage : Stage}
    {c : Current} {e : Entry} {rest : List Entry} (h : Completing s op till stage c e rest)
    (hd : e.dropped = true) :
    exec .operationComplete s = .next
      ((if stage = .logHeader then (s.transferred op till).countRecord c
        else s.transferred op till).released rest) := by
  have hqueue : (s.transferred op till).slp.queue = e :: rest := by simpa using h.queue
  have hdropped := serviceDropped_of_head hqueue h.served hd
  rw [exec_operationComplete_rqp h.transfer h.client,
    rqpComplete_of_dropped (by simpa using h.request) hdropped, State.transferred_rqp, h.stage]
  refine congrArg _ (dropRequest_of_served (e := e) ?_ h.served)
  split
  · rw [State.countRecord_slp]
    exact hqueue
  · exact hqueue

/-- Settles O24: by whether the operation that completes is a header that counts. -/
theorem droppedRequestCompletes : Obligations.DroppedRequestCompletes := by
  intro s op till stage c e rest h hd
  rw [h.exec_of_dropped hd]
  refine ⟨fun hquiet => ?_, fun hstage hopen line lines hmissed => ?_⟩
  · obtain hother | hclosed := hquiet
    · rw [if_neg hother]
    · rw [countRecord_of_closed (by simpa using hclosed), ite_self]
  · rw [if_pos hstage, countRecord_of_open (by simpa using hopen) hmissed]

end Sys2Proof.Machine
end

section
/-! Host reset and device reset: queue, request in service, gate and cause (R9 to R13, R48, R163). -/
namespace Sys2Proof.Machine

/-! ### Host reset -/

/-- Waiting entries leave nothing of the queue behind (R10). -/
theorem filter_inService_of_waiting {l : List Entry} (h : ∀ e ∈ l, e.mark = .waiting) :
    l.filter (fun e => e.mark == .inService) = [] := by
  rw [List.filter_eq_nil_iff]
  intro e he
  simp [h e he]

/-- At most the oldest entry is IN_SERVICE: with it gone, no dropped entry is left. -/
theorem State.QueueInv.kept_erased {s : State} (h : s.QueueInv) :
    ((s.slp.queue.filter (fun e => e.mark == .inService)).map
      (fun e => { e with dropped := true })).eraseP (fun e => e.mark == .inService) = [] := by
  have hrest := filter_inService_of_waiting fun e he => (h.restWaiting e he).1
  cases hq : s.slp.queue with
  | nil => rfl
  | cons e rest =>
    rw [hq, List.tail_cons] at hrest
    rw [List.filter_cons, hrest]
    cases hm : e.mark <;> simp [hm]

/-- The request path has an operation in flight, in the words of the claims. -/
theorem rqpInFlight_eq (s : State) :
    s.rqpInFlight = (s.dsq.waitRqp.isSome || s.dsq.current.any (fun c => c.op.client == .rqp)) := by
  unfold State.rqpInFlight
  cases s.dsq.current <;> rfl

/-- An assertion reaches the link port, the event unit and the request path (R10, R48). -/
theorem hostResetLink_eq {s : State} (h : s.QueueInv) :
    (s.setPins { s.pins with hrstAsserted := true }).hostResetLink = s.hostReset := by
  unfold State.hostResetLink State.hostReset
  simp only [rqpInFlight_eq, State.raise_dsq, State.setSlp_dsq, State.setPins_dsq]
  split
  · rfl
  · have hgone := h.kept_erased
    simp only [State.dropRequest, State.endRequest, State.released, State.raise_slp, State.setSlp_slp,
      State.setPins_slp, hgone]
    rfl

/-- Without ROLLBACK_ALL, or with no epoch open, the timer does nothing at a host reset (Table 7.4). -/
theorem recover_of_none {s : State} (h : s.est.recovery = .none ∨ s.esu.stack = []) :
    s.recover = s := by
  unfold State.recover
  rw [if_neg]
  rintro ⟨hall, hopen⟩
  obtain hnone | hclosed := h
  · rw [hnone] at hall
    cases hall
  · simp [State.depth, hclosed] at hopen

@[simp] theorem State.hostReset_est (s : State) : s.hostReset.est = s.est := by
  unfold State.hostReset; dsimp only; split <;> rfl

@[simp] theorem State.hostReset_stack (s : State) : s.hostReset.esu.stack = s.esu.stack := by
  unfold State.hostReset; dsimp only; split <;> rfl

theorem inReset_iff (s : State) : s.inReset = true ↔ s.resetPhase ≠ .running := by
  simp [State.inReset]

theorem exec_hostResetAssert {s : State} (h : s.pins.hrstAsserted = false) :
    exec .hostResetAssert s = .next
      (if s.resetPhase ≠ .running then s.setPins { s.pins with hrstAsserted := true }
      else (s.setPins { s.pins with hrstAsserted := true }).hostResetLink.recover) := by
  have hoff : ¬ s.pins.hrstAsserted = true := by simp [h]
  simp only [exec, execHostResetAssert, if_neg hoff, inReset_iff, State.setPins_resetPhase]

theorem exec_hostResetRelease {s : State} (h : s.pins.hrstAsserted = true) :
    exec .hostResetRelease s = .next
      (if s.resetPhase ≠ .running then s.setPins { s.pins with hrstAsserted := false }
      else
        (s.setPins { s.pins with hrstAsserted := false }).setSlp { s.slp with gateOpen := true }) := by
  simp only [exec, execHostResetRelease, if_pos h, inReset_iff, State.setPins_resetPhase,
    State.setPins_slp]

/-- Settles O42: during a device reset only the level changes; else the link port's part is
State.hostReset, and the timer has none without an epoch to roll back. -/
theorem hostResetReachesQueueAndGate : Obligations.HostResetReachesQueueAndGate := by
  intro s hs
  refine ⟨fun hoff => ?_, fun hon => ?_⟩
  · rw [exec_hostResetAssert hoff]
    refine ⟨fun hreset => ?_, fun hrun hnone => ?_⟩
    · rw [if_pos hreset]
      rfl
    · rw [if_neg (not_not_intro hrun), hostResetLink_eq hs, recover_of_none (by simpa using hnone)]
  · rw [exec_hostResetRelease hon]
    refine ⟨fun hreset => ?_, fun hrun => ?_⟩
    · rw [if_pos hreset]
      rfl
    · rw [if_neg (not_not_intro hrun)]
      rfl

/-! ### Device reset -/

/-- A power-on reset may begin at any time; the values are those of the reset state (R163, log 18). -/
theorem exec_powerOn (s : State) : exec .powerOn s = .next { s.cleared with resetPhase := .powerOn } :=
  rfl

theorem exec_drstNAssert_of_running {s : State} (h : s.pins.drstAsserted = false)
    (hrun : s.resetPhase = .running) :
    exec .drstNAssert s = .next
      { s.cleared with pins := { s.pins with drstAsserted := true }, resetPhase := .pin } := by
  simp only [exec, execDrstNAssert, h, hrun]
  rfl

/-- A device reset in progress goes on as it is (R163). -/
theorem exec_drstNAssert_of_inReset {s : State} (h : s.pins.drstAsserted = false)
    (hreset : s.resetPhase ≠ .running) :
    exec .drstNAssert s = .next { s with pins := { s.pins with drstAsserted := true } } := by
  have hoff : ¬ s.pins.drstAsserted = true := by simp [h]
  simp only [exec, execDrstNAssert, if_neg hoff]
  split
  next hrun => exact absurd hrun hreset
  all_goals rfl

/-- DRST_N released ends the reset that the pin made, or prolonged, with the cause of each (R163). -/
theorem exec_drstNRelease_of_pin {s : State} (h : s.pins.drstAsserted = true)
    (hpin : s.resetPhase = .pin) :
    exec .drstNRelease s = .next
      (State.outOfReset { s with pins := { s.pins with drstAsserted := false } } .resetPin) := by
  simp only [exec, execDrstNRelease, if_pos h, hpin]
  rfl

theorem exec_drstNRelease_of_held {s : State} (h : s.pins.drstAsserted = true)
    (hheld : s.resetPhase = .powerOnHeld) :
    exec .drstNRelease s = .next
      (State.outOfReset { s with pins := { s.pins with drstAsserted := false } } .powerOn) := by
  simp only [exec, execDrstNRelease, if_pos h, hheld]
  rfl

/-- Without a reset that the pin holds, only its level changes (R163). -/
theorem exec_drstNRelease_of_free {s : State} (h : s.pins.drstAsserted = true)
    (hfree : s.resetPhase = .running ∨ s.resetPhase = .powerOn) :
    exec .drstNRelease s = .next (s.setPins { s.pins with drstAsserted := false }) := by
  obtain hrun | hpower := hfree
  · simp only [exec, execDrstNRelease, if_pos h, hrun]
  · simp only [exec, execDrstNRelease, if_pos h, hpower]

/-- At the end of power-on DRST_N decides whether the reset is over (R163). -/
theorem exec_powerOnResetEnd {s : State} (h : s.resetPhase = .powerOn) :
    exec .powerOnResetEnd s = .next
      (if s.pins.drstAsserted then { s with resetPhase := .powerOnHeld }
      else s.outOfReset .powerOn) := by
  simp only [exec, execPowerOnResetEnd, h]
  rfl

/-- A frame that carried DEVICE_RESET resets the device at its end, and the reset is over at once
(R163). -/
theorem exec_frameEnd_of_deviceReset {s : State} {f : MgmtFrame} {a : Answer}
    (hlow : s.pins.mcsLow = true) (hframe : s.mlp.frame = some f) (hcode : f.code = some 0x7E)
    (hanswer : f.answer = some a) :
    exec .frameEnd s = .next
      ((State.cleared { s with
        pins := { s.pins with mcsLow := false }
        mlp := { s.mlp with frame := none, mdo := none } }).outOfReset .command) := by
  have hcarries : s.carriesDeviceReset = true := by
    simp [State.carriesDeviceReset, hframe, hcode, hanswer]
  simp only [exec, execFrameEnd, if_pos hlow, if_pos hcarries]
  rfl

/-- Settles O44: the beginnings and the ends of a device reset, by the pin levels and the phase. -/
theorem deviceResetBeginsAndEnds : Obligations.DeviceResetBeginsAndEnds := by
  intro s
  refine ⟨exec_powerOn s, fun hoff => ?_, fun f a => exec_frameEnd_of_deviceReset, fun hphase => ?_,
    fun hon => ?_⟩
  · exact ⟨exec_drstNAssert_of_running hoff, exec_drstNAssert_of_inReset hoff⟩
  · rw [exec_powerOnResetEnd hphase]
    exact ⟨fun hoff => by simp [hoff], fun hon => by simp [hon]⟩
  · exact ⟨exec_drstNRelease_of_pin hon, exec_drstNRelease_of_held hon,
      exec_drstNRelease_of_free hon⟩

end Sys2Proof.Machine
end

section
/-! The reset state: the values of its vectors, and the invariants that begin there (R13, R163). -/
namespace Sys2Proof.Machine

/-! ### Values that a vector holds at every place -/

@[simp] theorem reset_desc (i : Fin 16) : State.reset.desc i = Descriptor.reset := by
  simp [State.desc, State.reset, Rmap.reset, Vector.get_eq_getElem]

@[simp] theorem reset_filterSet (i : Fin 256) : State.reset.fwf.sets.get i = FilterSet.reset := by
  simp [State.reset, Fwf.reset, Vector.get_eq_getElem]

@[simp] theorem reset_filterWay (w : Fin 4) : FilterSet.reset.ways.get w = FilterEntry.reset := by
  simp [FilterSet.reset, Vector.get_eq_getElem]

@[simp] theorem reset_bank (b : Fin 8) : State.reset.bank b = Bank.reset := by
  simp [State.bank, State.reset, Dsq.reset, Vector.get_eq_getElem]

/-- Every pending flag is clear, so that with any masks INT_N stays high (R151, R156). -/
@[simp] theorem reset_isPending (f : Flag) : State.reset.isPending f = false := BitVec.getLsbD_zero

theorem reset_intN : State.reset.intN = false := by
  simp [State.intN, State.reset, Evu.reset]

/-- Settles O4, block by block; where the claim speaks of every place of a vector, by the value that the
vector repeats. -/
theorem resetGivesStatedValues : Obligations.ResetGivesStatedValues := by
  refine ⟨⟨rfl, rfl⟩, ⟨fun i => ?descriptor, rfl, rfl⟩, ⟨rfl, rfl, rfl, rfl, rfl, rfl, rfl⟩,
    ⟨fun i w => ?entry, fun i => ?victim, rfl⟩, ⟨rfl, rfl, rfl, rfl, rfl⟩,
    ⟨rfl, rfl, rfl, rfl, rfl, rfl, rfl, rfl, rfl⟩, ⟨rfl, rfl, rfl, rfl, rfl, rfl, rfl, rfl⟩,
    ⟨rfl, rfl, rfl, rfl, rfl, rfl, rfl, rfl, rfl, rfl, fun b => ?bank, rfl, rfl, rfl, rfl, rfl, rfl,
      rfl, rfl, rfl⟩,
    ⟨rfl, reset_isPending, rfl, rfl, reset_intN⟩, ⟨rfl, rfl⟩, rfl⟩
  case descriptor => simp [Descriptor.reset]
  case entry => simp [FilterEntry.reset]
  case victim => simp [FilterSet.reset]
  case bank => simp [Bank.reset]

/-! ### The invariants begin -/

theorem reset_queueInv : State.reset.QueueInv :=
  idle_queueInv (Nat.zero_le 8) (fun _ he => absurd he List.not_mem_nil) rfl rfl

/-- With no frame, no record and the engine idle, most clauses speak of nothing. -/
theorem reset_stackInv : State.reset.StackInv where
  frames := rfl
  depthBound := Nat.zero_le 8
  nextLow := Nat.le_refl 1
  nextHigh := by decide
  carriedShort := Nat.zero_le 7
  idleStage _ := rfl
  idleKind := ⟨fun _ => rfl, fun _ => rfl⟩
  idleRecord _ := ⟨rfl, rfl⟩
  busyStack h := absurd rfl h
  busyRecord := nofun
  recordNewest _ := nofun
  awaitsFirst := nofun
  noLogging h := absurd rfl h

theorem reset_roomInv : State.reset.RoomInv := ⟨Nat.zero_le _, nofun⟩

theorem reset_timerInv : State.reset.TimerInv := ⟨nofun, rfl, nofun, nofun, nofun⟩

/-- No descriptor is enabled, so that none covers a page (R14). -/
theorem reset_coversPage (i : Fin 16) (page : Nat) :
    (State.reset.desc i).coversPage page = false := by
  simp [Descriptor.coversPage, Descriptor.reset]

theorem reset_regionsInv : State.reset.RegionsInv where
  descsApart i _ page h := by
    rw [reset_coversPage] at h
    cases h
  logApart i page h := by
    rw [reset_coversPage] at h
    cases h

theorem reset_capacityInv : State.reset.CapacityInv where
  descOrder i := by simp [Descriptor.reset]
  descEnd i := .inr (by simp [Descriptor.reset])
  logSize := Nat.zero_le _
  logEnd := .inl rfl
  threshold := Nat.zero_le _
  geometrySet h := absurd rfl h

theorem reset_watchInv : State.reset.WatchInv := (reset_isPending .watch).symm

theorem reset_boundsInv : State.reset.BoundsInv := ⟨Nat.zero_le _, Nat.zero_le _, Nat.zero_le _⟩

/-- Settles O5: each invariant by its own lemma. -/
theorem invariantsHoldAtReset : Obligations.InvariantsHoldAtReset :=
  ⟨reset_queueInv, reset_stackInv, reset_roomInv, reset_timerInv, reset_regionsInv,
    filterInv_of_reset rfl rfl, reset_watchInv, reset_boundsInv, List.Pairwise.nil, reset_capacityInv⟩

end Sys2Proof.Machine
end

section
/-! What every step keeps of the region map and the log area (R14, R16, R18, R66, R118). -/
namespace Sys2Proof.Machine

/-! ### The map and the log's place stay, or a device reset clears them -/

/-- The descriptors, the place and threshold of the log and the geometry are the same, and a sequencer
in UNINIT stays in it: all that State.RegionsInv and State.CapacityInv speak of. -/
structure SameMap (s t : State) : Prop where
  descs : t.rmap.descs = s.rmap.descs
  basePage : t.ulc.basePage = s.ulc.basePage
  pages : t.ulc.pages = s.ulc.pages
  threshold : t.ulc.threshold = s.ulc.threshold
  geometry : t.dsq.geometry = s.dsq.geometry
  uninit : t.dsq.state ≠ .uninit → s.dsq.state ≠ .uninit

theorem SameMap.regionsInv {s t : State} (h : SameMap s t) (hs : s.RegionsInv) : t.RegionsInv :=
  hs.congr h.descs h.basePage h.pages

theorem SameMap.capacityInv {s t : State} (h : SameMap s t) (hs : s.CapacityInv) : t.CapacityInv :=
  hs.congr h.descs h.basePage h.pages h.threshold h.geometry h.uninit

theorem SameMap.refl (s : State) : SameMap s s := ⟨rfl, rfl, rfl, rfl, rfl, id⟩

theorem SameMap.trans {s t u : State} (h : SameMap s t) (h' : SameMap t u) : SameMap s u :=
  ⟨h'.descs.trans h.descs, h'.basePage.trans h.basePage, h'.pages.trans h.pages,
    h'.threshold.trans h.threshold, h'.geometry.trans h.geometry, h.uninit ∘ h'.uninit⟩

/-- The map's block is the same, the log stays where it is, and the sequencer changes its waiting
operations at most. -/
theorem SameMap.of_sequencer {s t : State} (hr : t.rmap = s.rmap)
    (hb : t.ulc.basePage = s.ulc.basePage) (hp : t.ulc.pages = s.ulc.pages)
    (ht : t.ulc.threshold = s.ulc.threshold) (hd : SameSequencer s t) : SameMap s t :=
  ⟨congrArg Rmap.descs hr, hb, hp, ht, hd.geometry, fun h => hd.state ▸ h⟩

/-- For an act that a lemma rewrites to a state `u` which shows that it leaves the three blocks. -/
theorem SameMap.of_eq {s t u : State} (ht : t = u) (hr : u.rmap = s.rmap := by rfl)
    (hu : u.ulc = s.ulc := by rfl) (hd : u.dsq = s.dsq := by rfl) : SameMap s t := by
  subst ht
  exact .of_sequencer hr (by rw [hu]) (by rw [hu]) (by rw [hu]) (.of_eq hd)

/-- A device reset has cleared the map, the log area and the sequencer (R163). -/
structure MapCleared (t : State) : Prop where
  rmap : t.rmap = Rmap.reset
  ulc : t.ulc = Ulc.reset
  dsq : t.dsq = Dsq.reset

/-- A cleared map is that of the state after reset. -/
theorem MapCleared.sameMap {t : State} (h : MapCleared t) : SameMap State.reset t := by
  obtain ⟨hr, hu, hd⟩ := h
  exact .of_sequencer hr (by rw [hu]; rfl) (by rw [hu]; rfl) (by rw [hu]; rfl) (.of_eq hd)

/-! ### The acts of the management link -/

theorem beginClose_sameMap (s : State) (b : Fin 8) : SameMap s (s.beginClose b) :=
  ⟨rfl, rfl, rfl, rfl, rfl, id⟩

theorem setPolicies_sameMap (s : State) (dc : DefaultClass) (ac : Bool) (fm : FilterMode)
    (pp : PagePolicy) (rp : RecoveryPolicy) : SameMap s (s.setPolicies dc ac fm pp rp) :=
  ⟨rfl, rfl, rfl, rfl, rfl, id⟩

theorem closePages_sameMap (l : List (Fin 8)) (s : State) : SameMap s (s.closePages l) := by
  induction l generalizing s with
  | nil => exact .refl s
  | cons b l ih =>
    unfold State.closePages
    split
    · exact (beginClose_sameMap s b).trans (ih _)
    · exact ih s

theorem setPolicyAct_sameMap (l : List Byte) (s : State) : SameMap s (setPolicyAct l s).1 := by
  obtain h | ⟨dc, ac, fm, pp, rp, h⟩ := setPolicyAct_cases s l
  · exact .of_eq h
  · rw [h]
    exact (setPolicies_sameMap s dc ac fm pp rp).trans (closePages_sameMap allBanks _)

/-- An outermost COMMIT empties the log, which stays where it is (R74, R87). -/
theorem commitAct_sameMap (l : List Byte) (s : State) : SameMap s (commitAct l s).1 := by
  unfold commitAct
  split
  · exact .refl s
  · split <;> exact ⟨rfl, rfl, rfl, rfl, rfl, id⟩

theorem startRollback_sameMap (k : RollbackKind) (s : State) : SameMap s (s.startRollback k) :=
  .of_sequencer (by simp) (by simp) (by simp) (by simp) (startRollback_sequencer s k)

theorem rollbackAct_sameMap (l : List Byte) (s : State) : SameMap s (rollbackAct l s).1 := by
  unfold rollbackAct
  split
  · exact .refl s
  · exact startRollback_sameMap .single s

theorem rollbackAllAct_sameMap (l : List Byte) (s : State) : SameMap s (rollbackAllAct l s).1 := by
  unfold rollbackAllAct
  split
  · exact .refl s
  · exact startRollback_sameMap .all s

/-- TIMING is taken in UNINIT and leaves it (R120). -/
theorem timingAct_sameMap (l : List Byte) (s : State) : SameMap s (timingAct l s).1 := by
  unfold timingAct
  split
  · exact .refl s
  · split <;> exact ⟨rfl, rfl, rfl, rfl, rfl, id⟩

/-- The commands that may change the map, the log's place, the geometry, or leave UNINIT. -/
def mapActs : List Act := [geometryAct, dramInitAct, setLogAct, regionWriteAct]

/-- Every other command of the management link leaves them. -/
theorem act_sameMap :
    ∀ a ∈ allActs, a ∈ mapActs ∨ ∀ l s, SameMap s (a l s).1 := by
  simp only [allActs, List.forall_mem_cons]
  exact
    ⟨.inr fun l s => .of_eq (identAct_state s l), .inr fun l s => .of_eq (statusAct_state s l),
      .inl (by simp [mapActs]), .inr timingAct_sameMap, .inl (by simp [mapActs]),
      .inl (by simp [mapActs]), .inr setPolicyAct_sameMap, .inl (by simp [mapActs]),
      .inr fun l s => .of_eq (regionReadAct_state s l),
      .inr fun l s => .of_eq (watchSetAct_changes s l),
      .inr fun l s => .of_eq (openAct_changes s l), .inr commitAct_sameMap,
      .inr rollbackAct_sameMap, .inr rollbackAllAct_sameMap,
      .inr fun l s => .of_eq (frameReadAct_state s l),
      .inr fun l s => .of_eq (superviseSetAct_changes s l),
      .inr fun l s => .of_eq (superviseStartAct_changes s l),
      .inr fun l s => .of_eq (superviseStopAct_changes s l),
      .inr fun l s => .of_eq (kickAct_changes s l), .inr fun l s => .of_eq (faultPopAct_changes s l),
      .inr fun l s => .of_eq (eventsReadAct_state s l),
      .inr fun l s => .of_eq (eventsClearAct_changes s l),
      .inr fun l s => .of_eq (maskWriteAct_changes s l),
      .inr fun l s => .of_eq (deviceResetAct_state s l),
      .inr fun l s => .of_eq (unknownAct_state s l), nofun⟩

/-- GEOMETRY gives a capacity where there was none: until then no descriptor reaches beyond page 0 and
the log has no pages (R18, R118). -/
theorem geometryAct_capacityInv {s : State} (h : s.CapacityInv) (l : List Byte) :
    (geometryAct l s).1.CapacityInv := by
  unfold geometryAct
  split
  · exact h
  next hnone =>
    split
    · obtain ⟨order, below, size, logEnd, threshold, -⟩ := h
      have hcap : s.capacityPages = 0 := by
        simp at hnone
        simp [State.capacityPages, State.capacityLines, State.rowsPerBank, hnone]
      rw [hcap] at below logEnd
      have hpages : s.ulc.pages = 0 := by omega
      exact ⟨order, fun i => .inr ((below i).resolve_left (Nat.not_lt_zero _)), size, .inl hpages,
        threshold, fun _ => nofun⟩
    · exact h

/-- DRAM_INIT leaves UNINIT with the geometry set (R122). -/
theorem dramInitAct_capacityInv {s : State} (h : s.CapacityInv) (l : List Byte) :
    (dramInitAct l s).1.CapacityInv := by
  unfold dramInitAct
  split
  · exact h
  · split
    · exact h
    next hset =>
      obtain ⟨order, below, size, logEnd, threshold, -⟩ := h
      exact ⟨order, below, size, logEnd, threshold, fun _ => by simpa using hset⟩

theorem mapActs_regionsInv {s : State} (h : s.RegionsInv) (l : List Byte) :
    ∀ a ∈ mapActs, (a l s).1.RegionsInv := by
  simp only [mapActs, List.forall_mem_cons]
  refine ⟨?_, ?_, setLogAct_regionsInv h l, regionWriteAct_regionsInv h l, nofun⟩
  · rw [geometryAct_changes]
    exact h.congr rfl rfl rfl
  · rw [dramInitAct_changes]
    exact h.congr rfl rfl rfl

theorem mapActs_capacityInv {s : State} (h : s.CapacityInv) (l : List Byte) :
    ∀ a ∈ mapActs, (a l s).1.CapacityInv := by
  simp only [mapActs, List.forall_mem_cons]
  exact ⟨geometryAct_capacityInv h l, dramInitAct_capacityInv h l, setLogAct_capacityInv h l,
    regionWriteAct_capacityInv h l, nofun⟩

/-! ### The events -/

theorem requestTake_sameMap (s : State) : SameMap s (after .requestTake s) := by
  simp only [after, exec, execRequestTake]
  split
  · split
    · exact .of_sequencer (by simp) (by simp) (by simp) (by simp)
        (.trans (.of_eq rfl) (checkRequest_sequencer _ _))
    · exact .refl s
  · exact .refl s

theorem advanceTo_sameMap (s : State) (till : Nat) : SameMap s (s.advanceTo till) := .of_eq rfl

theorem finishOp_sameMap (s : State) (op : MemOp) : SameMap s (s.finishOp op) := by
  unfold State.finishOp
  dsimp only
  split <;> exact ⟨rfl, rfl, rfl, rfl, rfl, id⟩

theorem operationComplete_sameMap (s : State) : SameMap s (after .operationComplete s) := by
  simp only [after, exec, execOperationComplete]
  split
  next c _ =>
    split
    next till _ =>
      have finished : SameMap s ((s.advanceTo till).finishOp c.op) :=
        (advanceTo_sameMap s till).trans (finishOp_sameMap _ c.op)
      split
      · exact finished.trans
          (.of_sequencer (by simp) (by simp) (by simp) (by simp) (rqpComplete_sequencer _ _))
      · exact finished.trans
          (.of_sequencer (by simp) (by simp) (by simp) (by simp) (engineComplete_sequencer _ _))
    · exact .refl s
  · exact .refl s

theorem rollbackFirstStep_sameMap (s : State) : SameMap s (after .rollbackFirstStep s) := by
  simp only [after, exec, execRollbackFirstStep]
  split
  · exact .of_sequencer (by simp) (by simp) (by simp) (by simp) (engineStep_sequencer s)
  · exact .refl s

theorem hostResetLink_sameMap (s : State) : SameMap s s.hostResetLink :=
  .of_sequencer (by simp) (by simp) (by simp) (by simp) (.of_eq (hostResetLink_dsq s))

theorem recover_sameMap (s : State) : SameMap s s.recover :=
  .of_sequencer (by simp) (by simp) (by simp) (by simp) (recover_sequencer s)

theorem hostResetAssert_sameMap (s : State) : SameMap s (after .hostResetAssert s) := by
  simp only [after, exec, execHostResetAssert]
  split
  · exact .refl s
  · split
    · exact .of_eq rfl
    · exact .trans (.of_eq rfl) ((hostResetLink_sameMap _).trans (recover_sameMap _))

theorem expiryRollback_sameMap (s : State) : SameMap s s.expiryRollback := by
  unfold State.expiryRollback
  split
  · exact .of_eq rfl
  · dsimp only
    split
    · exact .trans (startRollback_sameMap .supervision s) (.of_eq rfl)
    · exact startRollback_sameMap .supervision s

theorem supervisionExpiry_sameMap (s : State) : SameMap s (after .supervisionExpiry s) := by
  simp only [after, exec, execSupervisionExpiry]
  split
  · split
    · exact .of_eq rfl
    · exact .of_eq rfl
    all_goals exact .trans (.of_eq rfl) (expiryRollback_sameMap _)
  · exact .refl s

/-- The waits of the initialization find a sequencer that has left UNINIT (R123, R124). -/
theorem initWaitExpiry_sameMap (s : State) : SameMap s (after .initWaitExpiry s) := by
  simp only [after, exec, execInitWaitExpiry]
  split
  next hstate => exact ⟨rfl, rfl, rfl, rfl, rfl, fun _ => by simp [hstate]⟩
  · exact .refl s

theorem closeAllWaitExpiry_sameMap (s : State) : SameMap s (after .closeAllWaitExpiry s) := by
  simp only [after, exec, execCloseAllWaitExpiry]
  split
  next hstate => exact ⟨rfl, rfl, rfl, rfl, rfl, fun _ => by simp [hstate]⟩
  · exact .refl s

theorem initRefreshExpiry_sameMap (s : State) : SameMap s (after .initRefreshExpiry s) := by
  simp only [after, exec, execInitRefreshExpiry]
  split
  next hstate =>
    split
    · split <;> exact ⟨rfl, rfl, rfl, rfl, rfl, fun _ => by simp [hstate]⟩
    · exact .refl s
  · exact .refl s

theorem drstNAssert_map (s : State) :
    SameMap s (after .drstNAssert s) ∨ MapCleared (after .drstNAssert s) := by
  simp only [after, exec, execDrstNAssert]
  split
  · exact .inl (.refl s)
  · split
    · exact .inr ⟨rfl, rfl, rfl⟩
    all_goals exact .inl (.of_eq rfl)

theorem frameEnd_map (s : State) :
    SameMap s (after .frameEnd s) ∨ MapCleared (after .frameEnd s) := by
  simp only [after, exec, execFrameEnd]
  split
  · split
    · exact .inr ⟨rfl, rfl, rfl⟩
    · exact .inl (.of_eq rfl)
  · exact .inl (.refl s)

/-- No event moves a descriptor or the log area; a device reset clears both, with the geometry. The
events of the request path, the engine and the timer reach the sequencer's waiting operations and the
log's head, those of the sequencer its banks and intervals. -/
theorem event_map (i : Instr) (hi : isEvent i = true) (s : State) :
    SameMap s (after i s) ∨ MapCleared (after i s) := by
  cases i <;> simp only [isEvent, Bool.false_eq_true] at hi <;> clear hi
  case powerOn => exact .inr ⟨rfl, rfl, rfl⟩
  case drstNAssert => exact drstNAssert_map s
  case frameEnd => exact frameEnd_map s
  case requestTake => exact .inl (requestTake_sameMap s)
  case operationComplete => exact .inl (operationComplete_sameMap s)
  case rollbackFirstStep => exact .inl (rollbackFirstStep_sameMap s)
  case hostResetAssert => exact .inl (hostResetAssert_sameMap s)
  case supervisionExpiry => exact .inl (supervisionExpiry_sameMap s)
  case initWaitExpiry => exact .inl (initWaitExpiry_sameMap s)
  case closeAllWaitExpiry => exact .inl (closeAllWaitExpiry_sameMap s)
  case initRefreshExpiry => exact .inl (initRefreshExpiry_sameMap s)
  all_goals
    left
    simp only [after, exec, execRequestAccept, execOperationStart, execTransferStart,
      execHostResetRelease, execPowerOnResetEnd, execDrstNRelease, execFrameBegin,
      execBankActivation, execOpenWaitExpiry, execBankClose, execCloseWaitExpiry,
      execWriteGuardExpiry, execRefreshTickExpiry, execBankRefreshStart,
      execBankRefreshWaitExpiry, execActWindowAgeOut]
    repeat' split
    all_goals exact ⟨rfl, rfl, rfl, rfl, rfl, id⟩

/-- A property of the map that holds at reset is kept by every step, once the four commands that may
change the map keep it. -/
theorem step_keeps_of_map {P : State → Prop} (hreset : P State.reset)
    (hsame : ∀ {s t}, SameMap s t → P s → P t)
    (hacts : ∀ {s}, P s → ∀ l, ∀ a ∈ mapActs, P (a l s).1) {s t : State} (hs : P s)
    (ht : step s = .next t) : P t := by
  have hact : ∀ a ∈ allActs, ∀ l x, P x → P (a l x).1 := fun a ha l x hx =>
    (act_sameMap a ha).elim (fun hm => hacts hx l a hm) fun hm => hsame (hm l x) hx
  have hevent : ∀ i, isEvent i = true → ∀ x, P x → P (after i x) := fun i hi x hx =>
    (event_map i hi x).elim (fun hm => hsame hm hx) fun hm => hsame hm.sameMap hreset
  exact step_keeps (fun x l => hsame (.of_eq rfl)) (fun x n => hsame (.of_eq rfl))
    (after_keeps (fun x m => hsame (.of_eq rfl)) hact hevent) hs ht

/-- Settles O59: each invariant is one of the map, kept by the commands that may change it. -/
theorem regionInvariantsKept : Obligations.RegionInvariantsKept :=
  ⟨fun _ _ => step_keeps_of_map reset_regionsInv SameMap.regionsInv mapActs_regionsInv,
    fun _ _ => step_keeps_of_map reset_capacityInv SameMap.capacityInv mapActs_capacityInv⟩

end Sys2Proof.Machine
end

section
/-! The classification of a line and when two lines share a region (R18 to R20). -/
namespace Sys2Proof.Machine

/-! ### What covers a page -/

theorem Descriptor.coversPage_iff (d : Descriptor) (page : Nat) :
    d.coversPage page = true ↔ d.enabled = true ∧ d.basePage ≤ page ∧ page ≤ d.lastPage := by
  simp [Descriptor.coversPage, and_assoc]

theorem Ulc.coversPage_iff (u : Ulc) (page : Nat) :
    u.coversPage page = true ↔ u.basePage ≤ page ∧ page < u.basePage + u.pages := by
  simp [Ulc.coversPage]

/-- Enabled descriptors are apart, so that the search finds the one that covers the page (R16). -/
theorem State.RegionsInv.find_covering {s : State} (h : s.RegionsInv) {i : Fin 16} {page : Nat}
    (hi : (s.desc i).coversPage page = true) :
    allDescs.find? (fun j => (s.desc j).coversPage page) = some i := by
  cases hfind : allDescs.find? (fun j => (s.desc j).coversPage page) with
  | none => exact absurd hi (List.find?_eq_none.mp hfind i (mem_allDescs i))
  | some j =>
    have hj := List.find?_some hfind
    rw [h.descsApart j i page hj hi]

theorem find_covering_none {s : State} {page : Nat}
    (h : ∀ i, ¬ (s.desc i).coversPage page = true) :
    allDescs.find? (fun j => (s.desc j).coversPage page) = none :=
  List.find?_eq_none.mpr fun i _ => h i

/-! ### The classification, case by case (Table 2.4) -/

/-- Case 3: the classification in an enabled descriptor. -/
def State.descClass (s : State) (i : Fin 16) : Classification :=
  { cls := (s.desc i).cls.lineClass, region := .desc i, readRight := (s.desc i).readRight,
    writeRight := (s.desc i).writeRight, align := (s.desc i).align }

/-- Case 2: the classification in the log area. -/
def logClass : Classification :=
  { cls := .log, region := .log, readRight := true, writeRight := false, align := false }

/-- Cases 4 and 5: the classification of a line that nothing covers. -/
def DefaultClass.lineClass : DefaultClass → Classification
  | .plain => { cls := .plain, region := .none, readRight := true, writeRight := true, align := false }
  | .deny => { cls := .deny, region := .none, readRight := false, writeRight := false, align := false }

theorem classify_beyond {s : State} {line : Nat} (h : s.capacityLines ≤ line) :
    s.classify line =
      { cls := .beyond, region := .none, readRight := false, writeRight := false, align := false } :=
  if_pos h

theorem classify_log {s : State} {line : Nat} (h : line < s.capacityLines)
    (hlog : s.ulc.coversPage (line / 64) = true) : s.classify line = logClass :=
  (if_neg (Nat.not_le.mpr h)).trans (if_pos hlog)

theorem classify_desc {s : State} {line : Nat} {i : Fin 16} (hs : s.RegionsInv)
    (h : line < s.capacityLines) (hi : (s.desc i).coversPage (line / 64) = true) :
    s.classify line = s.descClass i := by
  simp [State.classify, State.descClass, Nat.not_le.mpr h, hs.logApart i _ hi, hs.find_covering hi]

/-- Nothing covers the line (R19). -/
def State.uncovered (s : State) (line : Nat) : Prop :=
  ¬ s.ulc.coversPage (line / 64) = true ∧ ∀ i, ¬ (s.desc i).coversPage (line / 64) = true

/-- A line below the capacity lies in the log area, in an enabled descriptor, or is uncovered. -/
theorem covered_cases (s : State) (line : Nat) :
    s.ulc.coversPage (line / 64) = true ∨ (∃ i, (s.desc i).coversPage (line / 64) = true) ∨
      s.uncovered line := by
  by_cases hlog : s.ulc.coversPage (line / 64) = true
  · exact .inl hlog
  · by_cases hdesc : ∃ i, (s.desc i).coversPage (line / 64) = true
    · exact .inr (.inl hdesc)
    · exact .inr (.inr ⟨hlog, not_exists.mp hdesc⟩)

theorem State.uncovered.classify_eq {s : State} {line : Nat} (h : s.uncovered line)
    (hline : line < s.capacityLines) : s.classify line = s.rmap.defaultClass.lineClass := by
  obtain ⟨hlog, hdesc⟩ := h
  simp only [State.classify, Nat.not_le.mpr hline, hlog, find_covering_none hdesc]
  cases s.rmap.defaultClass <;> rfl

/-- The capacity in lines that a geometry, or its absence, gives (Table 2.3). -/
theorem capacityLines_of_geometry {s : State} {g : Option Geometry} (h : s.dsq.geometry = g) :
    s.capacityLines = 256 * (g.map Geometry.rows).getD 0 := by
  simp only [State.capacityLines, State.rowsPerBank, h]
  omega

/-- Settles O12: one lemma for each case of Table 2.4, and the capacity by the rows of the geometry. -/
theorem lineClassification : Obligations.LineClassification := by
  intro s line hs page inLog within
  refine ⟨fun h => ?_, fun h hlog => classify_log h ((Ulc.coversPage_iff _ _).mpr hlog),
    fun h i hi => classify_desc hs h ((Descriptor.coversPage_iff _ _).mpr hi),
    fun h hlog hdesc => ?_, capacityLines_of_geometry, capacityLines_of_geometry,
    capacityLines_of_geometry, capacityLines_of_geometry⟩
  · rw [classify_beyond h]
    exact ⟨rfl, rfl⟩
  · have uncovered : s.uncovered line :=
      ⟨fun hl => hlog ((Ulc.coversPage_iff _ _).mp hl),
        fun i hi => hdesc i ((Descriptor.coversPage_iff _ _).mp hi)⟩
    rw [uncovered.classify_eq h]
    refine ⟨fun hd => ?_, fun hd => ?_⟩ <;> rw [hd]
    · rfl
    · exact ⟨rfl, rfl⟩

/-! ### The same region (R20) -/

@[simp] theorem descClass_region (s : State) (i : Fin 16) : (s.descClass i).region = .desc i := rfl

@[simp] theorem logClass_region : logClass.region = .log := rfl

@[simp] theorem defaultClass_region (d : DefaultClass) : d.lineClass.region = .none := by
  cases d <;> rfl

theorem defaultClass_plain_iff (d : DefaultClass) : d.lineClass.cls = .plain ↔ d = .plain := by
  cases d <;> decide

section
variable {s : State} {line : Nat} (hs : s.RegionsInv) (hline : line < s.capacityLines)
include hs hline

theorem classify_region_desc_iff (i : Fin 16) :
    (s.classify line).region = .desc i ↔ (s.desc i).coversPage (line / 64) = true := by
  refine ⟨fun hregion => ?_, fun hi => by rw [classify_desc hs hline hi, descClass_region]⟩
  obtain hlog | ⟨j, hj⟩ | hfree := covered_cases s line
  · simp [classify_log hline hlog] at hregion
  · rw [classify_desc hs hline hj, descClass_region, RegionIndex.desc.injEq] at hregion
    exact hregion ▸ hj
  · simp [hfree.classify_eq hline] at hregion

theorem classify_region_log_iff :
    (s.classify line).region = .log ↔ s.ulc.coversPage (line / 64) = true := by
  refine ⟨fun hregion => ?_, fun hlog => by rw [classify_log hline hlog, logClass_region]⟩
  obtain hlog | ⟨j, hj⟩ | hfree := covered_cases s line
  · exact hlog
  · simp [classify_desc hs hline hj] at hregion
  · simp [hfree.classify_eq hline] at hregion

theorem classify_region_none_iff :
    (s.classify line).region = .none ↔ s.uncovered line := by
  refine ⟨fun hregion => ?_, fun hfree => by rw [hfree.classify_eq hline, defaultClass_region]⟩
  obtain hlog | ⟨j, hj⟩ | hfree := covered_cases s line
  · simp [classify_log hline hlog] at hregion
  · simp [classify_desc hs hline hj] at hregion
  · exact hfree

/-- A line is uncovered PLAIN where nothing covers it and the default class is PLAIN. -/
theorem classify_plain_none_iff :
    (s.classify line).region = .none ∧ (s.classify line).cls = .plain ↔
      s.uncovered line ∧ s.rmap.defaultClass = .plain := by
  rw [classify_region_none_iff hs hline]
  exact and_congr_right fun hfree => by rw [hfree.classify_eq hline, defaultClass_plain_iff]

end

/-- The three ways in which two classifications name the same region (R20). -/
theorem sameRegion_iff (a b : Classification) :
    a.sameRegion b = true ↔
      (∃ i, a.region = .desc i ∧ b.region = .desc i) ∨ (a.region = .log ∧ b.region = .log) ∨
        ((a.region = .none ∧ a.cls = .plain) ∧ b.region = .none ∧ b.cls = .plain) := by
  unfold Classification.sameRegion
  cases ha : a.region with
  | desc i => simpa using eq_comm
  | log => simp
  | none => simpa [and_assoc] using and_left_comm

/-- Settles O13: the regions that the classifications name, as what covers the two lines gives them. -/
theorem linesInSameRegion : Obligations.LinesInSameRegion := by
  intro s a b hs ha hb inLog within uncovered
  simp only [sameRegion_iff, classify_region_desc_iff hs ha, classify_region_desc_iff hs hb,
    classify_region_log_iff hs ha, classify_region_log_iff hs hb, classify_plain_none_iff hs ha,
    classify_plain_none_iff hs hb]
  exact or_congr_right (or_congr_right
    ⟨fun ⟨⟨hfree, hplain⟩, hfree', _⟩ => ⟨hfree, hfree', hplain⟩,
      fun ⟨hfree, hfree', hplain⟩ => ⟨⟨hfree, hplain⟩, hfree', hplain⟩⟩)

end Sys2Proof.Machine
end

section
/-! The request checks (R22 to R26). -/
namespace Sys2Proof.Machine

/-- Some covered line has this class: checks 1 and 2. -/
def LineHas (a : Classification) (b : Option Classification) (c : LineClass) : Prop :=
  a.cls = c ∨ ∃ k, b = some k ∧ k.cls = c

/-- Check 3: two covered lines lie in different regions (R23). -/
def Splits (a : Classification) (b : Option Classification) : Prop :=
  ∃ k, b = some k ∧ a.sameRegion k = false

/-- Check 4: the region does not allow the direction (R24). -/
def Forbids (kind : Kind) (a : Classification) : Prop :=
  (kind = .read ∧ a.readRight = false) ∨ (kind = .write ∧ a.writeRight = false)

/-- Check 5: two lines of a region that asks for alignment (R25). -/
def Misaligned (a : Classification) (b : Option Classification) (alignCheck : Bool) : Prop :=
  b ≠ none ∧ alignCheck = true ∧ a.align = true

/-- Check 6: a WRITE of a GUARDED region with no epoch open (R26). -/
def Unguarded (kind : Kind) (a : Classification) (depth : Nat) : Prop :=
  kind = .write ∧ a.cls = .guarded ∧ depth = 0

open Classical in
/-- The request check is the chain of Table 2.5. -/
theorem requestCheck_eq (kind : Kind) (a : Classification) (b : Option Classification)
    (alignCheck : Bool) (depth : Nat) :
    requestCheck kind a b alignCheck depth =
      if LineHas a b .beyond then some (.beyond, .none)
      else if LineHas a b .deny then some (.unmapped, .none)
      else if Splits a b then some (.split, a.region)
      else if Forbids kind a then some (.protect, a.region)
      else if Misaligned a b alignCheck then some (.align, a.region)
      else if Unguarded kind a depth then some (.guard, a.region)
      else none := by
  cases b with
  | none => cases kind <;> simp [requestCheck, LineHas, Splits, Forbids, Misaligned, Unguarded]
  | some k => cases kind <;> simp [requestCheck, LineHas, Splits, Forbids, Misaligned, Unguarded]

/-- Settles O14: the clauses are the branches of the chain. -/
theorem requestChecksInOrder : Obligations.RequestChecksInOrder := by
  intro kind a b alignCheck depth
  have chain := requestCheck_eq kind a b alignCheck depth
  exact
    ⟨fun h1 => chain.trans (if_pos h1),
      fun h1 h2 => chain.trans ((if_neg h1).trans (if_pos h2)),
      fun h1 h2 h3 => chain.trans ((if_neg h1).trans ((if_neg h2).trans (if_pos h3))),
      fun h1 h2 h3 h4 => chain.trans
        ((if_neg h1).trans ((if_neg h2).trans ((if_neg h3).trans (if_pos h4)))),
      fun h1 h2 h3 h4 h5 => chain.trans
        ((if_neg h1).trans ((if_neg h2).trans ((if_neg h3).trans ((if_neg h4).trans (if_pos h5))))),
      fun h1 h2 h3 h4 h5 h6 => chain.trans
        ((if_neg h1).trans ((if_neg h2).trans ((if_neg h3).trans ((if_neg h4).trans
          ((if_neg h5).trans (if_pos h6)))))),
      fun h1 h2 h3 h4 h5 h6 => chain.trans
        ((if_neg h1).trans ((if_neg h2).trans ((if_neg h3).trans ((if_neg h4).trans
          ((if_neg h5).trans (if_neg h6))))))⟩

end Sys2Proof.Machine
end
section
/-! REGION_WRITE and REGION_READ (R27 to R29), with what a taking answers and the fields that argument
and answer bytes carry. -/
namespace Sys2Proof.Machine

/-! ### A command at its last argument byte -/

/-- In the frame that holds the bytes before it, the last byte takes the command, with the state and
the answer of its act (R157). -/
theorem takeAtLast_of_frame {s t : State} {code last : Byte} {args : List Byte} {n : Nat} {act : Act}
    {r : Answer} (hframe : s.frameIs (.collecting code args)) (hn : args.length + 1 = n)
    (hact : act (args ++ [last]) s = (t, r)) :
    takeAtLast code n last act s = t.answered code (args ++ [last]) r := by
  have hmlp : s.mlp.frame = some (MgmtFrame.collecting code args) := hframe
  unfold takeAtLast
  rw [hmlp]
  dsimp only
  rw [if_pos ⟨rfl, hn⟩]
  unfold take
  simp only [MgmtFrame.collecting, hact]
  rfl

theorem rollbackInProgress_iff (s : State) :
    s.rollbackInProgress = true ↔ s.esu.engine.state ≠ .idle := by
  simp [State.rollbackInProgress]

theorem depth_pos_iff (s : State) : 0 < s.depth ↔ s.esu.stack ≠ [] :=
  List.length_pos_iff

/-! ### Fields of argument and answer bytes (R164) -/

theorem beNat_four (a b c d : Byte) : beNat [a, b, c, d] = word4 a b c d := by
  simp only [beNat, List.foldl, word4, word2]
  omega

theorem beBytes_four (n : Nat) : beBytes 4 n = bytes4 n := by
  simp [beBytes, bytes4, bytes2, Nat.div_div_eq_div_mul]

/-- The descriptor of these argument bytes, with this class (Table 11.6). -/
def writtenDescriptor (f : Byte) (cls : RegionClass) (base last : Nat) : Descriptor :=
  { enabled := f.getLsbD 0, readRight := f.getLsbD 1, writeRight := f.getLsbD 2,
    align := f.getLsbD 3, cls := cls, basePage := base, lastPage := last }

theorem descriptorOf_bytes (f c a b d e g h i j : Byte) :
    descriptorOf [f, c, a, b, d, e, g, h, i, j] =
      (regionClassOf c).map (writtenDescriptor f · (word4 a b d e) (word4 g h i j)) := by
  rw [← beNat_four, ← beNat_four]
  rfl

theorem regionClassOf_code (cls : RegionClass) : regionClassOf cls.code = some cls := by
  cases cls <;> rfl

theorem regionClassOf_eq_none_iff (c : Byte) : regionClassOf c = none ↔ 2 < c.toNat := by
  unfold regionClassOf
  split
  next hc => simp [hc]
  next hc => simp [hc]
  next hc => simp [hc]
  next h0 h1 h2 =>
    have hc : c.toNat ≠ 0 ∧ c.toNat ≠ 1 ∧ c.toNat ≠ 2 := ⟨h0, h1, h2⟩
    exact iff_of_true rfl (by omega)

/-- A descriptor's ten bytes (Table 11.6). -/
theorem Descriptor.bytes_eq (d : Descriptor) :
    d.bytes = bytes1 (d.enabled.toNat + 2 * d.readRight.toNat + 4 * d.writeRight.toNat +
        8 * d.align.toNat) ++ [d.cls.code] ++ bytes4 d.basePage ++ bytes4 d.lastPage := by
  have hflags : d.enabled.toNat + 2 * (d.readRight.toNat + 2 * (d.writeRight.toNat +
      2 * (d.align.toNat + 2 * 0))) =
      d.enabled.toNat + 2 * d.readRight.toNat + 4 * d.writeRight.toNat + 8 * d.align.toNat := by
    omega
  simp only [Descriptor.bytes, flagByte, List.foldr, hflags, beBytes_four, bytes1, List.cons_append,
    List.nil_append]

/-! ### Sharing a page (R16) -/

theorem rangesMeet_iff {base last base' last' : Nat} (h : base ≤ last) (h' : base' ≤ last') :
    rangesMeet base last base' last' = true ↔
      ∃ page, base ≤ page ∧ page ≤ last ∧ base' ≤ page ∧ page ≤ last' := by
  simp only [rangesMeet, Bool.and_eq_true, decide_eq_true_eq]
  exact ⟨fun _ => ⟨max base base', by omega⟩, fun ⟨page, _⟩ => by omega⟩

theorem meetsDesc_iff {s : State} {i : Fin 16} {base last : Nat} (h : base ≤ last)
    (hi : (s.desc i).basePage ≤ (s.desc i).lastPage) :
    s.meetsDesc i base last = true ↔
      ∃ page, base ≤ page ∧ page ≤ last ∧ (s.desc i).coversPage page = true := by
  refine ⟨fun hmeet => ?_, fun ⟨page, hb, hl, hpage⟩ => meetsDesc_of_page hpage hb hl⟩
  simp only [State.meetsDesc, Bool.and_eq_true, rangesMeet_iff h hi] at hmeet
  obtain ⟨henabled, page, hb, hl, hrange⟩ := hmeet
  exact ⟨page, hb, hl, (Descriptor.coversPage_iff _ _).mpr ⟨henabled, hrange⟩⟩

theorem meetsLog_iff {s : State} {base last : Nat} (h : base ≤ last) :
    s.meetsLog base last = true ↔
      ∃ page, base ≤ page ∧ page ≤ last ∧ s.ulc.coversPage page = true := by
  refine ⟨fun hmeet => ?_, fun ⟨page, hb, hl, hpage⟩ => meetsLog_of_page hpage hb hl⟩
  simp only [State.meetsLog, Bool.and_eq_true, decide_eq_true_eq] at hmeet
  obtain ⟨hpages, hmeet⟩ := hmeet
  obtain ⟨page, hb, hl, hb', hl'⟩ := (rangesMeet_iff h (by omega)).mp hmeet
  exact ⟨page, hb, hl, (Ulc.coversPage_iff _ _).mpr ⟨hb', by omega⟩⟩

/-- An enabled descriptor at another index, or the log area, has a page of this range (R16). -/
def State.overlaps (s : State) (index base last : Nat) : Prop :=
  ∃ page, base ≤ page ∧ page ≤ last ∧
    ((∃ n : Fin 16, n.val ≠ index ∧ (s.desc n).coversPage page = true) ∨
      s.ulc.coversPage page = true)

/-- The condition under which REGION_WRITE finds an overlap (R27). -/
theorem overlaps_iff {s : State} (hdescs : ∀ n, (s.desc n).basePage ≤ (s.desc n).lastPage)
    (index : Nat) {base last : Nat} (h : base ≤ last) :
    (s.meetsLog base last ||
      allDescs.any (fun j => decide (j.val ≠ index) && s.meetsDesc j base last)) = true ↔
      s.overlaps index base last := by
  simp only [Bool.or_eq_true, List.any_eq_true, Bool.and_eq_true, decide_eq_true_eq, meetsLog_iff h,
    meetsDesc_iff h (hdescs _)]
  constructor
  · rintro (⟨page, hb, hl, hlog⟩ | ⟨n, -, hn, page, hb, hl, hpage⟩)
    · exact ⟨page, hb, hl, .inr hlog⟩
    · exact ⟨page, hb, hl, .inl ⟨n, hn, hpage⟩⟩
  · rintro ⟨page, hb, hl, ⟨n, hn, hpage⟩ | hlog⟩
    · exact .inr ⟨n, mem_allDescs n, hn, page, hb, hl, hpage⟩
    · exact .inl ⟨page, hb, hl, hlog⟩

/-! ### REGION_WRITE, refusal by refusal (Table 2.6) -/

section
variable {s : State} {args : List Byte}

theorem regionWriteAct_of_noGeometry (hg : s.dsq.geometry = none) :
    regionWriteAct args s = (s, .refused .state) := by
  simp [regionWriteAct, hg]

theorem regionWriteAct_of_rollback (hg : s.dsq.geometry ≠ none) (he : s.esu.engine.state ≠ .idle) :
    regionWriteAct args s = (s, .busy) := by
  simp [regionWriteAct, hg, (rollbackInProgress_iff s).mpr he]

theorem regionWriteAct_of_open (hg : s.dsq.geometry ≠ none) (he : s.esu.engine.state = .idle)
    (hopen : s.esu.stack ≠ []) : regionWriteAct args s = (s, .refused .epochOpen) := by
  simp [regionWriteAct, hg, State.rollbackInProgress, he, (depth_pos_iff s).mpr hopen]

/-- The first three refusals do not apply: the descriptor is judged. -/
structure MapWritable (s : State) : Prop where
  geometry : s.dsq.geometry ≠ none
  idle : s.esu.engine.state = .idle
  closed : s.esu.stack = []

theorem MapWritable.regionWriteAct_of_noClass (h : MapWritable s)
    (hd : descriptorOf (args.drop 1) = none) : regionWriteAct args s = (s, .refused .badArg) := by
  simp [regionWriteAct, h.geometry, State.rollbackInProgress, h.idle, State.depth, h.closed, hd,
    -List.drop_one]

variable {d : Descriptor}

theorem MapWritable.regionWriteAct_of_badIndex (h : MapWritable s)
    (hindex : ¬ (argByte args 0).toNat < 16) (hd : descriptorOf (args.drop 1) = some d) :
    regionWriteAct args s = (s, .refused .badArg) := by
  simp [regionWriteAct, h.geometry, State.rollbackInProgress, h.idle, State.depth, h.closed, hd, hindex,
    -List.drop_one]

theorem MapWritable.regionWriteAct_of_index (h : MapWritable s)
    (hindex : (argByte args 0).toNat < 16) (hd : descriptorOf (args.drop 1) = some d) :
    regionWriteAct args s =
      if d.lastPage < d.basePage ∨ s.capacityPages ≤ d.lastPage then (s, .refused .badArg)
      else if d.enabled &&
          (s.meetsLog d.basePage d.lastPage || allDescs.any (fun j =>
            decide (j.val ≠ (argByte args 0).toNat) && s.meetsDesc j d.basePage d.lastPage)) then
        (s, .refused .overlap)
      else (s.setRmap { s.rmap with descs := s.rmap.descs.set (argByte args 0).toNat d hindex },
        .done []) := by
  simp [regionWriteAct, h.geometry, State.rollbackInProgress, h.idle, State.depth, h.closed, hd, hindex,
    -List.drop_one]

end

/-- The pages of a descriptor are in order and below the capacity. -/
def Descriptor.fits (d : Descriptor) (s : State) : Prop :=
  d.basePage ≤ d.lastPage ∧ d.lastPage < s.capacityPages

section
variable {s : State} {args : List Byte} {d : Descriptor} (h : MapWritable s)
  (hd : descriptorOf (args.drop 1) = some d)
include h hd

theorem MapWritable.regionWriteAct_of_badArg
    (hbad : 15 < (argByte args 0).toNat ∨ ¬ d.fits s) :
    regionWriteAct args s = (s, .refused .badArg) := by
  by_cases hindex : (argByte args 0).toNat < 16
  · rw [h.regionWriteAct_of_index hindex hd, if_pos]
    unfold Descriptor.fits at hbad
    omega
  · exact h.regionWriteAct_of_badIndex hindex hd

variable (hdescs : ∀ n, (s.desc n).basePage ≤ (s.desc n).lastPage) (hfits : d.fits s)
include hdescs hfits

theorem MapWritable.regionWriteAct_of_overlap (hindex : (argByte args 0).toNat < 16)
    (henabled : d.enabled = true)
    (hoverlap : s.overlaps (argByte args 0).toNat d.basePage d.lastPage) :
    regionWriteAct args s = (s, .refused .overlap) := by
  obtain ⟨horder, hcap⟩ := hfits
  rw [h.regionWriteAct_of_index hindex hd, if_neg (by omega), if_pos]
  rw [henabled, Bool.true_and, overlaps_iff hdescs _ horder]
  exact hoverlap

theorem MapWritable.regionWriteAct_of_apart (hindex : (argByte args 0).toNat < 16)
    (hapart : ¬ (d.enabled = true ∧ s.overlaps (argByte args 0).toNat d.basePage d.lastPage)) :
    regionWriteAct args s =
      (s.setRmap { s.rmap with descs := s.rmap.descs.set (argByte args 0).toNat d hindex },
        .done []) := by
  obtain ⟨horder, hcap⟩ := hfits
  rw [h.regionWriteAct_of_index hindex hd, if_neg (by omega), if_neg]
  rwa [Bool.and_eq_true, overlaps_iff hdescs _ horder]

end

/-! ### REGION_READ (R29) -/

theorem regionReadAct_of_index (s : State) {index : Byte} {n : Fin 16} (hn : n.val = index.toNat) :
    regionReadAct [index] s = (s, .done (s.desc n).bytes) := by
  obtain ⟨k, hk⟩ := n
  subst hn
  exact dif_pos hk

theorem regionReadAct_of_badIndex (s : State) {index : Byte} (h : 15 < index.toNat) :
    regionReadAct [index] s = (s, .refused .badArg) :=
  dif_neg (Nat.not_lt.mpr h)

/-- Settles O51: the refusals of Table 2.6 one by one; where none applies the class byte names a class,
and the descriptor of the arguments takes its place. -/
theorem regionWriteAndRead : Obligations.RegionWriteAndRead := by
  refine ⟨?_, fun s index hframe => ⟨fun hbad => ?_, fun n hn => ?_⟩⟩
  · intro s index f c a b d e g h i last hframe hdescs args base final badArg overlap answer
    have taken {t : State} {r : Answer} (hact : regionWriteAct args s = (t, r)) :
        exec (.regionWrite last) s = .next (t.answered 0x20 args r) :=
      congrArg _ (takeAtLast_of_frame hframe rfl hact)
    refine ⟨fun hg => taken (regionWriteAct_of_noGeometry hg),
      fun hg he => taken (regionWriteAct_of_rollback hg he),
      fun hg he => ⟨fun hopen => taken (regionWriteAct_of_open hg he hopen), fun hclosed => ?_⟩⟩
    have hw : MapWritable s := ⟨hg, he, hclosed⟩
    have carried : descriptorOf (args.drop 1) =
        (regionClassOf c).map (writtenDescriptor f · base final) := descriptorOf_bytes ..
    have descriptor {cls : RegionClass} (hcls : regionClassOf c = some cls) :
        descriptorOf (args.drop 1) = some (writtenDescriptor f cls base final) := by
      rw [carried, hcls]
      rfl
    have fits (hbad : ¬ badArg) (cls : RegionClass) : (writtenDescriptor f cls base final).fits s := by
      simp only [badArg, not_or, not_lt, not_le] at hbad
      obtain ⟨-, -, horder, hcap⟩ := hbad
      exact ⟨horder, hcap⟩
    refine ⟨fun hbad => taken ?_, fun hbad ⟨henabled, hoverlap⟩ => taken ?_,
      fun hbad hapart n cls hn hcode => ?_⟩
    · cases hcls : regionClassOf c with
      | none =>
        exact hw.regionWriteAct_of_noClass (by rw [carried, hcls]; rfl)
      | some cls =>
        have hclass : ¬ 2 < c.toNat := fun hc => by
          simp [(regionClassOf_eq_none_iff c).mpr hc] at hcls
        refine hw.regionWriteAct_of_badArg (descriptor hcls) ?_
        rcases hbad with hindex | hc | horder | hcap
        · exact .inl hindex
        · exact absurd hc hclass
        · exact .inr fun hfit => Nat.not_le.mpr horder hfit.1
        · exact .inr fun hfit => Nat.not_lt.mpr hcap hfit.2
    · have hindex : index.toNat < 16 := by
        obtain ⟨hindex, -⟩ := not_or.mp hbad
        omega
      cases hcls : regionClassOf c with
      | none => exact absurd (.inr (.inl ((regionClassOf_eq_none_iff c).mp hcls))) hbad
      | some cls =>
        exact hw.regionWriteAct_of_overlap (descriptor hcls) hdescs (fits hbad cls) hindex henabled
          hoverlap
    · obtain ⟨k, hk⟩ := n
      subst hn
      subst hcode
      exact taken (hw.regionWriteAct_of_apart (descriptor (regionClassOf_code cls)) hdescs
        (fits hbad cls) hk hapart)
  · exact congrArg _ (takeAtLast_of_frame hframe rfl (regionReadAct_of_badIndex s hbad))
  · rw [← Descriptor.bytes_eq]
    exact congrArg _ (takeAtLast_of_frame hframe rfl (regionReadAct_of_index s hn))

end Sys2Proof.Machine
end

section
/-! What every step keeps of the room in the log and of the supervision timer (R45, R72, R75, R102, R106,
R111). -/
namespace Sys2Proof.Machine

/-! ### What a step and a command of the management link can do -/

/-- A step idles, or runs one command on a state that differs in the queue of commands and the choice
counter at most. -/
theorem step_cases {s t : State} (h : step s = .next t) :
    t = s ∨ ∃ i l n, t = after i { s with pending := l, choices := n } := by
  unfold step at h
  split at h
  next c rest _ =>
    rw [exec_next] at h
    cases h
    exact .inr ⟨c, rest, s.choices, rfl⟩
  · split at h
    next c _ =>
      rw [exec_next] at h
      cases h
      exact .inr ⟨c, s.pending, s.choices + 1, rfl⟩
    · cases h
      exact .inl rfl

/-- One act of the command table took place, and the frame in progress has changed. IDENT's act changes
nothing, so that this covers the bytes that take no command. -/
def Acted (s t : State) : Prop := ∃ a ∈ allActs, ∃ l m, t = (a l s).1.setMlp m

theorem Acted.setMlp {s t : State} (h : Acted s t) (m : Mlp) : Acted s (t.setMlp m) := by
  obtain ⟨a, ha, l, m', rfl⟩ := h
  exact ⟨a, ha, l, m, rfl⟩

theorem Acted.refl (s : State) : Acted s s := ⟨identAct, by simp [allActs], [], s.mlp, rfl⟩

theorem Acted.frame (s : State) (m : Mlp) : Acted s (s.setMlp m) := (Acted.refl s).setMlp m

theorem Acted.act {a : Act} (ha : a ∈ allActs) (l : List Byte) (s : State) : Acted s (a l s).1 :=
  ⟨a, ha, l, (a l s).1.mlp, rfl⟩

theorem Acted.take {a : Act} (ha : a ∈ allActs) (code : Byte) (l : List Byte) (s : State) :
    Acted s (take code l a s) :=
  (Acted.act ha l s).setMlp _

theorem Acted.atCode {a : Act} (ha : a ∈ allActs) (code : Byte) (s : State) :
    Acted s (takeAtCode code a s) :=
  takeAtCode_keeps s (fun _ m h => h.setMlp m) (.refl s) (.act ha [] s)

theorem Acted.atLast {a : Act} (ha : a ∈ allActs) (code last : Byte) (n : Nat) (s : State) :
    Acted s (takeAtLast code n last a s) :=
  takeAtLast_keeps s (fun _ m h => h.setMlp m) (.refl s) fun l => .act ha l s

theorem unknownAct_mem : unknownAct ∈ allActs := by simp [allActs]

theorem byteIn_acted (s : State) (f : MgmtFrame) (b : Byte) : Acted s (s.byteIn f b) := by
  unfold State.byteIn
  split
  · split
    · exact .frame s _
    · exact .take (actOf_mem b) b [] s
    · exact .take unknownAct_mem b [] s
  next code _ =>
    split
    · exact .take (actOf_mem code) code _ s
    · exact .frame s _

theorem byteShiftedIn_acted (s : State) (b : Byte) : Acted s (after (.byteShiftedIn b) s) := by
  simp only [after, exec, execByteShiftedIn]
  split
  · split
    · split
      · exact .frame s _
      · exact byteIn_acted s _ b
    · exact .frame s _
  · exact .refl s

theorem unknown_acted (s : State) (code : Byte) : Acted s (after (.unknown code) s) := by
  simp only [after, exec, execUnknown]
  split
  · exact .atCode unknownAct_mem code s
  · exact .refl s

/-- A command of the management link does what one act of the command table does. -/
theorem command_acted (i : Instr) (hi : isEvent i = false) (s : State) : Acted s (after i s) := by
  cases i <;> simp only [isEvent, Bool.true_eq_false] at hi <;> clear hi
  case unknown code => exact unknown_acted s code
  case byteShiftedIn b => exact byteShiftedIn_acted s b
  case ident | status | dramInit | openEpoch | commit | rollback | rollbackAll | superviseStart
      | superviseStop | kick | faultPop | eventsRead | deviceReset =>
    exact .atCode (by simp [allActs]) _ s
  all_goals exact .atLast (by simp [allActs]) _ _ _ s

/-! ### The log, the epochs and the timer stay -/

/-- The log, the epoch stack unit and the request in service are the same, and the timer but for its
remaining time: all that State.StackInv, State.RoomInv and State.TimerInv speak of. -/
structure SameEpoch (s t : State) : Prop where
  ulc : t.ulc = s.ulc
  stage : t.rqp.stage = s.rqp.stage
  current : t.rqp.current = s.rqp.current
  esu : t.esu = s.esu
  est : ∃ n, t.est = { s.est with remainingNs := n }

theorem SameEpoch.stackInv {s t : State} (h : SameEpoch s t) (hs : s.StackInv) : t.StackInv :=
  hs.congr h.esu (by rw [h.ulc]) h.stage h.current

theorem SameEpoch.roomInv {s t : State} (h : SameEpoch s t) (hs : s.RoomInv) : t.RoomInv :=
  hs.congr h.ulc h.stage h.current (by rw [h.esu])

theorem SameEpoch.timerInv {s t : State} (h : SameEpoch s t) (hs : s.TimerInv) : t.TimerInv := by
  obtain ⟨n, hn⟩ := h.est
  exact hs.remaining n hn (by rw [h.esu])

/-- For a state that shows that it leaves the four blocks. -/
theorem SameEpoch.of_eq {s t u : State} (ht : t = u) (hu : u.ulc = s.ulc := by rfl)
    (hr : u.rqp = s.rqp := by rfl) (he : u.esu = s.esu := by rfl) (hm : u.est = s.est := by rfl) :
    SameEpoch s t :=
  ht ▸ ⟨hu, by rw [hr], by rw [hr], he, s.est.remainingNs, hm⟩

theorem SameEpoch.refl (s : State) : SameEpoch s s := .of_eq rfl

theorem SameEpoch.setMlp (s : State) (m : Mlp) : SameEpoch s (s.setMlp m) := .of_eq rfl

/-- Time that passes reaches the timer's remaining time alone (R103). -/
theorem advance_est (s : State) (d : Nat) :
    ∃ n, (s.advance d).est = { s.est with remainingNs := n } := by
  unfold State.advance
  dsimp only
  split
  · exact ⟨_, rfl⟩
  · exact ⟨_, rfl⟩

/-- For a state that time has reached and that shows that it leaves the four blocks else. -/
theorem SameEpoch.of_advanceTo {s t : State} {till : Nat} (hu : t.ulc = s.ulc) (hr : t.rqp = s.rqp)
    (he : t.esu = s.esu) (hm : t.est = (s.advanceTo till).est) : SameEpoch s t :=
  ⟨hu, by rw [hr], by rw [hr], he, hm ▸ advance_est s _⟩

/-- A device reset has cleared the log, the epochs, the request path and the timer (R163). -/
theorem SameEpoch.of_reset {t : State} (hu : t.ulc = Ulc.reset) (hr : t.rqp = Rqp.reset)
    (he : t.esu = Esu.reset) (hm : t.est = Est.reset) : SameEpoch State.reset t :=
  .of_eq rfl hu hr he hm

theorem watchSetAct_sameEpoch (l : List Byte) (s : State) : SameEpoch s (watchSetAct l s).1 := by
  have same := watchSetAct_sameService l s
  have changed := watchSetAct_changes s l
  refine ⟨?_, same.stage, same.current, ?_, s.est.remainingNs, ?_⟩ <;> rw [changed]

/-- The commands of the management link that reach the log, the epochs or the timer. -/
def epochActs : List Act :=
  [setLogAct, setPolicyAct, openAct, commitAct, rollbackAct, rollbackAllAct, superviseSetAct,
    superviseStartAct, superviseStopAct, kickAct]

/-- Every other command of the management link leaves them. -/
theorem act_sameEpoch :
    ∀ a ∈ allActs, a ∈ epochActs ∨ ∀ l s, SameEpoch s (a l s).1 := by
  simp only [allActs, List.forall_mem_cons]
  exact
    ⟨.inr fun l s => .of_eq (identAct_state s l), .inr fun l s => .of_eq (statusAct_state s l),
      .inr fun l s => .of_eq (geometryAct_changes s l), .inr fun l s => .of_eq (timingAct_changes s l),
      .inr fun l s => .of_eq (dramInitAct_changes s l), .inl (by simp [epochActs]),
      .inl (by simp [epochActs]), .inr fun l s => .of_eq (regionWriteAct_changes s l),
      .inr fun l s => .of_eq (regionReadAct_state s l), .inr watchSetAct_sameEpoch,
      .inl (by simp [epochActs]), .inl (by simp [epochActs]), .inl (by simp [epochActs]),
      .inl (by simp [epochActs]), .inr fun l s => .of_eq (frameReadAct_state s l),
      .inl (by simp [epochActs]), .inl (by simp [epochActs]), .inl (by simp [epochActs]),
      .inl (by simp [epochActs]), .inr fun l s => .of_eq (faultPopAct_changes s l),
      .inr fun l s => .of_eq (eventsReadAct_state s l),
      .inr fun l s => .of_eq (eventsClearAct_changes s l),
      .inr fun l s => .of_eq (maskWriteAct_changes s l),
      .inr fun l s => .of_eq (deviceResetAct_state s l),
      .inr fun l s => .of_eq (unknownAct_state s l), nofun⟩

/-- The events at which the request path, the engine or the timer act. -/
def movesEpoch : Instr → Bool
  | .requestTake | .operationComplete | .rollbackFirstStep | .hostResetAssert
  | .supervisionExpiry => true
  | _ => false

theorem drstNAssert_epoch (s : State) :
    SameEpoch s (after .drstNAssert s) ∨ SameEpoch State.reset (after .drstNAssert s) := by
  simp only [after, exec, execDrstNAssert]
  split
  · exact .inl (.refl s)
  · split
    · exact .inr (.of_reset rfl rfl rfl rfl)
    all_goals exact .inl (.of_eq rfl)

theorem frameEnd_epoch (s : State) :
    SameEpoch s (after .frameEnd s) ∨ SameEpoch State.reset (after .frameEnd s) := by
  simp only [after, exec, execFrameEnd]
  split
  · split
    · exact .inr (.of_reset rfl rfl rfl rfl)
    · exact .inl (.of_eq rfl)
  · exact .inl (.refl s)

theorem initRefreshExpiry_sameEpoch (s : State) : SameEpoch s (after .initRefreshExpiry s) := by
  simp only [after, exec, execInitRefreshExpiry]
  split
  · split
    next till _ => split <;> exact .of_advanceTo (till := till) rfl rfl rfl rfl
    · exact .refl s
  · exact .refl s

theorem refreshTickExpiry_sameEpoch (s : State) : SameEpoch s (after .refreshTickExpiry s) := by
  simp only [after, exec, execRefreshTickExpiry]
  split
  next till _ => split <;> exact .of_advanceTo (till := till) rfl rfl rfl rfl
  · exact .refl s

theorem bankRefreshWaitExpiry_sameEpoch (s : State) :
    SameEpoch s (after .bankRefreshWaitExpiry s) := by
  simp only [after, exec, execBankRefreshWaitExpiry]
  split
  · split
    next till _ => exact .of_advanceTo (till := till) rfl rfl rfl rfl
    · exact .refl s
  · exact .refl s

/-- Every other event leaves the log, the epochs and the timer's setting, or resets the device. The
expiries of the sequencer's intervals let time pass. -/
theorem event_epoch (i : Instr) (hi : isEvent i = true) (hm : movesEpoch i = false) (s : State) :
    SameEpoch s (after i s) ∨ SameEpoch State.reset (after i s) := by
  cases i <;> simp only [isEvent, movesEpoch, Bool.false_eq_true, Bool.true_eq_false] at hi hm <;>
    clear hi hm
  case powerOn => exact .inr (.of_reset rfl rfl rfl rfl)
  case drstNAssert => exact drstNAssert_epoch s
  case frameEnd => exact frameEnd_epoch s
  case initRefreshExpiry => exact .inl (initRefreshExpiry_sameEpoch s)
  case refreshTickExpiry => exact .inl (refreshTickExpiry_sameEpoch s)
  case bankRefreshWaitExpiry => exact .inl (bankRefreshWaitExpiry_sameEpoch s)
  case initWaitExpiry | closeAllWaitExpiry | openWaitExpiry | closeWaitExpiry | writeGuardExpiry
      | actWindowAgeOut =>
    left
    simp only [after, exec, execInitWaitExpiry, execCloseAllWaitExpiry, execOpenWaitExpiry,
      execCloseWaitExpiry, execWriteGuardExpiry, execActWindowAgeOut]
    split
    · exact ⟨rfl, rfl, rfl, rfl, advance_est s _⟩
    · exact .refl s
  all_goals
    left
    simp only [after, exec, execRequestAccept, execOperationStart, execTransferStart,
      execHostResetRelease, execPowerOnResetEnd, execDrstNRelease, execFrameBegin,
      execBankActivation, execBankClose, execBankRefreshStart]
    repeat' split
    all_goals exact .of_eq rfl

/-- A property of the log, the epochs and the timer that holds at reset is kept by every step from a
state that has State.StackInv, once the commands and the events that reach them keep it. -/
theorem step_keeps_of_epoch {P : State → Prop} (hreset : P State.reset)
    (hsame : ∀ {s t}, SameEpoch s t → P s → P t)
    (hacts : ∀ {s}, s.StackInv → P s → ∀ l, ∀ a ∈ epochActs, P (a l s).1)
    (hevents : ∀ {s}, s.StackInv → P s → ∀ i, movesEpoch i = true → P (after i s))
    {s t : State} (hstack : s.StackInv) (hs : P s) (ht : step s = .next t) : P t := by
  obtain rfl | ⟨i, l, n, rfl⟩ := step_cases ht
  · exact hs
  have same : SameEpoch s { s with pending := l, choices := n } := .of_eq rfl
  have hstack := same.stackInv hstack
  have hs := hsame same hs
  cases hi : isEvent i with
  | false =>
    obtain ⟨a, ha, args, m, hact⟩ := command_acted i hi { s with pending := l, choices := n }
    rw [hact]
    refine hsame (.setMlp _ m) ?_
    obtain hreaches | hleaves := act_sameEpoch a ha
    · exact hacts hstack hs args a hreaches
    · exact hsame (hleaves args _) hs
  | true =>
    cases hm : movesEpoch i with
    | true => exact hevents hstack hs i hm
    | false => exact (event_epoch i hi hm _).elim (fun h => hsame h hs) fun h => hsame h hreset

/-! ### The request path at a host reset, and its completion -/

/-- An assertion of HRST_N leaves the epoch stack unit, but that a request with no operation in flight is
dropped, and a first step of the engine waits for it no longer (R48, R92). -/
theorem hostResetLink_cases (s : State) :
    SameEpoch s s.hostResetLink ∨ SameEpoch s.dropRequest s.hostResetLink := by
  unfold State.hostResetLink
  dsimp only
  split
  · exact .inl (.of_eq rfl)
  · exact .inr (.of_eq rfl)

theorem hostResetLink_stackInv {s : State} (h : s.StackInv) : s.hostResetLink.StackInv :=
  (hostResetLink_cases s).elim (fun same => same.stackInv h)
    fun same => same.stackInv (dropRequest_stackInv h)

theorem hostResetLink_roomInv {s : State} (h : s.RoomInv) : s.hostResetLink.RoomInv :=
  (hostResetLink_cases s).elim (fun same => same.roomInv h)
    fun same => same.roomInv (roomInv_of_head h.headInLog rfl)

theorem hostResetLink_timerInv {s : State} (h : s.TimerInv) : s.hostResetLink.TimerInv :=
  (hostResetLink_cases s).elim (fun same => same.timerInv h)
    fun same => same.timerInv (h.congr rfl rfl)

/-- The sequencer's part of a completion lets time pass, and no more of this. -/
theorem finishOp_sameEpoch (s : State) (op : MemOp) (till : Nat) :
    SameEpoch s ((s.advanceTo till).finishOp op) :=
  .of_advanceTo (till := till) (by simp) (by simp) (by simp) (by simp)

/-! ### Room in the log -/

theorem rollbackActs_roomInv {s : State} (h : s.RoomInv) (l : List Byte) :
    (rollbackAct l s).1.RoomInv ∧ (rollbackAllAct l s).1.RoomInv := by
  unfold rollbackAct rollbackAllAct
  split
  · exact ⟨h, h⟩
  · exact ⟨startRollback_roomInv h .single, startRollback_roomInv h .all⟩

theorem setPolicyAct_roomInv {s : State} (h : s.RoomInv) (l : List Byte) :
    (setPolicyAct l s).1.RoomInv := by
  obtain hsame | ⟨dc, ac, fm, pp, rp, hset⟩ := setPolicyAct_cases s l
  · rwa [hsame]
  · rw [hset]
    exact h.congr (by simp [State.setPolicies]) (by simp [State.setPolicies])
      (by simp [State.setPolicies]) (by simp [State.setPolicies])

theorem epochActs_roomInv {s : State} (hstack : s.StackInv) (h : s.RoomInv) (l : List Byte) :
    ∀ a ∈ epochActs, (a l s).1.RoomInv := by
  obtain ⟨hsingle, hall⟩ := rollbackActs_roomInv h l
  simp only [epochActs, List.forall_mem_cons]
  refine ⟨setLogAct_roomInv h hstack l, setPolicyAct_roomInv h l, openAct_roomInv h l,
    commitAct_roomInv h l, hsingle, hall, ?_, ?_, ?_, ?_, nofun⟩
  · rw [superviseSetAct_changes]
    exact h.congr rfl rfl rfl rfl
  · rw [superviseStartAct_changes]
    exact h.congr rfl rfl rfl rfl
  · rw [superviseStopAct_changes]
    exact h.congr rfl rfl rfl rfl
  · rw [kickAct_changes]
    exact h.congr rfl rfl rfl rfl

theorem requestTake_roomInv {s : State} (h : s.RoomInv) : (after .requestTake s).RoomInv := by
  simp only [after, exec, execRequestTake]
  split
  · split
    next e rest _ =>
      have head : (s.taken e rest).ulc.head ≤ (s.taken e rest).logCapacity := h.headInLog
      exact checkRequest_roomInv head e.req
    · exact h
  · exact h

theorem operationComplete_roomInv {s : State} (h : s.RoomInv) :
    (after .operationComplete s).RoomInv := by
  simp only [after, exec, execOperationComplete]
  split
  next c _ =>
    split
    next till _ =>
      have finished := (finishOp_sameEpoch s c.op till).roomInv h
      split
      · exact rqpComplete_roomInv finished _
      · exact engineComplete_roomInv finished _
    · exact h
  · exact h

theorem rollbackFirstStep_roomInv {s : State} (h : s.RoomInv) :
    (after .rollbackFirstStep s).RoomInv := by
  simp only [after, exec, execRollbackFirstStep]
  split
  · exact engineStep_roomInv h
  · exact h

theorem hostResetAssert_roomInv {s : State} (h : s.RoomInv) :
    (after .hostResetAssert s).RoomInv := by
  have pin : (s.setPins { s.pins with hrstAsserted := true }).RoomInv := h.congr rfl rfl rfl rfl
  simp only [after, exec, execHostResetAssert]
  split
  · exact h
  · split
    · exact pin
    · exact recover_roomInv (hostResetLink_roomInv pin)

theorem supervisionExpiry_roomInv {s : State} (h : s.RoomInv) :
    (after .supervisionExpiry s).RoomInv := by
  have expired : ((s.advance s.est.remainingNs).raise .supervision).RoomInv :=
    h.congr rfl rfl rfl rfl
  simp only [after, exec, execSupervisionExpiry]
  split
  · split
    · exact expired
    · exact expired.congr rfl rfl rfl rfl
    · exact expiryRollback_roomInv expired
    · exact expiryRollback_roomInv expired
  · exact h

theorem epochEvents_roomInv {s : State} (h : s.RoomInv) (i : Instr) (hi : movesEpoch i = true) :
    (after i s).RoomInv := by
  cases i <;> simp only [movesEpoch, Bool.false_eq_true] at hi
  case requestTake => exact requestTake_roomInv h
  case operationComplete => exact operationComplete_roomInv h
  case rollbackFirstStep => exact rollbackFirstStep_roomInv h
  case hostResetAssert => exact hostResetAssert_roomInv h
  case supervisionExpiry => exact supervisionExpiry_roomInv h

/-! ### The supervision timer -/

/-- The engine runs a rollback of some kind, or none (R91). -/
theorem State.StackInv.noKind {s : State} (h : s.StackInv) (hidle : s.rollbackInProgress = false) :
    s.esu.engine.kind = none :=
  h.idleKind.mp (by simpa [State.rollbackInProgress] using hidle)

/-- A progress event ends a halt, and keeps mode, run state and lock (R104). -/
theorem State.TimerInv.progress {s t : State} (h : s.TimerInv) (he : t.est = s.progress.est)
    (hk : t.esu.engine.kind = s.esu.engine.kind) : t.TimerInv := by
  obtain ⟨running, lock, -, supervision, drive⟩ := h
  constructor <;> rw [he]
  · exact running
  · exact lock
  · nofun
  · rw [hk]
    exact supervision
  · rw [hk]
    exact drive

theorem openAct_timerInv {s : State} (h : s.TimerInv) (l : List Byte) : (openAct l s).1.TimerInv := by
  unfold openAct
  split
  · exact h
  · split
    · exact h
    · split
      · exact h
      · split
        · exact h
        · dsimp only
          split <;> exact h.progress rfl rfl

theorem commitAct_timerInv {s : State} (h : s.TimerInv) (l : List Byte) :
    (commitAct l s).1.TimerInv := by
  unfold commitAct
  split
  · exact h
  · split
    · exact h
    · exact h.progress rfl rfl
    · exact h.progress rfl rfl

theorem rollbackActs_timerInv {s : State} (hstack : s.StackInv) (h : s.TimerInv)
    (l : List Byte) : (rollbackAct l s).1.TimerInv ∧ (rollbackAllAct l s).1.TimerInv := by
  unfold rollbackAct rollbackAllAct
  split
  · exact ⟨h, h⟩
  next hfree =>
    obtain ⟨-, hidle, -⟩ := rollbackRefusal_none hfree
    exact ⟨startRollback_timerInv h .single (hstack.noKind hidle) nofun,
      startRollback_timerInv h .all (hstack.noKind hidle) nofun⟩

/-- SET_POLICY replaces the recovery policy, which the invariant does not speak of (R114). -/
theorem setPolicyAct_timerInv {s : State} (h : s.TimerInv) (l : List Byte) :
    (setPolicyAct l s).1.TimerInv := by
  obtain hsame | ⟨dc, ac, fm, pp, rp, hset⟩ := setPolicyAct_cases s l
  · rwa [hsame]
  · rw [hset]
    have set : (s.setPolicies dc ac fm pp rp).TimerInv := by
      obtain ⟨running, lock, halted, supervision, drive⟩ := h
      exact ⟨running, lock, halted, supervision, drive⟩
    exact set.congr (by simp) (by simp)

/-- A new mode is taken only while the timer is stopped and not locked (R105). -/
theorem superviseSetAct_timerInv {s : State} (h : s.TimerInv) (l : List Byte) :
    (superviseSetAct l s).1.TimerInv := by
  unfold superviseSetAct
  dsimp only
  split
  · exact h
  next hunlocked =>
    split
    · exact h
    next hstopped =>
      split
      · split
        · exact h
        · obtain ⟨-, -, halted, supervision, drive⟩ := h
          have hrun : s.est.running = false := by simpa using hstopped
          have hlock : s.est.lock = false := by simpa using hunlocked
          refine ⟨?_, ?_, halted, supervision, fun hdriven => ?_⟩
          · simp [hrun]
          · simp [hrun, hlock]
          · exact absurd (supervision (drive hdriven).1) hunlocked
      · exact h

theorem superviseStartAct_timerInv {s : State} (h : s.TimerInv) (l : List Byte) :
    (superviseStartAct l s).1.TimerInv := by
  unfold superviseStartAct
  split
  · exact h
  next hunlocked =>
    split
    · exact h
    next hmode =>
      obtain ⟨-, -, halted, supervision, drive⟩ := h
      exact ⟨fun _ => hmode, rfl, fun hh => absurd (halted hh) hunlocked,
        fun hk => absurd (supervision hk) hunlocked, drive⟩

theorem superviseStopAct_timerInv {s : State} (h : s.TimerInv) (l : List Byte) :
    (superviseStopAct l s).1.TimerInv := by
  unfold superviseStopAct
  split
  · exact h
  next hunlocked =>
    obtain ⟨-, -, halted, supervision, drive⟩ := h
    exact ⟨nofun, by simpa using hunlocked, halted, supervision, drive⟩

theorem epochActs_timerInv {s : State} (hstack : s.StackInv) (h : s.TimerInv) (l : List Byte) :
    ∀ a ∈ epochActs, (a l s).1.TimerInv := by
  obtain ⟨hsingle, hall⟩ := rollbackActs_timerInv hstack h l
  simp only [epochActs, List.forall_mem_cons]
  refine ⟨?_, setPolicyAct_timerInv h l, openAct_timerInv h l, commitAct_timerInv h l, hsingle, hall,
    superviseSetAct_timerInv h l, superviseStartAct_timerInv h l, superviseStopAct_timerInv h l,
    h.progress rfl rfl, nofun⟩
  rw [setLogAct_changes]
  exact h.congr rfl rfl

/-- The check of a request leaves the engine's kind. -/
theorem checkRequest_kind (s : State) (r : Request) :
    (s.checkRequest r).esu.engine.kind = s.esu.engine.kind := by
  unfold State.checkRequest
  split
  · rfl
  · dsimp only
    split
    · rfl
    · split
      · rfl
      · split
        · simp
        · unfold State.settle
          dsimp only
          split
          · rfl
          · split
            · simp
            · simp
            · split
              · simp
              · split
                · simp
                · simp

theorem requestTake_timerInv {s : State} (h : s.TimerInv) : (after .requestTake s).TimerInv := by
  simp only [after, exec, execRequestTake]
  split
  · split
    · exact h.congr (by simp) (checkRequest_kind _ _)
    · exact h
  · exact h

theorem operationComplete_timerInv {s : State} (hstack : s.StackInv) (h : s.TimerInv) :
    (after .operationComplete s).TimerInv := by
  simp only [after, exec, execOperationComplete]
  split
  next c _ =>
    split
    next till _ =>
      have same := finishOp_sameEpoch s c.op till
      split
      · exact (same.timerInv h).congr (by simp) (by simp)
      · exact engineComplete_timerInv (same.timerInv h) (same.stackInv hstack) _
    · exact h
  · exact h

theorem rollbackFirstStep_timerInv {s : State} (hstack : s.StackInv) (h : s.TimerInv) :
    (after .rollbackFirstStep s).TimerInv := by
  simp only [after, exec, execRollbackFirstStep]
  split
  next hdue =>
    refine engineStep_timerInv h fun hkind => ?_
    simp [State.firstStepDue, hstack.idleKind.mpr hkind] at hdue
  · exact h

theorem hostResetAssert_timerInv {s : State} (hstack : s.StackInv) (h : s.TimerInv) :
    (after .hostResetAssert s).TimerInv := by
  have pin : SameEpoch s (s.setPins { s.pins with hrstAsserted := true }) := .of_eq rfl
  simp only [after, exec, execHostResetAssert]
  split
  · exact h
  · split
    · exact pin.timerInv h
    · exact recover_timerInv (hostResetLink_timerInv (pin.timerInv h))
        (hostResetLink_stackInv (pin.stackInv hstack))

/-- A timer that counts in a mode that rolls back is locked, and no rollback runs (R103, R106). -/
theorem counting_kind_lock {s : State} (hstack : s.StackInv) (h : s.TimerInv)
    (hc : s.counting = true) :
    s.esu.engine.kind = none ∧ (s.est.mode.rollsBack = true → s.est.lock = true) := by
  simp only [State.counting, Bool.and_eq_true, Bool.not_eq_true'] at hc
  obtain ⟨⟨⟨hrun, -⟩, hidle⟩, -⟩ := hc
  exact ⟨hstack.noKind hidle, fun hmode => by rw [h.lockIff, hrun, hmode]; rfl⟩

theorem supervisionExpiry_timerInv {s : State} (hstack : s.StackInv) (h : s.TimerInv) :
    (after .supervisionExpiry s).TimerInv := by
  have expired : ((s.advance s.est.remainingNs).raise .supervision).TimerInv :=
    (h.advance s.est.remainingNs).congr rfl rfl
  simp only [after, exec, execSupervisionExpiry]
  split
  next hc =>
    obtain ⟨hkind, hlock⟩ := counting_kind_lock hstack h hc
    have locked (hmode : s.est.mode.rollsBack = true) :
        ((s.advance s.est.remainingNs).raise .supervision).est.lock = true := by
      simpa using hlock hmode
    split
    · exact expired
    · exact expired.remaining _ rfl rfl
    next hmode => exact expiryRollback_timerInv expired hkind (locked (by rw [hmode]; rfl))
    next hmode => exact expiryRollback_timerInv expired hkind (locked (by rw [hmode]; rfl))
  · exact h

theorem epochEvents_timerInv {s : State} (hstack : s.StackInv) (h : s.TimerInv) (i : Instr)
    (hi : movesEpoch i = true) : (after i s).TimerInv := by
  cases i <;> simp only [movesEpoch, Bool.false_eq_true] at hi
  case requestTake => exact requestTake_timerInv h
  case operationComplete => exact operationComplete_timerInv hstack h
  case rollbackFirstStep => exact rollbackFirstStep_timerInv hstack h
  case hostResetAssert => exact hostResetAssert_timerInv hstack h
  case supervisionExpiry => exact supervisionExpiry_timerInv hstack h

/-- Settles O58: room and timer, each kept by the commands and the events that reach the log, the epochs
or the timer. -/
theorem roomAndTimerInvariantsKept : Obligations.RoomAndTimerInvariantsKept :=
  ⟨fun _ _ => step_keeps_of_epoch reset_roomInv SameEpoch.roomInv epochActs_roomInv
      fun _ => epochEvents_roomInv,
    fun _ _ => step_keeps_of_epoch reset_timerInv SameEpoch.timerInv epochActs_timerInv
      epochEvents_timerInv⟩

end Sys2Proof.Machine
end

section
/-! A WRITE that is to be logged, at its check, with and without room in the log (R35, R39 to R42, R75,
R83). -/
namespace Sys2Proof.Machine

/-- The service that Table 3.4 gives a WRITE that is to be logged (R35). -/
theorem serviceFor_of_logged {s : State} {r : Request} (h : Logged s r) :
    s.serviceFor r (s.classify (r.addr.toNat / 64)).cls = .loggingWrite := by
  obtain ⟨hk, hcls, hopen, hsound⟩ := h
  unfold State.serviceFor
  rw [hk]
  refine if_pos ?_
  simpa [State.depth, List.length_pos_iff, hsound] using ⟨hcls, hopen⟩

/-- The lookup of the first-write filter, in the words of the claims (R39, R64). -/
theorem missedLines_eq (s : State) (r : Request) : s.missedLines (touchedParts r) = missedOf s r := by
  unfold State.missedLines missedOf
  cases s.fwf.mode <;> rfl

/-- There is room for the records of all missed lines: a page holds 56 (R67, R75). -/
theorem hasRoom_iff (s : State) (n : Nat) : s.hasRoom n = true ↔ s.ulc.head + n ≤ 56 * s.ulc.pages :=
  decide_eq_true_iff

section
variable {s : State} {r : Request} {p : LinePart} {more : List LinePart} {first : Classification}
  (ht : touchedParts r = p :: more) (hs : s.serviceFor r first.cls = .loggingWrite)
  (classes : List Classification)
include ht hs

/-- With room, the request is served as a logging write, with the frame of its check (R39, R40). -/
theorem settle_of_room (hroom : s.ulc.head + (missedOf s r).length ≤ 56 * s.ulc.pages) :
    s.settle r classes first = s.serve
      { req := r, classes := classes, touched := touchedParts r, service := .loggingWrite,
        logFrame := some (s.depth, s.topSerial), missed := missedOf s r, record := none, left := [],
        readData := [] } := by
  have htouched : ¬ (touchedParts r).isEmpty = true := by simp [ht]
  unfold State.settle
  dsimp only
  rw [if_neg htouched, hs, missedLines_eq]
  exact if_pos ((hasRoom_iff s _).mpr hroom)

/-- Without room, the full policy decides (R40, R41). -/
theorem settle_of_full (hfull : 56 * s.ulc.pages < s.ulc.head + (missedOf s r).length) :
    (s.ulc.fullPolicy = .refuse → s.settle r classes first = s.faultRequest r .logFull first.region) ∧
    (s.ulc.fullPolicy = .brk → s.settle r classes first = s.breakFrames.serve
      { req := r, classes := classes, touched := touchedParts r, service := .directWrite,
        logFrame := none, missed := [], record := none, left := [], readData := [] }) := by
  have htouched : ¬ (touchedParts r).isEmpty = true := by simp [ht]
  have hroom : ¬ s.hasRoom (missedOf s r).length = true := by
    rw [hasRoom_iff]
    omega
  unfold State.settle
  dsimp only
  rw [if_neg htouched, hs, missedLines_eq]
  dsimp only
  rw [if_neg hroom]
  constructor <;> intro hpolicy <;> rw [hpolicy]

end

/-- With an epoch open the first missed line is read (R42). -/
theorem nextMissed_of_open {s : State} {c : Current} {line : Nat} {lines : List Nat}
    (hopen : s.esu.stack ≠ []) (hm : c.missed = line :: lines) :
    s.nextMissed c = s.goesOn .logRead { c with record := none } (readLine .rqp line) := by
  have hdepth : s.depth ≠ 0 := by simpa [State.depth] using hopen
  unfold State.nextMissed
  rw [hm]
  exact if_neg hdepth

/-- A request with a missed line begins its log chain, once the watch comparator has seen it
(R42, R51). -/
theorem serve_of_missed {s : State} {c : Current} {line : Nat} {lines : List Nat}
    (ht : c.touched = touchedParts c.req) (hopen : s.esu.stack ≠ []) (hm : c.missed = line :: lines) :
    s.serve c = State.goesOn { s with evu := s.watched c.req s.evu } .logRead { c with record := none }
      (readLine .rqp line) := by
  have seen : s.watchRequest c.req c.touched = { s with evu := s.watched c.req s.evu } := by
    rw [ht, State.watchRequest_eq]
  rw [State.serve, seen]
  exact nextMissed_of_open hopen hm

section
variable {s : State} {e : Entry} {rest : List Entry} {p : LinePart} {more : List LinePart}
  (h : TakeReady s e rest) (hp : Passes s e.req) (hlogged : Logged s e.req)
  (ht : touchedParts e.req = p :: more)
include h hp hlogged ht

theorem TakeReady.exec_of_room
    (hroom : s.ulc.head + (missedOf s e.req).length ≤ 56 * s.ulc.pages) :
    exec .requestTake s = .next ((s.taken e rest).serve
      { currentOf s e.req .loggingWrite with
        logFrame := some (s.esu.stack.length, s.topSerial), missed := missedOf s e.req }) := by
  rw [h.exec_of_passes hp]
  exact congrArg _ (settle_of_room (s := s.taken e rest) ht (serviceFor_of_logged hlogged) _ hroom)

theorem TakeReady.exec_of_full
    (hfull : 56 * s.ulc.pages < s.ulc.head + (missedOf s e.req).length) :
    (s.ulc.fullPolicy = .refuse → exec .requestTake s = .next
      ((s.taken e rest).faultRequest e.req .logFull
        (s.classify (e.req.addr.toNat / 64)).region)) ∧
    (s.ulc.fullPolicy = .brk → exec .requestTake s = .next
      ((s.taken e rest).breakFrames.serve (currentOf s e.req .directWrite))) := by
  rw [h.exec_of_passes hp]
  obtain ⟨hrefuse, hbreak⟩ :=
    settle_of_full (s := s.taken e rest) ht (serviceFor_of_logged hlogged)
      ((coveredParts e.req).map (fun p => s.classify p.line)) hfull
  exact ⟨fun hpolicy => congrArg _ (hrefuse hpolicy), fun hpolicy => congrArg _ (hbreak hpolicy)⟩

end

/-- Settles O17: with room the request is served as a logging write, from its first missed line or from
its data. -/
theorem takeServesLoggingWrites : Obligations.TakeServesLoggingWrites := by
  intro s e rest p more hs hp hlogged ht hroom c
  obtain ⟨hk, -, hopen, -⟩ := id hlogged
  rw [hs.exec_of_room hp hlogged ht hroom]
  refine ⟨fun hhits => ?_, fun line lines hmissed => ?_⟩
  · rw [serve_of_hits rfl hhits, goData_of_touched ht]
    simp only [currentOf, hk]
    rfl
  · rw [hmissed]
    exact congrArg _ (serve_of_missed (s := s.taken e rest) rfl hopen rfl)

/-- Settles O18: without room the full policy refuses the request, or breaks the frames and serves it
unlogged. -/
theorem takeMeetsFullLog : Obligations.TakeMeetsFullLog := by
  intro s e rest p more hs hp hlogged ht hfull full
  obtain ⟨hk, -⟩ := id hlogged
  obtain ⟨hrefuse, hbreak⟩ := hs.exec_of_full hp hlogged ht hfull
  refine ⟨fun hpolicy => ?_, fun hpolicy => ?_⟩
  · rw [hrefuse hpolicy, hs.faultRequest]
  · rw [hbreak hpolicy, serve_of_hits rfl rfl, goData_of_touched ht]
    simp only [currentOf, hk]
    rfl

end Sys2Proof.Machine
end

section
/-! The watch comparator (R50, R51). -/
namespace Sys2Proof.Machine

/-- Which requests the comparator matches (R51). -/
theorem watchMatches_iff (s : State) (r : Request) :
    s.watchMatches r (touchedParts r) = true ↔
      s.rqp.watch.enabled = true ∧
      ((r.kind = .read ∧ s.rqp.watch.matchReads = true) ∨
        (r.kind = .write ∧ s.rqp.watch.matchWrites = true)) ∧
      ∃ p ∈ touchedParts r, s.rqp.watch.firstLine ≤ p.line ∧ p.line ≤ s.rqp.watch.lastLine := by
  unfold State.watchMatches
  cases hk : r.kind <;> simp [and_assoc]

/-- The fields of WATCH_SET's nine argument bytes (Table 11.1). -/
theorem watchFields (f a b c d w x y z : Byte) :
    argByte [f, a, b, c, d, w, x, y, z] 0 = f ∧
    argField [f, a, b, c, d, w, x, y, z] 1 4 = word4 a b c d ∧
    argField [f, a, b, c, d, w, x, y, z] 5 4 = word4 w x y z :=
  ⟨rfl, beNat_four a b c d, beNat_four w x y z⟩

/-- The comparator of these flags and lines (R50). -/
def watchOf (f : Byte) (first last : Nat) : Watch :=
  { enabled := f.getLsbD 0, matchReads := f.getLsbD 1, matchWrites := f.getLsbD 2,
    firstLine := first, lastLine := last }

/-- WATCH_SET refuses lines out of order or range, and else replaces the comparator (R50). -/
theorem watchSetAct_bytes (s : State) (f a b c d w x y z : Byte) :
    watchSetAct [f, a, b, c, d, w, x, y, z] s =
      if word4 w x y z < word4 a b c d ∨ 0x3FFFFFF < word4 a b c d ∨ 0x3FFFFFF < word4 w x y z then
        (s, .refused .badArg)
      else (s.setRqp { s.rqp with watch := watchOf f (word4 a b c d) (word4 w x y z) }, .done []) := by
  obtain ⟨hflags, hfirst, hlast⟩ := watchFields f a b c d w x y z
  unfold watchSetAct
  dsimp only
  rw [hflags, hfirst, hlast]
  rfl

/-- Settles O19: the comparator's condition, and the two outcomes of WATCH_SET. -/
theorem watchMatchesAndIsSet : Obligations.WatchMatchesAndIsSet := by
  refine ⟨watchMatches_iff, ?_⟩
  intro s f a b c d w x y z hframe first last args
  have taken {t : State} {r : Answer} (hact : watchSetAct args s = (t, r)) :
      exec (.watchSet z) s = .next (t.answered 0x22 args r) :=
    congrArg _ (takeAtLast_of_frame hframe rfl hact)
  refine ⟨fun hbad => taken ?_, fun horder hrange => taken ?_⟩
  · rw [watchSetAct_bytes, if_pos hbad]
  · rw [watchSetAct_bytes, if_neg (by omega)]
    rfl

end Sys2Proof.Machine
end

section
/-! The completion of an operation for the request in service: its data, its log chain
(R36, R37, R42 to R44, R46). -/
namespace Sys2Proof.Machine

/-! ### What a completion hands over and finds -/

theorem dramBytes_eq (s : State) (a n : Nat) :
    s.dramBytes a n = (List.range n).map (fun i => s.dramByte (a + i)) := by
  induction n generalizing a with
  | zero => rfl
  | succ n ih =>
    rw [State.dramBytes, ih, List.range_succ_eq_map, List.map_cons, List.map_map]
    simp [Function.comp_def, Nat.add_right_comm, Nat.add_assoc]

/-- Time that passes leaves the bytes that a READ finds (R134). -/
theorem opData_advanceTo (s : State) (op : MemOp) (till : Nat) :
    (s.advanceTo till).opData op = s.handed op := by
  unfold State.opData State.handed
  cases op.kind with
  | read => exact dramBytes_eq (s.advanceTo till) op.addr (8 * op.beats)
  | write => rfl

@[simp] theorem State.transferred_ulc (s : State) (op : MemOp) (till : Nat) :
    (s.transferred op till).ulc = s.ulc := by
  unfold State.transferred; dsimp only; split <;> rfl

/-- No entry in service is marked dropped where the oldest is not and the others wait. -/
theorem serviceDropped_of_kept {s : State} {e : Entry} {rest : List Entry}
    (hq : s.slp.queue = e :: rest) (hd : e.dropped = false) (hw : ∀ x ∈ rest, x.mark = .waiting) :
    s.serviceDropped = false := by
  rw [State.serviceDropped, hq, List.any_eq_false]
  intro x hx
  obtain rfl | hx := List.mem_cons.mp hx
  · simp [hd]
  · simp [hw x hx]

/-- A response ends the request: the oldest entry, in service, leaves (R8). -/
theorem respond_of_served {s : State} {e : Entry} {rest : List Entry}
    (hq : s.slp.queue = e :: rest) (hm : e.mark = .inService) (x : Response) :
    s.respond x =
      { s.released rest with
        slp := { (s.released rest).slp with delivered := s.slp.delivered ++ [x] } } := by
  rw [← dropRequest_of_served hq hm]
  rfl

/-- What the request path does at the completion of an operation in each stage (R31). -/
def State.stageDone (s : State) (stage : Stage) (c : Current) (data : List Byte) : State :=
  match stage with
  | .logRead => s.logReadDone c data
  | .logData => s.logDataDone c
  | .logHeader => (s.countRecord c).nextMissed { c with missed := c.missed.tail, record := none }
  | .data => s.lineDone c data
  | .waiting => s
  | .check => s

theorem rqpComplete_of_kept {s : State} {c : Current} (hc : s.rqp.current = some c)
    (hd : s.serviceDropped = false) (data : List Byte) :
    s.rqpComplete data = s.stageDone s.rqp.stage c data := by
  unfold State.rqpComplete
  rw [hc]
  dsimp only
  rw [if_neg (by simp [hd])]
  cases s.rqp.stage <;> rfl

/-- What happens at a completion for a request that is not dropped. -/
theorem Completing.exec_of_kept {s : State} {op : MemOp} {till : Nat} {stage : Stage}
    {c : Current} {e : Entry} {rest : List Entry} (h : Completing s op till stage c e rest)
    (hd : e.dropped = false) :
    exec .operationComplete s = .next ((s.transferred op till).stageDone stage c (s.handed op)) := by
  have hkept : (s.transferred op till).serviceDropped = false :=
    serviceDropped_of_kept (by simpa using h.queue) hd h.restWaits
  rw [exec_operationComplete_rqp h.transfer h.client, opData_advanceTo,
    rqpComplete_of_kept (by simpa using h.request) hkept, State.transferred_rqp, h.stage]

/-! ### The DATA stage -/

theorem lineDone_of_more {s : State} {c : Current} {p : LinePart} {more : List LinePart}
    (hleft : c.left.tail = p :: more) (hstage : s.rqp.stage = .data) (data : List Byte) :
    s.lineDone c data =
      s.goesOn .data { c with left := p :: more, readData := c.readData ++ data }
        (lineOp c.req.kind p) := by
  unfold State.lineDone State.goesOn
  dsimp only
  rw [hleft, ← hstage]
  rfl

theorem lineDone_of_last {s : State} {c : Current} (hleft : c.left.tail = []) (data : List Byte) :
    s.lineDone c data = s.respond (.okay (c.readData ++ data)) := by
  unfold State.lineDone
  rw [hleft]

/-- Settles O21: by whether another touched line is left. -/
theorem dataOperationCompletes : Obligations.DataOperationCompletes := by
  intro s op till c e rest h hd got
  rw [h.exec_of_kept hd]
  refine ⟨fun p more hleft => ?_, fun hleft => ?_⟩
  · exact congrArg _ (lineDone_of_more hleft (by simpa using h.stage) _)
  · have hqueue : (s.transferred op till).slp.queue = e :: rest := by simpa using h.queue
    refine congrArg _ ((lineDone_of_last hleft _).trans ?_)
    rw [respond_of_served hqueue h.served, State.transferred_slp]

/-! ### The log chain -/

/-- With an epoch open the old image goes to the data slot of record head (R42). -/
theorem logReadDone_of_open {s : State} (hopen : s.esu.stack ≠ []) (c : Current)
    (image : List Byte) :
    s.logReadDone c image =
      s.goesOn .logData { c with record := some (s.ulc.recordRef s.ulc.head) }
        (writeLine .rqp (s.ulc.recordRef s.ulc.head).dataLine image) := by
  have hdepth : s.depth ≠ 0 := by simpa [State.depth] using hopen
  exact if_neg hdepth

/-- With no epoch open any more the logging is given up (R46). -/
theorem logReadDone_of_closed {s : State} (hclosed : s.esu.stack = []) (c : Current)
    (image : List Byte) : s.logReadDone c image = s.goData c := by
  have hdepth : s.depth = 0 := by simp [State.depth, hclosed]
  exact if_pos hdepth

theorem nextMissed_of_closed {s : State} (hclosed : s.esu.stack = []) (c : Current) :
    s.nextMissed c = s.goData c := by
  have hdepth : s.depth = 0 := by simp [State.depth, hclosed]
  unfold State.nextMissed
  split
  · rfl
  · exact if_pos hdepth

theorem nextMissed_of_done {s : State} {c : Current} (hm : c.missed = []) :
    s.nextMissed c = s.goData c := by
  unfold State.nextMissed
  rw [hm]

/-- The header of the record in progress is written, with top serial and depth of this event
(R43, R70). -/
theorem logDataDone_of_record {s : State} {c : Current} {line : Nat} {lines : List Nat}
    {ref : RecordRef} (hc : s.rqp.current = some c) (hm : c.missed = line :: lines)
    (hr : c.record = some ref) :
    s.logDataDone c = s.goesOn .logHeader c
      { client := .rqp, kind := .write, line := ref.headerLine, startBeat := ref.headerBeat,
        beats := 1, mask := List.replicate 8 true,
        data := headerBytes line s.topSerial s.esu.stack.length } := by
  unfold State.logDataDone State.goesOn
  rw [hm, hr, ← hc]
  rfl

/-- The first missed line has its record; the others follow (R43). -/
theorem stageDone_logHeader {s : State} {c : Current} {line : Nat} {lines : List Nat}
    (hm : c.missed = line :: lines) (data : List Byte) :
    s.stageDone .logHeader c data =
      (s.countRecord c).nextMissed { c with missed := lines, record := none } := by
  unfold State.stageDone
  dsimp only
  rw [hm, List.tail_cons]

/-- Settles O22: a LOG_READ by the depth it finds, a LOG_DATA with its record. -/
theorem logReadAndLogDataComplete : Obligations.LogReadAndLogDataComplete := by
  intro s op till c e rest p more hd ht
  refine ⟨fun h => ?_, fun h line lines ref hm hr => ?_⟩
  · rw [h.exec_of_kept hd]
    refine ⟨fun hopen => ?_, fun hclosed => ?_⟩
    · refine congrArg _ ((logReadDone_of_open (by simpa using hopen) c _).trans ?_)
      rw [State.transferred_ulc]
    · exact congrArg _ ((logReadDone_of_closed (by simpa using hclosed) c _).trans
        (goData_of_touched ht))
  · rw [h.exec_of_kept hd]
    refine congrArg _ ((logDataDone_of_record (by simpa using h.request) hm hr).trans ?_)
    simp [State.topSerial, State.topFrame]

/-- Settles O23: by the depth that the LOG_HEADER finds, then by the missed lines left. -/
theorem logHeaderCompletes : Obligations.LogHeaderCompletes := by
  intro s op till c e rest p more line lines h hd ht hm c'
  rw [h.exec_of_kept hd, stageDone_logHeader hm]
  refine ⟨fun hclosed => ?_, fun hopen hlast => ?_, fun hopen next others hnext => ?_⟩
  · have hclosed : (s.transferred op till).esu.stack = [] := by simpa using hclosed
    rw [countRecord_of_closed hclosed]
    exact congrArg _ ((nextMissed_of_closed hclosed _).trans (goData_of_touched ht))
  · rw [countRecord_of_open (by simpa using hopen) hm]
    exact congrArg _ ((nextMissed_of_done hlast).trans (goData_of_touched ht))
  · have hopen : (s.transferred op till).esu.stack ≠ [] := by simpa using hopen
    rw [countRecord_of_open hopen hm]
    exact congrArg _ (nextMissed_of_open (s := (s.transferred op till).counted line) hopen hnext)

end Sys2Proof.Machine
end

section
/-! What every step keeps of the fault queue, the watch capture, the refreshes owed, the activation
history, the first-write filter and the DRAM bytes (R53, R57, R58, R61, R63, R82, R137, R146, R149,
R155). -/
namespace Sys2Proof.Machine

/-! ### What the acts and the events leave -/

/-- The entries, the frames with the allocator, and the DRAM bytes are the same: all that
State.FilterInv and State.MemoryInv speak of. -/
structure SameUndo (s t : State) : Prop where
  sets : t.fwf.sets = s.fwf.sets
  stack : t.esu.stack = s.esu.stack
  nextSerial : t.esu.nextSerial = s.esu.nextSerial
  carried : t.esu.carried = s.esu.carried
  dram : t.dram = s.dram

theorem SameUndo.filterInv {s t : State} (h : SameUndo s t) (hs : s.FilterInv) : t.FilterInv :=
  hs.congr h.stack h.nextSerial h.carried h.sets

theorem SameUndo.memoryInv {s t : State} (h : SameUndo s t) (hs : s.MemoryInv) : t.MemoryInv := by
  unfold State.MemoryInv
  rwa [h.dram]

/-- The refreshes owed and the activation history are the same. -/
structure SameWindow (s t : State) : Prop where
  owed : t.dsq.owed = s.dsq.owed
  history : t.dsq.history = s.dsq.history

theorem SameWindow.of_eq {s t : State} (h : t.dsq = s.dsq) : SameWindow s t :=
  ⟨congrArg Dsq.owed h, congrArg Dsq.history h⟩

theorem SameWindow.refl (s : State) : SameWindow s s := ⟨rfl, rfl⟩

theorem SameWindow.trans {s t u : State} (h : SameWindow s t) (h' : SameWindow t u) :
    SameWindow s u :=
  ⟨h'.owed.trans h.owed, h'.history.trans h.history⟩

/-- For what follows on a state that leaves the sequencer. -/
theorem SameWindow.from_eq {s t u : State} (h : SameWindow t u) (hd : t.dsq = s.dsq := by rfl) :
    SameWindow s u :=
  (SameWindow.of_eq hd).trans h

theorem SameSequencer.window {s t : State} (h : SameSequencer s t) : SameWindow s t :=
  ⟨h.owed, h.history⟩

/-- Nothing changes that one of the four invariants speaks of. -/
structure Quiet (s t : State) : Prop where
  undo : SameUndo s t
  window : SameWindow s t
  evu : t.evu = s.evu

/-- For an act that a lemma rewrites to a state `u` which shows what it changes. -/
theorem Quiet.of_eq {s t u : State} (ht : t = u) (hf : u.fwf.sets = s.fwf.sets := by rfl)
    (he : u.esu = s.esu := by rfl) (hm : u.dram = s.dram := by rfl)
    (ho : u.dsq.owed = s.dsq.owed := by rfl) (hh : u.dsq.history = s.dsq.history := by rfl)
    (hv : u.evu = s.evu := by rfl) : Quiet s t := by
  subst ht
  exact ⟨⟨hf, by rw [he], by rw [he], by rw [he], hm⟩, ⟨ho, hh⟩, hv⟩

theorem Quiet.refl (s : State) : Quiet s s := .of_eq rfl

theorem geometryAct_window (l : List Byte) (s : State) : SameWindow s (geometryAct l s).1 := by
  unfold geometryAct
  split
  · exact .refl s
  · split <;> exact ⟨rfl, rfl⟩

theorem timingAct_window (l : List Byte) (s : State) : SameWindow s (timingAct l s).1 := by
  unfold timingAct
  split
  · exact .refl s
  · split <;> exact ⟨rfl, rfl⟩

theorem dramInitAct_window (l : List Byte) (s : State) : SameWindow s (dramInitAct l s).1 := by
  unfold dramInitAct
  split
  · exact .refl s
  · split <;> exact ⟨rfl, rfl⟩

/-- For an act of the sequencer's set-up, which changes nothing outside the sequencer. -/
theorem Quiet.of_setUp {s t : State} {d : Dsq} (ht : t = { s with dsq := d })
    (hw : SameWindow s t) : Quiet s t := by
  subst ht
  exact .of_eq rfl (ho := hw.owed) (hh := hw.history)

theorem closePages_window (l : List (Fin 8)) (s : State) : SameWindow s (s.closePages l) := by
  induction l generalizing s with
  | nil => exact .refl s
  | cons b l ih =>
    unfold State.closePages
    split
    · have closed : SameWindow s (s.beginClose b) := ⟨rfl, rfl⟩
      exact closed.trans (ih _)
    · exact ih s

/-- SET_POLICY may change the filter's mode, and no entry (R64, R160). -/
theorem setPolicyAct_quiet (l : List Byte) (s : State) : Quiet s (setPolicyAct l s).1 := by
  obtain h | ⟨dc, ac, fm, pp, rp, h⟩ := setPolicyAct_cases s l
  · exact .of_eq h
  · have set : SameWindow s (s.setPolicies dc ac fm pp rp) := ⟨rfl, rfl⟩
    have hw := set.trans (closePages_window allBanks _)
    refine .of_eq h ?_ ?_ ?_ hw.owed hw.history ?_ <;> simp [State.setPolicies]

/-- The commands of the management link that reach the frames, the entries or the event unit. -/
def loudActs : List Act :=
  [openAct, commitAct, rollbackAct, rollbackAllAct, faultPopAct, eventsClearAct, maskWriteAct]

/-- Every other command of the management link is quiet. -/
theorem act_quiet : ∀ a ∈ allActs, a ∈ loudActs ∨ ∀ l s, Quiet s (a l s).1 := by
  simp only [allActs, List.forall_mem_cons]
  exact
    ⟨.inr fun l s => .of_eq (identAct_state s l), .inr fun l s => .of_eq (statusAct_state s l),
      .inr fun l s => .of_setUp (geometryAct_changes s l) (geometryAct_window l s),
      .inr fun l s => .of_setUp (timingAct_changes s l) (timingAct_window l s),
      .inr fun l s => .of_setUp (dramInitAct_changes s l) (dramInitAct_window l s),
      .inr fun l s => .of_eq (setLogAct_changes s l), .inr setPolicyAct_quiet,
      .inr fun l s => .of_eq (regionWriteAct_changes s l),
      .inr fun l s => .of_eq (regionReadAct_state s l),
      .inr fun l s => .of_eq (watchSetAct_changes s l), .inl (by simp [loudActs]),
      .inl (by simp [loudActs]), .inl (by simp [loudActs]), .inl (by simp [loudActs]),
      .inr fun l s => .of_eq (frameReadAct_state s l),
      .inr fun l s => .of_eq (superviseSetAct_changes s l),
      .inr fun l s => .of_eq (superviseStartAct_changes s l),
      .inr fun l s => .of_eq (superviseStopAct_changes s l),
      .inr fun l s => .of_eq (kickAct_changes s l), .inl (by simp [loudActs]),
      .inr fun l s => .of_eq (eventsReadAct_state s l), .inl (by simp [loudActs]),
      .inl (by simp [loudActs]), .inr fun l s => .of_eq (deviceResetAct_state s l),
      .inr fun l s => .of_eq (unknownAct_state s l), nofun⟩

/-- The events of the sequencer that change what is owed or the history. -/
def movesWindow : Instr → Bool
  | .initRefreshExpiry | .bankActivation | .refreshTickExpiry | .bankRefreshStart
  | .actWindowAgeOut => true
  | _ => false

/-- They reach neither frames nor entries, and write no byte. -/
theorem windowEvent_undo (i : Instr) (hi : movesWindow i = true) (s : State) :
    SameUndo s (after i s) := by
  cases i <;> simp only [movesWindow, Bool.false_eq_true] at hi <;> clear hi
  all_goals
    simp only [after, exec, execInitRefreshExpiry, execBankActivation, execRefreshTickExpiry,
      execBankRefreshStart, execActWindowAgeOut]
    repeat' split
    all_goals exact ⟨rfl, rfl, rfl, rfl, rfl⟩

theorem drstNAssert_quiet (s : State) :
    Quiet s (after .drstNAssert s) ∨ Quiet State.reset (after .drstNAssert s) := by
  simp only [after, exec, execDrstNAssert]
  split
  · exact .inl (.refl s)
  · split
    · exact .inr (.of_eq rfl)
    all_goals exact .inl (.of_eq rfl)

theorem frameEnd_quiet (s : State) :
    Quiet s (after .frameEnd s) ∨ Quiet State.reset (after .frameEnd s) := by
  simp only [after, exec, execFrameEnd]
  split
  · split
    · exact .inr (.of_eq rfl)
    · exact .inl (.of_eq rfl)
  · exact .inl (.refl s)

/-- Every event at which neither the request path, the engine or the timer act, nor the window moves, is
quiet, or resets the device. -/
theorem event_quiet (i : Instr) (hi : isEvent i = true) (hm : movesEpoch i = false)
    (hw : movesWindow i = false) (s : State) :
    Quiet s (after i s) ∨ Quiet State.reset (after i s) := by
  cases i <;> simp only [isEvent, movesEpoch, movesWindow, Bool.false_eq_true,
    Bool.true_eq_false] at hi hm hw <;> clear hi hm hw
  case powerOn => exact .inr (.of_eq rfl)
  case drstNAssert => exact drstNAssert_quiet s
  case frameEnd => exact frameEnd_quiet s
  all_goals
    left
    simp only [after, exec, execRequestAccept, execOperationStart, execTransferStart,
      execHostResetRelease, execPowerOnResetEnd, execDrstNRelease, execFrameBegin,
      execInitWaitExpiry, execCloseAllWaitExpiry, execOpenWaitExpiry, execBankClose,
      execCloseWaitExpiry, execWriteGuardExpiry, execBankRefreshWaitExpiry]
    repeat' split
    all_goals exact .of_eq rfl

/-- A property that holds at reset and speaks of these parts alone is kept by every step, once the
commands and the events that reach them keep it. -/
theorem step_keeps_of_quiet {P : State → Prop} (hreset : P State.reset)
    (hquiet : ∀ {s t}, Quiet s t → P s → P t)
    (hacts : ∀ {s}, P s → ∀ l, ∀ a ∈ loudActs, P (a l s).1)
    (hepoch : ∀ {s}, P s → ∀ i, isEvent i = true → movesEpoch i = true → P (after i s))
    (hwindow : ∀ {s}, P s → ∀ i, isEvent i = true → movesWindow i = true → P (after i s))
    {s t : State} (hs : P s) (ht : step s = .next t) : P t := by
  have hact : ∀ a ∈ allActs, ∀ l x, P x → P (a l x).1 := fun a ha l x hx =>
    (act_quiet a ha).elim (fun hl => hacts hx l a hl) fun hq => hquiet (hq l x) hx
  have hevent : ∀ i, isEvent i = true → ∀ x, P x → P (after i x) := by
    intro i hi x hx
    cases hm : movesEpoch i with
    | true => exact hepoch hx i hi hm
    | false =>
      cases hw : movesWindow i with
      | true => exact hwindow hx i hi hw
      | false =>
        exact (event_quiet i hi hm hw x).elim (fun h => hquiet h hx) fun h => hquiet h hreset
  exact step_keeps (fun x l => hquiet (.of_eq rfl)) (fun x n => hquiet (.of_eq rfl))
    (after_keeps (fun x m => hquiet (.of_eq rfl)) hact hevent) hs ht

/-! ### The event unit -/

/-- A property of the event unit that no raise of a flag but WATCH disturbs is kept by every step, once
fault records, watch matches and the three commands of the event unit keep it. -/
theorem step_keeps_of_evu {P : Evu → Prop} (hP : RaiseClosed P) (hreset : P Evu.reset)
    (hfault : ∀ x r, P x.evu → P (State.recordFault x r).evu)
    (hwatch : ∀ x c, P x.evu → P (State.captureWatch x c).evu)
    (hpop : ∀ l x, P x.evu → P (faultPopAct l x).1.evu)
    (hclear : ∀ l x, P x.evu → P (eventsClearAct l x).1.evu)
    (hmask : ∀ l x, P x.evu → P (maskWriteAct l x).1.evu)
    {s t : State} (hs : P s.evu) (ht : step s = .next t) : P t.evu := by
  have hevent {s : State} (h : P s.evu) (i : Instr) (hi : isEvent i = true) : P (after i s).evu :=
    event_evu hP hfault hwatch hreset i hi s h
  refine step_keeps_of_quiet (P := fun s => P s.evu) hreset (fun h hs => ?_) (fun {s} h l => ?_)
    (fun h i hi _ => hevent h i hi) (fun h i hi _ => hevent h i hi) hs ht
  · rwa [h.evu]
  · have hstart (k : RollbackKind) : P (s.startRollback k).evu := startRollback_evu hP k h
    simp only [loudActs, List.forall_mem_cons]
    refine ⟨?_, ?_, ?_, ?_, hpop l s h, hclear l s h, hmask l s h, nofun⟩
    · rw [openAct_changes]
      exact h
    · rw [commitAct_changes]
      exact h
    · unfold rollbackAct
      split
      · exact h
      · exact hstart .single
    · unfold rollbackAllAct
      split
      · exact h
      · exact hstart .all

/-- A fault record is appended only while fewer than 16 stand in the queue (R149). -/
theorem recordFault_bounded (s : State) (r : FaultRecord) (h : s.evu.faults.length ≤ 16) :
    (s.recordFault r).evu.faults.length ≤ 16 := by
  unfold State.recordFault
  split
  next hroom =>
    have hlt : s.evu.faults.length < 16 := hroom
    simp only [State.raise_faults, State.setEvu_evu, List.length_append, List.length_singleton]
    omega
  · exact h

theorem faultPopAct_bounded (l : List Byte) (s : State) (h : s.evu.faults.length ≤ 16) :
    (faultPopAct l s).1.evu.faults.length ≤ 16 := by
  unfold faultPopAct
  split
  · exact h
  next hfaults =>
    rw [hfaults, List.length_cons] at h
    simp only [State.setEvu_evu]
    omega

theorem step_faults_bounded {s t : State} (hs : s.evu.faults.length ≤ 16)
    (ht : step s = .next t) : t.evu.faults.length ≤ 16 :=
  step_keeps_of_evu (P := fun v => v.faults.length ≤ 16) (fun _ _ _ h => h) (Nat.zero_le _)
    recordFault_bounded (fun _ _ h => h) faultPopAct_bounded (fun _ _ h => h) (fun _ _ h => h) hs ht

/-- WATCH is pending exactly when the capture is full, said of the event unit alone (R155). -/
def Evu.WatchOk (v : Evu) : Prop := v.capture.isSome = v.flags.getLsbD Flag.watch.bit

theorem watchInv_iff (s : State) : s.WatchInv ↔ s.evu.WatchOk := Iff.rfl

/-- A raise of another flag leaves WATCH as it is (R151). -/
theorem watchOk_raiseClosed : RaiseClosed Evu.WatchOk := by
  intro v f hf h
  have hbit : f.set.getLsbD Flag.watch.bit = false := by
    cases f with
    | watch => exact absurd rfl hf
    | _ => rfl
  unfold Evu.WatchOk at h ⊢
  rw [BitVec.getLsbD_or, hbit, Bool.or_false]
  exact h

theorem recordFault_watchOk (s : State) (r : FaultRecord) (h : s.evu.WatchOk) :
    (s.recordFault r).evu.WatchOk := by
  unfold State.recordFault
  split
  · exact watchOk_raiseClosed { s.evu with faults := s.evu.faults ++ [r] } .fault (by decide) h
  · exact watchOk_raiseClosed s.evu .overrun (by decide) h

/-- A watch match raises WATCH and leaves the capture full (R51, R155). -/
theorem captureWatch_watchOk (s : State) (c : Capture) : (s.captureWatch c).evu.WatchOk := by
  have hpending : (s.captureWatch c).isPending .watch = true := by
    rw [State.captureWatch, State.isPending_raise]
    simp
  exact hpending.symm

theorem faultPopAct_watchOk (l : List Byte) (s : State) (h : s.evu.WatchOk) :
    (faultPopAct l s).1.evu.WatchOk := by
  unfold faultPopAct
  split <;> exact h

/-- EVENTS_CLEAR empties the capture exactly when it clears WATCH (R154, R155). -/
theorem eventsClearAct_watchOk (l : List Byte) (s : State) (h : s.evu.WatchOk) :
    (eventsClearAct l s).1.evu.WatchOk := by
  have hbit : Flag.watch.bit < 11 := by decide
  unfold Evu.WatchOk at h ⊢
  unfold eventsClearAct
  simp only [State.setEvu_evu, BitVec.getLsbD_and, BitVec.getLsbD_not, hbit, decide_true,
    Bool.true_and]
  cases (flagSetOf (beNat l)).getLsbD Flag.watch.bit with
  | true => simp
  | false => simpa using h

theorem step_watchInv {s t : State} (hs : s.WatchInv) (ht : step s = .next t) : t.WatchInv := by
  rw [watchInv_iff] at hs ⊢
  exact step_keeps_of_evu watchOk_raiseClosed reset_watchInv recordFault_watchOk
    (fun x c _ => captureWatch_watchOk x c) faultPopAct_watchOk eventsClearAct_watchOk
    (fun _ _ h => h) hs ht

/-! ### The refreshes owed and the activation history -/

/-- At most 8 refreshes are owed, and at most 4 instants stand in the history (R137, R146). -/
structure State.WindowInv (s : State) : Prop where
  owed : s.dsq.owed ≤ 8
  history : s.dsq.history.length ≤ 4

theorem boundsInv_iff (s : State) : s.BoundsInv ↔ s.evu.faults.length ≤ 16 ∧ s.WindowInv :=
  ⟨fun ⟨faults, owed, history⟩ => ⟨faults, owed, history⟩,
    fun ⟨faults, owed, history⟩ => ⟨faults, owed, history⟩⟩

theorem SameWindow.windowInv {s t : State} (h : SameWindow s t) (hs : s.WindowInv) : t.WindowInv :=
  ⟨h.owed ▸ hs.owed, h.history ▸ hs.history⟩

theorem loudAct_window (l : List Byte) (s : State) : ∀ a ∈ loudActs, SameWindow s (a l s).1 := by
  simp only [loudActs, List.forall_mem_cons]
  refine ⟨?_, ?_, (rollbackAct_sequencer s l).window, (rollbackAllAct_sequencer s l).window, ?_, ?_,
    ?_, nofun⟩
  · rw [openAct_changes]
    exact ⟨rfl, rfl⟩
  · rw [commitAct_changes]
    exact ⟨rfl, rfl⟩
  · rw [faultPopAct_changes]
    exact ⟨rfl, rfl⟩
  · rw [eventsClearAct_changes]
    exact ⟨rfl, rfl⟩
  · rw [maskWriteAct_changes]
    exact ⟨rfl, rfl⟩

theorem requestTake_window (s : State) : SameWindow s (after .requestTake s) := by
  simp only [after, exec, execRequestTake]
  split
  · split
    · exact (checkRequest_sequencer _ _).window.from_eq
    · exact .refl s
  · exact .refl s

theorem finishOp_window (s : State) (op : MemOp) : SameWindow s (s.finishOp op) := by
  unfold State.finishOp
  dsimp only
  split <;> exact ⟨rfl, rfl⟩

theorem operationComplete_window (s : State) : SameWindow s (after .operationComplete s) := by
  simp only [after, exec, execOperationComplete]
  split
  next c _ =>
    split
    next till _ =>
      have finished : SameWindow s ((s.advanceTo till).finishOp c.op) :=
        (finishOp_window _ c.op).from_eq
      split
      · exact finished.trans (rqpComplete_sequencer _ _).window
      · exact finished.trans (engineComplete_sequencer _ _).window
    · exact .refl s
  · exact .refl s

theorem rollbackFirstStep_window (s : State) : SameWindow s (after .rollbackFirstStep s) := by
  simp only [after, exec, execRollbackFirstStep]
  split
  · exact (engineStep_sequencer s).window
  · exact .refl s

theorem hostResetAssert_window (s : State) : SameWindow s (after .hostResetAssert s) := by
  simp only [after, exec, execHostResetAssert]
  split
  · exact .refl s
  · split
    · exact .of_eq rfl
    · exact (recover_sequencer _).window.from_eq (hostResetLink_dsq _)

theorem supervisionExpiry_window (s : State) : SameWindow s (after .supervisionExpiry s) := by
  simp only [after, exec, execSupervisionExpiry]
  split
  · split
    · exact .of_eq rfl
    · exact .of_eq rfl
    all_goals exact (expiryRollback_sequencer _).window.from_eq
  · exact .refl s

theorem epochEvent_window (i : Instr) (hi : movesEpoch i = true) (s : State) :
    SameWindow s (after i s) := by
  cases i <;> simp only [movesEpoch, Bool.false_eq_true] at hi
  case requestTake => exact requestTake_window s
  case operationComplete => exact operationComplete_window s
  case rollbackFirstStep => exact rollbackFirstStep_window s
  case hostResetAssert => exact hostResetAssert_window s
  case supervisionExpiry => exact supervisionExpiry_window s

/-- READY is entered with nothing owed (R138). -/
theorem initRefreshExpiry_windowInv {s : State} (h : s.WindowInv) :
    (after .initRefreshExpiry s).WindowInv := by
  simp only [after, exec, execInitRefreshExpiry]
  split
  · split
    · split
      · exact ⟨Nat.zero_le _, h.history⟩
      · exact ⟨h.owed, h.history⟩
    · exact h
  · exact h

/-- An activation waits for a history of fewer than 4 instants (R127, R146). -/
theorem activationDue_history {s : State} {x : Fin 8 × Nat} (h : s.activationDue = some x) :
    s.dsq.history.length < 4 := by
  unfold State.activationDue at h
  split at h
  · dsimp only at h
    split at h
    next hdue => exact hdue.2
    · cases h
  · cases h

theorem bankActivation_windowInv {s : State} (h : s.WindowInv) :
    (after .bankActivation s).WindowInv := by
  simp only [after, exec, execBankActivation]
  split
  next hdue =>
    refine ⟨h.owed, ?_⟩
    have hroom := activationDue_history hdue
    have hlength : (s.dsq.history ++ [s.now]).length ≤ 4 := by
      rw [List.length_append, List.length_singleton]
      omega
    exact hlength
  · exact h

/-- At 8 refreshes owed a tick raises REFRESH_OVERDUE instead (R138, R139). -/
theorem refreshTickExpiry_windowInv {s : State} (h : s.WindowInv) :
    (after .refreshTickExpiry s).WindowInv := by
  simp only [after, exec, execRefreshTickExpiry]
  split
  · split
    next hroom =>
      have hroom : s.dsq.owed < 8 := hroom
      exact ⟨hroom, h.history⟩
    · exact ⟨h.owed, h.history⟩
  · exact h

theorem bankRefreshStart_windowInv {s : State} (h : s.WindowInv) :
    (after .bankRefreshStart s).WindowInv := by
  simp only [after, exec, execBankRefreshStart]
  split
  · exact ⟨(Nat.sub_le _ _).trans h.owed, h.history⟩
  · exact h

theorem actWindowAgeOut_windowInv {s : State} (h : s.WindowInv) :
    (after .actWindowAgeOut s).WindowInv := by
  simp only [after, exec, execActWindowAgeOut]
  split
  next t rest hhistory =>
    have hlength : (t :: rest).length ≤ 4 := hhistory ▸ h.history
    exact ⟨h.owed, (Nat.le_succ _).trans hlength⟩
  · exact h

theorem windowEvent_windowInv {s : State} (h : s.WindowInv) (i : Instr) (hi : movesWindow i = true) :
    (after i s).WindowInv := by
  cases i <;> simp only [movesWindow, Bool.false_eq_true] at hi
  case initRefreshExpiry => exact initRefreshExpiry_windowInv h
  case bankActivation => exact bankActivation_windowInv h
  case refreshTickExpiry => exact refreshTickExpiry_windowInv h
  case bankRefreshStart => exact bankRefreshStart_windowInv h
  case actWindowAgeOut => exact actWindowAgeOut_windowInv h

theorem step_windowInv {s t : State} (hs : s.WindowInv) (ht : step s = .next t) : t.WindowInv :=
  step_keeps_of_quiet ⟨Nat.zero_le _, Nat.zero_le _⟩ (fun h => h.window.windowInv)
    (fun h l a ha => (loudAct_window l _ a ha).windowInv h)
    (fun h i _ hm => (epochEvent_window i hm _).windowInv h)
    (fun h i _ hw => windowEvent_windowInv h i hw) hs ht

/-! ### The first-write filter -/

theorem openAct_filterInv {s : State} (h : s.FilterInv) (l : List Byte) :
    (openAct l s).1.FilterInv := by
  unfold openAct
  split
  · exact h
  · split
    · exact h
    · split
      · exact h
      · split
        · exact h
        · dsimp only
          split
          next hwrap => exact open_filterInv h (s.depth + 1) s.ulc.head rfl (by rw [if_pos hwrap]; rfl)
          next hwrap => exact open_filterInv h (s.depth + 1) s.ulc.head rfl (by rw [if_neg hwrap]; rfl)

/-- The outermost COMMIT takes every entry with the frame; a nested one leaves a serial that the popped
frame held (R58, R61, R87). -/
theorem commitAct_filterInv {s : State} (h : s.FilterInv) (l : List Byte) :
    (commitAct l s).1.FilterInv := by
  unfold commitAct
  split
  · exact h
  · split
    · exact h
    · exact h.shrink nofun rfl rfl s.fwf.emptied_below fun _ => s.fwf.emptied_invalid
    next top below rest hstack =>
      refine h.shrink (fun f hf => ?_) rfl rfl (.of_sets rfl) nofun
      have hserials : s.serials = top.serial :: below.serial :: rest.map Frame.serial := by
        rw [State.serials, hstack, List.map_cons, List.map_cons]
      rw [hserials]
      obtain rfl | hf := List.mem_cons.mp hf
      · exact List.mem_cons_self
      · exact List.mem_cons_of_mem _ (List.mem_cons_of_mem _ (List.mem_map_of_mem hf))

theorem rollbackActs_filterInv {s : State} (h : s.FilterInv) (l : List Byte) :
    (rollbackAct l s).1.FilterInv ∧ (rollbackAllAct l s).1.FilterInv := by
  unfold rollbackAct rollbackAllAct
  split
  · exact ⟨h, h⟩
  · exact ⟨startRollback_filterInv h .single, startRollback_filterInv h .all⟩

theorem loudAct_filterInv {s : State} (h : s.FilterInv) (l : List Byte) :
    ∀ a ∈ loudActs, (a l s).1.FilterInv := by
  obtain ⟨hsingle, hall⟩ := rollbackActs_filterInv h l
  simp only [loudActs, List.forall_mem_cons]
  refine ⟨openAct_filterInv h l, commitAct_filterInv h l, hsingle, hall, ?_, ?_, ?_, nofun⟩
  · rw [faultPopAct_changes]
    exact h.congr rfl rfl rfl rfl
  · rw [eventsClearAct_changes]
    exact h.congr rfl rfl rfl rfl
  · rw [maskWriteAct_changes]
    exact h.congr rfl rfl rfl rfl

theorem requestTake_filterInv {s : State} (h : s.FilterInv) : (after .requestTake s).FilterInv := by
  simp only [after, exec, execRequestTake]
  split
  · split
    next e rest _ =>
      have taken : (s.taken e rest).FilterInv := h.congr rfl rfl rfl rfl
      exact checkRequest_filterInv taken e.req
    · exact h
  · exact h

theorem operationComplete_filterInv {s : State} (h : s.FilterInv) :
    (after .operationComplete s).FilterInv := by
  simp only [after, exec, execOperationComplete]
  split
  next c _ =>
    split
    next till _ =>
      have finished : ((s.advanceTo till).finishOp c.op).FilterInv :=
        h.congr (by simp) (by simp) (by simp) (by simp)
      split
      · exact rqpComplete_filterInv finished _
      · exact engineComplete_filterInv finished _
    · exact h
  · exact h

theorem rollbackFirstStep_filterInv {s : State} (h : s.FilterInv) :
    (after .rollbackFirstStep s).FilterInv := by
  simp only [after, exec, execRollbackFirstStep]
  split
  · exact engineStep_filterInv h
  · exact h

theorem hostResetLink_filterInv {s : State} (h : s.FilterInv) : s.hostResetLink.FilterInv := by
  obtain same | same := hostResetLink_cases s
  · exact h.congr (by rw [same.esu]) (by rw [same.esu]) (by rw [same.esu]) (by simp)
  · exact h.congr (by rw [same.esu]; rfl) (by rw [same.esu]; rfl) (by rw [same.esu]; rfl) (by simp)

theorem recover_filterInv {s : State} (h : s.FilterInv) : s.recover.FilterInv := by
  unfold State.recover
  split
  · split
    · split <;> exact h.congr rfl rfl rfl rfl
    · exact startRollback_filterInv h .recovery
  · exact h

theorem hostResetAssert_filterInv {s : State} (h : s.FilterInv) :
    (after .hostResetAssert s).FilterInv := by
  have pin : (s.setPins { s.pins with hrstAsserted := true }).FilterInv := h.congr rfl rfl rfl rfl
  simp only [after, exec, execHostResetAssert]
  split
  · exact h
  · split
    · exact pin
    · exact recover_filterInv (hostResetLink_filterInv pin)

theorem expiryRollback_filterInv {s : State} (h : s.FilterInv) : s.expiryRollback.FilterInv := by
  have started := startRollback_filterInv h .supervision
  unfold State.expiryRollback
  split
  · exact h.congr rfl rfl rfl rfl
  · dsimp only
    split
    · exact started.congr rfl rfl rfl rfl
    · exact started

theorem supervisionExpiry_filterInv {s : State} (h : s.FilterInv) :
    (after .supervisionExpiry s).FilterInv := by
  have expired : ((s.advance s.est.remainingNs).raise .supervision).FilterInv :=
    h.congr rfl rfl rfl rfl
  simp only [after, exec, execSupervisionExpiry]
  split
  · split
    · exact expired
    · exact expired.congr rfl rfl rfl rfl
    all_goals exact expiryRollback_filterInv expired
  · exact h

theorem epochEvent_filterInv {s : State} (h : s.FilterInv) (i : Instr) (hi : movesEpoch i = true) :
    (after i s).FilterInv := by
  cases i <;> simp only [movesEpoch, Bool.false_eq_true] at hi
  case requestTake => exact requestTake_filterInv h
  case operationComplete => exact operationComplete_filterInv h
  case rollbackFirstStep => exact rollbackFirstStep_filterInv h
  case hostResetAssert => exact hostResetAssert_filterInv h
  case supervisionExpiry => exact supervisionExpiry_filterInv h

theorem step_filterInv {s t : State} (hs : s.FilterInv) (ht : step s = .next t) : t.FilterInv :=
  step_keeps_of_quiet (filterInv_of_reset rfl rfl) (fun h => h.undo.filterInv) loudAct_filterInv
    (fun h i _ hm => epochEvent_filterInv h i hm)
    (fun h i _ hw => (windowEvent_undo i hw _).filterInv h) hs ht

/-! ### The DRAM bytes -/

theorem loudAct_dram (l : List Byte) (s : State) : ∀ a ∈ loudActs, (a l s).1.dram = s.dram := by
  simp only [loudActs, List.forall_mem_cons]
  refine ⟨?_, ?_, by simp, by simp, ?_, ?_, ?_, nofun⟩
  · rw [openAct_changes]
  · rw [commitAct_changes]
  · rw [faultPopAct_changes]
  · rw [eventsClearAct_changes]
  · rw [maskWriteAct_changes]

/-- A WRITE puts its enabled bytes in place, at rising addresses (R134). -/
theorem finishOp_memoryInv {s : State} (h : s.MemoryInv) (op : MemOp) : (s.finishOp op).MemoryInv := by
  unfold State.finishOp
  dsimp only
  split
  · exact h
  · exact Memory.writeMasked_wf h op.addr op.mask op.data

theorem operationComplete_memoryInv {s : State} (h : s.MemoryInv) :
    (after .operationComplete s).MemoryInv := by
  simp only [after, exec, execOperationComplete]
  split
  next c _ =>
    split
    next till _ =>
      have finished : ((s.advanceTo till).finishOp c.op).MemoryInv :=
        finishOp_memoryInv (s := s.advanceTo till) h c.op
      unfold State.MemoryInv at finished ⊢
      split <;> simpa using finished
    · exact h
  · exact h

/-- The other events of the request path, the engine and the timer write no byte. -/
theorem epochEvent_dram (i : Instr) (hi : movesEpoch i = true) (hc : i ≠ .operationComplete)
    (s : State) : (after i s).dram = s.dram := by
  cases i <;> simp only [movesEpoch, Bool.false_eq_true] at hi
  case requestTake =>
    simp only [after, exec, execRequestTake]
    split
    · split <;> simp
    · rfl
  case operationComplete => exact absurd rfl hc
  case rollbackFirstStep =>
    simp only [after, exec, execRollbackFirstStep]
    split <;> simp
  case hostResetAssert =>
    simp only [after, exec, execHostResetAssert]
    split
    · rfl
    · split <;> simp
  case supervisionExpiry =>
    simp only [after, exec, execSupervisionExpiry]
    split
    · split <;> simp
    · rfl

theorem epochEvent_memoryInv {s : State} (h : s.MemoryInv) (i : Instr) (hi : movesEpoch i = true) :
    (after i s).MemoryInv := by
  by_cases hc : i = .operationComplete
  · rw [hc]
    exact operationComplete_memoryInv h
  · unfold State.MemoryInv
    rwa [epochEvent_dram i hi hc]

theorem step_memoryInv {s t : State} (hs : s.MemoryInv) (ht : step s = .next t) : t.MemoryInv := by
  refine step_keeps_of_quiet (P := State.MemoryInv) .nil (fun h => h.undo.memoryInv)
    (fun h l a ha => ?_) (fun h i _ hm => epochEvent_memoryInv h i hm)
    (fun h i _ hw => (windowEvent_undo i hw _).memoryInv h) hs ht
  unfold State.MemoryInv
  rwa [loudAct_dram l _ a ha]

/-- Settles O60: the bounds by the event unit's part and the sequencer's, and each other invariant by
its own lemma. -/
theorem boundsWatchFilterMemoryKept : Obligations.BoundsWatchFilterMemoryKept := by
  refine ⟨fun s t hs ht => ?_, fun _ _ => step_watchInv, fun _ _ => step_filterInv,
    fun _ _ => step_memoryInv⟩
  obtain ⟨hfaults, hwindow⟩ := (boundsInv_iff s).mp hs
  exact (boundsInv_iff t).mpr ⟨step_faults_bounded hfaults ht, step_windowInv hwindow ht⟩

end Sys2Proof.Machine
end

section
/-! The first-write filter: sets and standings, lookup, fill, invalidation and emptying (R53 to R55,
R59, R61, R64). -/
namespace Sys2Proof.Machine

/-! ### Sets and standings -/

theorem setOfLine_eq_iff (a b : Nat) : setOfLine a = setOfLine b ↔ a % 256 = b % 256 := Fin.ext_iff

theorem standing_of_invalid {e : FilterEntry} (h : e.valid = false) (serial : Nat) :
    e.standing serial = .invalid := by
  simp [FilterEntry.standing, h]

theorem standing_of_valid {e : FilterEntry} (h : e.valid = true) (serial : Nat) :
    e.standing serial = if e.serial = serial then .current else .stale := by
  simp [FilterEntry.standing, h]

/-- An entry is CURRENT when it is valid and carries the top serial (Table 4.3). -/
theorem standing_eq_current_iff (e : FilterEntry) (serial : Nat) :
    e.standing serial = .current ↔ e.valid = true ∧ e.serial = serial := by
  cases hv : e.valid with
  | false => simp [standing_of_invalid hv]
  | true => simp [standing_of_valid hv]

/-- Settles O28: the sets by the remainder of the line, the standings by valid flag and serial. -/
theorem filterSetsAndStandings : Obligations.FilterSetsAndStandings := by
  refine ⟨fun line => ⟨rfl, fun h => ?_⟩, fun line k => ?_, fun e topSerial => ⟨?_, ?_, ?_⟩⟩
  · rw [setOfLine_eq_iff] at h
    omega
  · rw [setOfLine_eq_iff, Nat.add_mul_mod_self_right]
  · exact fun hv => standing_of_invalid hv topSerial
  · exact fun hv hs => by rw [standing_of_valid hv, if_pos hs]
  · exact fun hv hs => by rw [standing_of_valid hv, if_neg hs]

/-! ### Lookup and fill -/

theorem mem_allWays (w : Fin 4) : w ∈ allWays := by
  revert w
  decide

theorem any_allWays (p : Fin 4 → Bool) : allWays.any p = true ↔ ∃ w, p w = true := by
  simp [List.any_eq_true, mem_allWays]

/-- The first way that answers yes is found. -/
theorem find?_allWays {p : Fin 4 → Bool} {w : Fin 4} (hw : p w = true)
    (hbefore : ∀ v < w, p v = false) : allWays.find? p = some w := by
  have hways : allWays = List.finRange 4 := rfl
  rw [hways, List.find?_eq_some_iff_getElem]
  refine ⟨hw, w.val, by simp, by simp, fun j hj => ?_⟩
  have hv := hbefore ⟨j, by omega⟩ hj
  simpa using hv

theorem matches_iff (e : FilterEntry) (line serial : Nat) :
    e.matches line serial = true ↔ e.valid = true ∧ e.line = line ∧ e.serial = serial := by
  simp [FilterEntry.matches, and_assoc]

/-- A way of the set holds a valid entry of this line under this serial (R54). -/
def FilterSet.holds (st : FilterSet) (line serial : Nat) : Prop :=
  ∃ w, (st.ways.get w).valid = true ∧ (st.ways.get w).line = line ∧
    (st.ways.get w).serial = serial

theorem FilterSet.any_matches_iff (st : FilterSet) (line serial : Nat) :
    allWays.any (fun w => (st.ways.get w).matches line serial) = true ↔ st.holds line serial := by
  simp only [any_allWays, matches_iff, FilterSet.holds]

/-- Lookup answers HIT for an entry in the line's own set, and only for one (R54). -/
theorem Fwf.hit_iff (f : Fwf) (line serial : Nat) :
    f.hit line serial = true ↔ (f.setFor line).holds line serial :=
  (f.setFor line).any_matches_iff line serial

/-- Where no way of the line's set is CURRENT the lookup misses (R54, R57). -/
theorem Fwf.hit_of_no_current {f : Fwf} {serial : Nat}
    (h : ∀ i w, (f.entry i w).standing serial ≠ .current) (line : Nat) :
    f.hit line serial = false := by
  rw [Bool.eq_false_iff, ne_eq, Fwf.hit_iff]
  rintro ⟨w, hvalid, -, hserial⟩
  exact h (setOfLine line) w ((standing_eq_current_iff _ _).mpr ⟨hvalid, hserial⟩)

theorem FilterSet.fill_of_holds {st : FilterSet} {line serial : Nat} (h : st.holds line serial) :
    st.fill line serial = st :=
  if_pos ((st.any_matches_iff line serial).mpr h)

theorem FilterSet.fill_of_way {st : FilterSet} {line serial : Nat} (h : ¬ st.holds line serial)
    {w : Fin 4} (hw : (st.ways.get w).standing serial ≠ .current)
    (hbefore : ∀ v < w, (st.ways.get v).standing serial = .current) :
    st.fill line serial =
      { st with ways := st.ways.set w.val { valid := true, line := line, serial := serial } w.isLt } := by
  have hfind : allWays.find? (fun w => (st.ways.get w).standing serial != .current) = some w :=
    find?_allWays (by simpa using hw) fun v hv => by simpa using hbefore v hv
  unfold FilterSet.fill
  dsimp only
  rw [if_neg (mt (st.any_matches_iff line serial).mp h), hfind]

theorem FilterSet.fill_of_victim {st : FilterSet} {line serial : Nat} (h : ¬ st.holds line serial)
    (hall : ∀ w, (st.ways.get w).standing serial = .current) :
    st.fill line serial =
      { ways := st.ways.set st.victim.val { valid := true, line := line, serial := serial }
          st.victim.isLt
        victim := st.victim + 1 } := by
  have hfind : allWays.find? (fun w => (st.ways.get w).standing serial != .current) = none :=
    List.find?_eq_none.mpr fun w _ => by simp [hall w]
  unfold FilterSet.fill
  dsimp only
  rw [if_neg (mt (st.any_matches_iff line serial).mp h), hfind]

theorem Fwf.fill_of_on {f : Fwf} (h : f.mode = .on) (line serial : Nat) :
    f.fill line serial = f.putSet line ((f.setFor line).fill line serial) := by
  unfold Fwf.fill
  rw [h]

theorem Fwf.fill_of_bypass {f : Fwf} (h : f.mode = .bypass) (line serial : Nat) :
    f.fill line serial = f := by
  unfold Fwf.fill
  rw [h]

/-- A set put back in its place changes nothing. -/
theorem Fwf.putSet_self (f : Fwf) (line : Nat) : f.putSet line (f.setFor line) = f := by
  unfold Fwf.putSet Fwf.setFor
  rw [Vector.get_eq_getElem, Vector.set_getElem_self]

/-- Settles O29: the lookup, then the rows of Table 4.4 one after the other. -/
theorem filterLookupAndFill : Obligations.FilterLookupAndFill := by
  intro f line serial i st present fresh withSet
  refine ⟨f.hit_iff line serial, fun hbypass => Fwf.fill_of_bypass hbypass line serial,
    fun hon => ⟨fun hpresent => ?_, fun habsent w hw hbefore => ?_, fun habsent hall => ?_⟩⟩
  · rw [Fwf.fill_of_on hon, FilterSet.fill_of_holds (st := f.setFor line) hpresent, Fwf.putSet_self]
  · rw [Fwf.fill_of_on hon, FilterSet.fill_of_way (st := f.setFor line) habsent hw hbefore]
    rfl
  · rw [Fwf.fill_of_on hon, FilterSet.fill_of_victim (st := f.setFor line) habsent hall]
    rfl

/-! ### Invalidation and emptying -/

theorem Fwf.invalidate_of_on {f : Fwf} (h : f.mode = .on) (line serial : Nat) :
    f.invalidate line serial = f.putSet line ((f.setFor line).invalidate line serial) := by
  unfold Fwf.invalidate
  rw [h]

theorem Fwf.invalidate_of_bypass {f : Fwf} (h : f.mode = .bypass) (line serial : Nat) :
    f.invalidate line serial = f := by
  unfold Fwf.invalidate
  rw [h]

theorem FilterSet.invalidate_get (st : FilterSet) (line serial : Nat) (w : Fin 4) :
    (st.invalidate line serial).ways.get w =
      if (st.ways.get w).matches line serial then { st.ways.get w with valid := false }
      else st.ways.get w := by
  simp [FilterSet.invalidate, Vector.get_eq_getElem]

/-- What a restore leaves in each way of each set (R59). -/
theorem Fwf.invalidate_entry {f : Fwf} (h : f.mode = .on) (line serial : Nat) (i : Fin 256)
    (w : Fin 4) :
    (f.invalidate line serial).entry i w =
      if i = setOfLine line ∧ (f.entry i w).valid = true ∧ (f.entry i w).line = line ∧
          (f.entry i w).serial = serial then
        { f.entry i w with valid := false }
      else f.entry i w := by
  rw [Fwf.invalidate_of_on h, Fwf.entry, Fwf.putSet_get]
  by_cases hi : i = setOfLine line
  · subst hi
    simp only [if_true, FilterSet.invalidate_get, matches_iff, true_and]
    rfl
  · rw [if_neg hi, if_neg fun hall => hi hall.1]

/-- A restore moves no victim pointer (R59). -/
theorem Fwf.invalidate_victim {f : Fwf} (h : f.mode = .on) (line serial : Nat) (i : Fin 256) :
    ((f.invalidate line serial).sets.get i).victim = (f.sets.get i).victim := by
  rw [Fwf.invalidate_of_on h, Fwf.putSet_get]
  split
  next hi => rw [hi]; rfl
  · rfl

/-- Emptying moves no victim pointer (R61). -/
theorem Fwf.emptied_victim (f : Fwf) (i : Fin 256) :
    (f.emptied.sets.get i).victim = (f.sets.get i).victim := by
  simp [Fwf.emptied, FilterSet.emptied, Vector.get_eq_getElem]

/-- Settles O30: entry by entry, under each mode. -/
theorem filterInvalidationAndEmptying : Obligations.FilterInvalidationAndEmptying := by
  intro f line serial
  refine ⟨fun hbypass => Fwf.invalidate_of_bypass hbypass line serial, fun hon => ⟨?_, fun i =>
    ⟨Fwf.invalidate_victim hon line serial i, fun w => ?_⟩⟩, rfl,
    fun i => ⟨f.emptied_victim i, f.emptied_invalid i⟩⟩
  · rw [Fwf.invalidate_of_on hon]
    exact hon
  · exact Fwf.invalidate_entry hon line serial i w

end Sys2Proof.Machine
end

section
/-! The completion of a restore write of the rollback engine (R59, R73, R95). -/
namespace Sys2Proof.Machine

/-- A completion of the engine's operation: the sequencer's part, then the engine's. -/
theorem exec_operationComplete_engine {s : State} {op : MemOp} {till : Nat}
    (ht : Transferring s op till) (hc : op.client = .rollback) :
    exec .operationComplete s =
      .next ((s.transferred op till).engineComplete (s.handed op)) := by
  rw [exec_operationComplete, execOperationComplete, ht.current]
  dsimp only
  rw [finishOp_advanceTo, opData_advanceTo, hc]

/-- With its restore line the engine in RB_RESTORE has finished a record (R95). -/
theorem engineComplete_of_restore {s : State} {line : Nat} (hstate : s.esu.engine.state = .rbRestore)
    (hline : s.esu.engine.line = some line) (data : List Byte) :
    s.engineComplete data = s.restoreDone line := by
  unfold State.engineComplete
  rw [hstate, hline]

/-- A finished record: the head falls, the line's entry is invalidated, and the record's items are
cleared before the next step (R59, R73, R95). -/
theorem restoreDone_eq (s : State) (line : Nat) :
    s.restoreDone line = State.engineStep
      { s with
        ulc := { s.ulc with head := s.ulc.head - 1 }
        fwf := s.fwf.invalidate line s.topSerial
        esu := { s.esu with engine := s.esu.engine.cleared } } := rfl

/-- The sequencer's part of a completion leaves the top serial. -/
theorem transferred_topSerial (s : State) (op : MemOp) (till : Nat) :
    (s.transferred op till).topSerial = s.topSerial := by
  unfold State.topSerial State.topFrame
  rw [State.transferred_esu]

/-- Settles O26: the restore write's completion reaches the engine in RB_RESTORE. -/
theorem restoreWriteCompletes : Obligations.RestoreWriteCompletes := by
  intro s op till line h hline u
  have hstate : u.esu.engine.state = .rbRestore := by
    rw [State.transferred_esu, h.state]
  have hline : u.esu.engine.line = some line := by
    rw [State.transferred_esu, hline]
  rw [exec_operationComplete_engine h.transfer h.client, engineComplete_of_restore hstate hline,
    restoreDone_eq, transferred_topSerial]

end Sys2Proof.Machine
end

section
/-! The serials that the allocator gives (R63, R82, log 27). -/
namespace Sys2Proof.Machine

/-- The value examined after `i` advances from `n`, over any number of rounds, where `serialOrbit` is for
the first: 65535 is followed by 1 (R82). -/
def serialAt (n i : Nat) : Nat := (n - 1 + i) % 65535 + 1

theorem serialAt_zero {n : Nat} (h : 1 ≤ n) (h' : n ≤ 65535) : serialAt n 0 = n := by
  unfold serialAt
  omega

theorem serialAt_one {n : Nat} (h : 1 ≤ n) (h' : n ≤ 65535) : serialAt n 1 = serialAfter n := by
  unfold serialAt serialAfter
  split <;> omega

theorem serialAt_serialAfter {n : Nat} (h : 1 ≤ n) (h' : n ≤ 65535) (i : Nat) :
    serialAt (serialAfter n) i = serialAt n (i + 1) := by
  unfold serialAt serialAfter
  split <;> omega

/-- The value after `i` advances is passed over: a frame holds it, or it is carried and no wrap has been
made on the way to it (R63, R82, log 27). -/
def PassedOver (held carried : List Nat) (w : Bool) (n i : Nat) : Prop :=
  serialAt n i ∈ held ∨ (serialAt n i ∈ carried ∧ w = false ∧ ∀ j ≤ i, serialAt n j ≠ 65535)

/-- What an allocation gives that stops after `k` advances from `n`. -/
structure Allocation.StopsAt (a : Allocation) (held carried : List Nat) (n : Nat) (w : Bool)
    (k : Nat) : Prop where
  passed : ∀ i < k, PassedOver held carried w n i
  serial : a.serial = serialAt n k
  next : a.next = serialAt n (k + 1)
  wrapped : a.wrapped = true ↔ w = true ∨ ∃ i ≤ k, serialAt n i = 65535

/-- The allocator gives the value it stands on. -/
theorem stopsAt_zero (held carried : List Nat) {n : Nat} (h : 1 ≤ n) (h' : n ≤ 65535) (w : Bool) :
    Allocation.StopsAt { serial := n, next := serialAfter n, wrapped := w || n == 65535 }
      held carried n w 0 where
  passed := nofun
  serial := (serialAt_zero h h').symm
  next := (serialAt_one h h').symm
  wrapped := by simp [serialAt_zero h h']

/-- An allocation that passes over the value it stands on stops where that from the next value stops. -/
theorem Allocation.StopsAt.advance {a : Allocation} {held carried : List Nat} {n k : Nat} {w : Bool}
    (h : 1 ≤ n) (h' : n ≤ 65535) (hn : PassedOver held carried w n 0)
    (hs : a.StopsAt held carried (serialAfter n) (w || n == 65535) k) :
    a.StopsAt held carried n w (k + 1) := by
  obtain ⟨passed, serial, next, wrapped⟩ := hs
  rw [serialAt_serialAfter h h'] at serial next
  refine ⟨fun i hi => ?_, serial, next, wrapped.trans ?_⟩
  · cases i with
    | zero => exact hn
    | succ i =>
      have hp := passed i (Nat.lt_of_succ_lt_succ hi)
      unfold PassedOver at hp ⊢
      simp only [serialAt_serialAfter h h', Bool.or_eq_false_iff, beq_eq_false_iff_ne] at hp
      refine hp.imp_right fun ⟨hmem, ⟨hw, hne⟩, hbefore⟩ => ⟨hmem, hw, fun j hj => ?_⟩
      cases j with
      | zero => rwa [serialAt_zero h h']
      | succ j => exact hbefore j (Nat.le_of_succ_le_succ hj)
  · have hsplit : (∃ i ≤ k + 1, serialAt n i = 65535) ↔
        n = 65535 ∨ ∃ i ≤ k, serialAt n (i + 1) = 65535 := by
      simp only [← Nat.lt_succ_iff, Nat.exists_lt_succ_left (n := k + 1), serialAt_zero h h']
    simp only [hsplit, serialAt_serialAfter h h', Bool.or_eq_true, beq_iff_eq, or_assoc]

/-- The allocator stops after as many advances as its fuel allows, at most. -/
theorem allocate_stops (held carried : List Nat) : ∀ (fuel n : Nat) (w : Bool), 1 ≤ n → n ≤ 65535 →
    ∃ k ≤ fuel, (allocate held carried fuel n w).StopsAt held carried n w k
  | 0, n, w, h, h' => ⟨0, Nat.le_refl 0, stopsAt_zero held carried h h' w⟩
  | fuel + 1, n, w, h, h' => by
    unfold allocate
    dsimp only
    split
    next hskip =>
      obtain ⟨low, high⟩ := serialAfter_range h h'
      obtain ⟨k, hk, hstops⟩ :=
        allocate_stops held carried fuel (serialAfter n) (w || n == 65535) low high
      refine ⟨k + 1, Nat.succ_le_succ hk, hstops.advance h h' ?_⟩
      simpa [PassedOver, serialAt_zero h h', and_comm, and_assoc] using hskip
    · exact ⟨0, Nat.zero_le _, stopsAt_zero held carried h h' w⟩

/-- Settles O33: where the allocator stops, the value is not passed over, since the serial given is
fresh. -/
theorem serialAllocation : Obligations.SerialAllocation := by
  intro s hlow hhigh hdepth hcarried serials value passedOver
  obtain ⟨k, hk, passed, serial, next, wrapped⟩ :=
    allocate_stops s.serials s.esu.carried (s.serials.length + s.esu.carried.length)
      s.esu.nextSerial false hlow hhigh
  have hlength : s.serials.length = s.esu.stack.length := List.length_map _
  have hwrapped : s.allocation.wrapped = true ↔ ∃ i ≤ k, value i = 65535 :=
    wrapped.trans (or_iff_right Bool.false_ne_true)
  obtain ⟨hheld, hfresh⟩ := allocation_fresh hlow hhigh hdepth hcarried
  refine ⟨k, hlength ▸ hk, fun i hi => ?_, ?_, serial, next, hwrapped, rfl⟩
  · exact (passed i hi).imp_right fun ⟨hmem, _, hbefore⟩ => ⟨hmem, hbefore⟩
  · have hserial : s.allocation.serial = value k := serial
    rw [hserial] at hheld hfresh
    rintro (hmem | ⟨hmem, hbefore⟩)
    · exact hheld hmem
    · refine hfresh ?_ hmem
      rw [Bool.eq_false_iff, ne_eq, hwrapped]
      rintro ⟨i, hi, hi'⟩
      exact hbefore i hi hi'

end Sys2Proof.Machine
end

section
/-! OPEN and COMMIT (R57, R58, R61, R63, R74, R82, R84 to R87, R104). -/
namespace Sys2Proof.Machine

/-! ### A command without arguments -/

/-- In an empty frame the code byte takes the command, with the state and the answer of its act
(R157). -/
theorem takeAtCode_of_frame {s t : State} {code : Byte} {act : Act} {r : Answer}
    (hframe : s.frameIs MgmtFrame.empty) (hact : act [] s = (t, r)) :
    takeAtCode code act s = t.answered code [] r := by
  have hmlp : s.mlp.frame = some MgmtFrame.empty := hframe
  unfold takeAtCode
  rw [if_pos hmlp]
  unfold take
  simp only [hact]
  rfl

theorem beBytes_two (n : Nat) : beBytes 2 n = bytes2 n := by
  simp [beBytes, bytes2]

/-! ### OPEN -/

theorem holdsProtectedWrite_iff (s : State) : s.holdsProtectedWrite = true ↔ HoldsProtected s := by
  unfold State.holdsProtectedWrite HoldsProtected
  cases s.rqp.current with
  | none => simp
  | some c =>
    cases hclass : c.classes.head? with
    | none => simp [hclass]
    | some k => simp [hclass]

theorem openAct_of_notReady {s : State} (h : s.dsq.state ≠ .ready) (l : List Byte) :
    openAct l s = (s, .refused .notReady) := by
  have hnot : (!s.dsqReady) = true := by simpa [State.dsqReady] using h
  exact if_pos hnot

/-- Past its first refusal OPEN is kept off by a rollback and by a protected write (R45, R84). -/
theorem openAct_of_held {s : State} (hready : s.dsq.state = .ready)
    (h : s.esu.engine.state ≠ .idle ∨ HoldsProtected s) (l : List Byte) :
    openAct l s = (s, .busy) := by
  have hnot : ¬ (!s.dsqReady) = true := by simp [State.dsqReady, hready]
  have hheld : (s.rollbackInProgress || s.holdsProtectedWrite) = true := by
    rwa [Bool.or_eq_true, rollbackInProgress_iff, holdsProtectedWrite_iff]
  unfold openAct
  rw [if_neg hnot, if_pos hheld]

/-- The frame of an OPEN has been pushed under the serial that the allocator gives (R82, R85). -/
def State.pushed (s : State) : State :=
  s.setEsu { s.esu with
    stack := { depth := s.depth + 1, serial := s.allocation.serial, start := s.ulc.head,
               broken := false } :: s.esu.stack
    nextSerial := s.allocation.next
    carried := s.carriedAfter s.allocation }

/-- The state after an accepted OPEN (R82, R85, R104). -/
def State.opened (s : State) : State :=
  { s with
    esu := { s.esu with
      nextSerial := s.allocation.next
      carried := s.carriedAfter s.allocation
      stack := { depth := s.esu.stack.length + 1, serial := s.allocation.serial, start := s.ulc.head,
                 broken := false } :: s.esu.stack }
    fwf := if s.allocation.wrapped then s.fwf.emptied else s.fwf
    est := { s.est with remainingNs := s.est.periodMs * 1000000, halted := false } }

/-- The push, the emptying at a wrap and the progress event, one after the other. -/
theorem opened_eq (s : State) :
    s.opened =
      (if s.allocation.wrapped then s.pushed.emptyFilter else s.pushed).progress := by
  unfold State.opened
  split <;> rfl

/-- With the sequencer READY and nothing that keeps it off, OPEN asks for a log and for room on the
stack, and pushes a frame (R84, R85). -/
theorem openAct_of_free {s : State} (hready : s.dsq.state = .ready)
    (hidle : s.esu.engine.state = .idle) (hfree : ¬ HoldsProtected s) (l : List Byte) :
    openAct l s =
      if s.ulc.pages = 0 then (s, .refused .noLog)
      else if 8 ≤ s.esu.stack.length then (s, .refused .stackFull)
      else (s.opened, .done (bytes2 s.allocation.serial ++ bytes1 (s.esu.stack.length + 1))) := by
  have hnot : ¬ (!s.dsqReady) = true := by simp [State.dsqReady, hready]
  have hheld : ¬ (s.rollbackInProgress || s.holdsProtectedWrite) = true := by
    rw [Bool.or_eq_true, rollbackInProgress_iff, holdsProtectedWrite_iff]
    exact not_or_intro (not_not_intro hidle) hfree
  unfold openAct
  rw [if_neg hnot, if_neg hheld, opened_eq, ← beBytes_two]
  rfl

/-- Settles O34: the refusals one after the other; no entry carries the new serial, since it is fresh. -/
theorem openPushesFrame : Obligations.OpenPushesFrame := by
  intro s hframe answer
  have taken {t : State} {r : Answer} (hact : openAct [] s = (t, r)) :
      exec .openEpoch s = .next (t.answered 0x30 [] r) :=
    congrArg _ (takeAtCode_of_frame hframe hact)
  refine ⟨fun hnot => taken (openAct_of_notReady hnot []), fun hready =>
    ⟨fun hheld => taken (openAct_of_held hready hheld []), fun hidle hfree => ?_⟩⟩
  have hopen := openAct_of_free hready hidle hfree []
  refine ⟨fun hlog => taken ?_, fun hlog hfull => taken ?_, fun hlog hroom => ⟨taken ?_, ?_⟩⟩
  · rw [hopen, if_pos hlog]
  · rw [hopen, if_neg hlog, if_pos hfull]
  · rw [hopen, if_neg hlog, if_neg (by omega)]
    rfl
  · intro hstack hfilter after
    have hmisses : ∀ i w, (after.entry i w).standing s.allocation.serial ≠ .current :=
      allocation_misses hfilter hstack.nextLow hstack.nextHigh hstack.depthBound hstack.carriedShort
    exact ⟨hmisses, Fwf.hit_of_no_current hmisses⟩

/-! ### COMMIT -/

theorem commitAct_of_busy {s : State} (h : s.esu.engine.state ≠ .idle) (l : List Byte) :
    commitAct l s = (s, .busy) :=
  if_pos ((rollbackInProgress_iff s).mpr h)

theorem not_rollbackInProgress {s : State} (h : s.esu.engine.state = .idle) :
    ¬ s.rollbackInProgress = true :=
  mt (rollbackInProgress_iff s).mp (not_not_intro h)

theorem commitAct_of_closed {s : State} (hidle : s.esu.engine.state = .idle)
    (hstack : s.esu.stack = []) (l : List Byte) : commitAct l s = (s, .refused .stackEmpty) := by
  unfold commitAct
  rw [if_neg (not_rollbackInProgress hidle), hstack]

/-- The outermost COMMIT empties stack, log and filter (R61, R74, R86). -/
theorem commitAct_of_outermost {s : State} {f : Frame} (hidle : s.esu.engine.state = .idle)
    (hstack : s.esu.stack = [f]) (l : List Byte) :
    commitAct l s =
      ({ s with
          esu := { s.esu with stack := [], carried := [] }
          ulc := { s.ulc with head := 0 }
          fwf := s.fwf.emptied
          est := s.progress.est }, .done []) := by
  unfold commitAct
  rw [if_neg (not_rollbackInProgress hidle), hstack]
  rfl

/-- The frame below takes the serial of the frame that a nested COMMIT pops (R87). -/
theorem commitAct_of_nested {s : State} {top below : Frame} {rest : List Frame}
    (hidle : s.esu.engine.state = .idle) (hstack : s.esu.stack = top :: below :: rest)
    (l : List Byte) :
    commitAct l s =
      ({ s with
          esu := { s.esu with stack := { below with serial := top.serial } :: rest }
          est := s.progress.est }, .done []) := by
  unfold commitAct
  rw [if_neg (not_rollbackInProgress hidle), hstack]
  rfl

/-- Settles O35: BUSY, then the three shapes of the stack. -/
theorem commitPopsFrame : Obligations.CommitPopsFrame := by
  intro s hframe est
  have taken {t : State} {r : Answer} (hact : commitAct [] s = (t, r)) :
      exec .commit s = .next (t.answered 0x31 [] r) :=
    congrArg _ (takeAtCode_of_frame hframe hact)
  exact ⟨fun hbusy => taken (commitAct_of_busy hbusy []), fun hidle =>
    ⟨fun hstack => taken (commitAct_of_closed hidle hstack []),
      fun _ hstack => taken (commitAct_of_outermost hidle hstack []),
      fun _ _ _ hstack => taken (commitAct_of_nested hidle hstack [])⟩⟩

end Sys2Proof.Machine
end

section
/-! What every step keeps of the epoch stack, the log head and the rollback engine (R71, R74, R80 to R83,
R91, R92). -/
namespace Sys2Proof.Machine

/-! ### The commands that reach the log, the epochs or the timer -/

/-- SET_LOG replaces the configuration and leaves the head (R78). -/
theorem setLogAct_head (l : List Byte) (s : State) : (setLogAct l s).1.ulc.head = s.ulc.head := by
  unfold setLogAct
  dsimp only
  repeat' split
  all_goals rfl

theorem setLogAct_stackInv {s : State} (h : s.StackInv) (l : List Byte) :
    (setLogAct l s).1.StackInv := by
  have changed := setLogAct_changes s l
  refine h.congr ?_ (setLogAct_head l s) ?_ ?_ <;> rw [changed]

theorem setPolicyAct_stackInv {s : State} (h : s.StackInv) (l : List Byte) :
    (setPolicyAct l s).1.StackInv := by
  obtain hsame | ⟨dc, ac, fm, pp, rp, hset⟩ := setPolicyAct_cases s l
  · rwa [hsame]
  · have set : (s.setPolicies dc ac fm pp rp).StackInv := h.congr rfl rfl rfl rfl
    rw [hset]
    exact set.congr (by simp) (by simp) (by simp) (by simp)

/-- The invariant does not speak of the supervision timer. -/
theorem State.StackInv.of_timer {s t : State} {e : Est} (h : s.StackInv)
    (ht : t = { s with est := e }) : t.StackInv := by
  subst ht
  exact h.congr rfl rfl rfl rfl

theorem epochActs_stackInv {s : State} (h : s.StackInv) (l : List Byte) :
    ∀ a ∈ epochActs, (a l s).1.StackInv := by
  simp only [epochActs, List.forall_mem_cons]
  exact ⟨setLogAct_stackInv h l, setPolicyAct_stackInv h l, openAct_stackInv h l,
    commitAct_stackInv h l, rollbackAct_stackInv h l, rollbackAllAct_stackInv h l,
    h.of_timer (superviseSetAct_changes s l), h.of_timer (superviseStartAct_changes s l),
    h.of_timer (superviseStopAct_changes s l), h.of_timer (kickAct_changes s l), nofun⟩

/-! ### The events at which the request path, the engine or the timer act -/

theorem requestTake_stackInv {s : State} (h : s.StackInv) : (after .requestTake s).StackInv := by
  simp only [after, exec, execRequestTake]
  split
  · split
    next e rest _ =>
      have taken : (s.taken e rest).StackInv := h.congr rfl rfl rfl rfl
      exact checkRequest_stackInv taken e.req
    · exact h
  · exact h

theorem operationComplete_stackInv {s : State} (h : s.StackInv) :
    (after .operationComplete s).StackInv := by
  simp only [after, exec, execOperationComplete]
  split
  next c _ =>
    split
    next till _ =>
      have finished := (finishOp_sameEpoch s c.op till).stackInv h
      split
      · exact rqpComplete_stackInv finished _
      · exact engineComplete_stackInv finished _
    · exact h
  · exact h

theorem rollbackFirstStep_stackInv {s : State} (h : s.StackInv) :
    (after .rollbackFirstStep s).StackInv := by
  simp only [after, exec, execRollbackFirstStep]
  split
  next hdue => exact firstStep_stackInv h hdue
  · exact h

theorem hostResetAssert_stackInv {s : State} (h : s.StackInv) :
    (after .hostResetAssert s).StackInv := by
  have pin : (s.setPins { s.pins with hrstAsserted := true }).StackInv := h.congr rfl rfl rfl rfl
  simp only [after, exec, execHostResetAssert]
  split
  · exact h
  · split
    · exact pin
    · exact recover_stackInv (hostResetLink_stackInv pin)

theorem epochEvents_stackInv {s : State} (h : s.StackInv) (i : Instr) (hi : movesEpoch i = true) :
    (after i s).StackInv := by
  cases i <;> simp only [movesEpoch, Bool.false_eq_true] at hi
  case requestTake => exact requestTake_stackInv h
  case operationComplete => exact operationComplete_stackInv h
  case rollbackFirstStep => exact rollbackFirstStep_stackInv h
  case hostResetAssert => exact hostResetAssert_stackInv h
  case supervisionExpiry => exact supervisionExpiry_stackInv h

/-- Settles O57: the commands and the events that reach the log, the epochs or the timer keep the
invariant, and every other step leaves what it speaks of or resets the device. -/
theorem stackInvariantKept : Obligations.StackInvariantKept := fun _ _ h =>
  step_keeps_of_epoch reset_stackInv SameEpoch.stackInv (fun hstack _ => epochActs_stackInv hstack)
    (fun hstack _ => epochEvents_stackInv hstack) h h

end Sys2Proof.Machine
end

section
/-! The places of a log record and the bytes of its header (R69, R70, R93, R164). -/
namespace Sys2Proof.Machine

/-! ### The places of a record (Table 5.4) -/

theorem recordRef_places (u : Ulc) (i : Nat) :
    u.recordRef i =
      { index := i, dataLine := (u.basePage + i / 56) * 64 + i % 56,
        headerLine := (u.basePage + i / 56) * 64 + 56 + i % 56 / 8, headerBeat := i % 56 % 8 } := rfl

/-- A page has 64 lines of 64 bytes, and each data slot fills a line. -/
theorem dataSlot_byteAddress (page slot : Nat) :
    (page * 64 + slot) * 64 = page * 4096 + 64 * slot := by
  omega

/-- The headers lie above the 56 lines of data slots, eight headers of 8 bytes to a line. -/
theorem header_byteAddress (page slot : Nat) :
    (page * 64 + 56 + slot / 8) * 64 + slot % 8 * 8 = page * 4096 + 3584 + 8 * slot := by
  omega

/-! ### The bytes of a header -/

/-- The bytes of a number, least significant first, read back as what of it they hold. -/
theorem leNat_leBytes (n v : Nat) : leNat (leBytes n v) = v % 256 ^ n := by
  induction n generalizing v with
  | zero => exact (Nat.mod_one v).symm
  | succ n ih =>
    calc leNat (leBytes (n + 1) v)
        = v % 256 + 256 * leNat (leBytes n (v / 256)) := rfl
      _ = v % 256 + 256 * (v / 256 % 256 ^ n) := by rw [ih]
      _ = v % 256 ^ (n + 1) := by rw [Nat.pow_succ', Nat.mod_mul]

theorem leNat_leBytes_of_lt {n v : Nat} (h : v < 256 ^ n) : leNat (leBytes n v) = v := by
  rw [leNat_leBytes, Nat.mod_eq_of_lt h]

theorem leNat_two (e f : Byte) : leNat [e, f] = word2 f e := by
  simp only [leNat, List.foldr, word2]
  omega

theorem leNat_four (a b c d : Byte) : leNat [a, b, c, d] = headerWord4 a b c d := by
  simp only [leNat, List.foldr, headerWord4, word4, word2]
  omega

/-- The first four bytes of a header are those of the line (R70). -/
theorem headerLineIndex_headerBytes {line : Nat} (h : line < 2 ^ 32) (serial depth : Nat) :
    headerLineIndex (headerBytes line serial depth) = line :=
  leNat_leBytes_of_lt (n := 4) h

/-- Settles O31: the places by the page and the slot of the record, and each header field by reading
back the bytes that carry it. -/
theorem recordPlacesAndHeader : Obligations.RecordPlacesAndHeader := by
  refine ⟨fun u i => ?_, fun line serial depth hline hserial hdepth => ?_⟩
  · dsimp only
    rw [recordRef_places]
    exact ⟨rfl, rfl, dataSlot_byteAddress _ _, rfl, rfl, header_byteAddress _ _⟩
  · refine ⟨_, _, _, _, _, _, _, rfl, ?_, ?_, Nat.mod_eq_of_lt hdepth,
      headerLineIndex_headerBytes hline serial depth⟩
    · rw [← leNat_four]
      exact leNat_leBytes_of_lt (n := 4) hline
    · rw [← leNat_two]
      exact leNat_leBytes_of_lt (n := 2) hserial

end Sys2Proof.Machine
end

section
/-! SET_LOG (R77, R78). -/
namespace Sys2Proof.Machine

/-! ### What the arguments carry -/

/-- SET_LOG's arguments carry these numbers and this policy byte (Table 11.1). -/
structure LogArgs (args : List Byte) (base pages threshold : Nat) (policy : Byte) : Prop where
  base : argField args 0 4 = base
  pages : argField args 4 2 = pages
  threshold : argField args 6 4 = threshold
  policy : argByte args 10 = policy

theorem beNat_two (e f : Byte) : beNat [e, f] = word2 e f := by
  simp only [beNat, List.foldl, word2]
  omega

theorem logArgs_of_bytes (a b c d e f g h i j last : Byte) :
    LogArgs [a, b, c, d, e, f, g, h, i, j, last] (word4 a b c d) (word2 e f) (word4 g h i j) last :=
  ⟨beNat_four a b c d, beNat_two e f, beNat_four g h i j, rfl⟩

theorem fullPolicyOf_of_bad {b : Byte} (h : 1 < b.toNat) : fullPolicyOf b = none := by
  unfold fullPolicyOf
  split
  · omega
  · omega
  · rfl

theorem fullPolicyOf_of_code {b : Byte} (h : ¬ 1 < b.toNat) :
    fullPolicyOf b = some (if b = 0 then .refuse else .brk) := by
  have hzero : b = 0 ↔ b.toNat = 0 := BitVec.toNat_inj.symm
  unfold fullPolicyOf
  split
  next hb => rw [if_pos (hzero.mpr hb)]
  next hb => rw [if_neg (mt hzero.mp (by omega))]
  next h0 h1 =>
    have hb : b.toNat ≠ 0 ∧ b.toNat ≠ 1 := ⟨h0, h1⟩
    omega

/-! ### What SET_LOG tests -/

/-- The numbers fit neither the log's size nor the capacity, or the threshold exceeds the log (R77). -/
def State.logMisfits (s : State) (base pages threshold : Nat) : Prop :=
  4096 < pages ∨ s.capacityPages ≤ base ∨ s.capacityPages < base + pages ∨ 56 * pages < threshold

/-- An enabled descriptor has a page of the area (R77). -/
def State.logOverlaps (s : State) (base pages : Nat) : Prop :=
  ∃ n page, base ≤ page ∧ page < base + pages ∧ (s.desc n).coversPage page = true

/-- The condition under which SET_LOG finds an overlap; an area without pages meets nothing. -/
theorem logOverlaps_iff {s : State} (hdescs : ∀ n, (s.desc n).basePage ≤ (s.desc n).lastPage)
    (base pages : Nat) :
    (decide (1 ≤ pages) && allDescs.any (fun j => s.meetsDesc j base (base + pages - 1))) = true ↔
      s.logOverlaps base pages := by
  rw [Bool.and_eq_true, decide_eq_true_eq, List.any_eq_true]
  constructor
  · rintro ⟨hpages, n, -, hmeets⟩
    obtain ⟨page, hlow, hhigh, hcovers⟩ := (meetsDesc_iff (by omega) (hdescs n)).mp hmeets
    exact ⟨n, page, hlow, by omega, hcovers⟩
  · rintro ⟨n, page, hlow, hhigh, hcovers⟩
    exact ⟨by omega, n, mem_allDescs n, meetsDesc_of_page hcovers hlow (by omega)⟩

/-! ### SET_LOG, refusal by refusal (Table 5.8); the first three are those of REGION_WRITE -/

section
variable {s : State} {args : List Byte}

theorem setLogAct_of_noGeometry (hg : s.dsq.geometry = none) :
    setLogAct args s = (s, .refused .state) := by
  simp [setLogAct, hg]

theorem setLogAct_of_rollback (hg : s.dsq.geometry ≠ none) (he : s.esu.engine.state ≠ .idle) :
    setLogAct args s = (s, .busy) := by
  simp [setLogAct, hg, (rollbackInProgress_iff s).mpr he]

theorem setLogAct_of_open (hg : s.dsq.geometry ≠ none) (he : s.esu.engine.state = .idle)
    (hopen : s.esu.stack ≠ []) : setLogAct args s = (s, .refused .epochOpen) := by
  simp [setLogAct, hg, State.rollbackInProgress, he, (depth_pos_iff s).mpr hopen]

variable {base pages threshold : Nat} {b : Byte} (h : MapWritable s)
  (ha : LogArgs args base pages threshold b)
include h ha

theorem MapWritable.setLogAct_of_noPolicy (hb : fullPolicyOf b = none) :
    setLogAct args s = (s, .refused .badArg) := by
  simp [setLogAct, h.geometry, State.rollbackInProgress, h.idle, State.depth, h.closed, ha.policy, hb]

theorem MapWritable.setLogAct_of_misfit (hbad : s.logMisfits base pages threshold) :
    setLogAct args s = (s, .refused .badArg) := by
  obtain ⟨rfl, rfl, rfl, -⟩ := ha
  have numbers : Config.maxLogPages < argField args 4 2 ∨ s.capacityPages ≤ argField args 0 4 ∨
      s.capacityPages < argField args 0 4 + argField args 4 2 ∨
      Config.recordsPerPage * argField args 4 2 < argField args 6 4 := hbad
  simp [setLogAct, h.geometry, State.rollbackInProgress, h.idle, State.depth, h.closed, numbers]

theorem MapWritable.setLogAct_of_fit {policy : FullPolicy} (hb : fullPolicyOf b = some policy)
    (hfit : ¬ s.logMisfits base pages threshold) :
    setLogAct args s =
      if decide (1 ≤ pages) && allDescs.any (fun j => s.meetsDesc j base (base + pages - 1)) then
        (s, .refused .overlap)
      else
        (s.setUlc { s.ulc with
            basePage := base, pages := pages, threshold := threshold, fullPolicy := policy },
          .done []) := by
  obtain ⟨rfl, rfl, rfl, hpolicy⟩ := ha
  have numbers : ¬ (Config.maxLogPages < argField args 4 2 ∨ s.capacityPages ≤ argField args 0 4 ∨
      s.capacityPages < argField args 0 4 + argField args 4 2 ∨
      Config.recordsPerPage * argField args 4 2 < argField args 6 4) := hfit
  simp only [setLogAct, Option.isNone_iff_eq_none, h.geometry, State.rollbackInProgress, h.idle,
    State.depth, h.closed, numbers, hpolicy, hb]
  rfl

end

/-- Settles O32: the refusals of Table 5.8 one by one; where none applies the policy byte names a
policy, and the four values of the arguments take their places. -/
theorem setLogReplacesConfiguration : Obligations.SetLogReplacesConfiguration := by
  intro s a b c d e f g h i j last hframe hdescs args base pages threshold badArg overlap answer
  have taken {t : State} {r : Answer} (hact : setLogAct args s = (t, r)) :
      exec (.setLog last) s = .next (t.answered 0x13 args r) :=
    congrArg _ (takeAtLast_of_frame hframe rfl hact)
  have carried : LogArgs args base pages threshold last := logArgs_of_bytes ..
  refine ⟨fun hg => taken (setLogAct_of_noGeometry hg),
    fun hg he => taken (setLogAct_of_rollback hg he),
    fun hg he => ⟨fun hopen => taken (setLogAct_of_open hg he hopen), fun hclosed => ?_⟩⟩
  have hw : MapWritable s := ⟨hg, he, hclosed⟩
  have hsplit : badArg ↔ s.logMisfits base pages threshold ∨ 1 < last.toNat := by
    simp only [badArg, State.logMisfits, or_assoc]
  have judged (hbad : ¬ badArg) :=
    have ⟨hfit, hlast⟩ := not_or.mp (mt hsplit.mpr hbad)
    hw.setLogAct_of_fit carried (fullPolicyOf_of_code hlast) hfit
  refine ⟨fun hbad => taken ?_, fun hbad hoverlap => taken ?_, fun hbad hapart => taken ?_⟩
  · obtain hmisfit | hlast := hsplit.mp hbad
    · exact hw.setLogAct_of_misfit carried hmisfit
    · exact hw.setLogAct_of_noPolicy carried (fullPolicyOf_of_bad hlast)
  · rw [judged hbad, if_pos ((logOverlaps_iff hdescs _ _).mpr hoverlap)]
  · rw [judged hbad, if_neg (mt (logOverlaps_iff hdescs _ _).mp hapart)]
    rfl

end Sys2Proof.Machine
end

section
/-! The rollback engine: its next step and the pop of a frame, its end, and the reads of a record
(R92 to R97, R112). -/
namespace Sys2Proof.Machine

/-! ### The end of a rollback and the begin of a record -/

theorem beginRecord_eq (s : State) : s.beginRecord = s.recordBegun := rfl

/-- The flags that the end raises and what it does to the timer, by the kind (R97, R112). -/
theorem endRollback_eq (s : State) (k : RollbackKind) (o : RollbackOutcome) :
    s.endRollback k o = s.rollbackEnded k o := by
  cases k with
  | single => rfl
  | all => rfl
  | recovery => rfl
  | supervision =>
    have hhalted : (s.est.halted || o == .haltedBroken) =
        if o = .haltedBroken then true else s.est.halted := by
      cases o <;> simp
    simp [State.endRollback, State.rollbackEnded, State.reload, State.setEst, State.raise,
      State.setEvu, State.setEsu, Config.nsPerMs, hhalted]

/-! ### The pop of the top frame (R96) -/

/-- These frames are left on the stack. -/
def State.popped (s : State) (left : List Frame) : State :=
  { s with esu := { s.esu with stack := left } }

/-- With a frame below, the kind and then the new top decide how the engine goes on (R96). -/
theorem popFrames_cons_cons (k : RollbackKind) (head : Nat) (f top : Frame) (more : List Frame) :
    popFrames k head (f :: top :: more) =
      if k = .single then (top :: more, some .complete)
      else if top.broken then (top :: more, some .haltedBroken)
      else if top.start < head then (top :: more, none)
      else popFrames k head (top :: more) := by
  rw [popFrames]

section
variable {s : State} {f top : Frame} {more : List Frame} {k : RollbackKind}
  (hkind : s.esu.engine.kind = some k)
include hkind

/-- Frames stay open where the pops end the rollback. -/
theorem popTop_of_end {o : RollbackOutcome}
    (hpop : popFrames k s.ulc.head s.esu.stack = (top :: more, some o)) :
    s.popTop = (s.popped (top :: more)).rollbackEnded k o := by
  unfold State.popTop
  dsimp only
  rw [hkind, Option.getD_some, hpop, ← endRollback_eq]
  rfl

/-- The pop of the last frame ends the rollback and empties log and filter (R61, R74, R96). -/
theorem popTop_of_last (hstack : s.esu.stack = [f]) :
    s.popTop = State.rollbackEnded
      { s.popped [] with
        esu := { s.esu with stack := [], carried := [] }
        ulc := { s.ulc with head := 0 }
        fwf := s.fwf.emptied } k .complete := by
  unfold State.popTop
  rw [hkind, hstack, ← endRollback_eq]
  rfl

theorem popTop_of_single (hstack : s.esu.stack = f :: top :: more) (hsingle : k = .single) :
    s.popTop = (s.popped (top :: more)).rollbackEnded k .complete :=
  popTop_of_end hkind (by rw [hstack, popFrames_cons_cons, if_pos hsingle])

theorem popTop_of_broken (hstack : s.esu.stack = f :: top :: more) (hmany : k ≠ .single)
    (hbroken : top.broken = true) :
    s.popTop = (s.popped (top :: more)).rollbackEnded k .haltedBroken :=
  popTop_of_end hkind (by rw [hstack, popFrames_cons_cons, if_neg hmany, if_pos hbroken])

end

/-! ### The next step (R92, R95) -/

/-- While the top frame has a record the engine begins the newest (R93). -/
theorem engineStep_of_record {s : State} {f : Frame} {below : List Frame}
    (hstack : s.esu.stack = f :: below) (h : f.start < s.ulc.head) :
    s.engineStep = s.recordBegun := by
  unfold State.engineStep State.topFrame
  rw [hstack]
  exact if_pos h

/-- A top frame without a record left is popped (R95). -/
theorem engineStep_of_drained {s : State} {f : Frame} {below : List Frame}
    (hstack : s.esu.stack = f :: below) (h : s.ulc.head ≤ f.start) :
    s.engineStep = s.popTop := by
  unfold State.engineStep State.topFrame
  rw [hstack]
  exact if_neg (Nat.not_lt.mpr h)

/-- Past a pop that does not end the rollback the engine steps from the new top: it begins a record of
it, or pops it in turn (R96). -/
theorem popTop_of_sound {s : State} {f top : Frame} {more : List Frame} {k : RollbackKind}
    (hkind : s.esu.engine.kind = some k) (hstack : s.esu.stack = f :: top :: more)
    (hmany : k ≠ .single) (hsound : top.broken = false) :
    s.popTop = (s.popped (top :: more)).engineStep := by
  have hpop := popFrames_cons_cons k s.ulc.head f top more
  rw [if_neg hmany, if_neg (by simp [hsound])] at hpop
  by_cases hrecord : top.start < s.ulc.head
  · rw [if_pos hrecord] at hpop
    rw [engineStep_of_record (s := s.popped (top :: more)) rfl hrecord, ← beginRecord_eq]
    unfold State.popTop
    dsimp only
    rw [hkind, hstack, Option.getD_some, hpop]
    rfl
  · rw [if_neg hrecord] at hpop
    have hpopped : (s.popped (top :: more)).esu.engine.kind = some k := hkind
    rw [engineStep_of_drained (s := s.popped (top :: more)) rfl (Nat.not_lt.mp hrecord)]
    unfold State.popTop
    dsimp only
    rw [hkind, hpopped, hstack, Option.getD_some, hpop]
    rfl

/-- A due first step is the engine's next step (R92). -/
theorem exec_rollbackFirstStep_of_due {s : State} (h : s.firstStepDue = true) :
    exec .rollbackFirstStep s = .next s.engineStep :=
  congrArg Host.Outcome.next (if_pos h)

/-- Settles O27: a record, or a pop by the frames below, the kind and the new top. -/
theorem engineStepsAndPops : Obligations.EngineStepsAndPops := by
  intro s f below hstack
  refine ⟨engineStep_of_record hstack, fun hdrained k hkind => ?_, fun hstate hrecord hawaits => ?_⟩
  · rw [engineStep_of_drained hstack hdrained]
    refine ⟨?_, ?_⟩
    · rintro rfl
      exact popTop_of_last hkind hstack
    · rintro top more rfl
      exact ⟨popTop_of_single hkind hstack, popTop_of_broken hkind hstack,
        popTop_of_sound hkind hstack⟩
  · exact exec_rollbackFirstStep_of_due (by simp [State.firstStepDue, hstate, hrecord, hawaits])

/-! ### The reads of a record (R93, R94) -/

/-- The first four bytes of the beat that the header read hands over name the line (R70, R93). -/
theorem headerLineIndex_handed (s : State) {op : MemOp} (hread : op.kind = .read)
    (hbeat : op.beats = 1) :
    headerLineIndex (s.handed op) =
      headerWord4 (s.dramByte op.addr) (s.dramByte (op.addr + 1)) (s.dramByte (op.addr + 2))
        (s.dramByte (op.addr + 3)) := by
  have hbytes : (s.handed op).take 4 = [s.dramByte op.addr, s.dramByte (op.addr + 1),
      s.dramByte (op.addr + 2), s.dramByte (op.addr + 3)] := by
    unfold State.handed State.bytesRead
    rw [hread, hbeat]
    rfl
  rw [headerLineIndex, hbytes, leNat_four]

theorem transferred_capacityLines (s : State) (op : MemOp) (till : Nat) :
    (s.transferred op till).capacityLines = s.capacityLines := by
  unfold State.transferred
  cases op.kind with
  | read => rfl
  | write => rfl

/-- A line within the capacity is the restore line, and the data slot is read (R93). -/
theorem headerRead_of_within {s : State} {data : List Byte}
    (h : headerLineIndex data < s.capacityLines) (ref : RecordRef) :
    s.headerRead ref data =
      { s with
        esu := { s.esu with engine :=
          { s.esu.engine with state := .rbData, line := some (headerLineIndex data) } }
        dsq := { s.dsq with waitRollback := some (readLine .rollback ref.dataLine) } } := by
  unfold State.headerRead
  dsimp only
  rw [if_neg (Nat.not_le.mpr h)]
  rfl

/-- A line beyond the capacity is not restored: the record is left with the head (R73, R93). -/
theorem headerRead_of_beyond {s : State} {data : List Byte}
    (h : s.capacityLines ≤ headerLineIndex data) (ref : RecordRef) :
    s.headerRead ref data = State.engineStep
      { s with
        ulc := { s.ulc with head := s.ulc.head - 1 }
        esu := { s.esu with engine := s.esu.engine.cleared } } := by
  unfold State.headerRead
  dsimp only
  rw [if_pos h]
  rfl

/-- With its record the engine in RB_HEADER has read a header (R93). -/
theorem engineComplete_of_header {s : State} {ref : RecordRef}
    (hstate : s.esu.engine.state = .rbHeader) (hrecord : s.esu.engine.record = some ref)
    (data : List Byte) : s.engineComplete data = s.headerRead ref data := by
  unfold State.engineComplete
  rw [hstate, hrecord]

/-- With its restore line the engine in RB_DATA has read an image (R94). -/
theorem engineComplete_of_data {s : State} {line : Nat} (hstate : s.esu.engine.state = .rbData)
    (hline : s.esu.engine.line = some line) (data : List Byte) :
    s.engineComplete data = s.imageRead line data := by
  unfold State.engineComplete
  rw [hstate, hline]

/-- The image is written to the restore line (R94). -/
theorem imageRead_eq (s : State) (line : Nat) (image : List Byte) :
    s.imageRead line image =
      { s with
        esu := { s.esu with engine :=
          { s.esu.engine with state := .rbRestore, image := some image } }
        dsq := { s.dsq with waitRollback := some (writeLine .rollback line image) } } := rfl

/-- Settles O25: the header read by the line it names against the capacity, then the data read. -/
theorem engineReadsComplete : Obligations.EngineReadsComplete := by
  intro s op till
  refine ⟨fun h hread hbeat ref hrecord => ?_, fun h line hline => ?_⟩
  · intro first line u
    have hstate : u.esu.engine.state = .rbHeader := by rw [State.transferred_esu, h.state]
    have hrecord : u.esu.engine.record = some ref := by rw [State.transferred_esu, hrecord]
    have hindex : headerLineIndex (s.handed op) = line := headerLineIndex_handed s hread hbeat
    rw [exec_operationComplete_engine h.transfer h.client, engineComplete_of_header hstate hrecord,
      ← hindex, ← transferred_capacityLines s op till]
    exact ⟨fun hwithin => congrArg _ (headerRead_of_within hwithin ref),
      fun hbeyond => congrArg _ (headerRead_of_beyond hbeyond ref)⟩
  · intro u image
    have hstate : u.esu.engine.state = .rbData := by rw [State.transferred_esu, h.state]
    have hline : u.esu.engine.line = some line := by rw [State.transferred_esu, hline]
    rw [exec_operationComplete_engine h.transfer h.client, engineComplete_of_data hstate hline,
      imageRead_eq]

end Sys2Proof.Machine
end

section
/-! What starts a rollback: ROLLBACK, ROLLBACK_ALL, and an assertion of HRST_N under ROLLBACK_ALL; and
FRAME_READ (R88 to R92, R97, R115, R116). -/
namespace Sys2Proof.Machine

/-! ### The start (R92) -/

theorem topBroken_of_stack {s : State} {f : Frame} {below : List Frame}
    (hstack : s.esu.stack = f :: below) : s.topBroken = f.broken := by
  unfold State.topBroken State.topFrame
  rw [hstack]
  rfl

/-- Under a sound top every kind starts alike: at once, or behind the request past the check. -/
theorem startRollback_of_sound {s : State} (h : s.topBroken = false) (k : RollbackKind) :
    s.startRollback k = s.rollbackStarted k := by
  unfold State.startRollback State.rollbackStarted State.holdsPastCheck
  rw [if_neg (by simp [h])]
  cases s.rqp.current with
  | none => rfl
  | some c => rfl

/-- A RECOVERY rollback ends at once under a broken top. -/
theorem startRollback_of_broken {s : State} (h : s.topBroken = true) :
    s.startRollback .recovery = s.rollbackEnded .recovery .haltedBroken := by
  unfold State.startRollback
  rw [if_pos (by simp [h]), endRollback_eq]

/-! ### ROLLBACK and ROLLBACK_ALL (R88, R89) -/

theorem rollbackRefusal_of_closed {s : State} (hstack : s.esu.stack = []) :
    s.rollbackRefusal = some (.refused .stackEmpty) :=
  if_pos (congrArg List.length hstack)

/-- With an epoch open a running rollback refuses first, then a broken top. -/
theorem rollbackRefusal_of_open {s : State} {f : Frame} {below : List Frame}
    (hstack : s.esu.stack = f :: below) :
    s.rollbackRefusal =
      if s.esu.engine.state ≠ .idle then some .busy
      else if f.broken = true then some (.refused .broken)
      else none := by
  have hdepth : s.depth ≠ 0 := by simp [State.depth, hstack]
  unfold State.rollbackRefusal
  simp only [if_neg hdepth, rollbackInProgress_iff, topBroken_of_stack hstack]

theorem rollbackAct_of_refused {s : State} {r : Answer} (h : s.rollbackRefusal = some r)
    (l : List Byte) : rollbackAct l s = (s, r) := by
  unfold rollbackAct
  rw [h]

theorem rollbackAllAct_of_refused {s : State} {r : Answer} (h : s.rollbackRefusal = some r)
    (l : List Byte) : rollbackAllAct l s = (s, r) := by
  unfold rollbackAllAct
  rw [h]

theorem rollbackAct_of_accepted {s : State} (h : s.rollbackRefusal = none) (l : List Byte) :
    rollbackAct l s = (s.startRollback .single, .started) := by
  unfold rollbackAct
  rw [h]

theorem rollbackAllAct_of_accepted {s : State} (h : s.rollbackRefusal = none) (l : List Byte) :
    rollbackAllAct l s = (s.startRollback .all, .started) := by
  unfold rollbackAllAct
  rw [h]

/-- Settles O36: the refusals in order; past them the top is sound, so that the engine starts. -/
theorem rollbackCommandsStartEngine : Obligations.RollbackCommandsStartEngine := by
  intro s hframe outcome
  have taken {t : State} {r : Answer} (hact : rollbackAct [] s = (t, r)) :
      exec .rollback s = .next (t.answered 0x32 [] r) :=
    congrArg _ (takeAtCode_of_frame hframe hact)
  have takenAll {t : State} {r : Answer} (hact : rollbackAllAct [] s = (t, r)) :
      exec .rollbackAll s = .next (t.answered 0x33 [] r) :=
    congrArg _ (takeAtCode_of_frame hframe hact)
  have refused {r : Answer} (h : s.rollbackRefusal = some r) : outcome r :=
    ⟨taken (rollbackAct_of_refused h []), takenAll (rollbackAllAct_of_refused h [])⟩
  refine ⟨fun hstack => refused (rollbackRefusal_of_closed hstack), fun f below hstack => ?_⟩
  have hopen := rollbackRefusal_of_open hstack
  refine ⟨fun hbusy => refused ?_, fun hidle hbroken => refused ?_, fun hidle hsound => ?_⟩
  · rw [hopen, if_pos hbusy]
  · rw [hopen, if_neg (not_not_intro hidle), if_pos hbroken]
  · have accepted : s.rollbackRefusal = none := by
      rw [hopen, if_neg (not_not_intro hidle), if_neg (by simp [hsound])]
    have starts := startRollback_of_sound ((topBroken_of_stack hstack).trans hsound)
    rw [← starts, ← starts]
    exact ⟨taken (rollbackAct_of_accepted accepted []),
      takenAll (rollbackAllAct_of_accepted accepted [])⟩

/-! ### FRAME_READ (R90) -/

/-- A frame stands at the place one above the number of the frames below it. -/
theorem frameAt_of_stack {s : State} {above below : List Frame} {f : Frame}
    (hstack : s.esu.stack = above ++ f :: below) : s.frameAt (below.length + 1) = some f := by
  simp [State.frameAt, hstack]

theorem frameAt_of_none {s : State} {d : Nat} (h : d = 0 ∨ s.esu.stack.length < d) :
    s.frameAt d = none := by
  unfold State.frameAt
  obtain rfl | hbeyond := h
  · rfl
  · rw [if_neg (by omega), List.getElem?_eq_none (by rw [List.length_reverse]; omega)]

theorem Frame.bytes_eq (f : Frame) :
    f.bytes = bytes1 f.depth ++ bytes2 f.serial ++ bytes4 f.start ++
      [if f.broken then 1 else 0] := by
  unfold Frame.bytes
  rw [beBytes_two, beBytes_four]
  rfl

theorem frameReadAct_of_frame {s : State} {d : Byte} {f : Frame} (h : s.frameAt d.toNat = some f) :
    frameReadAct [d] s = (s, .done f.bytes) := by
  have hplace : s.frameAt (argByte [d] 0).toNat = some f := h
  unfold frameReadAct
  rw [hplace]

theorem frameReadAct_of_none {s : State} {d : Byte} (h : s.frameAt d.toNat = none) :
    frameReadAct [d] s = (s, .refused .badArg) := by
  have hplace : s.frameAt (argByte [d] 0).toNat = none := h
  unfold frameReadAct
  rw [hplace]

/-- Settles O37: by whether a frame stands at the place. -/
theorem frameReadAnswersFrame : Obligations.FrameReadAnswersFrame := by
  intro s d hframe
  have taken {t : State} {r : Answer} (hact : frameReadAct [d] s = (t, r)) :
      exec (.frameRead d) s = .next (t.answered 0x34 [d] r) :=
    congrArg _ (takeAtLast_of_frame hframe rfl hact)
  refine ⟨fun above f below hstack hplace => ?_, fun hnone => ?_⟩
  · rw [← Frame.bytes_eq]
    exact taken (frameReadAct_of_frame (hplace ▸ frameAt_of_stack hstack))
  · refine taken (frameReadAct_of_none (frameAt_of_none ?_))
    exact hnone.imp_left fun hzero => congrArg BitVec.toNat hzero

/-! ### The assertion of HRST_N under ROLLBACK_ALL (Table 7.4) -/

section
variable {s : State} (hpolicy : s.est.recovery = .rollbackAll) (hopen : s.esu.stack ≠ [])
include hpolicy hopen

theorem recover_of_idle (hidle : s.esu.engine.state = .idle) :
    s.recover = s.startRollback .recovery := by
  unfold State.recover
  rw [if_pos ⟨hpolicy, (depth_pos_iff s).mpr hopen⟩, if_neg (not_rollbackInProgress hidle)]

/-- A running rollback that a command started becomes a RECOVERY one (R116). -/
theorem recover_of_commanded (hbusy : s.esu.engine.state ≠ .idle) {k : RollbackKind}
    (hkind : s.esu.engine.kind = some k) (hk : k = .single ∨ k = .all) :
    s.recover = s.setEngine { s.esu.engine with kind := some .recovery } := by
  unfold State.recover
  rw [if_pos ⟨hpolicy, (depth_pos_iff s).mpr hopen⟩, if_pos ((rollbackInProgress_iff s).mpr hbusy),
    hkind]
  obtain rfl | rfl := hk
  · rfl
  · rfl

/-- A running rollback that the timer started goes on as it is (R116). -/
theorem recover_of_timed (hbusy : s.esu.engine.state ≠ .idle) {k : RollbackKind}
    (hkind : s.esu.engine.kind = some k) (hk : k = .supervision ∨ k = .recovery) :
    s.recover = s := by
  unfold State.recover
  rw [if_pos ⟨hpolicy, (depth_pos_iff s).mpr hopen⟩, if_pos ((rollbackInProgress_iff s).mpr hbusy),
    hkind]
  obtain rfl | rfl := hk
  · rfl
  · rfl

end

/-! Of the engine a host reset may end the wait of the first step; state and kind stay (R48, R92). -/

@[simp] theorem State.hostReset_engineState (s : State) :
    s.hostReset.esu.engine.state = s.esu.engine.state := by
  unfold State.hostReset; dsimp only; split <;> rfl

@[simp] theorem State.hostReset_kind (s : State) :
    s.hostReset.esu.engine.kind = s.esu.engine.kind := by
  unfold State.hostReset; dsimp only; split <;> rfl

/-- Settles O43: the link port's part, then Table 7.4 by the engine's state and its kind. -/
theorem hostResetRecovery : Obligations.HostResetRecovery := by
  intro s f below hs hoff hrun hpolicy hstack
  have hpolicy : s.hostReset.est.recovery = .rollbackAll := by simpa using hpolicy
  have hstack : s.hostReset.esu.stack = f :: below := by simpa using hstack
  have hopen : s.hostReset.esu.stack ≠ [] := hstack ▸ List.cons_ne_nil f below
  rw [exec_hostResetAssert hoff, if_neg (not_not_intro hrun), hostResetLink_eq hs]
  refine ⟨fun hidle => ?_, fun hbusy k hkind => ?_⟩
  · rw [recover_of_idle hpolicy hopen (by simpa using hidle)]
    refine ⟨fun hsound => ?_, fun hbroken => ?_⟩
    · rw [startRollback_of_sound ((topBroken_of_stack hstack).trans hsound)]
    · rw [startRollback_of_broken ((topBroken_of_stack hstack).trans hbroken)]
  · have hbusy : s.hostReset.esu.engine.state ≠ .idle := by simpa using hbusy
    have hkind : s.hostReset.esu.engine.kind = some k := by simpa using hkind
    exact ⟨fun hk => congrArg _ (recover_of_commanded hpolicy hopen hbusy hkind hk),
      fun hk => congrArg _ (recover_of_timed hpolicy hopen hbusy hkind hk)⟩

end Sys2Proof.Machine
end

section
/-! The supervision timer as time passes: what it counts, and what its expiry does (R103, R104, R109 to
R111). -/
namespace Sys2Proof.Machine

/-! ### Time -/

/-- The four conditions of R103, in the words of the claims. -/
theorem counting_iff (s : State) :
    s.counting = true ↔ s.est.running = true ∧ s.esu.stack ≠ [] ∧ s.esu.engine.state = .idle ∧
      s.est.halted = false := by
  simp only [State.counting, Bool.and_eq_true, decide_eq_true_eq, depth_pos_iff,
    Bool.not_eq_true', State.rollbackInProgress, bne_eq_false_iff_eq, and_assoc]

theorem advance_of_counting {s : State} (h : s.counting = true) (d : Nat) :
    s.advance d =
      { s with now := s.now + d, est := { s.est with remainingNs := s.est.remainingNs - d } } := by
  unfold State.advance
  rw [if_pos h]

theorem advance_of_not_counting {s : State} (h : s.counting = false) (d : Nat) :
    s.advance d = { s with now := s.now + d } := by
  unfold State.advance
  rw [if_neg (by simp [h])]

/-- Settles O7: the clock moves on by what is missing to the instant, if anything is. -/
theorem timePassing : Obligations.TimePassing := by
  intro s till
  have clock : s.now + (till - s.now) = max s.now till := add_tsub_eq_max
  refine ⟨counting_iff s, fun hc => ?_, fun hc => ?_⟩
  · rw [State.advanceTo, advance_of_counting hc, clock]
  · rw [State.advanceTo, advance_of_not_counting hc, clock]

/-! ### The expiry -/

/-- The remaining time has passed, and SUPERVISION is raised (R103, R109). -/
def State.expired (s : State) : State :=
  { s with
    now := s.now + s.est.remainingNs
    est := { s.est with remainingNs := 0 }
    evu := { s.evu with flags := s.evu.flags ||| Flag.supervision.set } }

theorem expired_eq {s : State} (h : s.counting = true) :
    (s.advance s.est.remainingNs).raise .supervision = s.expired := by
  rw [advance_of_counting h, Nat.sub_self]
  rfl

section
variable {s : State} (hc : s.counting = true)
include hc

theorem exec_supervisionExpiry_of_notify (hmode : s.est.mode = .notify) :
    exec .supervisionExpiry s = .next s.expired.reload := by
  simp only [exec, execSupervisionExpiry, if_pos hc, expired_eq hc, hmode]

theorem exec_supervisionExpiry_of_rollsBack (hmode : s.est.mode.rollsBack = true) :
    exec .supervisionExpiry s = .next s.expired.expiryRollback := by
  simp only [exec, execSupervisionExpiry, if_pos hc, expired_eq hc]
  cases hm : s.est.mode with
  | off | notify =>
    rw [hm] at hmode
    cases hmode
  | rollback | rollbackReset => rfl

end

/-- Under a broken top nothing can be rolled back: the timer halts (R110). -/
theorem expiryRollback_of_broken {s : State} (h : s.topBroken = true) :
    s.expiryRollback =
      { s with
        est := { s.est with halted := true }
        esu := { s.esu with lastOutcome := .haltedBroken } } := by
  unfold State.expiryRollback
  rw [if_pos h]
  rfl

/-- Under a sound top a SUPERVISION rollback starts; ROLLBACK_RESET drives HRSTO_N while it lasts
(R110, R111). -/
theorem expiryRollback_of_sound {s : State} (h : s.topBroken = false) :
    s.expiryRollback =
      let v := s.rollbackStarted .supervision
      if v.esu.engine.state ≠ .idle ∧ s.est.mode = .rollbackReset then
        { v with est := { v.est with hrstoDriven := true } }
      else v := by
  unfold State.expiryRollback
  simp only [h, Bool.false_eq_true, if_false, startRollback_of_sound h, Bool.and_eq_true,
    rollbackInProgress_iff, beq_iff_eq]
  rfl

/-- Settles O40: the mode, then whether the top is broken. -/
theorem supervisionExpiryActsByMode : Obligations.SupervisionExpiryActsByMode := by
  intro s f below hc hstack u v
  have htop : s.expired.topBroken = f.broken := topBroken_of_stack hstack
  refine ⟨fun hmode => exec_supervisionExpiry_of_notify hc hmode, fun hmode hbroken => ?_,
    fun hmode hsound => ?_, fun hmode hsound => ?_⟩
  · have rolls : s.est.mode.rollsBack = true := by
      obtain hmode | hmode := hmode <;> rw [hmode] <;> rfl
    rw [exec_supervisionExpiry_of_rollsBack hc rolls, expiryRollback_of_broken (htop.trans hbroken)]
    rfl
  · have stays : ¬ (v.esu.engine.state ≠ .idle ∧ s.expired.est.mode = .rollbackReset) := by
      rintro ⟨-, hreset⟩
      cases hmode.symm.trans hreset
    rw [exec_supervisionExpiry_of_rollsBack hc (by rw [hmode]; rfl),
      expiryRollback_of_sound (htop.trans hsound)]
    exact congrArg _ (if_neg stays)
  · rw [exec_supervisionExpiry_of_rollsBack hc (by rw [hmode]; rfl),
      expiryRollback_of_sound (htop.trans hsound)]
    by_cases hended : v.esu.engine.state = .idle
    · rw [if_pos hended]
      exact congrArg _ (if_neg fun hdrives => hdrives.1 hended)
    · rw [if_neg hended]
      exact congrArg _ (if_pos ⟨hended, hmode⟩)

end Sys2Proof.Machine
end
section
/-! SUPERVISE_SET, SUPERVISE_START, SUPERVISE_STOP and KICK (R104 to R108). -/
namespace Sys2Proof.Machine

/-! ### A locked timer refuses (R106) -/

section
variable {s : State} (h : s.est.lock = true) (l : List Byte)
include h

theorem superviseSetAct_of_locked : superviseSetAct l s = (s, .refused .locked) := if_pos h

theorem superviseStartAct_of_locked : superviseStartAct l s = (s, .refused .locked) := if_pos h

theorem superviseStopAct_of_locked : superviseStopAct l s = (s, .refused .locked) := if_pos h

end

/-! ### SUPERVISE_SET -/

theorem supModeOf_code (mode : SupMode) : supModeOf mode.code = some mode := by
  cases mode <;> rfl

theorem supModeOf_of_large {m : Byte} (h : 3 < m.toNat) : supModeOf m = none := by
  unfold supModeOf
  split
  case h_5 => rfl
  all_goals omega

/-- SUPERVISE_SET's arguments carry this mode byte and this period (Table 11.1). -/
structure SupArgs (args : List Byte) (mode : Byte) (period : Nat) : Prop where
  mode : argByte args 0 = mode
  period : argField args 1 2 = period

theorem supArgs_of_bytes (m a b : Byte) : SupArgs [m, a, b] m (word2 a b) :=
  ⟨rfl, beNat_two a b⟩

theorem superviseSetAct_of_running {s : State} (hlock : s.est.lock = false)
    (hrun : s.est.running = true) (l : List Byte) : superviseSetAct l s = (s, .busy) := by
  simp [superviseSetAct, hlock, hrun]

section
variable {s : State} (hlock : s.est.lock = false) (hrun : s.est.running = false) {args : List Byte}
  {m : Byte} {period : Nat} (ha : SupArgs args m period)
include hlock hrun ha

theorem superviseSetAct_of_badArg (hbad : 3 < m.toNat ∨ period = 0) :
    superviseSetAct args s = (s, .refused .badArg) := by
  simp only [superviseSetAct, hlock, hrun, Bool.false_eq_true, if_false, ha.mode, ha.period]
  cases hmode : supModeOf m with
  | none => rfl
  | some mode =>
    have named : ¬ 3 < m.toNat := fun hlarge => by
      rw [supModeOf_of_large hlarge] at hmode
      cases hmode
    exact if_pos (hbad.resolve_left named)

theorem superviseSetAct_of_mode {mode : SupMode} (hmode : m = mode.code) (hperiod : period ≠ 0) :
    superviseSetAct args s =
      ({ s with est := { s.est with mode := mode, periodMs := period } }, .done []) := by
  simp only [superviseSetAct, hlock, hrun, Bool.false_eq_true, if_false, ha.mode, ha.period, hmode,
    supModeOf_code, if_neg hperiod]
  rfl

end

/-- Settles O38: lock, run state and arguments, in this order. -/
theorem superviseSetReplacesModeAndPeriod : Obligations.SuperviseSetReplacesModeAndPeriod := by
  intro s m a b hframe period answer
  have ha := supArgs_of_bytes m a b
  have taken {t : State} {r : Answer} (hact : superviseSetAct [m, a, b] s = (t, r)) :
      exec (.superviseSet b) s = .next (t.answered 0x40 [m, a, b] r) :=
    congrArg _ (takeAtLast_of_frame hframe rfl hact)
  refine ⟨fun hlock => taken (superviseSetAct_of_locked hlock _),
    fun hlock hrun => taken (superviseSetAct_of_running hlock hrun _), fun hlock hrun => ⟨?_, ?_⟩⟩
  · exact fun hbad => taken (superviseSetAct_of_badArg hlock hrun ha hbad)
  · exact fun mode hmode hperiod => taken (superviseSetAct_of_mode hlock hrun ha hmode hperiod)

/-! ### SUPERVISE_START, SUPERVISE_STOP and KICK -/

theorem superviseStartAct_of_off {s : State} (hlock : s.est.lock = false)
    (hoff : s.est.mode = .off) (l : List Byte) : superviseStartAct l s = (s, .refused .state) := by
  unfold superviseStartAct
  rw [if_neg (by simp [hlock]), if_pos hoff]

/-- The modes that lock the timer are those that roll back (R106). -/
theorem rollsBack_eq_decide (m : SupMode) :
    m.rollsBack = decide (m = .rollback ∨ m = .rollbackReset) := by
  cases m <;> rfl

theorem superviseStartAct_of_on {s : State} (hlock : s.est.lock = false)
    (hon : s.est.mode ≠ .off) (l : List Byte) :
    superviseStartAct l s =
      ({ s with est := { s.est with
          remainingNs := s.est.periodMs * 1000000
          running := true
          lock := decide (s.est.mode = .rollback ∨ s.est.mode = .rollbackReset) } }, .done []) := by
  unfold superviseStartAct
  rw [if_neg (by simp [hlock]), if_neg hon, rollsBack_eq_decide]
  rfl

theorem superviseStopAct_of_unlocked {s : State} (hlock : s.est.lock = false) (l : List Byte) :
    superviseStopAct l s = ({ s with est := { s.est with running := false } }, .done []) := by
  unfold superviseStopAct
  rw [if_neg (by simp [hlock])]
  rfl

/-- KICK is a progress event, whatever the state (R104, R108). -/
theorem kickAct_eq (s : State) (l : List Byte) :
    kickAct l s =
      ({ s with est := { s.est with
          remainingNs := s.est.periodMs * 1000000, halted := false } }, .done []) := rfl

/-- Settles O39: the lock, then for SUPERVISE_START the mode. -/
theorem superviseStartStopAndKick : Obligations.SuperviseStartStopAndKick := by
  intro s hframe reloaded
  have started {t : State} {r : Answer} (hact : superviseStartAct [] s = (t, r)) :
      exec .superviseStart s = .next (t.answered 0x41 [] r) :=
    congrArg _ (takeAtCode_of_frame hframe hact)
  have stopped {t : State} {r : Answer} (hact : superviseStopAct [] s = (t, r)) :
      exec .superviseStop s = .next (t.answered 0x42 [] r) :=
    congrArg _ (takeAtCode_of_frame hframe hact)
  exact ⟨fun hlock => ⟨started (superviseStartAct_of_locked hlock []),
      stopped (superviseStopAct_of_locked hlock [])⟩,
    fun hlock hoff => started (superviseStartAct_of_off hlock hoff []),
    fun hlock hon => started (superviseStartAct_of_on hlock hon []),
    fun hlock => stopped (superviseStopAct_of_unlocked hlock []),
    congrArg _ (takeAtCode_of_frame hframe (kickAct_eq s []))⟩

end Sys2Proof.Machine
end

section
/-! What a locked supervision timer keeps: mode, period, run state and lock (R102, R106, R163). -/
namespace Sys2Proof.Machine

/-- The timer's mode, period, run state and lock are the same. -/
structure SameSetting (s t : State) : Prop where
  mode : t.est.mode = s.est.mode
  period : t.est.periodMs = s.est.periodMs
  running : t.est.running = s.est.running
  lock : t.est.lock = s.est.lock

theorem SameSetting.of_eq {s t : State} (h : t.est = s.est) : SameSetting s t :=
  ⟨congrArg Est.mode h, congrArg Est.periodMs h, congrArg Est.running h, congrArg Est.lock h⟩

theorem SameSetting.refl (s : State) : SameSetting s s := .of_eq rfl

theorem SameSetting.trans {s t u : State} (h : SameSetting s t) (h' : SameSetting t u) :
    SameSetting s u :=
  ⟨h'.mode.trans h.mode, h'.period.trans h.period, h'.running.trans h.running,
    h'.lock.trans h.lock⟩

/-- Time that passes reaches none of the four. -/
theorem SameSetting.of_advance {s t : State} {d : Nat} (h : t.est = (s.advance d).est) :
    SameSetting s t :=
  .trans ⟨s.advance_mode d, s.advance_period d, s.advance_running d, s.advance_lock d⟩ (.of_eq h)

theorem SameEpoch.setting {s t : State} (h : SameEpoch s t) : SameSetting s t := by
  obtain ⟨n, hn⟩ := h.est
  constructor <;> rw [hn]

/-! ### The engine and the timer's own acts -/

theorem startRollback_setting (s : State) (k : RollbackKind) : SameSetting s (s.startRollback k) :=
  ⟨s.startRollback_mode k, s.startRollback_period k, s.startRollback_running k,
    s.startRollback_lock k⟩

theorem engineStep_setting (s : State) : SameSetting s s.engineStep :=
  ⟨s.engineStep_mode, s.engineStep_period, s.engineStep_running, s.engineStep_lock⟩

theorem engineComplete_setting (s : State) (l : List Byte) : SameSetting s (s.engineComplete l) :=
  ⟨s.engineComplete_mode l, s.engineComplete_period l, s.engineComplete_running l,
    s.engineComplete_lock l⟩

theorem recover_setting (s : State) : SameSetting s s.recover :=
  ⟨s.recover_mode, s.recover_period, s.recover_running, s.recover_lock⟩

theorem expiryRollback_setting (s : State) : SameSetting s s.expiryRollback :=
  ⟨s.expiryRollback_mode, s.expiryRollback_period, s.expiryRollback_running,
    s.expiryRollback_lock⟩

/-! ### The commands of the management link -/

theorem openAct_setting (l : List Byte) (s : State) : SameSetting s (openAct l s).1 := by
  unfold openAct
  split
  · exact .refl s
  · split
    · exact .refl s
    · split
      · exact .refl s
      · split
        · exact .refl s
        · dsimp only
          split <;> exact ⟨rfl, rfl, rfl, rfl⟩

theorem commitAct_setting (l : List Byte) (s : State) : SameSetting s (commitAct l s).1 := by
  unfold commitAct
  split
  · exact .refl s
  · split
    · exact .refl s
    all_goals exact ⟨rfl, rfl, rfl, rfl⟩

theorem rollbackActs_setting (l : List Byte) (s : State) :
    SameSetting s (rollbackAct l s).1 ∧ SameSetting s (rollbackAllAct l s).1 := by
  unfold rollbackAct rollbackAllAct
  split
  · exact ⟨.refl s, .refl s⟩
  · exact ⟨startRollback_setting s .single, startRollback_setting s .all⟩

/-- SET_POLICY may replace the recovery policy, which is none of the four (R114, R160). -/
theorem setPolicyAct_setting (l : List Byte) (s : State) : SameSetting s (setPolicyAct l s).1 := by
  obtain hsame | ⟨dc, ac, fm, pp, rp, hset⟩ := setPolicyAct_cases s l
  · rw [hsame]
    exact .refl s
  · have policies : SameSetting s (s.setPolicies dc ac fm pp rp) := ⟨rfl, rfl, rfl, rfl⟩
    rw [hset]
    exact policies.trans (.of_eq (by simp))

/-- Of the commands that reach the timer, those that set it are refused while it is locked (R105 to
R107). -/
theorem epochActs_setting {s : State} (hlock : s.est.lock = true) (l : List Byte) :
    ∀ a ∈ epochActs, SameSetting s (a l s).1 := by
  obtain ⟨hsingle, hall⟩ := rollbackActs_setting l s
  simp only [epochActs, List.forall_mem_cons]
  refine ⟨?_, setPolicyAct_setting l s, openAct_setting l s, commitAct_setting l s, hsingle, hall,
    ?_, ?_, ?_, ⟨rfl, rfl, rfl, rfl⟩, nofun⟩
  · rw [setLogAct_changes]
    exact .of_eq rfl
  · rw [superviseSetAct_of_locked hlock]
    exact .refl s
  · rw [superviseStartAct_of_locked hlock]
    exact .refl s
  · rw [superviseStopAct_of_locked hlock]
    exact .refl s

theorem command_setting {s : State} (hlock : s.est.lock = true) (i : Instr)
    (hi : isEvent i = false) : SameSetting s (after i s) := by
  obtain ⟨a, ha, l, m, hact⟩ := command_acted i hi s
  rw [hact]
  have acted : SameSetting s (a l s).1 :=
    (act_sameEpoch a ha).elim (epochActs_setting hlock l a) fun same => (same l s).setting
  exact acted.trans (.of_eq rfl)

/-! ### The events at which the request path, the engine or the timer act -/

theorem requestTake_setting (s : State) : SameSetting s (after .requestTake s) := by
  simp only [after, exec, execRequestTake]
  split
  · split
    · exact .of_eq (by simp)
    · exact .refl s
  · exact .refl s

theorem operationComplete_setting (s : State) : SameSetting s (after .operationComplete s) := by
  simp only [after, exec, execOperationComplete]
  split
  next c _ =>
    split
    next till _ =>
      have finished := (finishOp_sameEpoch s c.op till).setting
      split
      · exact finished.trans (.of_eq (by simp))
      · exact finished.trans (engineComplete_setting _ _)
    · exact .refl s
  · exact .refl s

theorem rollbackFirstStep_setting (s : State) : SameSetting s (after .rollbackFirstStep s) := by
  simp only [after, exec, execRollbackFirstStep]
  split
  · exact engineStep_setting s
  · exact .refl s

theorem hostResetAssert_setting (s : State) : SameSetting s (after .hostResetAssert s) := by
  simp only [after, exec, execHostResetAssert]
  split
  · exact .refl s
  · split
    · exact .of_eq rfl
    · exact .trans (.of_eq (by simp)) (recover_setting _)

/-- NOTIFY reloads the remaining time; the modes that roll back halt the timer or start the engine
(R109, R110). -/
theorem supervisionExpiry_setting (s : State) : SameSetting s (after .supervisionExpiry s) := by
  have expired : SameSetting s ((s.advance s.est.remainingNs).raise .supervision) :=
    .of_advance rfl
  simp only [after, exec, execSupervisionExpiry]
  split
  · split
    · exact expired
    · exact expired.trans ⟨rfl, rfl, rfl, rfl⟩
    all_goals exact expired.trans (expiryRollback_setting _)
  · exact .refl s

theorem epochEvent_setting (i : Instr) (hi : movesEpoch i = true) (s : State) :
    SameSetting s (after i s) := by
  cases i <;> simp only [movesEpoch, Bool.false_eq_true] at hi
  case requestTake => exact requestTake_setting s
  case operationComplete => exact operationComplete_setting s
  case rollbackFirstStep => exact rollbackFirstStep_setting s
  case hostResetAssert => exact hostResetAssert_setting s
  case supervisionExpiry => exact supervisionExpiry_setting s

/-! ### The other events -/

theorem carriesDeviceReset_iff (s : State) :
    s.carriesDeviceReset = true ↔ Resets s .frameEnd := by
  unfold State.carriesDeviceReset Resets
  cases s.mlp.frame with
  | none => simp
  | some f => simp [Option.isSome_iff_exists]

/-- A frame that carries no DEVICE_RESET leaves the timer at its end (R163). -/
theorem frameEnd_setting {s : State} (h : ¬ Resets s .frameEnd) :
    SameSetting s (after .frameEnd s) := by
  simp only [after, exec, execFrameEnd, if_neg (mt (carriesDeviceReset_iff s).mp h)]
  split <;> exact .of_eq rfl

/-- Any other event that does not reset the device lets time pass at most. -/
theorem quietEvent_setting {s : State} (i : Instr) (hi : isEvent i = true)
    (hm : movesEpoch i = false) (hr : ¬ Resets s i) : SameSetting s (after i s) := by
  cases i <;> simp only [isEvent, movesEpoch, Bool.false_eq_true, Bool.true_eq_false] at hi hm <;>
    clear hi hm
  case powerOn | drstNAssert => exact absurd trivial hr
  case frameEnd => exact frameEnd_setting hr
  case initRefreshExpiry => exact (initRefreshExpiry_sameEpoch s).setting
  case refreshTickExpiry => exact (refreshTickExpiry_sameEpoch s).setting
  case bankRefreshWaitExpiry => exact (bankRefreshWaitExpiry_sameEpoch s).setting
  case initWaitExpiry | closeAllWaitExpiry | openWaitExpiry | closeWaitExpiry | writeGuardExpiry
      | actWindowAgeOut =>
    simp only [after, exec, execInitWaitExpiry, execCloseAllWaitExpiry, execOpenWaitExpiry,
      execCloseWaitExpiry, execWriteGuardExpiry, execActWindowAgeOut]
    split
    · exact .of_advance rfl
    · exact .refl s
  all_goals
    simp only [after, exec, execRequestAccept, execOperationStart, execTransferStart,
      execHostResetRelease, execPowerOnResetEnd, execDrstNRelease, execBankActivation,
      execFrameBegin, execBankClose, execBankRefreshStart]
    repeat' split
    all_goals exact .of_eq rfl

/-- Settles O41: the commands are refused or leave the four alone, and so do the events. -/
theorem supervisionLockLasts : Obligations.SupervisionLockLasts := by
  intro i s t hlock hr ht
  rw [exec_next] at ht
  cases ht
  have same : SameSetting s (after i s) := by
    cases hi : isEvent i with
    | false => exact command_setting hlock i hi
    | true =>
      cases hm : movesEpoch i with
      | true => exact epochEvent_setting i hm s
      | false => exact quietEvent_setting i hi hm hr
  exact ⟨same.lock.trans hlock, same.mode, same.period, same.running⟩

end Sys2Proof.Machine
end

section
/-! What changes the bytes that the DRAM holds: the completion of a WRITE, and a device reset (R129, R134,
R163). -/
namespace Sys2Proof.Machine

/-! ### The completion of an operation -/

section
variable {op : MemOp} (s : State) (till : Nat)

@[simp] theorem State.transferred_current : (s.transferred op till).dsq.current = none := by
  unfold State.transferred; dsimp only; split <;> rfl

@[simp] theorem State.transferred_dramGeneration :
    (s.transferred op till).dramGeneration = s.dramGeneration := by
  unfold State.transferred; dsimp only; split <;> rfl

theorem State.transferred_dram_of_read (h : op.kind = .read) :
    (s.transferred op till).dram = s.dram := by
  unfold State.transferred; rw [h]; rfl

theorem State.transferred_dram_of_write (h : op.kind = .write) :
    (s.transferred op till).dram =
      Memory.writeMasked s.dram (op.line * 64 + op.startBeat * 8) op.mask op.data := by
  unfold State.transferred; rw [h]

end

/-- Whichever client it answers, a completion leaves no current operation, and the DRAM as the transfer
left it (R134). -/
theorem operationComplete_leaves {s t : State} {op : MemOp} {till : Nat} (h : Transferring s op till)
    (ht : exec .operationComplete s = .next t) :
    t.dsq.current = none ∧ t.dram = (s.transferred op till).dram ∧
      t.dramGeneration = s.dramGeneration := by
  cases hc : op.client with
  | rqp =>
    rw [exec_operationComplete_rqp h hc] at ht
    cases ht
    simp [(rqpComplete_sequencer _ _).current]
  | rollback =>
    rw [exec_operationComplete_engine h hc] at ht
    cases ht
    simp [(engineComplete_sequencer _ _).current]

/-- What an address reads as after a masked write: the byte of an enabled place within the data, else
what it read as before (R134). -/
theorem dramByte_of_writeMasked {s t : State} {first : Nat} {mask : List Bool} {data : List Byte}
    (hd : t.dram = s.dram.writeMasked first mask data) (hg : t.dramGeneration = s.dramGeneration)
    (a : Nat) :
    t.dramByte a =
      if first ≤ a ∧ mask[a - first]? = some true ∧ a - first < data.length then
        data.getD (a - first) 0
      else s.dramByte a := by
  have enabled : first ≤ a ∧ a - first < data.length ∧ mask.getD (a - first) false = true ↔
      first ≤ a ∧ mask[a - first]? = some true ∧ a - first < data.length := by
    rw [List.getD_eq_getElem?_getD, Option.getD_eq_iff]
    simp [and_comm]
  unfold State.dramByte
  rw [hd, hg, Memory.find_writeMasked]
  by_cases hin : first ≤ a ∧ mask[a - first]? = some true ∧ a - first < data.length
  · have ⟨_, _, hlt⟩ := hin
    rw [if_pos (enabled.mpr hin), if_pos hin, List.getD_eq_getElem?_getD, List.getElem?_eq_getElem hlt]
    rfl
  · rw [if_neg (mt enabled.mp hin), if_neg hin]

/-- Settles O20: by the kind of the operation, whichever client it answers. -/
theorem completionWritesEnabledBytes : Obligations.CompletionWritesEnabledBytes := by
  intro s op till h
  obtain ⟨hcurrent, hdram, hgeneration⟩ := operationComplete_leaves h (exec_next .operationComplete s)
  refine ⟨_, exec_next .operationComplete s, hcurrent, fun hk => ?_, fun hk a => ?_⟩
  · rw [hdram, s.transferred_dram_of_read till hk]
  · exact dramByte_of_writeMasked (hdram.trans (s.transferred_dram_of_write till hk)) hgeneration a

/-! ### What leaves the contents -/

/-- The DRAM holds the same: the bytes written since the last device reset, and the free values of the
others (log 5). -/
structure SameContents (s t : State) : Prop where
  dram : t.dram = s.dram
  generation : t.dramGeneration = s.dramGeneration

theorem SameContents.refl (s : State) : SameContents s s := ⟨rfl, rfl⟩

theorem SameContents.trans {s t u : State} (h : SameContents s t) (h' : SameContents t u) :
    SameContents s u :=
  ⟨h'.dram.trans h.dram, h'.generation.trans h.generation⟩

/-- For an act that a lemma rewrites to a state `u` which shows what it changes. -/
theorem SameContents.of_eq {s t u : State} (ht : t = u) (hd : u.dram = s.dram := by rfl)
    (hg : u.dramGeneration = s.dramGeneration := by rfl) : SameContents s t := by
  subst ht
  exact ⟨hd, hg⟩

theorem SameContents.dramByte {s t : State} (h : SameContents s t) (a : Nat) :
    t.dramByte a = s.dramByte a := by
  unfold State.dramByte
  rw [h.dram, h.generation]

theorem setPolicyAct_contents (l : List Byte) (s : State) : SameContents s (setPolicyAct l s).1 := by
  obtain h | ⟨dc, ac, fm, pp, rp, h⟩ := setPolicyAct_cases s l
  · exact .of_eq h
  · exact .of_eq h (by simp) (by simp)

theorem act_contents (l : List Byte) (s : State) : ∀ a ∈ allActs, SameContents s (a l s).1 := by
  simp only [allActs, List.forall_mem_cons]
  exact
    ⟨.of_eq (identAct_state s l), .of_eq (statusAct_state s l), .of_eq (geometryAct_changes s l),
      .of_eq (timingAct_changes s l), .of_eq (dramInitAct_changes s l),
      .of_eq (setLogAct_changes s l), setPolicyAct_contents l s, .of_eq (regionWriteAct_changes s l),
      .of_eq (regionReadAct_state s l), .of_eq (watchSetAct_changes s l),
      .of_eq (openAct_changes s l), .of_eq (commitAct_changes s l),
      ⟨rollbackAct_dram s l, rollbackAct_dramGeneration s l⟩,
      ⟨rollbackAllAct_dram s l, rollbackAllAct_dramGeneration s l⟩,
      .of_eq (frameReadAct_state s l), .of_eq (superviseSetAct_changes s l),
      .of_eq (superviseStartAct_changes s l), .of_eq (superviseStopAct_changes s l),
      .of_eq (kickAct_changes s l), .of_eq (faultPopAct_changes s l),
      .of_eq (eventsReadAct_state s l), .of_eq (eventsClearAct_changes s l),
      .of_eq (maskWriteAct_changes s l), .of_eq (deviceResetAct_state s l),
      .of_eq (unknownAct_state s l), nofun⟩

theorem command_contents (i : Instr) (hi : isEvent i = false) (s : State) :
    SameContents s (after i s) := by
  obtain ⟨a, ha, l, m, hact⟩ := command_acted i hi s
  rw [hact]
  exact (act_contents l s a ha).trans (.of_eq rfl)

/-- A completion that finds a READ, or finds no transfer at all, writes nothing. -/
theorem operationComplete_contents {s : State}
    (hread : ∀ op till, Transferring s op till → op.kind = .read) :
    SameContents s (after .operationComplete s) := by
  by_cases h : ∃ op till, Transferring s op till
  · obtain ⟨op, till, h⟩ := h
    obtain ⟨-, hdram, hgeneration⟩ := operationComplete_leaves h (exec_next .operationComplete s)
    exact ⟨hdram.trans (s.transferred_dram_of_read till (hread op till h)), hgeneration⟩
  · have idle : after .operationComplete s = s := by
      simp only [after, exec, execOperationComplete]
      split
      next c hc =>
        split
        next till ht => exact absurd ⟨c.op, till, ⟨by rw [hc, ← ht]⟩⟩ h
        · rfl
      · rfl
    rw [idle]
    exact .refl s

/-- The request path, the engine and the timer act on the DRAM through operations alone. -/
theorem epochEvent_contents (i : Instr) (hi : movesEpoch i = true) (hc : i ≠ .operationComplete)
    (s : State) : SameContents s (after i s) := by
  refine ⟨epochEvent_dram i hi hc s, ?_⟩
  cases i <;> simp only [movesEpoch, Bool.false_eq_true] at hi
  case operationComplete => exact absurd rfl hc
  all_goals
    simp only [after, exec, execRequestTake, execRollbackFirstStep, execHostResetAssert,
      execSupervisionExpiry]
    repeat' split
    all_goals simp

/-- A frame that carries no DEVICE_RESET leaves the DRAM at its end (R163). -/
theorem frameEnd_contents {s : State} (h : ¬ Resets s .frameEnd) :
    SameContents s (after .frameEnd s) := by
  simp only [after, exec, execFrameEnd, if_neg (mt (carriesDeviceReset_iff s).mp h)]
  split <;> exact .of_eq rfl

/-- The events of the link port, of the pins and of the sequencer's set-up, banks and refresh reach no
byte. -/
theorem quietEvent_contents {s : State} (i : Instr) (hi : isEvent i = true)
    (hm : movesEpoch i = false) (hr : ¬ Resets s i) : SameContents s (after i s) := by
  cases i <;> simp only [isEvent, movesEpoch, Bool.false_eq_true, Bool.true_eq_false] at hi hm <;>
    clear hi hm
  case powerOn | drstNAssert => exact absurd trivial hr
  case frameEnd => exact frameEnd_contents hr
  all_goals
    simp only [after, exec, execRequestAccept, execOperationStart, execTransferStart,
      execHostResetRelease, execPowerOnResetEnd, execDrstNRelease, execFrameBegin,
      execInitWaitExpiry, execCloseAllWaitExpiry, execInitRefreshExpiry, execBankActivation,
      execOpenWaitExpiry, execBankClose, execCloseWaitExpiry, execWriteGuardExpiry,
      execRefreshTickExpiry, execBankRefreshStart, execBankRefreshWaitExpiry,
      execActWindowAgeOut]
    repeat' split
    all_goals exact .of_eq rfl

/-- Settles O8: the commands of the management link, the events at which the request path, the engine or
the timer act, and the others. -/
theorem onlyWritesAndResetsChangeDram : Obligations.OnlyWritesAndResetsChangeDram := by
  intro i s t ht hr hread a
  rw [exec_next] at ht
  cases ht
  have same : SameContents s (after i s) := by
    cases hi : isEvent i with
    | false => exact command_contents i hi s
    | true =>
      cases hm : movesEpoch i with
      | false => exact quietEvent_contents i hi hm hr
      | true =>
        by_cases hc : i = .operationComplete
        · rw [hc]
          exact operationComplete_contents (hread hc)
        · exact epochEvent_contents i hm hc s
  exact same.dramByte a

end Sys2Proof.Machine
end

section
/-! GEOMETRY, TIMING and DRAM_INIT (R118, R120, R122). -/
namespace Sys2Proof.Machine

/-! ### GEOMETRY (R118) -/

theorem geometryAct_of_set {s : State} (h : s.dsq.geometry ≠ none) (l : List Byte) :
    geometryAct l s = (s, .refused .alreadySet) := by
  simp [geometryAct, Option.isSome_iff_ne_none, h]

section
variable {s : State} (h : s.dsq.geometry = none) {a b : Byte}
include h

theorem geometryAct_of_rows {g : Geometry} (hrows : geometryOf (word2 a b) = some g) :
    geometryAct [a, b] s = ({ s with dsq := { s.dsq with geometry := some g } }, .done []) := by
  simp only [geometryAct, h, beNat_two, hrows]
  rfl

theorem geometryAct_of_badRows (hrows : geometryOf (word2 a b) = none) :
    geometryAct [a, b] s = (s, .refused .badArg) := by
  simp only [geometryAct, h, beNat_two, hrows]
  rfl

end

theorem geometryOf_of_bad {rows : Nat} (h0 : rows ≠ 8192) (h1 : rows ≠ 16384) (h2 : rows ≠ 32768) :
    geometryOf rows = none := by
  simp [geometryOf, h0, h1, h2]

/-! ### TIMING (R120) -/

theorem timingOf_bytes (a b c d e f g h i j k l m n : Byte) :
    timingOf [a, b, c, d, e, f, g, h, i, j, k, l, m, n] =
      { openWait := word2 a b, closeWait := word2 c d, closeAllWait := word2 e f,
        writeGuard := word2 g h, bankRefreshWait := word2 i j, actWindow := word2 k l,
        refreshTick := word2 m n } := by
  simp only [← beNat_two]
  rfl

theorem inRange_iff (v lo hi : Nat) : inRange v lo hi = true ↔ lo ≤ v ∧ v ≤ hi := by
  simp [inRange]

/-- The ranges of Table 8.3, CLOSE_ALL_WAIT against the CLOSE_WAIT beside it (R120). -/
theorem TimingSet.legal_iff (t : TimingSet) :
    t.legal = true ↔
      (5 ≤ t.openWait ∧ t.openWait ≤ 100) ∧ (5 ≤ t.closeWait ∧ t.closeWait ≤ 100) ∧
      (t.closeWait ≤ t.closeAllWait ∧ t.closeAllWait ≤ 150) ∧
      (5 ≤ t.writeGuard ∧ t.writeGuard ≤ 100) ∧
      (30 ≤ t.bankRefreshWait ∧ t.bankRefreshWait ≤ 500) ∧
      (10 ≤ t.actWindow ∧ t.actWindow ≤ 200) ∧
      (500 ≤ t.refreshTick ∧ t.refreshTick ≤ 16000 ∧ t.refreshTick % 500 = 0) := by
  simp only [TimingSet.legal, Bool.and_eq_true, inRange_iff, beq_iff_eq, and_assoc]

section
variable {s : State} {l : List Byte}

theorem timingAct_of_begun (h : s.dsq.state ≠ .uninit) : timingAct l s = (s, .refused .state) :=
  if_pos h

variable (h : s.dsq.state = .uninit)
include h

theorem timingAct_of_illegal (hbad : ¬ (timingOf l).legal = true) :
    timingAct l s = (s, .refused .badArg) := by
  simp [timingAct, h, hbad]

theorem timingAct_of_legal (hgood : (timingOf l).legal = true) :
    timingAct l s = ({ s with dsq := { s.dsq with timing := timingOf l } }, .done []) := by
  simp [timingAct, h, hgood, State.setDsq]

end

/-! ### DRAM_INIT (R122) -/

section
variable {s : State} (l : List Byte)

theorem dramInitAct_of_begun (h : s.dsq.state ≠ .uninit) : dramInitAct l s = (s, .refused .state) :=
  if_pos h

theorem dramInitAct_of_noGeometry (h : s.dsq.state = .uninit) (hg : s.dsq.geometry = none) :
    dramInitAct l s = (s, .refused .notReady) := by
  simp [dramInitAct, h, hg]

theorem dramInitAct_of_geometry (h : s.dsq.state = .uninit) (hg : s.dsq.geometry ≠ none) :
    dramInitAct l s =
      ({ s with dsq := { s.dsq with state := .initWait (s.now + 200000) } }, .started) := by
  simp [dramInitAct, h, hg, State.setDsq, Config.initWaitNs]

end

/-- Settles O45: the three commands, each refusal by refusal. -/
theorem setUpCommands : Obligations.SetUpCommands := by
  refine ⟨?_, ?_, fun s hframe => ?_⟩
  · intro s a b hframe set
    have taken {t : State} {r : Answer} (hact : geometryAct [a, b] s = (t, r)) :
        exec (.geometry b) s = .next (t.answered 0x10 [a, b] r) :=
      congrArg _ (takeAtLast_of_frame hframe rfl hact)
    refine ⟨fun hset => taken (geometryAct_of_set hset _), fun hunset => ?_⟩
    have named {g : Geometry} (hrows : geometryOf (word2 a b) = some g) : set g :=
      taken (geometryAct_of_rows hunset hrows)
    exact ⟨fun hrows => named (congrArg geometryOf hrows),
      fun hrows => named (congrArg geometryOf hrows),
      fun hrows => named (congrArg geometryOf hrows),
      fun h0 h1 h2 => taken (geometryAct_of_badRows hunset (geometryOf_of_bad h0 h1 h2))⟩
  · intro s a b c d e f g h i j k l m n hframe args t legal
    have taken {u : State} {r : Answer} (hact : timingAct args s = (u, r)) :
        exec (.timing n) s = .next (u.answered 0x11 args r) :=
      congrArg _ (takeAtLast_of_frame hframe rfl hact)
    have carried : timingOf args = t := timingOf_bytes ..
    have hlegal : (timingOf args).legal = true ↔ legal := by
      rw [carried]
      exact t.legal_iff
    refine ⟨fun hbegun => taken (timingAct_of_begun hbegun),
      fun huninit hbad => taken (timingAct_of_illegal huninit (mt hlegal.mp hbad)),
      fun huninit hgood => taken ?_⟩
    rw [timingAct_of_legal huninit (hlegal.mpr hgood), carried]
  · have taken {t : State} {r : Answer} (hact : dramInitAct [] s = (t, r)) :
        exec .dramInit s = .next (t.answered 0x12 [] r) :=
      congrArg _ (takeAtCode_of_frame hframe hact)
    exact ⟨fun hbegun => taken (dramInitAct_of_begun [] hbegun),
      fun huninit hg => taken (dramInitAct_of_noGeometry [] huninit hg),
      fun huninit hg => taken (dramInitAct_of_geometry [] huninit hg)⟩

end Sys2Proof.Machine
end

section
/-! The initialization of the DRAM, from INIT_WAIT to READY (R123, R124, R130, R138). -/
namespace Sys2Proof.Machine

section
variable {s : State} {till : Nat}

/-- The close-all is issued when INIT_WAIT's first wait ends (R123). -/
theorem exec_initWaitExpiry (h : s.dsq.state = .initWait till) :
    exec .initWaitExpiry s = .next
      { s.advanceTo till with dsq := { s.dsq with
          state := .closeAllWait ((s.advanceTo till).now + s.dsq.timing.closeAllWait) } } := by
  simp only [exec, execInitWaitExpiry, h]
  rfl

/-- The refresh of bank 0 begins when the close-all wait ends (R123, R124). -/
theorem exec_closeAllWaitExpiry (h : s.dsq.state = .closeAllWait till) :
    exec .closeAllWaitExpiry s = .next (State.refreshBank
      { s.advanceTo till with dsq := { s.dsq with state := .initRefresh 0 } } 0) := by
  simp only [exec, execCloseAllWaitExpiry, h]
  rfl

/-- The bank under refresh returns to IDLE; the next one is refreshed, and bank 7 is the last (R124). -/
theorem exec_initRefreshExpiry {b : Fin 8} (h : s.dsq.state = .initRefresh b)
    (hb : (s.bank b).state = .refreshing till) :
    exec .initRefreshExpiry s = .next
      (let v := (s.advanceTo till).idleBank b
       if b = 7 then v.enterReady
       else
         State.refreshBank { v with dsq := { v.dsq with state := .initRefresh (b + 1) } } (b + 1)) := by
  simp only [exec, execInitRefreshExpiry, h, hb]
  rfl

end

/-- Settles O46: the three waits, and at the end of a refresh whether the bank is the last. -/
theorem initializationRunsToReady : Obligations.InitializationRunsToReady := by
  intro s till u refreshed
  refine ⟨exec_initWaitExpiry, exec_closeAllWaitExpiry, ?_⟩
  intro b hstate hbank v
  rw [exec_initRefreshExpiry hstate hbank]
  exact ⟨fun hmore => congrArg _ (if_neg hmore), fun hlast => congrArg _ (if_pos hlast)⟩

end Sys2Proof.Machine
end

section
/-! The arbiter, the start of a transfer, and the banks: activation, opening, closing and the write guard
(R119, R127 to R129, R132 to R135, R141, R143, R146). -/
namespace Sys2Proof.Machine

/-! ### The arbiter and the transfer -/

/-- The arbiter's choice in the words of the claims (R132, R143). -/
theorem startable_eq_nextStarted (s : State) : s.startable = s.nextStarted := by
  have free : (s.dsq.current.isNone && decide (s.dsq.owed < Config.owedLimit)) = true ↔
      s.dsq.current = none ∧ s.dsq.owed < 8 := by
    rw [Bool.and_eq_true, decide_eq_true_eq, Option.isNone_iff_eq_none]
    rfl
  unfold State.startable State.nextStarted
  by_cases h : s.dsq.current = none ∧ s.dsq.owed < 8
  · rw [if_pos (free.mpr h), if_pos h, State.arbiterPick]
    cases s.dsq.waitRqp with
    | none => cases s.dsq.waitRollback <;> rfl
    | some a =>
      cases s.dsq.waitRollback with
      | none => rfl
      | some b => cases s.dsq.turn <;> rfl
  · rw [if_neg (mt free.mp h), if_neg h]

section
variable {s : State} {op : MemOp} (hfree : s.dsq.current = none) (howed : s.dsq.owed < 8)
include hfree howed

theorem startable_of_rqp (hop : s.dsq.waitRqp = some op)
    (hturn : s.dsq.waitRollback = none ∨ s.dsq.turn = .rollback) : s.startable = some op := by
  rw [startable_eq_nextStarted, State.nextStarted, if_pos ⟨hfree, howed⟩, hop]
  obtain halone | hturn := hturn
  · rw [halone]
  · rw [hturn]
    cases s.dsq.waitRollback <;> rfl

theorem startable_of_rollback (hop : s.dsq.waitRollback = some op)
    (hturn : s.dsq.waitRqp = none ∨ s.dsq.turn = .rqp) : s.startable = some op := by
  rw [startable_eq_nextStarted, State.nextStarted, if_pos ⟨hfree, howed⟩, hop]
  obtain halone | hturn := hturn
  · rw [halone]
  · rw [hturn]
    cases s.dsq.waitRqp <;> rfl

end

/-- Settles O47: the operation started by its client, then the transfer. -/
theorem operationAndTransferStart : Obligations.OperationAndTransferStart := by
  refine fun s => ⟨fun hfree howed => ⟨fun op hop hclient hturn => ?_, fun op hop hclient hturn => ?_⟩,
    fun op hcurrent hopen => ?_⟩
  · simp only [exec, execOperationStart, startable_of_rqp hfree howed hop hturn, hclient]
    rfl
  · simp only [exec, execOperationStart, startable_of_rollback hfree howed hop hturn, hclient]
    rfl
  · have due : s.transferDue = true := by simp [State.transferDue, hcurrent, hopen]
    simp only [exec, execTransferStart, hcurrent, if_pos due]
    rfl

/-! ### Activation, opening and the activation history -/

theorem line_eq_place (line : Nat) :
    line = rowOfLine line * 256 + (bankOfLine line).val * 32 + columnOfLine line := by
  simp only [rowOfLine, bankOfLine, columnOfLine]
  omega

theorem activationDue_of_idle {s : State} {c : CurrentOp} (hc : s.dsq.current = some c)
    (hroom : s.dsq.history.length < 4) (hidle : (s.bank (bankOfLine c.op.line)).state = .idle) :
    s.activationDue = some (bankOfLine c.op.line, rowOfLine c.op.line) := by
  unfold State.activationDue
  rw [hc]
  exact if_pos ⟨hidle, hroom⟩

/-- Settles O48: the place of a line by its division, and each event by what it finds. -/
theorem banksActivateAndOpen : Obligations.BanksActivateAndOpen := by
  refine ⟨fun line => ⟨rfl, rfl, rfl, line_eq_place line⟩, fun s => ⟨?_, ?_, ?_⟩⟩
  · intro c hc hroom b hidle v
    simp only [exec, execBankActivation, activationDue_of_idle hc hroom hidle]
    rfl
  · intro b row till hopening
    simp only [exec, execOpenWaitExpiry, hopening]
    rfl
  · intro t more hhistory
    simp only [exec, execActWindowAgeOut, hhistory]
    rfl

/-! ### Closing -/

/-- The bank is held by the current operation (R126). -/
theorem held_iff (s : State) (b : Fin 8) :
    s.held b = true ↔ ∃ c, s.dsq.current = some c ∧ bankOfLine c.op.line = b := by
  unfold State.held
  cases s.dsq.current <;> simp

theorem rowConflict_iff (s : State) (b : Fin 8) (row : Nat) :
    s.rowConflict b row = true ↔
      ∃ c, (s.dsq.current = some c ∧ bankOfLine c.op.line = b) ∧ rowOfLine c.op.line ≠ row := by
  unfold State.rowConflict
  cases s.dsq.current <;> simp

theorem refreshCloseDue_iff (s : State) (b : Fin 8) :
    s.refreshCloseDue b = true ↔ (0 < s.dsq.owed ∧ s.dsq.pointer = b) ∧ s.held b = false := by
  simp [State.refreshCloseDue, State.refreshTarget]

/-- The three reasons for a close (R128). -/
def State.closeReason (s : State) (b : Fin 8) (row : Nat) : Bool :=
  s.rowConflict b row || s.closePageDue b || s.refreshCloseDue b

theorem closeReason_iff (s : State) (b : Fin 8) (row : Nat) :
    s.closeReason b row = true ↔
      (∃ c, (s.dsq.current = some c ∧ bankOfLine c.op.line = b) ∧ rowOfLine c.op.line ≠ row) ∨
      ((¬ ∃ c, s.dsq.current = some c ∧ bankOfLine c.op.line = b) ∧
        ((s.dsq.pagePolicy = .closePage ∧
            ¬ ∃ op, s.nextStarted = some op ∧ bankOfLine op.line = b) ∨
          (0 < s.dsq.owed ∧ s.dsq.pointer = b))) := by
  rw [← rowConflict_iff, ← held_iff, ← startable_eq_nextStarted, ← State.startsFor_iff]
  simp only [State.closeReason, Bool.or_eq_true, State.closePageDue_iff, refreshCloseDue_iff,
    Bool.not_eq_true]
  tauto

theorem closeDue_of_opened {s : State} {b : Fin 8} {row : Nat} (h : (s.bank b).state = .opened row) :
    s.closeDue b = ((s.bank b).guardTill.isNone && s.closeReason b row) := by
  unfold State.closeDue
  rw [h]
  rfl

/-- Settles O49: the reasons for a close as the model tests them, then the two expiries. -/
theorem banksClose : Obligations.BanksClose := by
  intro s b heldBy due
  refine ⟨fun row hopen hguard => ?_, fun till hclosing => ?_, fun till hguard => ?_⟩
  · have hdue : s.closeDue b = true ↔ due row := by
      rw [closeDue_of_opened hopen, hguard]
      exact closeReason_iff s b row
    exact ⟨fun h => congrArg _ (if_pos (hdue.mpr h)), fun h => congrArg _ (if_neg (mt hdue.mp h))⟩
  · simp only [exec, execCloseWaitExpiry, hclosing]
    rfl
  · simp only [exec, execWriteGuardExpiry, hguard]
    rfl

end Sys2Proof.Machine
end

section
/-! SET_POLICY (R121, R160): its refusals, its five fields and the closes that CLOSE_PAGE causes. -/
namespace Sys2Proof.Machine

/-! ### The closes of a list of banks -/

section
variable (s : State)

theorem bank_setBank_same (b : Fin 8) (x : Bank) : (s.setBank b x).bank b = x := by
  simp [State.bank, State.setBank, Vector.get_eq_getElem]

theorem bank_setBank_other {b c : Fin 8} (h : c ≠ b) (x : Bank) :
    (s.setBank c x).bank b = s.bank b := by
  simp only [State.bank, State.setBank, State.setDsq_dsq, Vector.get_eq_getElem]
  exact Vector.getElem_set_ne _ _ (Fin.val_ne_of_ne h)

/-- The page policy alone makes the bank begin its close (R121, R128). -/
def State.pageCloses (b : Fin 8) : Bool := s.closeDue b && s.closePageDue b

/-- The bank at the begin of its close (R128). -/
def State.closingBank (b : Fin 8) : Bank :=
  { s.bank b with state := .closing (s.now + s.dsq.timing.closeWait) }

/-- The bank after the closes that the page policy causes (R121). -/
def State.pageClosedBank (b : Fin 8) : Bank :=
  if s.pageCloses b then s.closingBank b else s.bank b

/-- The close of one bank, if the page policy causes it (R121). -/
def State.closePage (c : Fin 8) : State := if s.pageCloses c then s.beginClose c else s

theorem closePages_cons (c : Fin 8) (l : List (Fin 8)) :
    s.closePages (c :: l) = (s.closePage c).closePages l := rfl

theorem closePage_bank_same (b : Fin 8) : (s.closePage b).bank b = s.pageClosedBank b := by
  unfold State.closePage State.pageClosedBank
  split
  · exact bank_setBank_same s b _
  · rfl

theorem closePage_bank_other {b c : Fin 8} (h : c ≠ b) : (s.closePage c).bank b = s.bank b := by
  unfold State.closePage
  split
  · exact bank_setBank_other s h _
  · rfl

/-- A close changes nothing but the banks. -/
theorem closePage_changes (c : Fin 8) :
    s.closePage c = { s with dsq := { s.dsq with banks := (s.closePage c).dsq.banks } } := by
  unfold State.closePage
  split <;> rfl

/-- Whether and how a bank closes does not depend on the others. -/
theorem closePage_pageClosedBank {b c : Fin 8} (h : c ≠ b) :
    (s.closePage c).pageClosedBank b = s.pageClosedBank b := by
  have hbank := closePage_bank_other s h
  unfold State.pageClosedBank State.pageCloses State.closingBank State.closeDue
  rw [hbank, closePage_changes]
  rfl

theorem closePages_changes (l : List (Fin 8)) :
    s.closePages l = { s with dsq := { s.dsq with banks := (s.closePages l).dsq.banks } } := by
  induction l generalizing s with
  | nil => rfl
  | cons c l ih =>
    rw [closePages_cons, ih, closePage_changes]

/-- Of a list that names no bank twice each bank closes where the page policy asks for it, and no
other. -/
theorem closePages_bank {l : List (Fin 8)} (hl : l.Nodup) (b : Fin 8) :
    (s.closePages l).bank b = if b ∈ l then s.pageClosedBank b else s.bank b := by
  induction l generalizing s with
  | nil => rfl
  | cons c l ih =>
    obtain ⟨hc, hl⟩ := List.nodup_cons.mp hl
    rw [closePages_cons, ih _ hl]
    by_cases hbc : c = b
    · subst hbc
      rw [if_neg hc, if_pos List.mem_cons_self, closePage_bank_same]
    · rw [closePage_pageClosedBank s hbc, closePage_bank_other s hbc]
      simp [Ne.symm hbc]

theorem mem_allBanks (b : Fin 8) : b ∈ allBanks := by
  revert b
  decide

/-- The closes that CLOSE_PAGE causes, of all banks at once (R121). -/
theorem closePages_allBanks :
    s.closePages allBanks = { s with dsq := { s.dsq with banks := Vector.ofFn s.pageClosedBank } } := by
  have each (b : Fin 8) : (s.closePages allBanks).bank b = s.pageClosedBank b := by
    rw [closePages_bank s (by decide), if_pos (mem_allBanks b)]
  have banks : (s.closePages allBanks).dsq.banks = Vector.ofFn s.pageClosedBank := by
    ext1 i hi
    rw [Vector.getElem_ofFn]
    exact each ⟨i, hi⟩
  rw [closePages_changes, banks]

end

/-- The bank is OPEN (Table 8.6). -/
def Bank.isOpen (x : Bank) : Bool :=
  match x.state with
  | .opened _ => true
  | _ => false

/-- Where the page policy asks for it, a bank closes when it is OPEN with a clear guard: row conflict and
refresh play no part (R128). -/
theorem pageCloses_eq (s : State) (b : Fin 8) :
    s.pageCloses b = (s.closePageDue b && (s.bank b).guardTill.isNone && (s.bank b).isOpen) := by
  unfold State.pageCloses State.closeDue Bank.isOpen
  cases (s.bank b).state with
  | opened row => cases s.closePageDue b <;> simp
  | idle | opening | closing | refreshing => simp

/-! ### The five fields (Table 11.5) -/

/-- A field of two values, with the codes 0 and 1. -/
def twoValues {α : Type} (x y : α) (b : Byte) : Option α :=
  if 1 < b.toNat then none else some (if b = 0 then x else y)

/-- A field with a value names it with the code 0 or 1. -/
theorem named_of_eq_some {α : Type} {x y : α} {b : Byte} {o : Option α} {v : α}
    (ho : o = twoValues x y b) (hv : o = some v) : ¬ 1 < b.toNat := fun hbad => by
  rw [ho, twoValues, if_pos hbad] at hv
  cases hv

theorem match_eq_twoValues {α : Type} (x y : α) (b : Byte) :
    (match b.toNat with | 0 => some x | 1 => some y | _ => none) = twoValues x y b := by
  have hzero : b = 0 ↔ b.toNat = 0 := BitVec.toNat_inj.symm
  unfold twoValues
  simp only [hzero]
  split
  next hb => simp [hb]
  next hb => simp [hb]
  next h0 h1 =>
    have hb : b.toNat ≠ 0 ∧ b.toNat ≠ 1 := ⟨h0, h1⟩
    rw [if_pos (by omega)]

section
variable (b : Byte)

theorem defaultClassOf_eq : defaultClassOf b = twoValues .plain .deny b := match_eq_twoValues ..

theorem alignCheckOf_eq : alignCheckOf b = twoValues false true b := match_eq_twoValues ..

theorem filterModeOf_eq : filterModeOf b = twoValues .on .bypass b := match_eq_twoValues ..

theorem pagePolicyOf_eq : pagePolicyOf b = twoValues .openPage .closePage b := match_eq_twoValues ..

theorem recoveryPolicyOf_eq : recoveryPolicyOf b = twoValues .none .rollbackAll b :=
  match_eq_twoValues ..

end

theorem zero_or_one_of_named {b : Byte} (h : ¬ 1 < b.toNat) : b = 0 ∨ b = 1 := by
  have code : b.toNat = 0 ∨ b.toNat = 1 := by omega
  exact code.imp (fun hb => BitVec.eq_of_toNat_eq hb) fun hb => BitVec.eq_of_toNat_eq hb

/-! ### SET_POLICY, refusal by refusal -/

section
variable {s : State}

theorem setPolicyAct_of_rollback (he : s.esu.engine.state ≠ .idle) (l : List Byte) :
    setPolicyAct l s = (s, .busy) :=
  if_pos ((rollbackInProgress_iff s).mpr he)

variable (he : s.esu.engine.state = .idle)
include he

theorem setPolicyAct_of_open (hopen : s.esu.stack ≠ []) (l : List Byte) :
    setPolicyAct l s = (s, .refused .epochOpen) := by
  unfold setPolicyAct
  rw [if_neg (not_rollbackInProgress he), if_pos ((depth_pos_iff s).mpr hopen)]

variable (hclosed : s.esu.stack = []) {dc ac fm pp rp : Byte}
include hclosed

theorem setPolicyAct_of_badArg
    (hbad : 1 < dc.toNat ∨ 1 < ac.toNat ∨ 1 < fm.toNat ∨ 1 < pp.toNat ∨ 1 < rp.toNat) :
    setPolicyAct [dc, ac, fm, pp, rp] s = (s, .refused .badArg) := by
  unfold setPolicyAct
  rw [if_neg (not_rollbackInProgress he), if_neg (by simp [State.depth, hclosed])]
  split
  next hdc hac hfm hpp hrp =>
    have hdc := named_of_eq_some (defaultClassOf_eq dc) hdc
    have hac := named_of_eq_some (alignCheckOf_eq ac) hac
    have hfm := named_of_eq_some (filterModeOf_eq fm) hfm
    have hpp := named_of_eq_some (pagePolicyOf_eq pp) hpp
    have hrp := named_of_eq_some (recoveryPolicyOf_eq rp) hrp
    omega
  · rfl

theorem setPolicyAct_of_named
    (hgood : ¬ (1 < dc.toNat ∨ 1 < ac.toNat ∨ 1 < fm.toNat ∨ 1 < pp.toNat ∨ 1 < rp.toNat)) :
    setPolicyAct [dc, ac, fm, pp, rp] s =
      ((s.setPolicies (if dc = 0 then .plain else .deny) (if ac = 0 then false else true)
          (if fm = 0 then .on else .bypass) (if pp = 0 then .openPage else .closePage)
          (if rp = 0 then .none else .rollbackAll)).closePages allBanks, .done []) := by
  simp only [not_or] at hgood
  obtain ⟨hdc, hac, hfm, hpp, hrp⟩ := hgood
  unfold setPolicyAct
  rw [if_neg (not_rollbackInProgress he), if_neg (by simp [State.depth, hclosed])]
  simp only [argByte, List.getD_cons_zero, List.getD_cons_succ, defaultClassOf_eq, alignCheckOf_eq,
    filterModeOf_eq, pagePolicyOf_eq, recoveryPolicyOf_eq, twoValues, hdc, hac, hfm, hpp, hrp, if_false]

end

/-! ### The state that SET_POLICY leaves -/

/-- Which banks close once the policies are set, in the words of the claim (R121, log 31). -/
theorem setPolicies_pageCloses (s : State) (dc : DefaultClass) (ac : Bool) (fm : FilterMode)
    (pp : PagePolicy) (rp : RecoveryPolicy) (b : Fin 8) :
    (s.setPolicies dc ac fm pp rp).pageCloses b =
      (pp == .closePage && (s.bank b).guardTill.isNone && !s.held b &&
        !s.nextStarted.any (fun op => bankOfLine op.line == b) && (s.bank b).isOpen) := by
  have page : (s.setPolicies dc ac fm pp rp).closePageDue b =
      (pp == .closePage && !s.held b && !s.nextStarted.any (fun op => bankOfLine op.line == b)) := by
    rw [← startable_eq_nextStarted]
    rfl
  rw [pageCloses_eq, page, Bool.and_right_comm _ (!s.nextStarted.any _),
    Bool.and_right_comm _ (!s.held b)]
  rfl

/-- The closes of the new policy leave the other fields as the owners took them. -/
theorem setPolicies_closePages (s : State) (dc : DefaultClass) (ac : Bool) (fm : FilterMode)
    (pp : PagePolicy) (rp : RecoveryPolicy) :
    (s.setPolicies dc ac fm pp rp).closePages allBanks =
      { s with
        rmap := { s.rmap with defaultClass := dc, alignCheck := ac }
        fwf := { s.fwf with mode := fm }
        dsq := { s.dsq with
          pagePolicy := pp
          banks := Vector.ofFn (s.setPolicies dc ac fm pp rp).pageClosedBank }
        est := { s.est with recovery := rp } } := by
  rw [closePages_allBanks]
  rfl

/-- Settles O52: the refusals one by one; where none applies the five fields are named, and the banks
close by the page policy among them. -/
theorem setPolicyReplacesFields : Obligations.SetPolicyReplacesFields := by
  intro s dc ac fm pp rp hframe args answer badArg closes
  have taken {t : State} {r : Answer} (hact : setPolicyAct args s = (t, r)) :
      exec (.setPolicy rp) s = .next (t.answered 0x14 args r) :=
    congrArg _ (takeAtLast_of_frame hframe rfl hact)
  refine ⟨fun he => taken (setPolicyAct_of_rollback he args),
    fun he => ⟨fun hopen => taken (setPolicyAct_of_open he hopen args), fun hclosed => ⟨?_, ?_⟩⟩⟩
  · exact fun hbad => taken (setPolicyAct_of_badArg he hclosed hbad)
  · intro hgood
    refine taken ((setPolicyAct_of_named he hclosed hgood).trans ?_)
    simp only [badArg, not_or] at hgood
    obtain ⟨-, hac, -, hpp, -⟩ := hgood
    have align : (if ac = 0 then false else true) = (ac == 1) := by
      obtain rfl | rfl := zero_or_one_of_named hac <;> rfl
    have page : ((if pp = 0 then .openPage else .closePage) == PagePolicy.closePage) = (pp == 1) := by
      obtain rfl | rfl := zero_or_one_of_named hpp <;> rfl
    rw [setPolicies_closePages, align]
    unfold State.pageClosedBank
    simp only [setPolicies_pageCloses, page]
    rfl

end Sys2Proof.Machine
end

section
/-! Refresh in READY: the tick, the per-bank refresh of the target, and its end (R138 to R140). -/
namespace Sys2Proof.Machine

/-! ### The tick -/

/-- The interval that begins where the tick expires (R138). -/
def State.nextTick (s : State) (till : Nat) : State :=
  { s.advanceTo till with
    dsq := { s.dsq with tick := some ((s.advanceTo till).now + s.dsq.timing.refreshTick) } }

/-- The tick expires: one more refresh is owed, or REFRESH_OVERDUE is raised (R138, R139). -/
theorem exec_refreshTickExpiry {s : State} {till : Nat} (htick : s.dsq.tick = some till) :
    exec .refreshTickExpiry s = .next
      (let t := s.nextTick till
       if s.dsq.owed < 8 then { t with dsq := { t.dsq with owed := s.dsq.owed + 1 } }
       else t.raise .refreshOverdue) := by
  simp only [exec, execRefreshTickExpiry, htick]
  rfl

/-! ### The refresh of the target -/

/-- R140's conditions make the refresh of the target due. -/
theorem refreshDue_of_idle {s : State} (howed : 0 < s.dsq.owed) (hnone : s.dsq.refreshing = none)
    (hidle : (s.bank s.dsq.pointer).state = .idle)
    (hfree : ∀ c, s.dsq.current = some c → bankOfLine c.op.line ≠ s.dsq.pointer) :
    s.refreshDue = some s.dsq.pointer := by
  have unheld : s.held s.dsq.pointer = false := by
    rw [← Bool.not_eq_true, held_iff]
    exact fun ⟨c, hc, hbank⟩ => hfree c hc hbank
  have target : s.refreshTarget = some s.dsq.pointer := if_pos howed
  simp only [State.refreshDue, target]
  exact if_pos ⟨hnone, hidle, unheld⟩

/-- The refresh that is due begins: one less is owed, and the pointer moves on (R130, R140). -/
theorem exec_bankRefreshStart {s : State} {b : Fin 8} (hdue : s.refreshDue = some b) :
    exec .bankRefreshStart s = .next
      { s.refreshBank b with dsq := { (s.refreshBank b).dsq with
          owed := s.dsq.owed - 1, pointer := s.dsq.pointer + 1, refreshing := some b } } := by
  simp only [exec, execBankRefreshStart, hdue]
  rfl

/-- When BANK_REFRESH_WAIT ends the bank is IDLE and no bank is refreshing (R140). -/
theorem exec_bankRefreshWaitExpiry {s : State} {till : Nat} {b : Fin 8}
    (hb : s.dsq.refreshing = some b) (hstate : (s.bank b).state = .refreshing till) :
    exec .bankRefreshWaitExpiry s = .next
      (let v := (s.advanceTo till).idleBank b
       { v with dsq := { v.dsq with refreshing := none } }) := by
  simp only [exec, execBankRefreshWaitExpiry, hb, hstate]
  rfl

/-- Settles O50: the tick below and at the limit of the owed count, then a refresh's begin under R140's
conditions, and its end. -/
theorem refreshIsOwedAndPaid : Obligations.RefreshIsOwedAndPaid := by
  intro s till u
  refine ⟨fun htick => ?_, fun howed hnone hidle hfree => ?_, fun b hb hstate => ?_⟩
  · rw [exec_refreshTickExpiry htick]
    exact ⟨fun hbelow => congrArg _ (if_pos hbelow),
      fun hlimit => congrArg _ (if_neg (Nat.not_lt.mpr hlimit))⟩
  · exact exec_bankRefreshStart (refreshDue_of_idle howed hnone hidle hfree)
  · exact exec_bankRefreshWaitExpiry hb hstate

end Sys2Proof.Machine
end

section
/-! FAULT_POP, EVENTS_READ, EVENTS_CLEAR and MASK_WRITE, and the flags that drive INT_N (R150 to
R156). -/
namespace Sys2Proof.Machine

/-! ### The flags and their bits (Table 11.5) -/

theorem Flag.bit_lt (f : Flag) : f.bit < 11 := by
  cases f <;> decide

/-- Every place in a flag set is the bit of a flag. -/
theorem Flag.bit_ofNat : ∀ {i : Nat}, i < 11 → (Flag.ofNat i).bit = i := by
  decide

/-- A raised flag is pending, and the other flags are as they were (R151): the law of State.raise, for a
state that holds these flags. -/
theorem or_set_getLsbD (flags : BitVec 11) (f g : Flag) :
    (flags ||| f.set).getLsbD g.bit = (flags.getLsbD g.bit || decide (f = g)) :=
  State.isPending_raise (State.reset.setEvu { Evu.reset with flags := flags }) f g

/-- A flag set is not empty when some flag's bit is set. -/
theorem flags_ne_zero_iff (v : BitVec 11) : v ≠ 0 ↔ ∃ f : Flag, v.getLsbD f.bit = true := by
  constructor
  · intro hv
    by_contra hnone
    refine hv (BitVec.eq_of_getLsbD_eq fun i hi => ?_)
    have hclear : v.getLsbD (Flag.ofNat i).bit = false :=
      Bool.eq_false_iff.mpr fun hbit => hnone ⟨_, hbit⟩
    rw [Flag.bit_ofNat hi] at hclear
    exact hclear.trans BitVec.getLsbD_zero.symm
  · rintro ⟨f, hf⟩ rfl
    simp at hf

/-- INT_N is driven by a pending flag whose mask is not set (R156). -/
theorem intN_iff (s : State) :
    s.intN = true ↔ ∃ f : Flag, s.isPending f = true ∧ s.evu.masks.getLsbD f.bit = false := by
  unfold State.intN State.isPending
  rw [bne_iff_ne, flags_ne_zero_iff]
  simp [Flag.bit_lt]

/-- A flag in the low byte of a two-byte flag set has its bit there (R164). -/
theorem flagSetOf_word2_getLsbD (a b : Byte) {i : Nat} (hi : i < 8) :
    (flagSetOf (word2 a b)).getLsbD i = b.getLsbD i := by
  have low : (word2 a b).testBit i = b.toNat.testBit i := by
    rw [word2, Nat.mul_comm, show 256 = 2 ^ 8 from rfl, Nat.testBit_two_pow_mul_add _ b.isLt, if_pos hi]
  rw [flagSetOf, BitVec.getLsbD_ofNat, low, decide_eq_true (by omega : i < 11), Bool.true_and]
  rfl

/-! ### The layouts of the answers (Table 11.6) -/

theorem FaultRecord.bytes_eq (r : FaultRecord) :
    r.bytes = [r.fault.code, kindCode r.kind] ++ bytes4 r.addr.toNat ++ bytes1 r.beats ++
      [r.region.code] ++ bytes1 r.depth ++ bytes2 r.topSerial := by
  simp [FaultRecord.bytes, beBytes_four, beBytes_two, bytes1]

theorem Capture.bytes_eq (c : Capture) :
    c.bytes = bytes4 c.addr.toNat ++ [kindCode c.kind] ++ bytes1 c.beats ++ bytes1 c.depth := by
  simp [Capture.bytes, beBytes_four, bytes1]

/-! ### The commands at their taking -/

section
variable {s : State} (l : List Byte)

theorem faultPopAct_of_empty (h : s.evu.faults = []) : faultPopAct l s = (s, .done [0]) := by
  unfold faultPopAct
  rw [h]

theorem faultPopAct_of_record {r : FaultRecord} {rest : List FaultRecord}
    (h : s.evu.faults = r :: rest) :
    faultPopAct l s = ({ s with evu := { s.evu with faults := rest } }, .done (1 :: r.bytes)) := by
  unfold faultPopAct
  rw [h]
  rfl

theorem eventsReadAct_of_noCapture (h : s.evu.capture = none) :
    eventsReadAct l s = (s, .done (bytes2 s.evu.flags.toNat ++ bytes2 s.evu.masks.toNat ++
      [0, 0, 0, 0, 0, 0, 0, 0])) := by
  unfold eventsReadAct
  rw [h, beBytes_two, beBytes_two]
  rfl

theorem eventsReadAct_of_capture {c : Capture} (h : s.evu.capture = some c) :
    eventsReadAct l s = (s, .done (bytes2 s.evu.flags.toNat ++ bytes2 s.evu.masks.toNat ++
      1 :: c.bytes)) := by
  unfold eventsReadAct
  rw [h, beBytes_two, beBytes_two]

end

/-- The named flags are cleared, and with WATCH among them, bit 7 of the low byte, the capture is
emptied (R154, R155). -/
theorem eventsClearAct_bytes (s : State) (a b : Byte) :
    eventsClearAct [a, b] s =
      ({ s with evu := { s.evu with
          flags := s.evu.flags &&& ~~~ BitVec.ofNat 11 (word2 a b)
          capture := if b.getLsbD 7 then none else s.evu.capture } }, .done []) := by
  have watch : (flagSetOf (word2 a b)).getLsbD Flag.watch.bit = b.getLsbD 7 :=
    flagSetOf_word2_getLsbD a b (by decide)
  unfold eventsClearAct
  dsimp only
  rw [beNat_two, watch]
  rfl

theorem maskWriteAct_bytes (s : State) (a b : Byte) :
    maskWriteAct [a, b] s =
      ({ s with evu := { s.evu with masks := BitVec.ofNat 11 (word2 a b) } }, .done []) := by
  unfold maskWriteAct
  rw [beNat_two]
  rfl

/-- Settles O53: FAULT_POP by what the queue holds, EVENTS_READ by whether there is a capture, the two
commands that carry a flag set, then INT_N and a raise bit by bit. -/
theorem eventCommandsAndInterrupt : Obligations.EventCommandsAndInterrupt := by
  refine ⟨fun s hframe => ?_, fun s a b hframe => ?_, fun s a b hframe => ?_, intN_iff, or_set_getLsbD⟩
  · have popped {t : State} {x : Answer} (hact : faultPopAct [] s = (t, x)) :
        exec .faultPop s = .next (t.answered 0x50 [] x) :=
      congrArg _ (takeAtCode_of_frame hframe hact)
    have read {x : Answer} (hact : eventsReadAct [] s = (s, x)) :
        exec .eventsRead s = .next (s.answered 0x51 [] x) :=
      congrArg _ (takeAtCode_of_frame hframe hact)
    refine ⟨fun hempty => popped (faultPopAct_of_empty [] hempty), fun r rest hfaults => popped ?_,
      fun hnone => read (eventsReadAct_of_noCapture [] hnone), fun c hcapture => read ?_⟩
    · rw [faultPopAct_of_record [] hfaults, FaultRecord.bytes_eq]
      rfl
    · rw [eventsReadAct_of_capture [] hcapture, Capture.bytes_eq]
      simp only [List.append_assoc, List.cons_append, List.nil_append]
  · exact congrArg _ (takeAtLast_of_frame hframe rfl (eventsClearAct_bytes s a b))
  · exact congrArg _ (takeAtLast_of_frame hframe rfl (maskWriteAct_bytes s a b))

end Sys2Proof.Machine
end

section
/-! The bytes of a frame: what a byte does in an empty frame, in one that collects arguments and in one
that is taken; then IDENT, STATUS, unknown codes and DEVICE_RESET (R157 to R159, R161 to R163). -/
namespace Sys2Proof.Machine

/-! ### The command table (Table 11.1) -/

/-- A code outside the two lists of commands names no command (R158): all 256 codes are looked up. -/
theorem argBytes_of_unlisted : ∀ code : Byte, code ∉ commandsAtCode.map Prod.fst →
    code ∉ commandsAtLast.map Prod.fst → argBytes code = none := by
  decide

/-- A command without argument bytes is the taking of its code's act. -/
theorem commandAtCode_row {x : Byte × Instr} (hx : x ∈ commandsAtCode) :
    argBytes x.1 = some 0 ∧ ∀ s, exec x.2 s = .next (takeAtCode x.1 (actOf x.1) s) := by
  fin_cases hx <;> exact ⟨rfl, fun _ => rfl⟩

/-- A command with argument bytes is the taking of its code's act at the last of them. -/
theorem commandAtLast_row {x : Byte × Nat × (Byte → Instr)} (hx : x ∈ commandsAtLast) :
    argBytes x.1 = some x.2.1 ∧ 0 < x.2.1 ∧
      ∀ b s, exec (x.2.2 b) s = .next (takeAtLast x.1 x.2.1 b (actOf x.1) s) := by
  fin_cases hx <;> exact ⟨rfl, by decide, fun _ _ => rfl⟩

theorem exec_unknown_of_noCommand {code : Byte} (h : argBytes code = none) (s : State) :
    exec (.unknown code) s = .next (takeAtCode code unknownAct s) := by
  simp only [exec, execUnknown, h, Option.isNone_none, if_true]

/-! ### A taking in the frame that holds the bytes before it -/

section
variable {s : State}

theorem takeAtCode_eq_take (h : s.frameIs MgmtFrame.empty) (code : Byte) (act : Act) :
    takeAtCode code act s = take code [] act s :=
  takeAtCode_of_frame h rfl

theorem takeAtLast_eq_take {code : Byte} {args : List Byte} {n : Nat}
    (h : s.frameIs (.collecting code args)) (hn : args.length + 1 = n) (b : Byte) (act : Act) :
    takeAtLast code n b act s = take code (args ++ [b]) act s :=
  takeAtLast_of_frame h hn rfl

end

/-! ### A byte of a frame that is not taken yet -/

section
variable (s : State) {b code : Byte} {args : List Byte}

theorem byteIn_empty_of_command (h : argBytes b = some 0) :
    s.byteIn MgmtFrame.empty b = take b [] (actOf b) s := by
  simp only [State.byteIn, MgmtFrame.empty, h]

theorem byteIn_empty_of_noCommand (h : argBytes b = none) :
    s.byteIn MgmtFrame.empty b = take b [] unknownAct s := by
  simp only [State.byteIn, MgmtFrame.empty, h]

theorem byteIn_empty_of_arguments {n : Nat} (h : argBytes b = some n) (hn : 0 < n) :
    s.byteIn MgmtFrame.empty b =
      { s with mlp := { s.mlp with frame := some (.collecting b []), mdo := some 0 } } := by
  obtain ⟨m, rfl⟩ := Nat.exists_eq_add_one.mpr hn
  simp only [State.byteIn, MgmtFrame.empty, h]
  rfl

theorem byteIn_collecting_last (h : argBytes code = some (args.length + 1)) :
    s.byteIn (.collecting code args) b = take code (args ++ [b]) (actOf code) s := by
  simp only [State.byteIn, MgmtFrame.collecting, h, Option.getD_some, if_true]

theorem byteIn_collecting_more {n : Nat} (h : argBytes code = some n) (hn : args.length + 1 < n) :
    s.byteIn (.collecting code args) b =
      { s with mlp := { s.mlp with
          frame := some (.collecting code (args ++ [b])), mdo := some 0 } } := by
  simp only [State.byteIn, MgmtFrame.collecting, h, Option.getD_some, if_neg hn.ne]
  rfl

end

/-! ### FRAME_BEGIN, FRAME_END and BYTE_SHIFTED_IN -/

/-- MCS_N falls: a frame begins, but not during a device reset (R157, R163). -/
theorem exec_frameBegin_of_high {s : State} (h : s.pins.mcsLow = false) :
    exec .frameBegin s = .next
      { s with
        pins := { s.pins with mcsLow := true }
        mlp := { s.mlp with
          frame := if s.resetPhase = .running then some MgmtFrame.empty else none, mdo := none } } := by
  have hhigh : ¬ s.pins.mcsLow = true := by simp [h]
  simp only [exec, execFrameBegin, if_neg hhigh, inReset_iff, State.setPins_resetPhase]
  by_cases hrun : s.resetPhase = .running
  · rw [if_neg (not_not.mpr hrun), if_pos hrun]
    rfl
  · rw [if_pos hrun, if_neg hrun]
    rfl

section
variable {s : State} (hlow : s.pins.mcsLow = true)
include hlow

/-- MCS_N rises over a frame that carries no DEVICE_RESET: the frame becomes absent, and no more
(R157). -/
theorem exec_frameEnd_of_noReset (h : ¬ Resets s .frameEnd) :
    exec .frameEnd s = .next
      { s with
        pins := { s.pins with mcsLow := false }
        mlp := { s.mlp with frame := none, mdo := none } } := by
  simp only [exec, execFrameEnd, if_pos hlow, if_neg (mt (carriesDeviceReset_iff s).mp h)]
  rfl

theorem exec_byteShiftedIn_of_noFrame (h : s.mlp.frame = none) (b : Byte) :
    exec (.byteShiftedIn b) s = .next { s with mlp := { s.mlp with mdo := some 0 } } := by
  simp only [exec, execByteShiftedIn, if_pos hlow, h]
  rfl

theorem exec_byteShiftedIn_of_taken {f : MgmtFrame} {a : Answer} (hf : s.mlp.frame = some f)
    (ha : f.answer = some a) (b : Byte) : exec (.byteShiftedIn b) s = .next (s.shiftOut f a) := by
  simp only [exec, execByteShiftedIn, if_pos hlow, hf, ha]

theorem exec_byteShiftedIn_of_untaken {f : MgmtFrame} (hf : s.frameIs f) (ha : f.answer = none)
    (b : Byte) : exec (.byteShiftedIn b) s = .next (s.byteIn f b) := by
  have hframe : s.mlp.frame = some f := hf
  simp only [exec, execByteShiftedIn, if_pos hlow, hframe, ha]

/-! ### The byte that completes a command, and the command's own row (log 8) -/

theorem exec_byteShiftedIn_eq_commandAtCode (hf : s.frameIs MgmtFrame.empty) {x : Byte × Instr}
    (hx : x ∈ commandsAtCode) : exec (.byteShiftedIn x.1) s = exec x.2 s := by
  obtain ⟨hargs, hrow⟩ := commandAtCode_row hx
  rw [exec_byteShiftedIn_of_untaken hlow hf rfl, byteIn_empty_of_command s hargs, hrow,
    takeAtCode_eq_take hf]

theorem exec_byteShiftedIn_eq_unknown (hf : s.frameIs MgmtFrame.empty) {code : Byte}
    (h : argBytes code = none) : exec (.byteShiftedIn code) s = exec (.unknown code) s := by
  rw [exec_byteShiftedIn_of_untaken hlow hf rfl, byteIn_empty_of_noCommand s h,
    exec_unknown_of_noCommand h, takeAtCode_eq_take hf]

theorem exec_byteShiftedIn_eq_commandAtLast {x : Byte × Nat × (Byte → Instr)}
    (hx : x ∈ commandsAtLast) {args : List Byte} (hf : s.frameIs (.collecting x.1 args))
    (hn : args.length + 1 = x.2.1) (b : Byte) :
    exec (.byteShiftedIn b) s = exec (x.2.2 b) s := by
  obtain ⟨hargs, -, hrow⟩ := commandAtLast_row hx
  rw [exec_byteShiftedIn_of_untaken hlow hf rfl, byteIn_collecting_last s (hn ▸ hargs), hrow,
    takeAtLast_eq_take hf hn]

end

/-- Settles O55: the two ends of a frame, then a byte by the frame in progress: absent, taken, empty, or
collecting arguments. -/
theorem framesAndBytes : Obligations.FramesAndBytes := by
  intro s
  refine ⟨exec_frameBegin_of_high, fun hlow => ⟨exec_frameEnd_of_noReset hlow,
    exec_byteShiftedIn_of_noFrame hlow, fun f a hf ha b => ?_,
    fun hf => ⟨fun x => exec_byteShiftedIn_eq_commandAtCode hlow hf, fun code hnone => ?_,
      fun x hx => ?_⟩,
    fun x hx args b hf => ⟨fun hn => exec_byteShiftedIn_eq_commandAtLast hlow hx hf hn b,
      fun hn => ?_⟩⟩⟩
  · rw [exec_byteShiftedIn_of_taken hlow hf ha]
    cases a <;> rfl
  · exact exec_byteShiftedIn_eq_unknown hlow hf (Option.isNone_iff_eq_none.mp hnone)
  · obtain ⟨hargs, hpos, -⟩ := commandAtLast_row hx
    rw [exec_byteShiftedIn_of_untaken hlow hf rfl, byteIn_empty_of_arguments s hargs hpos]
  · obtain ⟨hargs, -, -⟩ := commandAtLast_row hx
    rw [exec_byteShiftedIn_of_untaken hlow hf rfl, byteIn_collecting_more s hargs hn]

/-! ### IDENT, STATUS, unknown codes and DEVICE_RESET -/

theorem flagByte_two (a b : Bool) : [flagByte [a, b]] = bytes1 (a.toNat + 2 * b.toNat) := rfl

theorem flagByte_three (a b c : Bool) :
    [flagByte [a, b, c]] = bytes1 (a.toNat + 2 * b.toNat + 4 * c.toNat) := by
  have hplaces : a.toNat + 2 * (b.toNat + 2 * (c.toNat + 2 * 0)) =
      a.toNat + 2 * b.toNat + 4 * c.toNat := by omega
  simp only [flagByte, List.foldr, hplaces, bytes1]

/-- STATUS' bytes as Table 11.6 lays them out; a page of the log holds 56 records (R67). -/
theorem statusBytes_eq (s : State) :
    s.statusBytes =
      [s.dsq.state.code] ++ bytes1 s.esu.stack.length ++ bytes4 s.ulc.head ++
        bytes4 (56 * s.ulc.pages) ++ bytes4 s.ulc.basePage ++ bytes2 s.ulc.pages ++
        [rollbackCode s.esu.engine.kind, s.esu.lastOutcome.code, s.est.mode.code] ++
        bytes1 (s.est.running.toNat + 2 * s.est.lock.toNat + 4 * s.est.halted.toNat) ++
        bytes1 (s.pins.hrstAsserted.toNat + 2 * s.est.hrstoDriven.toNat) ++
        bytes1 s.evu.faults.length ++ [s.mlp.lastCause.code] := by
  have hdepth : s.depth = s.esu.stack.length := rfl
  have hcapacity : s.logCapacity = 56 * s.ulc.pages := rfl
  rw [← flagByte_two, ← flagByte_three, State.statusBytes, hdepth, hcapacity]
  simp only [beBytes_four, beBytes_two, bytes1, List.append_assoc, List.cons_append, List.nil_append]

/-- Settles O54: each of the four is taken with the state that it found. -/
theorem answersWithoutEffect : Obligations.AnswersWithoutEffect := by
  intro s hframe
  have answers {i : Instr} {code : Byte} {act : Act} {a : Answer}
      (hrow : exec i s = .next (takeAtCode code act s)) (hact : act [] s = (s, a)) :
      exec i s = .next (s.answered code [] a) :=
    hrow.trans (congrArg _ (takeAtCode_of_frame hframe hact))
  refine ⟨answers (act := identAct) rfl rfl, answers (act := statusAct) rfl ?_,
    fun code hcode hlast => ?_, answers (act := deviceResetAct) rfl rfl⟩
  · rw [statusAct, statusBytes_eq]
  · exact answers (exec_unknown_of_noCommand (argBytes_of_unlisted code hcode hlast) s) rfl

end Sys2Proof.Machine
end

section
/-! The machine's step, what every command leaves of the queue of commands and the choice counter, and
the events whose condition does not hold (log 1, log 3, log 12). -/
namespace Sys2Proof.Machine

/-! ### One step -/

theorem step_of_front {s : State} {c : Instr} {rest : List Instr} (h : s.pending = c :: rest) :
    step s = exec c (s.setPending rest) := by
  unfold step
  rw [h]

theorem step_of_ownEvent {s : State} {c : Instr} (hempty : s.pending = [])
    (hevent : s.nextEvent = some c) : step s = exec c (s.setChoices (s.choices + 1)) := by
  unfold step
  rw [hempty, hevent]

theorem step_of_idle {s : State} (hempty : s.pending = []) (hnone : s.nextEvent = none) :
    step s = .next s := by
  unfold step
  rw [hempty, hnone]

/-- Settles O1: the queue's rest is all that the step changes before it runs the command. -/
theorem stepRunsFrontCommand : Obligations.StepRunsFrontCommand :=
  fun _ _ _ => step_of_front

/-- Settles O2: on an empty queue the step follows the part's own next event. -/
theorem emptyQueueStepRunsOwnEvent : Obligations.EmptyQueueStepRunsOwnEvent :=
  fun _ hempty => ⟨step_of_idle hempty, fun _ => step_of_ownEvent hempty⟩

/-! ### What no command touches -/

/-- The queue of commands and the choice counter are the same: what a step alone changes. -/
structure SameSchedule (s t : State) : Prop where
  pending : t.pending = s.pending
  choices : t.choices = s.choices

theorem SameSchedule.trans {s t u : State} (h : SameSchedule s t) (h' : SameSchedule t u) :
    SameSchedule s u :=
  ⟨h'.pending.trans h.pending, h'.choices.trans h.choices⟩

/-- For an act that a lemma rewrites to a state `u` which shows what it changes. -/
theorem SameSchedule.of_eq {s t u : State} (ht : t = u) (hp : u.pending = s.pending := by rfl)
    (hc : u.choices = s.choices := by rfl) : SameSchedule s t := by
  subst ht
  exact ⟨hp, hc⟩

theorem setPolicyAct_schedule (l : List Byte) (s : State) : SameSchedule s (setPolicyAct l s).1 := by
  obtain h | ⟨dc, ac, fm, pp, rp, h⟩ := setPolicyAct_cases s l
  · exact .of_eq h
  · exact .of_eq h (by simp) (by simp)

theorem act_schedule (l : List Byte) (s : State) : ∀ a ∈ allActs, SameSchedule s (a l s).1 := by
  simp only [allActs, List.forall_mem_cons]
  exact
    ⟨.of_eq (identAct_state s l), .of_eq (statusAct_state s l), .of_eq (geometryAct_changes s l),
      .of_eq (timingAct_changes s l), .of_eq (dramInitAct_changes s l),
      .of_eq (setLogAct_changes s l), setPolicyAct_schedule l s, .of_eq (regionWriteAct_changes s l),
      .of_eq (regionReadAct_state s l), .of_eq (watchSetAct_changes s l),
      .of_eq (openAct_changes s l), .of_eq (commitAct_changes s l),
      ⟨rollbackAct_pending s l, rollbackAct_choices s l⟩,
      ⟨rollbackAllAct_pending s l, rollbackAllAct_choices s l⟩,
      .of_eq (frameReadAct_state s l), .of_eq (superviseSetAct_changes s l),
      .of_eq (superviseStartAct_changes s l), .of_eq (superviseStopAct_changes s l),
      .of_eq (kickAct_changes s l), .of_eq (faultPopAct_changes s l),
      .of_eq (eventsReadAct_state s l), .of_eq (eventsClearAct_changes s l),
      .of_eq (maskWriteAct_changes s l), .of_eq (deviceResetAct_state s l),
      .of_eq (unknownAct_state s l), nofun⟩

theorem command_schedule (i : Instr) (hi : isEvent i = false) (s : State) :
    SameSchedule s (after i s) := by
  obtain ⟨a, ha, l, m, hact⟩ := command_acted i hi s
  rw [hact]
  exact (act_schedule l s a ha).trans (.of_eq rfl)

/-- The shared operations of the request path, the engine and the timer leave both fields. -/
theorem epochEvent_schedule (i : Instr) (hi : movesEpoch i = true) (s : State) :
    SameSchedule s (after i s) := by
  cases i <;> simp only [movesEpoch, Bool.false_eq_true] at hi
  all_goals
    simp only [after, exec, execRequestTake, execOperationComplete, execRollbackFirstStep,
      execHostResetAssert, execSupervisionExpiry]
    repeat' split
    all_goals exact ⟨by simp, by simp⟩

/-- A device reset keeps both fields, and so do the other events of the pins and of the sequencer. -/
theorem quietEvent_schedule (i : Instr) (hi : isEvent i = true) (hm : movesEpoch i = false)
    (s : State) : SameSchedule s (after i s) := by
  cases i <;> simp only [isEvent, movesEpoch, Bool.false_eq_true, Bool.true_eq_false] at hi hm <;>
    clear hi hm
  all_goals
    simp only [after, exec, execRequestAccept, execOperationStart, execTransferStart,
      execHostResetRelease, execPowerOn, execPowerOnResetEnd, execDrstNAssert, execDrstNRelease,
      execFrameBegin, execFrameEnd, execInitWaitExpiry, execCloseAllWaitExpiry,
      execInitRefreshExpiry, execBankActivation, execOpenWaitExpiry, execBankClose,
      execCloseWaitExpiry, execWriteGuardExpiry, execRefreshTickExpiry, execBankRefreshStart,
      execBankRefreshWaitExpiry, execActWindowAgeOut]
    repeat' split
    all_goals exact .of_eq rfl

/-- Settles O3: the commands of the management link, the events at which the request path, the engine or
the timer act, and the others. -/
theorem everyCommandAnswersNext : Obligations.EveryCommandAnswersNext := by
  intro i s
  have same : SameSchedule s (after i s) := by
    cases hi : isEvent i with
    | false => exact command_schedule i hi s
    | true =>
      cases hm : movesEpoch i with
      | true => exact epochEvent_schedule i hm s
      | false => exact quietEvent_schedule i hi hm s
  exact ⟨after i s, exec_next i s, same.pending, same.choices⟩

/-! ### Unmet conditions: the management link -/

section
variable {s : State}

theorem takeAtCode_of_otherFrame (h : ¬ s.frameIs MgmtFrame.empty) (code : Byte) (act : Act) :
    takeAtCode code act s = s :=
  if_neg h

theorem takeAtLast_of_otherFrame {code : Byte} {n : Nat}
    (h : ∀ args : List Byte, args.length + 1 = n → ¬ s.frameIs (MgmtFrame.collecting code args))
    (last : Byte) (act : Act) : takeAtLast code n last act s = s := by
  unfold takeAtLast
  split
  next f hf =>
    rw [if_neg]
    rintro ⟨hcollecting, hn⟩
    exact h f.args hn (hf.trans (congrArg some hcollecting))
  · rfl

/-- A code that names a command is not this event, in no frame (R158). -/
theorem exec_unknown_of_command {code : Byte} (h : (argBytes code).isSome = true) :
    exec (.unknown code) s = .next s := by
  obtain ⟨n, hn⟩ := Option.isSome_iff_exists.mp h
  simp only [exec, execUnknown, hn, Option.isNone_some, Bool.false_eq_true, if_false]

theorem exec_unknown_of_otherFrame (h : ¬ s.frameIs MgmtFrame.empty) (code : Byte) :
    exec (.unknown code) s = .next s := by
  simp only [exec, execUnknown, takeAtCode_of_otherFrame h, ite_self]

/-! ### Unmet conditions: the request path and the engine -/

theorem exec_requestAccept_of_illFormed {r : Request} (h : r.wellFormed = false) :
    exec (.requestAccept r) s = .next s := by
  have refused := mt (accepts_iff s r).mp fun ⟨hr, _⟩ => ne_true_of_eq_false h hr
  exact congrArg Host.Outcome.next (if_neg refused)

/-- When the oldest entry can be taken (R7). -/
theorem takeDue_iff (s : State) :
    s.takeDue = true ↔ (s.rqp.stage = .waiting ∧ s.rqp.current = none) ∧
      ∃ e rest, s.slp.queue = e :: rest ∧ e.mark = .waiting := by
  unfold State.takeDue
  cases s.slp.queue <;> simp

theorem exec_requestTake_of_notDue (h : s.takeDue = false) : exec .requestTake s = .next s :=
  congrArg Host.Outcome.next (if_neg (ne_true_of_eq_false h))

theorem takeDue_of_unmet
    (h : (∀ e rest, s.slp.queue = e :: rest → e.mark ≠ .waiting) ∨ s.rqp.stage ≠ .waiting ∨
      s.rqp.current ≠ none) : s.takeDue = false := by
  rw [← Bool.not_eq_true, takeDue_iff]
  rintro ⟨⟨hstage, hcurrent⟩, e, rest, hqueue, hmark⟩
  obtain hnone | hbusy | hheld := h
  · exact hnone e rest hqueue hmark
  · exact hbusy hstage
  · exact hheld hcurrent

/-- When the engine's first step is due (R92). -/
theorem firstStepDue_iff (s : State) :
    s.firstStepDue = true ↔ (s.esu.engine.state = .rbHeader ∧ s.esu.engine.record = none) ∧
      s.esu.engine.awaits = false := by
  simp [State.firstStepDue]

theorem exec_rollbackFirstStep_of_unmet
    (h : s.esu.engine.state ≠ .rbHeader ∨ s.esu.engine.record ≠ none ∨ s.esu.engine.awaits = true) :
    exec .rollbackFirstStep s = .next s := by
  refine congrArg Host.Outcome.next (if_neg ?_)
  rw [firstStepDue_iff]
  rintro ⟨⟨hstate, hrecord⟩, hawaits⟩
  obtain hother | hbegun | hwaits := h
  · exact hother hstate
  · exact hbegun hrecord
  · exact ne_true_of_eq_false hawaits hwaits

/-! ### Unmet conditions: the pins, the resets and the timer -/

theorem exec_hostResetAssert_of_asserted (h : s.pins.hrstAsserted = true) :
    exec .hostResetAssert s = .next s :=
  congrArg Host.Outcome.next (if_pos h)

theorem exec_hostResetRelease_of_released (h : s.pins.hrstAsserted = false) :
    exec .hostResetRelease s = .next s :=
  congrArg Host.Outcome.next (if_neg (ne_true_of_eq_false h))

theorem exec_powerOnResetEnd_of_otherPhase (h : s.resetPhase ≠ .powerOn) :
    exec .powerOnResetEnd s = .next s := by
  simp only [exec, execPowerOnResetEnd]
  split
  next hpower => exact absurd hpower h
  all_goals rfl

theorem exec_drstNAssert_of_asserted (h : s.pins.drstAsserted = true) :
    exec .drstNAssert s = .next s :=
  congrArg Host.Outcome.next (if_pos h)

theorem exec_drstNRelease_of_released (h : s.pins.drstAsserted = false) :
    exec .drstNRelease s = .next s :=
  congrArg Host.Outcome.next (if_neg (ne_true_of_eq_false h))

theorem exec_frameBegin_of_low (h : s.pins.mcsLow = true) : exec .frameBegin s = .next s :=
  congrArg Host.Outcome.next (if_pos h)

theorem exec_frameEnd_of_high (h : s.pins.mcsLow = false) : exec .frameEnd s = .next s :=
  congrArg Host.Outcome.next (if_neg (ne_true_of_eq_false h))

theorem exec_byteShiftedIn_of_high (h : s.pins.mcsLow = false) (b : Byte) :
    exec (.byteShiftedIn b) s = .next s :=
  congrArg Host.Outcome.next (if_neg (ne_true_of_eq_false h))

theorem exec_supervisionExpiry_of_notCounting (h : s.counting = false) :
    exec .supervisionExpiry s = .next s :=
  congrArg Host.Outcome.next (if_neg (ne_true_of_eq_false h))

/-! ### Unmet conditions: the arbiter and the transfer -/

theorem startable_of_unmet (h : s.dsq.current ≠ none ∨ 8 ≤ s.dsq.owed ∨
    (s.dsq.waitRqp = none ∧ s.dsq.waitRollback = none)) : s.startable = none := by
  rw [startable_eq_nextStarted, State.nextStarted]
  split
  next free =>
    obtain ⟨hfree, howed⟩ := free
    obtain hbusy | hlimit | ⟨hrqp, hrollback⟩ := h
    · exact absurd hfree hbusy
    · omega
    · rw [hrqp, hrollback]
  · rfl

theorem exec_operationStart_of_notStartable (h : s.startable = none) :
    exec .operationStart s = .next s := by
  simp only [exec, execOperationStart, h]

/-- When the transfer of the current operation is due (R134). -/
theorem transferDue_iff (s : State) :
    s.transferDue = true ↔ ∃ op, s.dsq.current = some { op := op, transfer := none } ∧
      (s.bank (bankOfLine op.line)).state = .opened (rowOfLine op.line) := by
  unfold State.transferDue
  cases s.dsq.current with
  | none => simp
  | some c =>
    obtain ⟨op, transfer⟩ := c
    cases transfer <;> simp

theorem exec_transferStart_of_notDue
    (h : ∀ op, s.dsq.current = some { op := op, transfer := none } →
      (s.bank (bankOfLine op.line)).state ≠ .opened (rowOfLine op.line)) :
    exec .transferStart s = .next s := by
  have notDue : ¬ s.transferDue = true := by
    rw [transferDue_iff]
    exact fun ⟨op, hcurrent, hopen⟩ => h op hcurrent hopen
  simp only [exec, execTransferStart, if_neg notDue]
  split <;> rfl

theorem exec_operationComplete_of_noTransfer (h : ∀ op till, ¬ Transferring s op till) :
    exec .operationComplete s = .next s := by
  simp only [exec, execOperationComplete]
  split
  next c hcurrent =>
    split
    next till htill => exact absurd ⟨by rw [hcurrent, ← htill]⟩ (h c.op till)
    · rfl
  · rfl

/-! ### Unmet conditions: the initialization -/

theorem exec_initWaitExpiry_of_otherState (h : ∀ till, s.dsq.state ≠ .initWait till) :
    exec .initWaitExpiry s = .next s := by
  refine congrArg Host.Outcome.next ?_
  split
  next till hstate => exact absurd hstate (h till)
  · rfl

theorem exec_closeAllWaitExpiry_of_otherState (h : ∀ till, s.dsq.state ≠ .closeAllWait till) :
    exec .closeAllWaitExpiry s = .next s := by
  refine congrArg Host.Outcome.next ?_
  split
  next till hstate => exact absurd hstate (h till)
  · rfl

theorem exec_initRefreshExpiry_of_unmet
    (h : ∀ b till, s.dsq.state = .initRefresh b → (s.bank b).state ≠ .refreshing till) :
    exec .initRefreshExpiry s = .next s := by
  simp only [exec, execInitRefreshExpiry]
  split
  next b hstate =>
    split
    next till hbank => exact absurd hbank (h b till hstate)
    · rfl
  · rfl

/-! ### Unmet conditions: the banks -/

theorem activationDue_of_unmet
    (h : ∀ c, s.dsq.current = some c → (s.bank (bankOfLine c.op.line)).state ≠ .idle ∨
      4 ≤ s.dsq.history.length) : s.activationDue = none := by
  unfold State.activationDue
  split
  next c hcurrent =>
    refine if_neg fun ⟨hidle, hroom⟩ => ?_
    obtain hother | hfull := h c hcurrent
    · exact hother hidle
    · exact absurd hroom (Nat.not_lt.mpr hfull)
  · rfl

theorem exec_bankActivation_of_notDue (h : s.activationDue = none) :
    exec .bankActivation s = .next s := by
  simp only [exec, execBankActivation, h]

theorem exec_openWaitExpiry_of_notOpening {b : Fin 8}
    (h : ∀ row till, (s.bank b).state ≠ .opening row till) :
    exec (.openWaitExpiry b) s = .next s := by
  refine congrArg Host.Outcome.next ?_
  split
  next row till hbank => exact absurd hbank (h row till)
  · rfl

/-- A bank that is not OPEN, or whose write guard is set, is not closed (R128, R129). -/
theorem closeDue_of_unmet {b : Fin 8}
    (h : (∀ row, (s.bank b).state ≠ .opened row) ∨ (s.bank b).guardTill ≠ none) :
    s.closeDue b = false := by
  by_cases hopen : ∃ row, (s.bank b).state = .opened row
  · obtain ⟨row, hrow⟩ := hopen
    have hguard : (s.bank b).guardTill ≠ none := h.resolve_left fun hclosed => hclosed row hrow
    rw [closeDue_of_opened hrow, Option.isNone_eq_false_iff.mpr (Option.isSome_iff_ne_none.mpr hguard),
      Bool.false_and]
  · unfold State.closeDue
    split
    next row hrow => exact absurd ⟨row, hrow⟩ hopen
    · rfl

theorem exec_bankClose_of_notDue {b : Fin 8} (h : s.closeDue b = false) :
    exec (.bankClose b) s = .next s :=
  congrArg Host.Outcome.next (if_neg (ne_true_of_eq_false h))

theorem exec_closeWaitExpiry_of_notClosing {b : Fin 8}
    (h : ∀ till, (s.bank b).state ≠ .closing till) : exec (.closeWaitExpiry b) s = .next s := by
  refine congrArg Host.Outcome.next ?_
  split
  next till hbank => exact absurd hbank (h till)
  · rfl

theorem exec_writeGuardExpiry_of_noGuard {b : Fin 8} (h : (s.bank b).guardTill = none) :
    exec (.writeGuardExpiry b) s = .next s := by
  simp only [exec, execWriteGuardExpiry, h]

/-! ### Unmet conditions: refresh and the activation window -/

theorem exec_refreshTickExpiry_of_noTick (h : s.dsq.tick = none) :
    exec .refreshTickExpiry s = .next s := by
  simp only [exec, execRefreshTickExpiry, h]

theorem refreshDue_of_unmet (h : s.dsq.owed = 0 ∨ s.dsq.refreshing ≠ none ∨
    (s.bank s.dsq.pointer).state ≠ .idle ∨ s.held s.dsq.pointer = true) : s.refreshDue = none := by
  by_cases howed : s.dsq.owed = 0
  · have target : s.refreshTarget = none := if_neg (by omega)
    simp only [State.refreshDue, target]
  · have target : s.refreshTarget = some s.dsq.pointer := if_pos (by omega)
    simp only [State.refreshDue, target]
    refine if_neg fun ⟨hnone, hidle, hfree⟩ => ?_
    obtain hbusy | hother | hheld := h.resolve_left howed
    · exact hbusy hnone
    · exact hother hidle
    · exact ne_true_of_eq_false hfree hheld

theorem exec_bankRefreshStart_of_notDue (h : s.refreshDue = none) :
    exec .bankRefreshStart s = .next s := by
  simp only [exec, execBankRefreshStart, h]

theorem exec_bankRefreshWaitExpiry_of_none (h : s.dsq.refreshing = none) :
    exec .bankRefreshWaitExpiry s = .next s := by
  simp only [exec, execBankRefreshWaitExpiry, h]

theorem exec_actWindowAgeOut_of_empty (h : s.dsq.history = []) :
    exec .actWindowAgeOut s = .next s := by
  simp only [exec, execActWindowAgeOut, h]

end

/-- Settles O6: clause by clause, the model's own condition for the event is not met. -/
theorem unmetEventChangesNothing : Obligations.UnmetEventChangesNothing := by
  intro s
  refine ⟨fun x hx hframe => ?_, fun code h => ?_, fun x hx last hframe => ?_,
    fun r => exec_requestAccept_of_illFormed,
    fun h => exec_requestTake_of_notDue (takeDue_of_unmet h),
    fun h => exec_operationStart_of_notStartable (startable_of_unmet h),
    exec_transferStart_of_notDue, exec_operationComplete_of_noTransfer,
    exec_rollbackFirstStep_of_unmet, exec_hostResetAssert_of_asserted,
    exec_hostResetRelease_of_released, exec_powerOnResetEnd_of_otherPhase,
    exec_drstNAssert_of_asserted, exec_drstNRelease_of_released, exec_frameBegin_of_low,
    fun hhigh => ⟨exec_frameEnd_of_high hhigh, exec_byteShiftedIn_of_high hhigh⟩,
    exec_supervisionExpiry_of_notCounting, exec_initWaitExpiry_of_otherState,
    exec_closeAllWaitExpiry_of_otherState, exec_initRefreshExpiry_of_unmet,
    fun h => exec_bankActivation_of_notDue (activationDue_of_unmet h),
    fun b => exec_openWaitExpiry_of_notOpening,
    fun b h => exec_bankClose_of_notDue (closeDue_of_unmet h),
    fun b => exec_closeWaitExpiry_of_notClosing, fun b => exec_writeGuardExpiry_of_noGuard,
    exec_refreshTickExpiry_of_noTick,
    fun h => exec_bankRefreshStart_of_notDue (refreshDue_of_unmet h),
    exec_bankRefreshWaitExpiry_of_none, exec_actWindowAgeOut_of_empty⟩
  · obtain ⟨-, hrow⟩ := commandAtCode_row hx
    rw [hrow, takeAtCode_of_otherFrame hframe]
  · exact h.elim exec_unknown_of_command fun hframe => exec_unknown_of_otherFrame hframe code
  · obtain ⟨-, -, hrow⟩ := commandAtLast_row hx
    rw [hrow, takeAtLast_of_otherFrame hframe]

end Sys2Proof.Machine
end
